-- ==== Sys2Proof/Word.lean ====
section
/-! DEFINITION. The words of the link and the pair of station copies. -/

namespace Sys2Proof

/-- One byte on the line. -/
abbrev Byte := BitVec 8

/-- The 32-bit cycle count (R141). -/
abbrev Cycle := BitVec 32

/-- The 16-bit cycle number that a frame carries (R160). -/
abbrev CycleNumber := BitVec 16

/-- A zone set is one byte; bit z is set when zone z is in the set (R158). -/
abbrev ZoneSet := BitVec 8

/-- The two stations; A comes first where an order is needed (00_scope.md, Conventions). -/
inductive StationId
  | a
  | b
  deriving DecidableEq, Repr

/-- The other station. -/
def StationId.other : StationId → StationId
  | .a => .b
  | .b => .a

/-- A thing the part has once for station A and once for station B. -/
structure Pair (α : Type) where
  a : α
  b : α
  deriving DecidableEq, Repr

/-- The copy of station `x`. -/
def Pair.get {α : Type} (p : Pair α) : StationId → α
  | .a => p.a
  | .b => p.b

/-- Replace the copy of station `x`. -/
def Pair.set {α : Type} (p : Pair α) (x : StationId) (v : α) : Pair α :=
  match x with
  | .a => { p with a := v }
  | .b => { p with b := v }

/-- Both copies alike. -/
def Pair.both {α : Type} (v : α) : Pair α := ⟨v, v⟩

end Sys2Proof
end

