-- ==== Sys2Proof/Syntax.lean ====
section
/-! DEFINITION. The commands of the block: one constructor per row of spec/opcode_table.json, with
the operands the event brings with it, and the samples those operands are made of. -/

namespace Sys2Proof

/-- The three stop inputs (R129). -/
inductive StopInput
  | stopA
  | stopB
  | stopAll
  deriving DecidableEq, Repr

/-- The levels of the stop inputs; `true` is asserted (R136). -/
structure StopLevels where
  a : Bool
  b : Bool
  all : Bool
  deriving DecidableEq, Repr

/-- The two link ports: U faces the link master, D the field devices. -/
inductive PortId
  | u
  | d
  deriving DecidableEq, Repr

/-- The four flags of a motion drive (R39). -/
structure AxisFlags where
  enabled : Bool
  homed : Bool
  inMotion : Bool
  driveFault : Bool
  deriving DecidableEq, Repr

/-- What a POSITION sample says (R29); the two kinds of MISSING differ only in the LPU's record. -/
inductive PositionBody
  | fresh (position : BitVec 32) (flags : AxisFlags)
  | missing
  deriving DecidableEq, Repr

/-- A POSITION sample as handed to a tracker, with its cycle (R29). -/
structure PositionSample where
  cycle : Cycle
  body : PositionBody
  deriving DecidableEq, Repr

/-- The two moments of a frame that a command of its own brings: its header has been received, or it has
come to its end (R143). -/
inductive FrameMoment
  | arrival (kind : Byte) (number : CycleNumber)
  | completion (frame : List Byte)
  deriving DecidableEq, Repr

/-- The frequency channels of an inverter. -/
inductive Channel
  | low
  | high
  deriving DecidableEq, Repr

/-- A channel that may be NONE: the active channel of a sample, the channel in force (R75). -/
inductive ChannelInForce
  | none
  | low
  | high
  deriving DecidableEq, Repr

/-- Inverter states of POWER_ACTUAL (R160). -/
inductive InverterState
  | off
  | ready
  | running
  | retuning
  | fault
  deriving DecidableEq, Repr

/-- What a POWER_ACTUAL sample says (R76). -/
inductive PowerBody
  | fresh (power : BitVec 16) (active : ChannelInForce) (inverter : InverterState)
  | missing
  deriving DecidableEq, Repr

/-- A POWER_ACTUAL sample with its cycle (R76). -/
structure PowerSample where
  cycle : Cycle
  body : PowerBody
  deriving DecidableEq, Repr

/-- What a TEMPERATURE sample says (R94). -/
inductive TemperatureBody
  | fresh (celsius : BitVec 16) (valid : Bool)
  | missing
  deriving DecidableEq, Repr

/-- A TEMPERATURE sample with its cycle (R76). -/
structure TemperatureSample where
  cycle : Cycle
  body : TemperatureBody
  deriving DecidableEq, Repr

/-- Manifold states of QUENCH_ACTUAL (R160). -/
inductive ManifoldState
  | ok
  | fault
  deriving DecidableEq, Repr

/-- What a QUENCH_ACTUAL sample says (R110). -/
inductive QuenchBody
  | fresh (zones : ZoneSet) (manifold : ManifoldState) (flow : BitVec 16)
  | missing
  deriving DecidableEq, Repr

/-- A QUENCH_ACTUAL sample with its cycle (R110). -/
structure QuenchSample where
  cycle : Cycle
  body : QuenchBody
  deriving DecidableEq, Repr

/-- The commands. Frames are the bytes that stood on the line, header to frame check. A command of a
CONTROL slot carries the station's part of the slot. A service request carries its tag and the bytes
that count of its payload. `progress` says how far a running long operation had written when it was
cut off (R25). -/
inductive Instr
  | powerOn (straps : BitVec 6) (stops : StopLevels) (progress : Nat)
  | resetN (straps : BitVec 6) (stops : StopLevels) (progress : Nat)
  | mainSupplyLoss (progress : Nat)
  | retentionLevelLoss
  | storeCheckCompletion
  | stopLine (x : StationId)
  | stopAllAssertion
  | stopRelease (input : StopInput)
  | cycleArrival (count : Byte) (number : CycleNumber)
  | cycleCompletion (frame : List Byte)
  | linkUp (frame : List Byte)
  | frameCheck (port : PortId) (frame : List Byte)
  | linkReset (frame : List Byte)
  | frameForwardUnchanged (port : PortId) (moment : FrameMoment)
  | returnArrival (number : CycleNumber)
  | returnCompletion (frame : List Byte)
  | earlyReturn (number : CycleNumber)
  | strayReturn (moment : FrameMoment)
  | returnTimeout
  | supervisionExpiry
  | linkLost
  | positionStale (x : StationId) (sample : PositionSample)
  | followSettleExpiry (x : StationId)
  | start (x : StationId) (nibble : BitVec 4) (profile : Byte) (adjust : BitVec 16)
  | hold (x : StationId) (nibble : BitVec 4)
  | resume (x : StationId) (nibble : BitVec 4)
  | abort (x : StationId) (nibble : BitVec 4)
  | clear (x : StationId) (nibble : BitVec 4)
  | commandNone (x : StationId) (nibble : BitVec 4)
  | commandUnknownCode (x : StationId) (code : BitVec 4) (nibble : BitVec 4)
  | armCheckPass (x : StationId) (sample : PositionSample)
  | armFailed (x : StationId)
  | segmentEntry (x : StationId) (sample : PositionSample)
  | tailEntry (x : StationId) (sample : PositionSample)
  | dwellTimerStart (x : StationId) (sample : PositionSample)
  | dwellTimerExpiry (x : StationId)
  | holdExpired (x : StationId)
  | tailTimerExpiry (x : StationId)
  | retuneDrainEnd (x : StationId) (sample : PowerSample)
  | retuneRestore (x : StationId) (sample : PowerSample)
  | retuneTimeout (x : StationId)
  | powerDeviation (x : StationId) (sample : PowerSample)
  | quenchIssue (x : StationId) (sample : PositionSample)
  | supplyGrant (x : StationId)
  | quenchWaitExpiry (x : StationId)
  | valveCheckPass (x : StationId) (sample : QuenchSample)
  | valveMismatch (x : StationId)
  | flowLow (x : StationId) (sample : QuenchSample)
  | programStepExpiry (x : StationId)
  | commitCompletion (verified : Bool)
  | eraseCompletion (verified : Bool)
  | protectCompletion (verified : Bool)
  | storeClearCompletion (verified : BitVec 16)
  | ident (tag : Byte) (payload : List Byte)
  | paramRead (tag : Byte) (payload : List Byte)
  | paramWrite (tag : Byte) (payload : List Byte)
  | mapRead (tag : Byte) (payload : List Byte)
  | mapWrite (tag : Byte) (payload : List Byte)
  | programRead (tag : Byte) (payload : List Byte)
  | programWrite (tag : Byte) (payload : List Byte)
  | profileOpen (tag : Byte) (payload : List Byte)
  | headerWrite (tag : Byte) (payload : List Byte)
  | segmentWrite (tag : Byte) (payload : List Byte)
  | segmentTruncate (tag : Byte) (payload : List Byte)
  | profileCancel (tag : Byte) (payload : List Byte)
  | profileCommit (tag : Byte) (payload : List Byte)
  | profileErase (tag : Byte) (payload : List Byte)
  | profileProtect (tag : Byte) (payload : List Byte)
  | storeClear (tag : Byte) (payload : List Byte)
  | dirRead (tag : Byte) (payload : List Byte)
  | headerRead (tag : Byte) (payload : List Byte)
  | segmentRead (tag : Byte) (payload : List Byte)
  | opQuery (tag : Byte) (payload : List Byte)
  | condRead (tag : Byte) (payload : List Byte)
  | condTake (tag : Byte) (payload : List Byte)
  | condClear (tag : Byte) (payload : List Byte)
  | firstRead (tag : Byte) (payload : List Byte)
  | firstRelease (tag : Byte) (payload : List Byte)
  | severityRead (tag : Byte) (payload : List Byte)
  | severityWrite (tag : Byte) (payload : List Byte)
  | resultRead (tag : Byte) (payload : List Byte)
  | resultSegmentRead (tag : Byte) (payload : List Byte)
  | retainedRead (tag : Byte) (payload : List Byte)
  | sampleRead (tag : Byte) (payload : List Byte)
  | unknownRequest (tag : Byte) (code : Byte) (payload : List Byte)
  | linkResetArrival (kind : Byte)
  deriving DecidableEq, Repr

end Sys2Proof
end

