-- ==== Sys2Proof/Decode.lean ====
section
/-! DEFINITION. The command that a word of the opcode table spells: no row of the table gives bits, so no
word spells a command (assumption 4). -/

namespace Sys2Proof

/-- The command that `w` spells: none, since no row gives bits (assumption 4). -/
def decodeTableWord (nbits w : Nat) : Option Instr :=
  let _ := nbits
  let _ := w
  none

end Sys2Proof
end

