-- ==== Sys2Proof/Machine/Types.lean ====
section
/-! DEFINITION. The data the units of the part hold: named values, records and tables, each with the
rule that gives it. -/

namespace Sys2Proof.Machine

/-! ## Named values -/

/-- Severities in ascending order (00_scope.md, Severity). -/
inductive Severity
  | note
  | degrade
  | abort
  | haltAll
  deriving DecidableEq, Repr

/-- The 28 conditions of R162. -/
inductive Cond
  | frameCheck
  | cycleMissed
  | cycleGap
  | returnTimeout
  | strayReturn
  | linkLost
  | slotMissing
  | positionStale
  | positionJump
  | reversal
  | axisFault
  | following
  | powerDeviation
  | inverterFault
  | retuneTimeout
  | energyLow
  | energyHigh
  | temperatureWindow
  | quenchQueueFull
  | quenchLate
  | valveMismatch
  | flowLow
  | armFailed
  | holdExpired
  | stopLine
  | scanInterrupted
  | storeFault
  | retentionLost
  deriving DecidableEq, Repr

/-- Scope copies of a condition: a station, or the part as a whole (R163). -/
inductive Scope
  | station (x : StationId)
  | part
  deriving DecidableEq, Repr

/-- What halted a scan (R46, R172). -/
inductive Cause
  | cond (c : Cond)
  | abortCommand
  | linkReset
  deriving DecidableEq, Repr

/-- States of a station (R46). -/
inductive StationState
  | idle
  | arming
  | approach
  | scanning
  | dwelling
  | retuneHold
  | holding
  | tail
  | halting
  | complete
  | faulted
  | interrupted
  deriving DecidableEq, Repr

/-- Phases of TAIL (R63). -/
inductive TailPhase
  | runout
  | openZones
  | closing
  | finishing
  deriving DecidableEq, Repr

/-- Results of a taken command (R46). -/
inductive CommandResult
  | accepted
  | refusedState
  | refusedProfile
  | refusedBusy
  | refusedFlow
  | refusedLine
  | refusedCode
  deriving DecidableEq, Repr

/-- Reply statuses of a service request (R160). -/
inductive ReplyStatus
  | ok
  | accepted
  | busy
  | inUse
  | badArgument
  | isProtected
  | notFound
  | invalidProfile
  | unknownRequest
  deriving DecidableEq, Repr

/-- Scan direction of a profile (R1). -/
inductive Direction
  | up
  | down
  deriving DecidableEq, Repr

/-- Which station may scan a profile (R1). -/
inductive Affinity
  | a
  | b
  | either
  deriving DecidableEq, Repr

/-- Segment kinds (R2). -/
inductive Kind
  | scan
  | dwell
  | skip
  deriving DecidableEq, Repr

/-- Segment shapes (R2). -/
inductive Shape
  | step
  | ramp
  deriving DecidableEq, Repr

/-- How the supply is shared (R118, R183). -/
inductive SupplyMode
  | share
  | reserve
  deriving DecidableEq, Repr

/-- A timer of the internal timebase. `amount` is the time it was set to run for (or, frozen, the time
left), in the unit its rule gives; how much of it has passed is not modelled (assumption 2). -/
inductive Timer
  | stopped
  | running (amount : Nat)
  | frozen (amount : Nat)
  | expired
  deriving DecidableEq, Repr

/-! ## Parameters (R183) -/

/-- The global parameters. -/
structure GlobalParams where
  cycleTime : Nat
  returnTimeout : Nat
  linkLossCount : Nat
  supplyFlow : Nat
  supplyMode : SupplyMode
  attentionLevel : Severity
  deriving DecidableEq, Repr

/-- The parameters of one station. -/
structure StationParams where
  datumBase : BitVec 32
  lookAhead : Nat
  maxStep : Nat
  staleLimit : Nat
  strict : Bool
  reversalTol : Nat
  approachSpeed : Nat
  approachMax : Nat
  runoutSpeed : Nat
  standstill : Nat
  followTol : Nat
  followSettle : Nat
  powerRated : Nat
  rampLimit : Nat
  powerTol : Nat
  powerDevCycles : Nat
  residualPower : Nat
  retuneTimeout : Nat
  armTimeout : Nat
  holdLimit : Nat
  valveLag : Nat
  valveCheck : Nat
  zoneFlow : Vector Nat 8
  flowLowPct : Nat
  flowCheck : Nat
  quenchLateDist : Nat
  quenchWaitMax : Nat
  deriving DecidableEq, Repr

/-! ## Profiles and the Profile Store -/

/-- A profile header with the fields and widths of R1 and R160. -/
structure Header where
  direction : Direction
  start : BitVec 32
  finish : BitVec 32
  quenchOffset : BitVec 32
  tailZones : ZoneSet
  tailTime : BitVec 16
  energyTol : Byte
  affinity : Affinity
  label : Vector Byte 8
  deriving DecidableEq, Repr

/-- A temperature window (R2). -/
structure Window where
  low : BitVec 16
  high : BitVec 16
  deriving DecidableEq, Repr

/-- A segment record with the fields and widths of R2 and R160; `speed` is a dwell time for DWELL. -/
structure Segment where
  start : BitVec 32
  kind : Kind
  power : BitVec 16
  shape : Shape
  channel : Channel
  speed : BitVec 32
  zones : ZoneSet
  window : Option Window
  deriving DecidableEq, Repr

/-- The stored content of a profile: its header and its segments in index order (R3). -/
structure Profile where
  header : Header
  segments : List Segment
  deriving DecidableEq, Repr

/-- States of a directory entry (R4). -/
inductive DirState
  | empty
  | writing
  | valid
  | corrupt
  deriving DecidableEq, Repr

/-- A directory entry (R4). -/
structure DirEntry where
  state : DirState
  affinity : Affinity
  writeProtected : Bool
  readProtected : Bool
  count : Nat
  label : Vector Byte 8
  revision : Nat
  check : BitVec 16
  deriving DecidableEq, Repr

/-- The open staging buffer (R6). -/
structure Staging where
  number : Fin 16
  header : Header
  slots : Vector Segment 48
  count : Nat
  committing : Bool
  deriving DecidableEq, Repr

/-- Long operations (R14). -/
inductive Operation
  | commit
  | erase
  | protect
  | clear
  | storeCheck
  deriving DecidableEq, Repr

/-- Reasons of a failed validation (R12, R181). -/
inductive Reason
  | empty
  | firstStart
  | order
  | dwellPair
  | lastDwell
  | length
  | skipPower
  | endOrder
  | range
  deriving DecidableEq, Repr

/-- A validation failure: a segment index, or 255 for the header, and a reason (R12). -/
structure Failure where
  index : Nat
  reason : Reason
  deriving DecidableEq, Repr

/-- Results of a long operation (R14). -/
inductive OpResult
  | ok
  | writeFailed
  | invalid (f : Failure)
  deriving DecidableEq, Repr

/-- The long-operation register (R14); `result = none` is RUNNING, `some` is DONE with its result. -/
structure OpRegister where
  operation : Operation
  profile : Option (Fin 16)
  result : Option OpResult
  deriving DecidableEq, Repr

/-- What a running long operation still carries: the copy a commit took at acceptance and the entry's
state before its first write (R16, R25), or the flags a PROTECT named (R18). -/
inductive OpWork
  | none
  | commit (copy : Profile) (formerState : DirState)
  | protect (write read : Bool)
  deriving DecidableEq, Repr

/-- The Profile Store. Directory and profiles are nonvolatile, the rest is volatile. -/
structure Store where
  directory : Vector DirEntry 16
  profiles : Vector Profile 16
  staging : Option Staging
  register : OpRegister
  work : OpWork
  inUse : Pair (Option (Fin 16))
  deriving DecidableEq, Repr

/-! ## Position Tracker -/

/-- An accepted sample: carriage position with its cycle (R27). -/
structure Accepted where
  position : Int
  cycle : Cycle
  deriving DecidableEq, Repr

/-- A position report (R29). -/
structure Report where
  x : Option Int
  velocity : Int
  lookAhead : Option Int
  ring : Option Int
  standstill : Bool
  extrapolating : Bool
  flags : Option AxisFlags
  cycle : Cycle
  deriving DecidableEq, Repr

/-- The state of a Position Tracker (R27) with its latest report (R164, R178). -/
structure Tracker where
  last : Option Accepted
  previous : Option Accepted
  velocity : Int
  established : Bool
  estimate : Option Int
  extrapolating : Bool
  missCount : Nat
  jumpRun : Bool
  staleRun : Bool
  flags : Option AxisFlags
  homedSeen : Bool
  enabledSeen : Bool
  axisFaultRun : Bool
  farthest : Option Int
  reversalRun : Bool
  settle : Timer
  settled : Bool
  followingRun : Bool
  report : Option Report
  deriving DecidableEq, Repr

/-! ## Scan Sequencer and the scan result -/

/-- Travel modes (R46). -/
inductive TravelMode
  | stop
  | move
  deriving DecidableEq, Repr

/-- Travel directions (R46). -/
inductive TravelDirection
  | increasing
  | decreasing
  deriving DecidableEq, Repr

/-- A travel request (R46, R72). -/
structure Travel where
  mode : TravelMode
  direction : TravelDirection
  speed : Nat
  deriving DecidableEq, Repr

/-- The profile a sequencer holds: number, header, revision and the derived values of R3. -/
structure HeldProfile where
  number : Fin 16
  header : Header
  revision : Nat
  lengths : List (Option Int)
  zoneSets : List ZoneSet
  firstChannel : Channel
  deriving DecidableEq, Repr

/-- The state of a Scan Sequencer (R46). `travelSet` is the value held for TRAVEL_SET and
`travelStale` its mark (R36, R72). `handling` and `haltWaiting` carry a halt request that arrives
while an event is being handled (R54, R67, assumption 27). -/
structure Sequencer where
  state : StationState
  profile : Option HeldProfile
  datum : Int
  index : Option Nat
  pendingState : Option StationState
  heldState : Option StationState
  phase : Option TailPhase
  haltCause : Option Cause
  degraded : Bool
  disturbed : Bool
  armTimer : Timer
  dwellTimer : Timer
  holdTimer : Timer
  tailTimer : Timer
  travel : Travel
  travelSet : Travel
  travelStale : Bool
  nibble : BitVec 4
  commandResult : CommandResult
  resultReady : Bool
  handling : Bool
  haltWaiting : Option Cause
  deriving DecidableEq, Repr

/-- Outcomes of a scan (R172). -/
inductive ScanOutcome
  | running
  | good
  | degraded
  | aborted
  deriving DecidableEq, Repr

/-- Energy verdicts (R93). -/
inductive Verdict
  | pass
  | low
  | high
  | exempt
  | off
  deriving DecidableEq, Repr

/-- A segment entry of a scan result (R174). -/
structure SegEntry where
  index : Nat
  expected : Option Nat
  measured : Nat
  missing : Nat
  tempMin : Option Nat
  tempMax : Option Nat
  lateness : Option Nat
  duration : Cycle
  verdict : Option Verdict
  deriving DecidableEq, Repr

/-- An open or closed scan result record (R172); `endCycle = none` is open. -/
structure ScanResult where
  outcome : ScanOutcome
  cause : Option Cause
  profile : Fin 16
  revision : Nat
  datum : Int
  startCycle : Cycle
  endCycle : Option Cycle
  disturbed : Bool
  highest : Option Nat
  entries : List SegEntry
  deriving DecidableEq, Repr

/-! ## Power Command Unit -/

/-- Retune sub-states (R75). -/
inductive Retune
  | none
  | drain
  | switch
  deriving DecidableEq, Repr

/-- An open energy account (R91); `sum` is in 0.1 kW·µs (R92). -/
structure Account where
  index : Nat
  entryCycle : Cycle
  sum : Nat
  missing : Nat
  tempMin : Option Nat
  tempMax : Option Nat
  tempRaised : Bool
  deriving DecidableEq, Repr

/-- The value held for POWER_SET: setpoint, channel request and run request with one mark (R81). -/
structure PowerSet where
  setpoint : Nat
  channel : Channel
  run : Bool
  stale : Bool
  deriving DecidableEq, Repr

/-- The state of a Power Command Unit (R75); `rampValue` is the value the target last had in a RAMP
segment (R78). The history holds the oldest pair first. -/
structure Power where
  target : Nat
  held : PowerSet
  lastSent : Nat
  history : List (Nat × Cycle)
  channel : ChannelInForce
  retune : Retune
  retuneChannel : Option Channel
  retuneTimer : Timer
  devCount : Nat
  devRun : Bool
  faultRun : Bool
  account : Option Account
  rampValue : Option Nat
  deriving DecidableEq, Repr

/-! ## Quench Scheduler and Supply Arbiter -/

/-- Origin of a queue entry: a segment index or END (R97). -/
inductive Origin
  | segment (i : Nat)
  | endMarker
  deriving DecidableEq, Repr

/-- The due marker of an entry: due cycle and due position (R97, R104). -/
structure Due where
  cycle : Cycle
  position : Int
  deriving DecidableEq, Repr

/-- An entry of a quench queue (R97). -/
structure QEntry where
  base : Int
  zones : ZoneSet
  origin : Origin
  due : Option Due
  waiting : Bool
  deriving DecidableEq, Repr

/-- What the scheduler keeps of a position report (R96). -/
structure KeptReport where
  ring : Option Int
  velocity : Int
  cycle : Cycle
  deriving DecidableEq, Repr

/-- The valve check (R96, R111); `deadline` is in ms from the issue. -/
inductive ValveCheck
  | stopped
  | running (zones : ZoneSet) (issueCycle : Cycle) (deadline : Nat)
  | passed
  | failed
  deriving DecidableEq, Repr

/-- The flow check (R96, R114), armed with its low count and the cycle of the sample that passed the
valve check. -/
inductive FlowCheck
  | disarmed
  | armed (low : Nat) (passCycle : Cycle)
  deriving DecidableEq, Repr

/-- The state of a Quench Scheduler (R96). `held` and `stale` are the QUENCH_SET value (R98). -/
structure Quench where
  queue : List QEntry
  lastIssued : ZoneSet
  held : ZoneSet
  stale : Bool
  report : Option KeptReport
  valve : ValveCheck
  closing : Bool
  flowCheck : FlowCheck
  flowRun : Bool
  faultRun : Bool
  deriving DecidableEq, Repr

/-- A waiting request (R118). -/
structure Waiting where
  zones : ZoneSet
  flow : Nat
  waitStart : Cycle
  duePosition : Int
  timer : Timer
  late : Bool
  deriving DecidableEq, Repr

/-- What the Supply Arbiter holds for a station (R118). -/
structure Supply where
  granted : Nat
  reservation : Option Nat
  waiting : Option Waiting
  deriving DecidableEq, Repr

/-! ## Line Program Unit -/

/-- Line actions (R130). -/
inductive LineAction
  | keep
  | on
  | off
  deriving DecidableEq, Repr

/-- A program step (R130). -/
structure ProgStep where
  delay : Nat
  permit : LineAction
  qforce : LineAction
  spin : LineAction
  last : Bool
  deriving DecidableEq, Repr

/-- The three programs of a station (R129). -/
inductive Program
  | start
  | finish
  | halt
  deriving DecidableEq, Repr

/-- The program table of a station (R129). -/
structure ProgTable where
  start : Vector ProgStep 8
  finish : Vector ProgStep 8
  halt : Vector ProgStep 8
  deriving DecidableEq, Repr

/-- A program engine with its lines and table (R129); the step timer counts half milliseconds.
`endOwed` is the end of a program that came in the very act of its request and is still to be
reported (R133, assumption 27). -/
structure Engine where
  permit : Bool
  qforce : Bool
  spin : Bool
  table : ProgTable
  running : Option Program
  step : Option Nat
  timer : Timer
  endOwed : Option Program
  deriving DecidableEq, Repr

/-! ## Link Port Unit -/

/-- Link states (R141). -/
inductive LinkState
  | down
  | syncing
  | up
  | lost
  | passive
  deriving DecidableEq, Repr

/-- Feedback signals of a station. -/
inductive Feedback
  | position
  | powerActual
  | quenchActual
  | temperature
  deriving DecidableEq, Repr

/-- Setpoint signals of a station. -/
inductive Setpoint
  | powerSet
  | quenchSet
  | travelSet
  deriving DecidableEq, Repr

/-- The sixteen signals of the slot map (R147). -/
inductive Signal
  | control
  | status
  | feedback (x : StationId) (f : Feedback)
  | setpoint (x : StationId) (p : Setpoint)
  deriving DecidableEq, Repr

/-- A bound entry of the slot map (R147). -/
structure MapEntry where
  slotId : Byte
  signal : Signal
  writer : Byte
  required : Bool
  deriving DecidableEq, Repr

/-- The slot map (R147). -/
abbrev SlotMap := Vector (Option MapEntry) 16

/-- A sample record (R155); the value is the 8 payload bytes of the last FRESH capture (R186). -/
structure SampleRecord where
  value : Option (Vector Byte 8)
  cycle : Cycle
  fresh : Bool
  missCount : Nat
  missRun : Bool
  deriving DecidableEq, Repr

/-- The four sample records of a station (R155). -/
structure SampleSet where
  position : SampleRecord
  powerActual : SampleRecord
  quenchActual : SampleRecord
  temperature : SampleRecord
  deriving DecidableEq, Repr

/-- The output runs of a station's setpoint signals (R141). -/
structure SetRuns where
  power : Bool
  quench : Bool
  travel : Bool
  deriving DecidableEq, Repr

/-- A reply to a service request (R157). -/
structure Reply where
  tag : Byte
  status : ReplyStatus
  payload : List Byte
  deriving DecidableEq, Repr

/-- The open return wait (R152); `taken` says that the return has arrived and is passing. -/
structure ReturnWait where
  number : CycleNumber
  count : Cycle
  timer : Timer
  taken : Bool
  deriving DecidableEq, Repr

/-- One station's values of a snapshot (R149). -/
structure Snapshot where
  power : PowerSet
  quench : ZoneSet
  quenchStale : Bool
  travel : Travel
  travelStale : Bool
  deriving DecidableEq, Repr

/-- A CYCLE frame passing from port U to port D in UP: its number, the map at its arrival and its
snapshot (R148, R149). -/
structure PassageU where
  number : CycleNumber
  map : SlotMap
  snapshot : Pair Snapshot
  deriving DecidableEq, Repr

/-- How a frame at port D stands, as its arrival decided it (R144, R152): taken by the open wait, early,
early with its outbound frame found bad, a stray, which is not sent on, or arrived outside UP, which goes
on as received. -/
inductive ReturnKind
  | taken
  | early
  | orphan
  | stray
  | forwarded
  deriving DecidableEq, Repr

/-- A frame that has arrived at port D: its number, the map and the STATUS payload at its arrival (R152,
R153). -/
structure PassageD where
  number : CycleNumber
  map : SlotMap
  status : List Byte
  kind : ReturnKind
  deriving DecidableEq, Repr

/-- An early return that has come to its end while its outbound frame still passes: its number, the map
at its arrival and its bytes (R152; assumption 38). -/
structure EndedReturn where
  number : CycleNumber
  map : SlotMap
  frame : List Byte
  deriving DecidableEq, Repr

/-- The state of the Link Port Unit (R141), with the ATTENTION_LEVEL of the last return pass (R166,
R184), the frames in passage and the last frames sent. -/
structure Link where
  address : Option Nat
  state : LinkState
  good : Nat
  adoption : Bool
  lastNumber : Option CycleNumber
  count : Cycle
  supervision : Timer
  missed : Nat
  wait : Option ReturnWait
  heldReply : Option Reply
  map : SlotMap
  samples : Pair SampleSet
  controlRun : Bool
  statusRun : Bool
  setRuns : Pair SetRuns
  attentionLevel : Severity
  passU : Option PassageU
  passD : Option PassageD
  ended : Option EndedReturn
  sentU : List Byte
  sentD : List Byte
  deriving DecidableEq, Repr

/-! ## Condition Unit -/

/-- An entry of the condition table (R163). -/
structure CondEntry where
  pending : Bool
  count : Nat
  lastCycle : Option Cycle
  lastSeverity : Option Severity
  deriving DecidableEq, Repr

/-- The fields of a held first-condition record (R164). -/
structure FirstRecord where
  code : Cond
  station : Option StationId
  state : Option StationState
  index : Option Nat
  x : Option Int
  cycle : Cycle
  severity : Severity
  deriving DecidableEq, Repr

/-- The state of the Condition Unit (R161). Bit c of `nextSet` is set when code c is in the set. -/
structure Conditions where
  severity : Vector Severity 28
  table : Vector CondEntry 48
  first : Option FirstRecord
  nextSet : BitVec 32
  nextCount : Nat
  deriving DecidableEq, Repr

/-! ## Retention Block -/

/-- An active retained record (R177). -/
structure Retained where
  profile : Fin 16
  revision : Nat
  datum : Int
  index : Option Nat
  position : Option Int
  cycle : Cycle
  state : StationState
  deriving DecidableEq, Repr

/-- The Retention Block (R177); `none` is a record whose active flag is clear. -/
structure Retention where
  records : Pair (Option Retained)
  valid : Bool
  deriving DecidableEq, Repr

/-! ## A station -/

/-- All that the part holds once per station, but for its parts of the store, link and retention. -/
structure Station where
  par : StationParams
  trk : Tracker
  seq : Sequencer
  result : Option ScanResult
  pcu : Power
  qsc : Quench
  sar : Supply
  eng : Engine
  deriving DecidableEq, Repr

end Sys2Proof.Machine
end

