-- ==== Sys2Proof/Machine/Codes.lean ====
section
/-! DEFINITION. The codes of named values on the line (R160, R181). -/

namespace Sys2Proof.Machine

/-- A flag as a byte. -/
def flagByte (b : Bool) : Byte := if b then 1 else 0

/-- A flag from a byte; other values are no flag (R181). -/
def flagOf (b : Byte) : Option Bool := if b = 0 then some false else if b = 1 then some true else none

/-- Station codes (R181). -/
def stationCode : StationId → Byte
  | .a => 0
  | .b => 1

/-- A station from its code (R181). -/
def stationOf (b : Byte) : Option StationId :=
  if b = 0 then some .a else if b = 1 then some .b else none

/-- Scope codes (R181). -/
def Scope.code : Scope → Byte
  | .station .a => 0
  | .station .b => 1
  | .part => 2

/-- A scope from its code (R181). -/
def scopeOf (b : Byte) : Option Scope :=
  if b = 0 then some (.station .a) else if b = 1 then some (.station .b)
  else if b = 2 then some .part else none

/-- Severity codes (R181). -/
def Severity.code : Severity → Nat
  | .note => 0
  | .degrade => 1
  | .abort => 2
  | .haltAll => 3

/-- A severity from its code (R181). -/
def severityOf (n : Nat) : Option Severity :=
  if n = 0 then some .note else if n = 1 then some .degrade else if n = 2 then some .abort
  else if n = 3 then some .haltAll else none

/-- State codes (R160). -/
def StationState.code : StationState → Byte
  | .idle => 0
  | .arming => 1
  | .approach => 2
  | .scanning => 3
  | .dwelling => 4
  | .retuneHold => 5
  | .holding => 6
  | .tail => 7
  | .halting => 8
  | .complete => 9
  | .faulted => 10
  | .interrupted => 11

/-- Command result codes (R160). -/
def CommandResult.code : CommandResult → BitVec 4
  | .accepted => 0
  | .refusedState => 1
  | .refusedProfile => 2
  | .refusedBusy => 3
  | .refusedFlow => 4
  | .refusedLine => 5
  | .refusedCode => 6

/-- Reply status codes (R160). -/
def ReplyStatus.code : ReplyStatus → Byte
  | .ok => 0
  | .accepted => 1
  | .busy => 2
  | .inUse => 3
  | .badArgument => 4
  | .isProtected => 5
  | .notFound => 6
  | .invalidProfile => 7
  | .unknownRequest => 8

/-- Map signal codes (R181). -/
def Signal.code : Signal → Byte
  | .control => 0
  | .status => 1
  | .feedback .a .position => 2
  | .feedback .a .powerActual => 3
  | .feedback .a .quenchActual => 4
  | .feedback .a .temperature => 5
  | .setpoint .a .powerSet => 6
  | .setpoint .a .quenchSet => 7
  | .setpoint .a .travelSet => 8
  | .feedback .b .position => 9
  | .feedback .b .powerActual => 10
  | .feedback .b .quenchActual => 11
  | .feedback .b .temperature => 12
  | .setpoint .b .powerSet => 13
  | .setpoint .b .quenchSet => 14
  | .setpoint .b .travelSet => 15

/-- The sixteen signals in code order (R147, R181). -/
def Signal.all : List Signal :=
  [.control, .status,
    .feedback .a .position, .feedback .a .powerActual, .feedback .a .quenchActual,
    .feedback .a .temperature, .setpoint .a .powerSet, .setpoint .a .quenchSet,
    .setpoint .a .travelSet,
    .feedback .b .position, .feedback .b .powerActual, .feedback .b .quenchActual,
    .feedback .b .temperature, .setpoint .b .powerSet, .setpoint .b .quenchSet,
    .setpoint .b .travelSet]

/-- A map signal from its code (R181). -/
def signalOf (b : Byte) : Option Signal := Signal.all[b.toNat]?

/-- A feedback signal from its SAMPLE_READ code (R181). -/
def feedbackOf (b : Byte) : Option Feedback :=
  if b = 0 then some .position else if b = 1 then some .powerActual
  else if b = 2 then some .quenchActual else if b = 3 then some .temperature else none

/-- A program from its code (R181). -/
def programOf (b : Byte) : Option Program :=
  if b = 0 then some .start else if b = 1 then some .finish else if b = 2 then some .halt else none

/-- Line action codes (R181). -/
def LineAction.code : LineAction → Byte
  | .keep => 0
  | .on => 1
  | .off => 2

/-- A line action from its code (R181). -/
def actionOf (b : Byte) : Option LineAction :=
  if b = 0 then some .keep else if b = 1 then some .on else if b = 2 then some .off else none

/-- Directory state codes (R181). -/
def DirState.code : DirState → Byte
  | .empty => 0
  | .writing => 1
  | .valid => 2
  | .corrupt => 3

/-- Affinity codes (R160). -/
def Affinity.code : Affinity → Byte
  | .a => 0
  | .b => 1
  | .either => 2

/-- An affinity from its code (R160). -/
def affinityOf (b : Byte) : Option Affinity :=
  if b = 0 then some .a else if b = 1 then some .b else if b = 2 then some .either else none

/-- Direction codes (R160). -/
def Direction.code : Direction → Byte
  | .up => 0
  | .down => 1

/-- A direction from its code (R160). -/
def directionOf (b : Byte) : Option Direction :=
  if b = 0 then some .up else if b = 1 then some .down else none

/-- Segment kind codes (R160). -/
def Kind.code : Kind → Byte
  | .scan => 0
  | .dwell => 1
  | .skip => 2

/-- A segment kind from its code (R160). -/
def kindOf (b : Byte) : Option Kind :=
  if b = 0 then some .scan else if b = 1 then some .dwell else if b = 2 then some .skip else none

/-- Shape codes (R160). -/
def Shape.code : Shape → Byte
  | .step => 0
  | .ramp => 1

/-- A shape from its code (R160). -/
def shapeOf (b : Byte) : Option Shape :=
  if b = 0 then some .step else if b = 1 then some .ramp else none

/-- Channel codes (R160). -/
def channelCode : Channel → Byte
  | .low => 1
  | .high => 2

/-- A segment's channel from its code (R160). -/
def channelOf (b : Byte) : Option Channel :=
  if b = 1 then some .low else if b = 2 then some .high else none

/-- An active channel from its code (R160). -/
def activeChannelOf (b : Byte) : Option ChannelInForce :=
  if b = 0 then some .none else if b = 1 then some .low else if b = 2 then some .high else none

/-- An inverter state from its code (R160). -/
def inverterOf (b : Byte) : Option InverterState :=
  if b = 0 then some .off else if b = 1 then some .ready else if b = 2 then some .running
  else if b = 3 then some .retuning else if b = 4 then some .fault else none

/-- A manifold state from its code (R160). -/
def manifoldOf (b : Byte) : Option ManifoldState :=
  if b = 0 then some .ok else if b = 1 then some .fault else none

/-- Operation codes (R181). -/
def Operation.code : Operation → Byte
  | .commit => 1
  | .erase => 2
  | .protect => 3
  | .clear => 4
  | .storeCheck => 5

/-- Validation reason codes (R181). -/
def Reason.code : Reason → Byte
  | .empty => 1
  | .firstStart => 2
  | .order => 3
  | .dwellPair => 4
  | .lastDwell => 5
  | .length => 6
  | .skipPower => 7
  | .endOrder => 8
  | .range => 9

/-- Scan outcome codes (R181). -/
def ScanOutcome.code : ScanOutcome → Byte
  | .running => 0
  | .good => 1
  | .degraded => 2
  | .aborted => 3

/-- Verdict codes (R181). -/
def Verdict.code : Verdict → Byte
  | .pass => 0
  | .low => 1
  | .high => 2
  | .exempt => 3
  | .off => 4

/-- Travel mode codes (R160). -/
def TravelMode.code : TravelMode → Byte
  | .stop => 0
  | .move => 1

/-- Travel direction codes (R160). -/
def TravelDirection.code : TravelDirection → Byte
  | .increasing => 0
  | .decreasing => 1

end Sys2Proof.Machine
end

