-- ==== Sys2Proof/Config.lean ====
section
/-! DEFINITION. What the part fixes (its capacities) and the free values: constants without a body,
applied to the model's counter `draws` or to the operands they depend on, so that nothing can be
proved of their value. -/

namespace Sys2Proof.Config

/-- Entries of a quench queue (R96, R182). -/
def queueCapacity : Nat := 16

/-- Segments of a profile (R182). -/
def maxSegments : Nat := 48

/-- FREE (assumption 6): the order in which the eight samples of one closed return wait reach the
blocks (R76, R155: either may come first). Read as a numeral of a permutation. -/
opaque handOrder : Nat → Nat

/-- FREE (assumption 7): whether the Quench Scheduler takes a position report before the sequencer
does (R99: "may reach the scheduler in either order"). -/
opaque schedulerFirst : Nat → Bool

/-- FREE (assumption 8): the time left of a running timer at the moment it is frozen, before it is
bounded by what was running. -/
opaque timeLeft : Nat → Nat

/-- FREE (assumption 9): whether a reply has been formed by the time the service channel of an early
return passes (R152). -/
opaque replyInTime : Nat → Bool

/-- FREE (assumption 10): the velocity over an interval of zero cycles, from the distance moved. -/
opaque zeroIntervalVelocity : Int → Int

/-- FREE (assumption 11): the four bytes sent for a signed number that does not fit 32 bits. -/
opaque outOfRangeInt : Int → BitVec 32

/-- FREE (assumption 11): the four bytes sent for an unsigned number that does not fit 32 bits. -/
opaque outOfRangeNat : Nat → BitVec 32

end Sys2Proof.Config
end

