-- ==== Sys2Proof/Machine/Defaults.lean ====
section
/-! DEFINITION. The values the rules give after power-on, RESET_N and clearing: parameter defaults,
default programs, cleared records, the severity table. -/

namespace Sys2Proof.Machine

/-- Defaults of the global parameters (R183). -/
def defaultGlobal : GlobalParams :=
  { cycleTime := 1000, returnTimeout := 400, linkLossCount := 4, supplyFlow := 0,
    supplyMode := .share, attentionLevel := .abort }

/-- Defaults of the station parameters (R183). -/
def defaultStation : StationParams :=
  { datumBase := 0, lookAhead := 2000, maxStep := 2000, staleLimit := 3, strict := false,
    reversalTol := 500, approachSpeed := 20000, approachMax := 100000, runoutSpeed := 20000,
    standstill := 200, followTol := 10, followSettle := 200, powerRated := 5000, rampLimit := 2000,
    powerTol := 8, powerDevCycles := 8, residualPower := 2, retuneTimeout := 300,
    armTimeout := 5000, holdLimit := 3000, valveLag := 60, valveCheck := 100,
    zoneFlow := Vector.replicate 8 50, flowLowPct := 70, flowCheck := 10, quenchLateDist := 1000,
    quenchWaitMax := 200 }

/-- A label of eight spaces (R6). -/
def blankLabel : Vector Byte 8 := Vector.replicate 8 32

/-- The cleared header (R6). -/
def clearedHeader : Header :=
  { direction := .up, start := 0, finish := 0, quenchOffset := 0, tailZones := 0, tailTime := 0,
    energyTol := 0, affinity := .either, label := blankLabel }

/-- The cleared segment (R6). -/
def clearedSegment : Segment :=
  { start := 0, kind := .scan, power := 0, shape := .step, channel := .low, speed := 0, zones := 0,
    window := none }

/-- What STORE_CLEAR writes into a directory entry (R19); also the factory entry (assumption 3). -/
def clearedEntry : DirEntry :=
  { state := .empty, affinity := .either, writeProtected := false, readProtected := false, count := 0,
    label := blankLabel, revision := 0, check := 0 }

/-- The volatile part of the store after power-on and RESET_N: staging closed, the store check
running, no in-use mark (R6, R14, R21, R24). -/
def resetStore (directory : Vector DirEntry 16) (profiles : Vector Profile 16) : Store :=
  { directory := directory, profiles := profiles, staging := none,
    register := { operation := .storeCheck, profile := none, result := none }, work := .none,
    inUse := Pair.both none }

/-- The cleared tracker (R27, R28). -/
def clearedTracker : Tracker :=
  { last := none, previous := none, velocity := 0, established := false, estimate := none,
    extrapolating := false, missCount := 0, jumpRun := false, staleRun := false, flags := none,
    homedSeen := false, enabledSeen := false, axisFaultRun := false, farthest := none,
    reversalRun := false, settle := .stopped, settled := false, followingRun := false,
    report := none }

/-- The travel request after reset (R46). -/
def stopIncreasing : Travel := { mode := .stop, direction := .increasing, speed := 0 }

/-- The sequencer after reset (R46); the state is decided by R47. -/
def resetSequencer : Sequencer :=
  { state := .idle, profile := none, datum := 0, index := none, pendingState := none,
    heldState := none, phase := none, haltCause := none, degraded := false, disturbed := false,
    armTimer := .stopped, dwellTimer := .stopped, holdTimer := .stopped, tailTimer := .stopped,
    travel := stopIncreasing, travelSet := stopIncreasing, travelStale := false, nibble := 0,
    commandResult := .accepted, resultReady := false, handling := false, haltWaiting := none }

/-- The Power Command Unit after reset (R75). -/
def resetPower : Power :=
  { target := 0, held := { setpoint := 0, channel := .low, run := false, stale := false },
    lastSent := 0, history := [], channel := .none, retune := .none, retuneChannel := none,
    retuneTimer := .stopped, devCount := 0, devRun := false, faultRun := false, account := none,
    rampValue := none }

/-- The Quench Scheduler after reset (R96). -/
def resetQuench : Quench :=
  { queue := [], lastIssued := 0, held := 0, stale := false, report := none, valve := .stopped,
    closing := false, flowCheck := .disarmed, flowRun := false, faultRun := false }

/-- The Supply Arbiter's record of a station after reset (R118). -/
def resetSupply : Supply := { granted := 0, reservation := none, waiting := none }

/-- A step that no default program reaches (R131). -/
def idleStep : ProgStep := { delay := 0, permit := .keep, qforce := .keep, spin := .keep, last := false }

/-- The default program table (R131). -/
def defaultTable : ProgTable :=
  { start := #v[{ idleStep with spin := .on },
      { delay := 11, permit := .on, qforce := .keep, spin := .keep, last := true },
      idleStep, idleStep, idleStep, idleStep, idleStep, idleStep],
    finish := #v[{ idleStep with permit := .off },
      { delay := 9, permit := .keep, qforce := .keep, spin := .off, last := true },
      idleStep, idleStep, idleStep, idleStep, idleStep, idleStep],
    halt := #v[{ idleStep with permit := .off, qforce := .on },
      { delay := 13, permit := .keep, qforce := .off, spin := .keep, last := false },
      { delay := 9, permit := .keep, qforce := .keep, spin := .off, last := true },
      idleStep, idleStep, idleStep, idleStep, idleStep] }

/-- A program engine after reset (R129). -/
def resetEngine : Engine :=
  { permit := false, qforce := false, spin := false, table := defaultTable, running := none,
    step := none, timer := .stopped, endOwed := none }

/-- A station after reset, its parameters at their defaults. -/
def resetStation : Station :=
  { par := defaultStation, trk := clearedTracker, seq := resetSequencer, result := none,
    pcu := resetPower, qsc := resetQuench, sar := resetSupply, eng := resetEngine }

/-- A sample record after power-on and link reset (R141). -/
def resetRecord : SampleRecord :=
  { value := none, cycle := 0, fresh := false, missCount := 0, missRun := false }

/-- The sample records of a station after power-on and link reset (R141). -/
def resetSamples : SampleSet :=
  { position := resetRecord, powerActual := resetRecord, quenchActual := resetRecord,
    temperature := resetRecord }

/-- Output runs all clear (R141). -/
def clearRuns : SetRuns := { power := false, quench := false, travel := false }

/-- The own address read from the straps: 1 to 62, else invalid (R142). -/
def addressOf (straps : BitVec 6) : Option Nat :=
  if straps.toNat = 0 ∨ straps.toNat = 63 then none else some straps.toNat

/-- The Link Port Unit after power-on and RESET_N (R141, R142). -/
def resetLink (straps : BitVec 6) : Link :=
  { address := addressOf straps,
    state := if (addressOf straps).isSome then .down else .passive,
    good := 0, adoption := false, lastNumber := none, count := 0, supervision := .stopped,
    missed := 0, wait := none, heldReply := none, map := Vector.replicate 16 none,
    samples := Pair.both resetSamples, controlRun := false, statusRun := false,
    setRuns := Pair.both clearRuns, attentionLevel := .abort, passU := none, passD := none, ended := none,
    sentU := [], sentD := [] }

/-- The code of a condition (R162). -/
def Cond.code : Cond → Nat
  | .frameCheck => 1
  | .cycleMissed => 2
  | .cycleGap => 3
  | .returnTimeout => 4
  | .strayReturn => 5
  | .linkLost => 6
  | .slotMissing => 7
  | .positionStale => 8
  | .positionJump => 9
  | .reversal => 10
  | .axisFault => 11
  | .following => 12
  | .powerDeviation => 13
  | .inverterFault => 14
  | .retuneTimeout => 15
  | .energyLow => 16
  | .energyHigh => 17
  | .temperatureWindow => 18
  | .quenchQueueFull => 19
  | .quenchLate => 20
  | .valveMismatch => 21
  | .flowLow => 22
  | .armFailed => 23
  | .holdExpired => 24
  | .stopLine => 25
  | .scanInterrupted => 26
  | .storeFault => 27
  | .retentionLost => 28

/-- All conditions in code order. -/
def Cond.all : List Cond :=
  [.frameCheck, .cycleMissed, .cycleGap, .returnTimeout, .strayReturn, .linkLost, .slotMissing,
    .positionStale, .positionJump, .reversal, .axisFault, .following, .powerDeviation,
    .inverterFault, .retuneTimeout, .energyLow, .energyHigh, .temperatureWindow, .quenchQueueFull,
    .quenchLate, .valveMismatch, .flowLow, .armFailed, .holdExpired, .stopLine, .scanInterrupted,
    .storeFault, .retentionLost]

/-- The condition of a code, if there is one (R162). -/
def Cond.ofCode (n : Nat) : Option Cond := if n = 0 then none else Cond.all[n - 1]?

/-- Whether a condition has station scope (R162). -/
def Cond.stationScope (c : Cond) : Bool := decide (7 ≤ c.code ∧ c.code ≤ 26)

/-- Default severities (R162). -/
def Cond.defaultSeverity : Cond → Severity
  | .linkLost => .haltAll
  | .slotMissing | .following | .energyLow | .energyHigh | .temperatureWindow | .flowLow => .degrade
  | .positionStale | .positionJump | .reversal | .axisFault | .powerDeviation | .inverterFault
  | .retuneTimeout | .quenchQueueFull | .quenchLate | .valveMismatch | .armFailed | .holdExpired
  | .stopLine => .abort
  | .frameCheck | .cycleMissed | .cycleGap | .returnTimeout | .strayReturn | .scanInterrupted
  | .storeFault | .retentionLost => .note

/-- Minimum severities (R162). -/
def Cond.minimumSeverity : Cond → Severity
  | .linkLost => .haltAll
  | .axisFault | .inverterFault | .quenchQueueFull | .armFailed | .stopLine => .abort
  | .frameCheck | .cycleMissed | .cycleGap | .returnTimeout | .strayReturn | .slotMissing
  | .positionStale | .positionJump | .reversal | .following | .powerDeviation | .retuneTimeout
  | .energyLow | .energyHigh | .temperatureWindow | .quenchLate | .valveMismatch | .flowLow
  | .holdExpired | .scanInterrupted | .storeFault | .retentionLost => .note

/-- A cleared entry of the condition table (R161). -/
def clearedCond : CondEntry :=
  { pending := false, count := 0, lastCycle := none, lastSeverity := none }

/-- The default severity map (R162); place `c.code - 1` belongs to condition c. -/
def defaultSeverities : Vector Severity 28 :=
  ⟨(Cond.all.map Cond.defaultSeverity).toArray, by simp [Cond.all]⟩

/-- The Condition Unit after power-on and RESET_N (R161). -/
def resetConditions : Conditions :=
  { severity := defaultSeverities, table := Vector.replicate 48 clearedCond, first := none,
    nextSet := 0, nextCount := 0 }

end Sys2Proof.Machine
end

