-- ==== Sys2Proof/Machine/State.lean ====
section
/-! DEFINITION. The state of the part, the reasons a step could stop, and the state after reset. -/

namespace Sys2Proof.Machine

/-- The whole state: the queue of waiting commands and everything the spec gives the part.
`draws` is the model's own counter that free values are applied to (assumption 30). -/
structure State where
  pending : List Instr
  draws : Nat
  vdd : Bool
  params : GlobalParams
  stations : Pair Station
  stops : StopLevels
  store : Store
  link : Link
  cdu : Conditions
  rtb : Retention
  deriving DecidableEq, Repr

/-- The spec gives the part no event that stops it: what goes wrong is raised as a condition (R164).
So there is no fault, and no claim can rest on one (safe). -/
inductive Fault
  deriving DecidableEq, Repr

/-- Why a command could have no meaning. -/
inductive Refusal
  /-- The arm of a command that has not been given its meaning yet, by the row's mnemonic: raised by
  `exec` alone, in no arm at present; safe, because the model stops where the part goes on. -/
  | notModelled (mnemonic : String)
  deriving DecidableEq, Repr

/-- The part right after RESET_N with main supply present, from the factory, with nothing stored, no
scan in progress, retention valid, all stop inputs released and the straps at address 7
(assumption 3). The store check is running (R24). -/
def State.reset : State :=
  { pending := [], draws := 0, vdd := true, params := defaultGlobal,
    stations := Pair.both resetStation, stops := { a := false, b := false, all := false },
    store := resetStore (Vector.replicate 16 clearedEntry)
      (Vector.replicate 16 { header := clearedHeader, segments := [] }),
    link := resetLink 7, cdu := resetConditions,
    rtb := { records := Pair.both none, valid := true } }

end Sys2Proof.Machine
end

