-- ==== Sys2Proof/Machine/Ops.lean ====
section
/-! DEFINITION. The named operations over the state that every unit uses: station copies, cycles,
directions along the shaft, timers, the segments of the profile being scanned. -/

namespace Sys2Proof.Machine

/-! ## Station copies -/

/-- The copy of station `x`. -/
def State.st (s : State) (x : StationId) : Station := s.stations.get x

/-- Change the copy of station `x`. -/
def modSt (x : StationId) (f : Station → Station) (s : State) : State :=
  { s with stations := s.stations.set x (f (s.stations.get x)) }

/-- Change a station's sequencer fields. -/
def modSeq (x : StationId) (f : Sequencer → Sequencer) : State → State :=
  modSt x (fun v => { v with seq := f v.seq })

/-- Change a station's tracker fields. -/
def modTrk (x : StationId) (f : Tracker → Tracker) : State → State :=
  modSt x (fun v => { v with trk := f v.trk })

/-- Change a station's power command fields. -/
def modPcu (x : StationId) (f : Power → Power) : State → State :=
  modSt x (fun v => { v with pcu := f v.pcu })

/-- Change a station's scheduler fields. -/
def modQsc (x : StationId) (f : Quench → Quench) : State → State :=
  modSt x (fun v => { v with qsc := f v.qsc })

/-- Change the arbiter's record of a station. -/
def modSar (x : StationId) (f : Supply → Supply) : State → State :=
  modSt x (fun v => { v with sar := f v.sar })

/-- Change a station's program engine. -/
def modEng (x : StationId) (f : Engine → Engine) : State → State :=
  modSt x (fun v => { v with eng := f v.eng })

/-- Change a station's scan result record. -/
def modResult (x : StationId) (f : Option ScanResult → Option ScanResult) : State → State :=
  modSt x (fun v => { v with result := f v.result })

/-- Change entry `i` of a station's scan result, if it is there (R174). -/
def modEntry (x : StationId) (i : Nat) (f : SegEntry → SegEntry) : State → State :=
  modResult x (Option.map fun r => { r with entries := r.entries.modify i f })

/-- Change the link unit. -/
def modLink (f : Link → Link) (s : State) : State := { s with link := f s.link }

/-- Change the store. -/
def modStore (f : Store → Store) (s : State) : State := { s with store := f s.store }

/-- Change the condition unit. -/
def modCdu (f : Conditions → Conditions) (s : State) : State := { s with cdu := f s.cdu }

/-- Take a free value: the counter goes on, so that the next one is drawn afresh (assumption 30). -/
def bump (s : State) : State := { s with draws := s.draws + 1 }

/-! ## Cycles -/

/-- The current cycle count (R141). -/
def State.cycle (s : State) : Cycle := s.link.count

/-- Cycles from `c` to `d` on the wrapping 32-bit count. -/
def cyclesFrom (c d : Cycle) : Nat := (d - c).toNat

/-- Whether `d` is later than `c` on the wrapping count (assumption 12). -/
def laterThan (d c : Cycle) : Bool := decide (d ≠ c) && decide (cyclesFrom c d < 2147483648)

/-! ## Station states -/

/-- The active states (00_scope.md, Active stations). -/
def StationState.active : StationState → Bool
  | .arming | .approach | .scanning | .dwelling | .retuneHold | .holding | .tail | .halting => true
  | .idle | .complete | .faulted | .interrupted => false

/-- The states in which power may flow (R79). -/
def StationState.heating : StationState → Bool
  | .scanning | .dwelling => true
  | .idle | .arming | .approach | .retuneHold | .holding | .tail | .halting | .complete | .faulted
  | .interrupted => false

/-- Whether a station is active. -/
def State.active (s : State) (x : StationId) : Bool := (s.st x).seq.state.active

/-- Whether either station is active. -/
def State.anyActive (s : State) : Bool := s.active .a || s.active .b

/-! ## Positions and direction (00_scope.md, Positions and direction) -/

/-- How far `p` lies ahead of `q` in the scan direction; negative when behind. -/
def aheadBy (d : Direction) (p q : Int) : Int :=
  match d with
  | .up => p - q
  | .down => q - p

/-- `p` reaches `q`: it is at `q` or ahead of it. -/
def reaches (d : Direction) (p q : Int) : Bool := decide (0 ≤ aheadBy d p q)

/-- `p` lies strictly ahead of `q`. -/
def strictlyAhead (d : Direction) (p q : Int) : Bool := decide (0 < aheadBy d p q)

/-- A distance covered at velocity `v` in `us` microseconds, rounded toward zero to a whole µm. -/
def travelled (v : Int) (us : Nat) : Int := (v * us).tdiv 1000000

/-! ## Timers -/

/-- A timer runs. -/
def Timer.isRunning : Timer → Bool
  | .running _ => true
  | .stopped | .frozen _ | .expired => false

/-! ## The profile being scanned (R23) -/

/-- The stored content of the profile a station holds. -/
def State.content (s : State) (x : StationId) : Option Profile :=
  (s.st x).seq.profile.map (fun p => s.store.profiles.get p.number)

/-- The stored segments of the profile a station holds (R23). -/
def State.segments (s : State) (x : StationId) : List Segment :=
  match s.content x with
  | some p => p.segments
  | none => []

/-- The segment in force. -/
def State.segInForce (s : State) (x : StationId) : Option Segment :=
  match (s.st x).seq.index with
  | some i => (s.segments x)[i]?
  | none => none

/-- The scan direction; UP while the profile is absent. -/
def State.direction (s : State) (x : StationId) : Direction :=
  match (s.st x).seq.profile with
  | some p => p.header.direction
  | none => .up

/-- The length of segment `i` of the held profile, 0 for a DWELL (R3). -/
def State.segLength (s : State) (x : StationId) (i : Nat) : Int :=
  match (s.st x).seq.profile with
  | some p => ((p.lengths[i]?).getD none).getD 0
  | none => 0

/-! ## Flows (00_scope.md, Stations, zones and sets) -/

/-- The flow of a zone set: the sum of ZONE_FLOW over its zones. -/
def flowOf (par : StationParams) (z : ZoneSet) : Nat :=
  ((List.range 8).map (fun i => if z.getLsbD i then par.zoneFlow.toList.getD i 0 else 0)).sum

end Sys2Proof.Machine
end

