-- ==== Sys2Proof/Machine/Flags.lean ====
section
/-! DEFINITION. The flags of the STATUS slot and the condition table they are read from (R153, R163,
R166). -/

namespace Sys2Proof.Machine

/-! ## The condition table (R163) -/

/-- The place of the entry for a condition and a scope copy: codes in order, A before B. -/
def condSlot (c : Cond) (sc : Scope) : Nat :=
  if c.stationScope then
    6 + 2 * (c.code - 7) + (match sc with | .station .b => 1 | .station .a => 0 | .part => 0)
  else if c.code ≤ 6 then c.code - 1 else c.code + 19

/-- Whether a scope copy belongs to a condition's scope (R163, R167). -/
def scopeFits (c : Cond) (sc : Scope) : Bool :=
  match sc with
  | .station _ => c.stationScope
  | .part => !c.stationScope

/-- The 48 pairs of code and scope copy, by code, then in the order A, B, part (R163, R168). -/
def condKeys : List (Cond × Scope) :=
  (Cond.all.map fun c =>
    if c.stationScope then [(c, .station .a), (c, .station .b)] else [(c, .part)]).flatten

/-- The entry of a condition and scope copy. -/
def Conditions.entry (u : Conditions) (c : Cond) (sc : Scope) : CondEntry :=
  (u.table[condSlot c sc]?).getD clearedCond

/-- Replace the entry of a condition and scope copy. -/
def Conditions.putEntry (u : Conditions) (c : Cond) (sc : Scope) (e : CondEntry) : Conditions :=
  { u with table := u.table.setIfInBounds (condSlot c sc) e }

/-- The set severity of a condition (R162). -/
def Conditions.setSeverity (u : Conditions) (c : Cond) : Severity :=
  (u.severity[c.code - 1]?).getD .note

/-- The higher of two severities. -/
def Severity.max (p q : Severity) : Severity := if p.code < q.code then q else p

/-! ## STATUS flags (R153) -/

/-- ATTENTION of a station under `level`: an entry of that station or of the part is pending with a last
severity at or above it (R166). -/
def attentionAt (level : Severity) (s : State) (x : StationId) : Bool :=
  condKeys.any fun k =>
    (decide (k.2 = .station x) || decide (k.2 = .part)) &&
      (s.cdu.entry k.1 k.2).pending &&
      ((s.cdu.entry k.1 k.2).lastSeverity.any
        fun v => decide (level.code ≤ v.code))

/-- ATTENTION of a station as it stands: a written ATTENTION_LEVEL counts from the next return pass on
(R166, R184). -/
def attention (s : State) (x : StationId) : Bool := attentionAt s.link.attentionLevel s x

/-- FLOW_WAIT of a station: it has a waiting request (R118). -/
def flowWait (s : State) (x : StationId) : Bool := (s.st x).sar.waiting.isSome

/-- The flags byte of a station's part of STATUS, formed at a return pass, from which ATTENTION_LEVEL
counts (R153, R160, R166). -/
def statusFlags (s : State) (x : StationId) : Byte :=
  (if attentionAt s.params.attentionLevel s x then 1 else 0) ||| (if (s.st x).seq.resultReady then 2 else 0)
    ||| (if (s.st x).trk.extrapolating then 4 else 0) ||| (if flowWait s x then 8 else 0)
    ||| (if (s.st x).eng.permit then 16 else 0)

/-- A segment index as STATUS shows it: none is 255 (R153). -/
def indexByte (i : Option Nat) : Byte := BitVec.ofNat 8 (i.getD 255)

/-- One station's part of the STATUS payload (R153, R160). -/
def statusPart (s : State) (x : StationId) : List Byte :=
  [(s.st x).seq.state.code, indexByte (s.st x).seq.index,
    (s.st x).seq.nibble ++ (s.st x).seq.commandResult.code, statusFlags s x]

/-- The STATUS payload (R153, R160). -/
def statusPayload (s : State) : List Byte := statusPart s .a ++ statusPart s .b

end Sys2Proof.Machine
end

