-- ==== Sys2Proof/Machine/Power.lean ====
section
/-! DEFINITION. The Power Command Unit: target, setpoint and requests, the retune handshake, the energy
account (R75 to R95), and the retained record's write that goes with every change of state (R178). -/

namespace Sys2Proof.Machine

/-! ## Target and setpoint -/

/-- The start power of a RAMP: the power of the nearest earlier segment whose power is nonzero, or 0
(R2, R78). -/
def rampStart (segs : List Segment) (i : Nat) : Nat :=
  match (segs.take i).reverse.find? (fun g => g.power ≠ 0) with
  | some g => g.power.toNat
  | none => 0

/-- The ramp value at look-ahead position `p` (R78). -/
def rampValueAt (d : Direction) (from_ own : Nat) (start length p : Int) : Nat :=
  let dist := aheadBy d p start
  if dist ≤ 0 then from_
  else if length ≤ dist then own
  else ((from_ * length + ((own : Int) - from_) * dist).tdiv length).toNat

/-- The value of the ramp of the segment in force, when that segment is a RAMP in a heating state:
from the latest report's look-ahead position, else the value it last had, else the start power
(R77, R78). -/
def rampNow (s : State) (x : StationId) (i : Nat) (g : Segment) : Nat :=
  let from_ := rampStart (s.segments x) i
  match (s.st x).trk.report.bind Report.lookAhead with
  | some p => rampValueAt (s.direction x) from_ g.power.toNat g.start.toInt (s.segLength x i) p
  | none => (s.st x).pcu.rampValue.getD from_

/-- The ramp value to keep: a new one in a RAMP that is being heated, else the one kept. -/
def rampKept (s : State) (x : StationId) : Option Nat :=
  match (s.st x).seq.index, s.segInForce x with
  | some i, some g =>
    if (s.st x).seq.state.heating && g.kind == .scan && g.shape == .ramp then some (rampNow s x i g)
    else (s.st x).pcu.rampValue
  | _, _ => (s.st x).pcu.rampValue

/-- The target power (R77). -/
def targetOf (s : State) (x : StationId) : Nat :=
  if (s.st x).seq.state.heating then
    match (s.st x).seq.index, s.segInForce x with
    | some i, some g =>
      match g.kind, g.shape with
      | .dwell, _ => g.power.toNat
      | .scan, .step => g.power.toNat
      | .scan, .ramp => rampNow s x i g
      | .skip, _ => 0
    | _, _ => 0
  else 0

/-- The conditions that force the setpoint to 0 (R79). -/
def forcedZero (s : State) (x : StationId) : Bool :=
  !(s.st x).seq.state.heating || !(s.st x).eng.permit || decide ((s.st x).pcu.retune ≠ .none)

/-- One step of the rate limit (R80). -/
def rampStep (s : State) (x : StationId) : Nat :=
  Nat.max 1 ((s.st x).par.rampLimit * s.params.cycleTime / 100000)

/-- The channel request (R81); in DRAIN with the channel in force NONE it is LOW (assumption 46). -/
def channelRequest (p : Power) : Channel :=
  match p.retune, p.retuneChannel with
  | .switch, some c => c
  | _, _ =>
    match p.channel with
    | .high => .high
    | .low | .none => .low

/-- Whether the segment in force is a SCAN or DWELL of nonzero power (R81). -/
def poweredSegment (s : State) (x : StationId) : Bool :=
  (s.segInForce x).any fun g => (g.kind == .scan || g.kind == .dwell) && g.power != 0

/-- The value for POWER_SET, with the tracker's stale mark (R36, R79, R80, R81). -/
def powerSetOf (s : State) (x : StationId) : PowerSet :=
  let setpoint :=
    if forcedZero s x then 0 else Nat.min (targetOf s x) ((s.st x).pcu.lastSent + rampStep s x)
  { setpoint := setpoint, channel := channelRequest (s.st x).pcu,
    run := !forcedZero s x && (decide (0 < setpoint) || poweredSegment s x),
    stale := (s.st x).trk.extrapolating }

/-- The unit recomputes target and held value (R77 to R81). -/
def pcuRecompute (x : StationId) (s : State) : State :=
  modPcu x
    (fun p => { p with target := targetOf s x, rampValue := rampKept s x, held := powerSetOf s x }) s

/-- The LPU hands back a written setpoint (R80). -/
def handBack (x : StationId) (value : Nat) (cycle : Cycle) : State → State :=
  modPcu x fun p =>
    { p with lastSent := value,
             history := (if p.history.length < 3 then p.history else p.history.drop 1) ++
               [(value, cycle)] }

/-! ## Retune -/

/-- Start a retune to `c` (R82). -/
def startRetune (x : StationId) (c : Channel) (s : State) : State :=
  pcuRecompute x
    (modPcu x
      (fun p => { p with retuneChannel := some c, retune := .drain,
                         retuneTimer := .running (s.st x).par.retuneTimeout, devCount := 0,
                         devRun := false }) s)

/-- A channel as the channel in force. -/
def channelInForce : Channel → ChannelInForce
  | .low => .low
  | .high => .high

/-- The channel in force equals `c`. -/
def inForce (p : Power) (c : Channel) : Bool :=
  match p.channel, c with
  | .low, .low => true
  | .high, .high => true
  | _, _ => false

/-- At START acceptance the unit compares the first channel with the channel in force (R82). -/
def firstChannel (x : StationId) (c : Channel) (s : State) : State :=
  if inForce (s.st x).pcu c then s else startRetune x c s

/-- Abandon a retune in progress (R95, step 2). -/
def abandonRetune (x : StationId) (s : State) : State :=
  if (s.st x).pcu.retune = .none then s
  else
    pcuRecompute x
      (modPcu x (fun p => { p with retune := .none, retuneChannel := none, retuneTimer := .stopped }) s)

/-! ## Energy account -/

/-- The expected energy of segment `i` (R91); absent for a SKIP. -/
def expectedEnergy (segs : List Segment) (i : Nat) (g : Segment) (length : Int) : Option Nat :=
  match g.kind, g.shape with
  | .scan, .step => some (g.power.toNat * length.toNat / g.speed.toNat)
  | .scan, .ramp =>
    some ((rampStart segs i + g.power.toNat) * length.toNat / (2 * g.speed.toNat))
  | .dwell, _ => some (g.power.toNat * g.speed.toNat / 1000)
  | .skip, _ => none

/-- Open the account of segment `i` at `cycle` and write the expected energy into its entry (R91). -/
def openAccount (x : StationId) (i : Nat) (cycle : Cycle) (s : State) : State :=
  let expected :=
    match (s.segments x)[i]? with
    | some g => expectedEnergy (s.segments x) i g (s.segLength x i)
    | none => none
  modEntry x i (fun e => { e with expected := expected })
    (modPcu x
      (fun p => { p with account := some { index := i, entryCycle := cycle, sum := 0, missing := 0,
                                           tempMin := none, tempMax := none, tempRaised := false } })
      s)

/-- The largest value of a 32-bit count that saturates (R174). -/
def satMax : Nat := 4294967295

/-- The measured energy shown for an account, in 0.1 kJ, saturating (R92, R174). -/
def Account.measured (a : Account) : Nat := Nat.min satMax (a.sum / 1000000)

/-- The verdict of R93, by the first line that applies. -/
def verdictOf (kind : Option Kind) (byHalt : Bool) (tol duration measured expected : Nat) : Verdict :=
  if kind = some .skip then .exempt
  else if byHalt then .exempt
  else if tol = 0 then .off
  else if duration < 20 then .exempt
  else if measured * 100 < expected * (100 - tol) then .low
  else if expected * (100 + tol) < measured * 100 then .high
  else .pass

/-- ENERGY_TOL of the profile being scanned. -/
def State.energyTol (s : State) (x : StationId) : Nat :=
  match (s.st x).seq.profile with
  | some p => p.header.energyTol.toNat
  | none => 0

/-- The verdict the open account of a station would close with at `cycle` (R93). -/
def closingVerdict (s : State) (x : StationId) (a : Account) (cycle : Cycle) (byHalt : Bool) :
    Verdict :=
  let expected := ((s.st x).result.bind (fun r => r.entries[a.index]?)).bind SegEntry.expected
  verdictOf (((s.segments x)[a.index]?).map Segment.kind) byHalt (s.energyTol x)
    (cyclesFrom a.entryCycle cycle) a.measured (expected.getD 0)

/-- Write an account's figures into its result entry. -/
def accountFigures (a : Account) (e : SegEntry) : SegEntry :=
  { e with measured := a.measured, missing := a.missing, tempMin := a.tempMin, tempMax := a.tempMax }

/-- Close the open account at `cycle`, writing figures, duration and verdict into its entry (R93). -/
def closeAccount (x : StationId) (cycle : Cycle) (byHalt : Bool) (s : State) : State :=
  match (s.st x).pcu.account with
  | none => s
  | some a =>
    let v := closingVerdict s x a cycle byHalt
    modPcu x (fun p => { p with account := none })
      (modEntry x a.index
        (fun e => { accountFigures a e with duration := cycle - a.entryCycle, verdict := some v }) s)

/-- The condition that closing the account at `cycle` raises: ENERGY_LOW or ENERGY_HIGH (R93). -/
def closingCond (s : State) (x : StationId) (cycle : Cycle) : Option Cond :=
  match (s.st x).pcu.account with
  | none => none
  | some a =>
    match closingVerdict s x a cycle false with
    | .low => some .energyLow
    | .high => some .energyHigh
    | .pass | .exempt | .off => none

end Sys2Proof.Machine
end

