-- ==== Sys2Proof/Machine/Station.lean ====
section
/-! DEFINITION. What goes with a change of a station's state: the travel request (R72), the tracker's
leaving (R45), the scheduler at rest (R117), the deviation count (R89) and the retained record (R178). -/

namespace Sys2Proof.Machine

/-! ## Travel (R72, R43) -/

/-- The travel direction: DECREASING only for a held profile with direction DOWN (R72). -/
def travelDirection (s : State) (x : StationId) : TravelDirection :=
  match s.direction x with
  | .up => .increasing
  | .down => .decreasing

/-- The travel request the table of R72 gives. -/
def travelOf (s : State) (x : StationId) : Travel :=
  let go (v : Nat) : Travel := { mode := .move, direction := travelDirection s x, speed := v }
  let stop : Travel := { mode := .stop, direction := travelDirection s x, speed := 0 }
  match (s.st x).seq.state with
  | .approach => go (s.st x).par.approachSpeed
  | .scanning =>
    match s.segInForce x with
    | some g => go g.speed.toNat
    | none => stop
  | .tail => if (s.st x).seq.phase = some .runout then go (s.st x).par.runoutSpeed else stop
  | .idle | .arming | .dwelling | .retuneHold | .holding | .halting | .complete | .faulted
  | .interrupted => stop

/-- A change of the travel request restarts the settle timer (R43). -/
def noteTravel (x : StationId) (changed : Bool) (settle : Nat) : State → State :=
  modTrk x fun t =>
    if changed then { t with settle := .running settle, settled := false, followingRun := false }
    else t

/-- The sequencer sets its travel request by its state and computes the TRAVEL_SET value (R72, R36);
the tracker watches the request (R43). -/
def syncTravel (x : StationId) (s : State) : State :=
  let t := travelOf s x
  noteTravel x (decide (t ≠ (s.st x).seq.travel)) (s.st x).par.followSettle
    (modSeq x
      (fun q => { q with travel := t, travelSet := t, travelStale := (s.st x).trk.extrapolating }) s)

/-! ## Leaving the active states -/

/-- The tracker leaves the scan (R45). -/
def leaveTracker (t : Tracker) : Tracker :=
  { t with estimate := t.last.map Accepted.position, extrapolating := false, missCount := 0,
           jumpRun := false, staleRun := false, axisFaultRun := false, reversalRun := false,
           followingRun := false, velocity := 0, established := false, settle := .stopped,
           settled := false, farthest := none }

/-- The scheduler recomputes the QUENCH_SET value (R98). -/
def recomputeQuench (x : StationId) (s : State) : State :=
  modQsc x (fun q => { q with held := q.lastIssued, stale := (s.st x).trk.extrapolating }) s

/-- The scheduler of a station at rest (R117). -/
def restQuench (x : StationId) (s : State) : State :=
  recomputeQuench x
    (modQsc x
      (fun q => { q with report := none, valve := .stopped, flowCheck := .disarmed, flowRun := false,
                         faultRun := false }) s)

/-- The unit's counts at a change of state: deviation is counted afresh outside SCANNING and DWELLING
(R89), and the inverter-fault run ends when the station leaves the active states (R90). -/
def stateCounts (n : StationState) (p : Power) : Power :=
  { p with devCount := if n.heating then p.devCount else 0,
           devRun := if n.heating then p.devRun else false,
           faultRun := if n.active then p.faultRun else false }

/-- What a station that enters a state at rest leaves behind: the tracker's runs (R45) and the
scheduler's (R117). -/
def leaveScan (x : StationId) (s : State) : State := restQuench x (modTrk x leaveTracker s)

/-- The station enters state `n`: the blocks that follow the state act on the change. -/
def enterState (x : StationId) (n : StationState) (s : State) : State :=
  let s1 := modPcu x (stateCounts n) (modSeq x (fun q => { q with state := n }) s)
  let s2 := if n.active then s1 else leaveScan x s1
  syncTravel x (pcuRecompute x s2)

/-- The sequencer sets its segment index; no ramp value has been computed in the new segment (R55,
R77, R78). -/
def setIndex (x : StationId) (i : Option Nat) (s : State) : State :=
  syncTravel x
    (pcuRecompute x
      (modPcu x (fun p => { p with rampValue := none })
        (modSeq x (fun q => { q with index := i }) s)))

/-- The sequencer sets its tail phase (R63, R64, R65). -/
def setPhase (x : StationId) (ph : Option TailPhase) (s : State) : State :=
  syncTravel x (modSeq x (fun q => { q with phase := ph }) s)

/-! ## The retained record (R73, R178) -/

/-- The last shaft position: the x of the tracker's latest report, or of its last accepted sample
(R178). -/
def lastShaft (v : Station) : Option Int :=
  match v.trk.report.bind Report.x with
  | some p => some p
  | none => v.trk.last.map (fun l => l.position - v.seq.datum)

/-- Change the retained record of a station. -/
def putRetained (x : StationId) (r : Option Retained) (s : State) : State :=
  { s with rtb := { s.rtb with records := s.rtb.records.set x r } }

/-- Write the retained record whole, with state `n` and cycle `c` (R178). -/
def writeRetained (x : StationId) (n : StationState) (c : Cycle) (s : State) : State :=
  match (s.st x).seq.profile with
  | some p =>
    putRetained x
      (some { profile := p.number, revision := p.revision, datum := (s.st x).seq.datum,
              index := (s.st x).seq.index, position := lastShaft (s.st x), cycle := c, state := n }) s
  | none => s

/-- Write the retained record as the station stands, at the current cycle count (R73). -/
def writeRetainedNow (x : StationId) (s : State) : State :=
  writeRetained x (s.st x).seq.state s.cycle s

end Sys2Proof.Machine
end

