-- ==== Sys2Proof/Machine/Lines.lean ====
section
/-! DEFINITION. The program engines of the Line Program Unit (R129 to R134). -/

namespace Sys2Proof.Machine

/-- The level a line takes from an action (R130). -/
def LineAction.apply (a : LineAction) (level : Bool) : Bool :=
  match a with
  | .keep => level
  | .on => true
  | .off => false

/-- The steps of a program. -/
def ProgTable.steps (t : ProgTable) : Program → Vector ProgStep 8
  | .start => t.start
  | .finish => t.finish
  | .halt => t.halt

/-- Step `i` of a program of a station. -/
def State.progStep (s : State) (x : StationId) (p : Program) (i : Nat) : ProgStep :=
  (((s.st x).eng.table.steps p)[i]?).getD idleStep

/-- The delay of a code in half milliseconds: 2^(k-1), none for 0 (R130). -/
def delayOf (code : Nat) : Nat := if code = 0 then 0 else 2 ^ (code - 1)

/-- A step applies its three actions as one change of the lines; a change of PERMIT is told to the
Power Command Unit, which recomputes at once (R132, R133). -/
def actStep (x : StationId) (g : ProgStep) (s : State) : State :=
  let before := (s.st x).eng.permit
  let s1 :=
    modEng x
      (fun e => { e with permit := g.permit.apply e.permit, qforce := g.qforce.apply e.qforce,
                         spin := g.spin.apply e.spin }) s
  let s2 := pcuRecompute x s1
  if (s1.st x).eng.permit = before then s1 else s2

/-- The program ends: nothing runs, and its end is owed to the sequencer (R132, R133). -/
def endProgram (x : StationId) (p : Program) : State → State :=
  modEng x fun e => { e with running := none, step := none, timer := .stopped, endOwed := some p }

/-- Run a program from step `i`: steps without delay act at once, a step with a delay starts the step
timer (R132). `fuel` is the steps left of the eight. -/
def runFrom : Nat → StationId → Program → Nat → State → State
  | 0, x, p, _, s => endProgram x p s
  | fuel + 1, x, p, i, s =>
    let g := s.progStep x p i
    let s1 := modEng x (fun e => { e with running := some p, step := some i }) s
    if g.delay = 0 then
      let s2 := actStep x g s1
      if g.last || decide (i = 7) then endProgram x p s2 else runFrom fuel x p (i + 1) s2
    else modEng x (fun e => { e with timer := .running (delayOf g.delay) }) s1

/-- Begin a program at step 0; a running one is abandoned and reports no end (R132, R134). -/
def beginProgram (x : StationId) (p : Program) (s : State) : State :=
  runFrom 8 x p 0
    (modEng x (fun e => { e with timer := .stopped, endOwed := none }) s)

/-- A request for a program: ignored while HALT runs (R134). -/
def requestProgram (x : StationId) (p : Program) (s : State) : State :=
  if (s.st x).eng.running = some .halt then s else beginProgram x p s

/-- The step timer expires: the step acts, then the program ends or goes on (R132). -/
def stepExpires (x : StationId) (s : State) : State :=
  match (s.st x).eng.running, (s.st x).eng.step with
  | some p, some i =>
    let g := s.progStep x p i
    let s1 := actStep x g (modEng x (fun e => { e with timer := .stopped }) s)
    if g.last || decide (7 ≤ i) then endProgram x p s1 else runFrom (7 - i) x p (i + 1) s1
  | _, _ => s

end Sys2Proof.Machine
end

