-- ==== Sys2Proof/Machine/Supply.lean ====
section
/-! DEFINITION. Issuing quench changes: the due test and the issue of the Quench Scheduler (R103 to
R108, R115), the decisions of the Supply Arbiter (R119 to R128), and the tail's reaction to the end
marker (R64). The two units call on each other, so their work runs as a list of tasks. -/

namespace Sys2Proof.Machine

/-- Work one of the two units still has to do: test the head of a station's queue (R104), or examine
the waiting requests after a fall of flow (R124). -/
inductive QTask
  | test (x : StationId)
  | examine
  deriving DecidableEq, Repr

/-! ## Issuing a set -/

/-- Steps 1 to 3 of an issue (R107): the set, the held value, the granted flow (R119). -/
def issueSet (x : StationId) (z : ZoneSet) (s : State) : State :=
  modSar x (fun a => { a with granted := flowOf (s.st x).par z })
    (recomputeQuench x (modQsc x (fun q => { q with lastIssued := z }) s))

/-- Whether the issue of `z` lowers the station's granted flow, which lets the arbiter re-examine the
waiting requests (R119, R124). -/
def issueFalls (s : State) (x : StationId) (z : ZoneSet) : Bool :=
  decide (flowOf (s.st x).par z < (s.st x).sar.granted)

/-- The tasks that a fall brings. -/
def fallTasks (falls : Bool) : List QTask := if falls then [.examine] else []

/-- Step 6 of an issue (R107): the valve check of `z` starts (R111), the flow check is disarmed. -/
def startValve (x : StationId) (z : ZoneSet) (s : State) : State :=
  modQsc x
    (fun q => { q with valve := .running z s.cycle ((s.st x).par.valveLag + (s.st x).par.valveCheck),
                       flowCheck := .disarmed }) s

/-! ## Lateness (R108) -/

/-- The result entry an origin records in: its segment's, or the last segment's for END. -/
def originIndex (s : State) (x : StationId) : Origin → Nat
  | .segment i => i
  | .endMarker => (s.segments x).length - 1

/-- Record a lateness: the entry keeps the maximum (R108). -/
def recordLateness (x : StationId) (o : Origin) (l : Nat) (s : State) : State :=
  modEntry x (originIndex s x o) (fun e => { e with lateness := some (Nat.max (e.lateness.getD 0) l) })
    s

/-- The travel of the ring ahead of the due position to the position of the latest report; 0 when
negative or absent (R108). -/
def latenessOf (s : State) (x : StationId) (e : QEntry) : Nat :=
  match e.due, (s.st x).qsc.report.bind KeptReport.ring with
  | some d, some ring => (aheadBy (s.direction x) ring d.position).toNat
  | _, _ => 0

/-! ## The tail (R64, R115) -/

/-- The tail timer has expired: the scheduler is asked to close the quench and issues {} (R64, R115). -/
def closeQuench (x : StationId) (s : State) : State :=
  startValve x 0
    (issueSet x 0
      (modQsc x (fun q => { q with closing := true })
        (writeRetainedNow x
          (setPhase x (some .closing) (modSeq x (fun q => { q with tailTimer := .stopped }) s)))))

/-- TAIL_TIME of the profile being scanned. -/
def State.tailTime (s : State) (x : StationId) : Nat :=
  match (s.st x).seq.profile with
  | some p => p.header.tailTime.toNat
  | none => 0

/-- Phase OPEN begins: travel stops and the tail timer starts (R64). -/
def openTail (x : StationId) (s : State) : State :=
  writeRetainedNow x
    (setPhase x (some .openZones)
      (modSeq x (fun q => { q with tailTimer := .running (s.tailTime x) }) s))

/-- The scheduler reports the end marker issued; with TAIL_TIME 0 the timer expires as it starts
(R64). The tasks are those of the closing issue. -/
def endMarkerIssued (x : StationId) (s : State) : State × List QTask :=
  let s1 := openTail x s
  if s.tailTime x = 0 then (closeQuench x s1, fallTasks (issueFalls s1 x 0)) else (s1, [])

/-! ## Issuing the head (R107) -/

/-- Issue the head `e` of a station's queue: the seven steps of R107, and the tasks that follow. -/
def issueHead (x : StationId) (e : QEntry) (s : State) : State × List QTask :=
  let falls := fallTasks (issueFalls s x e.zones)
  let late := latenessOf s x e
  let s1 := issueSet x e.zones s
  let s2 := recordLateness x e.origin late s1
  let s3 := modQsc x (fun q => { q with queue := q.queue.drop 1 }) s2
  let s4 := startValve x e.zones s3
  match e.origin with
  | .endMarker =>
    let r := endMarkerIssued x s4
    (r.1, falls ++ r.2 ++ [.test x])
  | .segment _ => (s4, falls ++ [.test x])

/-! ## The arbiter's decisions -/

/-- The test of R123: the other station's granted flow plus the requested flow is within SUPPLY_FLOW. -/
def fits (s : State) (x : StationId) (flow : Nat) : Bool :=
  decide ((s.st x.other).sar.granted + flow ≤ s.params.supplyFlow)

/-- Whether a presented request is granted at once: the supply is unlimited (R120), the station has
booked it (R122), or it fits (R123). -/
def grantsNow (s : State) (x : StationId) (flow : Nat) : Bool :=
  decide (s.params.supplyFlow = 0) || decide (s.params.supplyMode = .reserve) || fits s x flow

/-- A grant: the granted flow becomes the requested flow, nothing waits (R119, R124). -/
def grant (x : StationId) (flow : Nat) : State → State :=
  modSar x fun a => { a with granted := flow, waiting := none }

/-- Mark the head waiting or not. -/
def markHead (x : StationId) (f : QEntry → QEntry) : State → State :=
  modQsc x fun q => { q with queue := q.queue.modify 0 f }

/-- Hold the head's request waiting (R123). -/
def holdRequest (x : StationId) (e : QEntry) (d : Due) (s : State) : State :=
  markHead x (fun h => { h with waiting := true })
    (modSar x
      (fun a => { a with waiting := some { zones := e.zones, flow := flowOf (s.st x).par e.zones,
                                           waitStart := d.cycle, duePosition := d.position,
                                           timer := .running (s.st x).par.quenchWaitMax,
                                           late := false } }) s)

/-- The station's waiting request is withdrawn (R125, R128). -/
def withdraw (x : StationId) : State → State := modSar x fun a => { a with waiting := none }

/-! ## The due test (R104, R105) -/

/-- Whether the ring of the kept report, carried ahead by the lead distance, reaches `base` (R104). -/
def reachesBase (d : Direction) (lag : Nat) (base : Int) (r : KeptReport) : Bool :=
  match r.ring with
  | none => false
  | some ring => decide (0 ≤ aheadBy d ring base + travelled r.velocity.natAbs (lag * 1000))

/-- The due marker that a test of the head gives it: the one it has, or a new one when it is found due
against the latest report (R104). -/
def dueOf (s : State) (x : StationId) (e : QEntry) : Option Due :=
  match e.due with
  | some d => some d
  | none =>
    match (s.st x).qsc.report with
    | none => none
    | some r =>
      if reachesBase (s.direction x) (s.st x).par.valveLag e.base r then
        r.ring.map (fun p => { cycle := s.cycle, position := p })
      else none

/-- Present the due head, or issue it when it needs no more flow than the station holds (R105). -/
def presentHead (x : StationId) (e : QEntry) (d : Due) (s : State) : State × List QTask :=
  let need := flowOf (s.st x).par e.zones
  if need ≤ (s.st x).sar.granted then issueHead x e s
  else if grantsNow s x need then issueHead x e (grant x need s)
  else (holdRequest x e d s, [])

/-- Test the head of a station's queue (R104). -/
def testHead (x : StationId) (s : State) : State × List QTask :=
  match (s.st x).qsc.queue.head? with
  | none => (s, [])
  | some e =>
    if e.waiting then (s, [])
    else
      match dueOf s x e with
      | none => (s, [])
      | some d =>
        presentHead x { e with due := some d } d
          (markHead x (fun h => { h with due := some d }) s)

/-! ## Examination (R124) -/

/-- Examine a station's waiting request: grant it when it fits, and issue its head (R106, R124). A
request that a merge has made smaller than the granted flow brings a fall (R125). -/
def examineOne (x : StationId) (s : State) : State × List QTask :=
  match (s.st x).sar.waiting with
  | none => (s, [])
  | some w =>
    if fits s x w.flow then
      let falls := fallTasks (decide (w.flow < (s.st x).sar.granted))
      let s1 := markHead x (fun h => { h with waiting := false }) (grant x w.flow s)
      match (s1.st x).qsc.queue.head? with
      | none => (s1, falls)
      | some e =>
        let r := issueHead x e s1
        (r.1, falls ++ r.2)
    else (s, [])

/-- Whether station B's request is examined first: its wait start is the earlier one (R124). -/
def examinesBFirst (s : State) : Bool :=
  match (s.st .a).sar.waiting, (s.st .b).sar.waiting with
  | some wa, some wb => laterThan wa.waitStart wb.waitStart
  | _, _ => false

/-- Examine the requests that are waiting, each against the flows as they then stand (R124). -/
def examineAll (s : State) : State × List QTask :=
  let first : StationId := if examinesBFirst s then .b else .a
  let r1 := examineOne first s
  let r2 := examineOne first.other r1.1
  (r2.1, r1.2 ++ r2.2)

/-! ## Running the tasks -/

/-- One task. -/
def runTask (t : QTask) (s : State) : State × List QTask :=
  match t with
  | .test x => testHead x s
  | .examine => examineAll s

/-- Run the tasks in order, each one's own tasks before those behind it. Every task but the last of a
chain issues an entry of a queue, so `fuel` bounds them by the queues' lengths (assumption 31). -/
def runTasks : Nat → List QTask → State → State
  | _, [], s => s
  | 0, _ :: _, s => s
  | fuel + 1, t :: rest, s =>
    let r := runTask t s
    runTasks fuel (r.2 ++ rest) r.1

/-- A bound on the tasks the queues can bring. -/
def taskFuel (s : State) : Nat :=
  8 * ((s.st .a).qsc.queue.length + (s.st .b).qsc.queue.length) + 32

/-- Run tasks to their end. -/
def settleTasks (ts : List QTask) (s : State) : State := runTasks (taskFuel s) ts s

/-! ## Issues outside the queue -/

/-- The tail timer's expiry: close the quench, and let the arbiter serve the other station (R64,
R115). -/
def tailExpired (x : StationId) (s : State) : State :=
  settleTasks (fallTasks (issueFalls s x 0)) (closeQuench x s)

/-- The scheduler is told of a halt: withdraw, discard, issue {}, stop the checks (R116, R128). -/
def quenchHalt (x : StationId) (s : State) : State :=
  let s1 := modQsc x (fun q => { q with queue := [] }) (withdraw x s)
  let s2 := issueSet x 0 s1
  let s3 :=
    modQsc x (fun q => { q with valve := .stopped, closing := false, flowCheck := .disarmed,
                                flowRun := false }) s2
  settleTasks (fallTasks (issueFalls s1 x 0)) s3

/-- At START acceptance the scheduler is emptied (R117). -/
def quenchStart (x : StationId) : State → State :=
  modQsc x fun q =>
    { q with queue := [], report := none, valve := .stopped, flowCheck := .disarmed,
             closing := false }

end Sys2Proof.Machine
end

