-- ==== Sys2Proof/Machine/Halt.lean ====
section
/-! DEFINITION. How a scan ends and how a condition is raised: the halt (R67), the ends of the line
programs (R51, R66, R68), and the Condition Unit's raise (R164, R165). -/

namespace Sys2Proof.Machine

/-! ## The end of a scan -/

/-- Close the scan result with the current cycle count as its end cycle (R175). -/
def closeResult (x : StationId) (outcome : ScanOutcome → ScanOutcome) (s : State) : State :=
  modResult x
    (Option.map fun r => { r with outcome := outcome r.outcome, endCycle := some s.cycle }) s

/-- The station gives back what it held for the scan: retained record, in-use mark, reservation (R66,
R68). -/
def releaseScan (x : StationId) (s : State) : State :=
  modSar x (fun a => { a with reservation := none })
    (modStore (fun t => { t with inUse := t.inUse.set x none }) (putRetained x none s))

/-- Every timer of the sequencer stopped (R66, R68). -/
def stopTimers (q : Sequencer) : Sequencer :=
  { q with armTimer := .stopped, dwellTimer := .stopped, holdTimer := .stopped,
           tailTimer := .stopped }

/-- The FINISH program has ended in FINISHING: the scan is complete (R66). -/
def completeScan (x : StationId) (s : State) : State :=
  let marked := (s.st x).seq.degraded || (s.st x).seq.disturbed
  let s1 := closeResult x (fun _ => if marked then .degraded else .good) s
  let s2 := modSeq x (fun q => { stopTimers q with phase := none, resultReady := true }) s1
  releaseScan x (enterState x .complete s2)

/-- The state a halted station ends in (R68). -/
def stateAfterHalt : Option Cause → StationState
  | some .abortCommand => .idle
  | some .linkReset => .idle
  | some (.cond _) => .faulted
  | none => .faulted

/-- The HALT program has ended in HALTING (R68). -/
def endHalt (x : StationId) (s : State) : State :=
  let s1 := closeResult x (fun o => o) s
  let s2 := modSeq x (fun q => { stopTimers q with resultReady := true }) s1
  releaseScan x (enterState x (stateAfterHalt (s.st x).seq.haltCause) s2)

/-! ## The arm check (R51) -/

/-- The latest POWER_ACTUAL sample of a station is FRESH and shows READY on channel `c` (R51). -/
def inverterReadyOn (s : State) (x : StationId) (c : Channel) : Bool :=
  let r := (s.link.samples.get x).powerActual
  r.fresh &&
    match r.value with
    | some v =>
      match inverterOf v[3], activeChannelOf v[2] with
      | some .ready, some a => decide (a = channelInForce c)
      | _, _ => false
    | none => false

/-- The shaft coordinate as the tracker believes it: the estimate minus the datum (R30). -/
def shaftOf (v : Station) : Option Int := v.trk.estimate.map (fun e => e - v.seq.datum)

/-- The arm check (R51). -/
def armCheck (s : State) (x : StationId) : Bool :=
  let v := s.st x
  match v.seq.profile with
  | none => false
  | some p =>
    decide (v.seq.state = .arming) &&
    decide (v.eng.running ≠ some .start) && decide (v.eng.endOwed ≠ some .start) &&
    decide (v.pcu.retune = .none) && inForce v.pcu p.firstChannel &&
    inverterReadyOn s x p.firstChannel &&
    (v.trk.flags.any fun f => f.homed && f.enabled && !f.driveFault) &&
    !v.trk.extrapolating &&
    ((shaftOf v).any fun at_ =>
      let behind := aheadBy p.header.direction p.header.start.toInt at_
      decide (0 ≤ behind ∧ behind ≤ v.par.approachMax))

/-- The check has passed: the arm timer stops, the retained record is written with APPROACH, and the
station enters APPROACH (R51). -/
def enterApproach (x : StationId) (s : State) : State :=
  enterState x .approach
    (writeRetained x .approach s.cycle (modSeq x (fun q => { q with armTimer := .stopped }) s))

/-- The end of a program reaches the sequencer (R133): START in ARMING, FINISH in FINISHING, HALT in
HALTING; in no other state does it do anything. -/
def deliverEnd (x : StationId) (s : State) : State :=
  match (s.st x).eng.endOwed with
  | none => s
  | some p =>
    let s1 := modEng x (fun e => { e with endOwed := none }) s
    match p with
    | .start => if armCheck s1 x then enterApproach x s1 else s1
    | .finish =>
      if (s1.st x).seq.state = .tail ∧ (s1.st x).seq.phase = some .finishing then completeScan x s1
      else s1
    | .halt => if (s1.st x).seq.state = .halting then endHalt x s1 else s1

/-! ## The halt (R67) -/

/-- The states in which a halt request is taken (R67). -/
def StationState.haltable (n : StationState) : Bool := n.active && decide (n ≠ .halting)

/-- The Power Command Unit is told of a halt (R95). -/
def powerHalt (x : StationId) (s : State) : State :=
  closeAccount x s.cycle true (abandonRetune x (pcuRecompute x s))

/-- The halt, in the order of R67. -/
def halt (x : StationId) (cause : Cause) (s : State) : State :=
  let s1 := enterState x .halting (modSeq x (fun q => { q with haltCause := some cause }) s)
  let s2 :=
    syncTravel x
      (modSeq x
        (fun q => { stopTimers q with heldState := none, pendingState := none, phase := none }) s1)
  let s3 := powerHalt x s2
  let s4 := quenchHalt x s3
  let s5 := requestProgram x .halt s4
  let s6 :=
    modResult x (Option.map fun r => { r with outcome := .aborted, cause := some cause }) s5
  writeRetainedNow x s6

/-- A halt request reaches a sequencer (R67): kept until the handling of an event has ended, taken in
an active state other than HALTING, ignored otherwise. -/
def haltRequest (x : StationId) (cause : Cause) (s : State) : State :=
  if (s.st x).seq.state.haltable then
    if (s.st x).seq.handling then
      modSeq x (fun q => { q with haltWaiting := some (q.haltWaiting.getD cause) }) s
    else deliverEnd x (halt x cause s)
  else s

/-- The sequencer begins to handle an event of its own. -/
def beginHandling (x : StationId) : State → State :=
  modSeq x fun q => { q with handling := true, haltWaiting := none }

/-- The handling has ended: a halt request that waited is taken (R54, R67), then the end of a program
that came meanwhile (R133). -/
def endHandling (x : StationId) (s : State) : State :=
  let waiting := (s.st x).seq.haltWaiting
  let s1 := modSeq x (fun q => { q with handling := false, haltWaiting := none }) s
  match waiting with
  | some c => deliverEnd x (haltRequest x c s1)
  | none => deliverEnd x s1

/-! ## Raising a condition (R164, R165) -/

/-- The station of a scope copy. -/
def Scope.station? : Scope → Option StationId
  | .station x => some x
  | .part => none

/-- The applied severity: the set severity, or the floor when that is higher (R164). -/
def appliedSeverity (s : State) (c : Cond) (floor : Option Severity) : Severity :=
  match floor with
  | some f => (s.cdu.setSeverity c).max f
  | none => s.cdu.setSeverity c

/-- The table entry after a raise (R164, step 1). -/
def raisedEntry (e : CondEntry) (cycle : Cycle) (v : Severity) : CondEntry :=
  { pending := true, count := Nat.min 255 (e.count + 1), lastCycle := some cycle,
    lastSeverity := some v }

/-- The first-condition record that a raise fills (R164, step 2). -/
def recordFor (s : State) (c : Cond) (sc : Scope) (v : Severity) : FirstRecord :=
  { code := c, station := sc.station?,
    state := sc.station?.map (fun x => (s.st x).seq.state),
    index := sc.station?.bind (fun x => (s.st x).seq.index),
    x := sc.station?.bind (fun x => (s.st x).trk.report.bind Report.x),
    cycle := s.cycle, severity := v }

/-- The bit of a code in a set of codes (R181). -/
def codeBit (c : Cond) : BitVec 32 := 1#32 <<< c.code

/-- Steps 1 and 2 of a raise: entry, record or next-condition set (R164). -/
def logRaise (c : Cond) (sc : Scope) (v : Severity) (s : State) : State :=
  modCdu
    (fun u =>
      let u1 := u.putEntry c sc (raisedEntry (u.entry c sc) s.cycle v)
      match u1.first with
      | none => { u1 with first := some (recordFor s c sc v) }
      | some _ => { u1 with nextSet := u1.nextSet ||| codeBit c,
                            nextCount := Nat.min 255 (u1.nextCount + 1) }) s

/-- Whether a severity applied for a scope copy covers station `x` (R165). -/
def covers (sc : Scope) (v : Severity) (x : StationId) : Bool :=
  match sc with
  | .part => true
  | .station y => decide (x = y) || decide (v = .haltAll)

/-- The applied severity acts on one station (R165, R71). -/
def applyTo (c : Cond) (sc : Scope) (v : Severity) (x : StationId) (s : State) : State :=
  if covers sc v x && s.active x then
    match v with
    | .note => s
    | .degrade => modSeq x (fun q => { q with degraded := true }) s
    | .abort => haltRequest x (.cond c) s
    | .haltAll => haltRequest x (.cond c) s
  else s

/-- Raise condition `c` for a scope copy with an optional floor (R164). That the severity acts on station A
before station B is the model's choice, assumption 59. -/
def raise (c : Cond) (sc : Scope) (floor : Option Severity) (s : State) : State :=
  let v := appliedSeverity s c floor
  applyTo c sc v .b (applyTo c sc v .a (logRaise c sc v s))

/-- Raise a condition of station scope. -/
def raiseSt (c : Cond) (x : StationId) : State → State := raise c (.station x) none

/-- Raise a condition of link, store or part scope. -/
def raisePart (c : Cond) : State → State := raise c .part none

end Sys2Proof.Machine
end

