-- ==== Sys2Proof/Machine/Offers.lean ====
section
/-! DEFINITION. Offers to a quench queue: new entries, merges and the end marker (R99 to R102), with the
arbiter's side of a merge (R125). -/

namespace Sys2Proof.Machine

/-- The answers of the scheduler to an offer (R99). -/
inductive OfferAnswer
  | added
  | replaced
  | removed
  | noEntry
  deriving DecidableEq, Repr

/-- The reference set: the tail entry's zones, or the last issued set when the queue is empty (R99). -/
def referenceSet (q : Quench) : ZoneSet :=
  match q.queue.getLast? with
  | some t => t.zones
  | none => q.lastIssued

/-- The set that precedes the tail entry (R100). -/
def precedingSet (q : Quench) : ZoneSet :=
  match q.queue.dropLast.getLast? with
  | some t => t.zones
  | none => q.lastIssued

/-- A full queue (R102). -/
def queueFull (q : Quench) : Bool := decide (Config.queueCapacity ≤ q.queue.length)

/-- Change the tail entry. -/
def modTail (f : QEntry → QEntry) (q : List QEntry) : List QEntry :=
  q.modify (q.length - 1) f

/-- Append an entry; a new head is tested at once (R99, case 4). -/
def appendEntry (x : StationId) (base : Int) (z : ZoneSet) (o : Origin) (s : State) : State :=
  let head := (s.st x).qsc.queue.isEmpty
  let s1 :=
    modQsc x
      (fun q => { q with queue := q.queue ++
        [{ base := base, zones := z, origin := o, due := none, waiting := false }] }) s
  if head then settleTasks [.test x] s1 else s1

/-- The tail entry takes a new set and origin; a waiting request follows it and is examined at once
(R100, R125). -/
def replaceTail (x : StationId) (t : QEntry) (z : ZoneSet) (o : Origin) (s : State) : State :=
  let s1 :=
    modQsc x (fun q => { q with queue := modTail (fun e => { e with zones := z, origin := o }) q.queue })
      s
  if t.waiting then
    let s2 :=
      modSar x
        (fun a =>
          { a with
            waiting := a.waiting.map fun w => { w with zones := z, flow := flowOf (s.st x).par z } })
        s1
    let r := examineOne x s2
    settleTasks r.2 r.1
  else s1

/-- The tail entry is removed; a waiting request is withdrawn and the next head tested (R100, R125). -/
def removeTail (x : StationId) (t : QEntry) (s : State) : State :=
  let s1 := modQsc x (fun q => { q with queue := q.queue.dropLast }) s
  if t.waiting then settleTasks [.test x] (withdraw x s1) else s1

/-- Merge a segment offer into the tail entry `t` of equal base (R100; assumption 35). -/
def mergeOffer (x : StationId) (t : QEntry) (z : ZoneSet) (o : Origin) (s : State) :
    State × OfferAnswer :=
  if z = precedingSet (s.st x).qsc then (removeTail x t s, .removed)
  else if z ≠ t.zones then (replaceTail x t z o s, .replaced)
  else (s, .noEntry)

/-- An offer that finds the queue full is dropped (R102). -/
def dropOffer (x : StationId) (s : State) : State × OfferAnswer :=
  (raiseSt .quenchQueueFull x s, .noEntry)

/-- The tail entry of a station's queue when its base is `base`. -/
def tailAt (s : State) (x : StationId) (base : Int) : Option QEntry :=
  match (s.st x).qsc.queue.getLast? with
  | some t => if t.base = base then some t else none
  | none => none

/-- A segment offer, by the first case of R99 that applies. -/
def offerSegment (x : StationId) (base : Int) (z : ZoneSet) (i : Nat) (s : State) :
    State × OfferAnswer :=
  match tailAt s x base with
  | some t => mergeOffer x t z (.segment i) s
  | none =>
    if z = referenceSet (s.st x).qsc then (s, .noEntry)
    else if queueFull (s.st x).qsc then dropOffer x s
    else (appendEntry x base z (.segment i) s, .added)

/-- The end marker's offer (R101). -/
def offerEnd (x : StationId) (base : Int) (z : ZoneSet) (s : State) : State × OfferAnswer :=
  match tailAt s x base with
  | some t => (replaceTail x t z .endMarker s, .replaced)
  | none =>
    if queueFull (s.st x).qsc then dropOffer x s
    else (appendEntry x base z .endMarker s, .added)

/-- The sequencer records by the answer: the lateness of the offer's entry is present, at 0 until an
issue records more (R108; assumption 39 for the end marker). -/
def recordAnswer (x : StationId) (o : Origin) (r : State × OfferAnswer) : State :=
  match r.2 with
  | .added | .replaced =>
    modEntry x (originIndex r.1 x o) (fun e => { e with lateness := some (e.lateness.getD 0) }) r.1
  | .removed | .noEntry => r.1

end Sys2Proof.Machine
end

