-- ==== Sys2Proof/Machine/Tracker.lean ====
section
/-! DEFINITION. The Position Tracker: clearing (R28), the judging of a sample (R31 to R42, R44), the
following at rest (R30), and the position report (R29, R34). -/

namespace Sys2Proof.Machine

/-! ## Prediction and velocity -/

/-- The time between two cycle counts in µs (R31). -/
def cycleSpan (cycleTime : Nat) (c d : Cycle) : Nat := cyclesFrom c d * cycleTime

/-- The prediction: the last accepted position carried forward by the velocity to cycle `c` (R31). -/
def prediction (cycleTime : Nat) (t : Tracker) (c : Cycle) : Option Int :=
  t.last.map fun l => l.position + travelled t.velocity (cycleSpan cycleTime l.cycle c)

/-- The velocity between two accepted samples (R33); over no time it is a free value (assumption 10). -/
def velocityBetween (cycleTime : Nat) (l : Accepted) (p : Int) (c : Cycle) : Int :=
  let us := cycleSpan cycleTime l.cycle c
  if us = 0 then Config.zeroIntervalVelocity (p - l.position)
  else ((p - l.position) * 1000000).tdiv us

/-- Whether `p` lies within MAX_STEP of the prediction; with no last accepted sample there is no test
(R31). -/
def withinStep (cycleTime maxStep : Nat) (t : Tracker) (p : Int) (c : Cycle) : Bool :=
  match prediction cycleTime t c with
  | none => true
  | some q => decide ((p - q).natAbs ≤ maxStep)

/-! ## Accepting and missing -/

/-- Acceptance of a sample (R31, R33). -/
def acceptSample (cycleTime : Nat) (p : Int) (c : Cycle) (t : Tracker) : Tracker :=
  let base : Tracker :=
    { t with previous := t.last, last := some { position := p, cycle := c }, estimate := some p,
             missCount := 0, jumpRun := false, staleRun := false, extrapolating := false }
  match t.last with
  | none => base
  | some l => { base with velocity := velocityBetween cycleTime l p c, established := true }

/-- A miss at cycle `c` (R35). -/
def missSample (cycleTime : Nat) (c : Cycle) (t : Tracker) : Tracker :=
  { t with estimate := prediction cycleTime t c, extrapolating := true,
           missCount := Nat.min 255 (t.missCount + 1) }

/-- What a unit asks the Condition Unit to raise: a condition and a floor. -/
abbrev Ask := Cond × Option Severity

/-- The states in which STRICT acts (R38). -/
def StationState.strictState : StationState → Bool
  | .approach | .scanning | .dwelling | .tail => true
  | .idle | .arming | .retuneHold | .holding | .halting | .complete | .faulted | .interrupted => false

/-- POSITION_STALE at a miss, the count already raised (R37, R38). -/
def judgeStale (par : StationParams) (state : StationState) (t : Tracker) : Tracker × List Ask :=
  if t.staleRun then (t, [])
  else if par.strict && state.strictState then
    ({ t with staleRun := true }, [(.positionStale, some .abort)])
  else if t.missCount = par.staleLimit then
    ({ t with staleRun := true }, [(.positionStale, none)])
  else (t, [])

/-! ## The axis (R39, R40) -/

/-- The flags of a FRESH sample are kept, and what has been seen set (R39). -/
def keepFlags (f : AxisFlags) (t : Tracker) : Tracker :=
  { t with flags := some f, homedSeen := t.homedSeen || f.homed,
           enabledSeen := t.enabledSeen || f.enabled }

/-- A faulty axis (R40). -/
def axisFaulty (f : AxisFlags) (t : Tracker) : Bool :=
  f.driveFault || (!f.homed && t.homedSeen) || (!f.enabled && t.enabledSeen)

/-- AXIS_FAULT at a FRESH sample whose flags have been kept (R40). -/
def judgeAxis (f : AxisFlags) (t : Tracker) : Tracker × List Ask :=
  ({ t with axisFaultRun := axisFaulty f t },
    if axisFaulty f t && !t.axisFaultRun then [(.axisFault, none)] else [])

/-! ## Reversal and following -/

/-- The states in which an accepted sample enters the farthest reached (R41). -/
def StationState.reachState (n : StationState) : Bool := n.active && decide (n ≠ .arming)

/-- The states in which reversal is tested (R42). -/
def StationState.reversalState : StationState → Bool
  | .scanning | .dwelling | .tail => true
  | .idle | .arming | .approach | .retuneHold | .holding | .halting | .complete | .faulted
  | .interrupted => false

/-- The farthest reached after an accepted sample at shaft coordinate `x` (R41). -/
def updateFarthest (state : StationState) (d : Direction) (x : Int) (t : Tracker) : Tracker :=
  if state.reachState then
    { t with farthest :=
        match t.farthest with
        | none => some x
        | some f => if strictlyAhead d x f then some x else some f }
  else t

/-- How far `x` lies behind the farthest reached (R42). -/
def behindBy (d : Direction) (x : Int) (t : Tracker) : Int :=
  match t.farthest with
  | none => 0
  | some f => aheadBy d f x

/-- REVERSAL at an accepted sample, the farthest reached already updated (R42). -/
def judgeReversal (par : StationParams) (state : StationState) (d : Direction) (x : Int)
    (t : Tracker) : Tracker × List Ask :=
  if state.reversalState then
    let beyond := decide ((par.reversalTol : Int) < behindBy d x t)
    ({ t with reversalRun := beyond },
      if beyond && !t.reversalRun then [(.reversal, none)] else [])
  else (t, [])

/-- The states in which following is checked (R44). -/
def StationState.followState : StationState → Bool
  | .approach | .scanning | .tail => true
  | .idle | .arming | .dwelling | .retuneHold | .holding | .halting | .complete | .faulted
  | .interrupted => false

/-- Whether the velocity deviates from the requested speed (R44). -/
def followDeviates (par : StationParams) (speed : Nat) (v : Int) : Bool :=
  decide (speed * par.followTol < ((v.natAbs : Int) - speed).natAbs * 100)

/-- FOLLOWING at an accepted sample (R44). -/
def judgeFollowing (par : StationParams) (state : StationState) (travel : Travel) (t : Tracker) :
    Tracker × List Ask :=
  if state.followState && decide (travel.mode = .move) && t.settled && t.established then
    let off := followDeviates par travel.speed t.velocity
    ({ t with followingRun := off }, if off && !t.followingRun then [(.following, none)] else [])
  else (t, [])

/-! ## A sample -/

/-- The scan direction of a station. -/
def stationDirection (v : Station) : Direction :=
  match v.seq.profile with
  | some p => p.header.direction
  | none => .up

/-- A FRESH sample whose position is accepted. -/
def judgeAccepted (cycleTime : Nat) (v : Station) (p : Int) (f : AxisFlags) (c : Cycle) :
    Tracker × List Ask :=
  let x := p - v.seq.datum
  let r1 := judgeAxis f (keepFlags f (acceptSample cycleTime p c v.trk))
  let r2 :=
    judgeReversal v.par v.seq.state (stationDirection v) x
      (updateFarthest v.seq.state (stationDirection v) x r1.1)
  let r3 := judgeFollowing v.par v.seq.state v.seq.travel r2.1
  (r3.1, r1.2 ++ r2.2 ++ r3.2)

/-- A FRESH sample whose position is rejected (R32). -/
def judgeRejected (cycleTime : Nat) (v : Station) (f : AxisFlags) (c : Cycle) :
    Tracker × List Ask :=
  let jumps := if v.trk.jumpRun then [] else [(Cond.positionJump, none)]
  let r1 := judgeAxis f (keepFlags f { missSample cycleTime c v.trk with jumpRun := true })
  let r2 := judgeStale v.par v.seq.state r1.1
  (r2.1, jumps ++ r1.2 ++ r2.2)

/-- A sample in a state that is not active is followed without judging (R30). -/
def followSample (sample : PositionSample) (t : Tracker) : Tracker :=
  match sample.body with
  | .fresh p f =>
    keepFlags f { t with last := some { position := p.toInt, cycle := sample.cycle },
                         estimate := some p.toInt }
  | .missing => t

/-- The judging of one sample: the tracker afterwards and the conditions to raise, in order
(assumption 13). -/
def judge (cycleTime : Nat) (v : Station) (sample : PositionSample) : Tracker × List Ask :=
  if v.seq.state.active then
    match sample.body with
    | .fresh p f =>
      if withinStep cycleTime v.par.maxStep v.trk p.toInt sample.cycle then
        judgeAccepted cycleTime v p.toInt f sample.cycle
      else judgeRejected cycleTime v f sample.cycle
    | .missing => judgeStale v.par v.seq.state (missSample cycleTime sample.cycle v.trk)
  else (followSample sample v.trk, [])

/-- Raise what a tracker asks for. -/
def raiseAsks (x : StationId) (asks : List Ask) (s : State) : State :=
  asks.foldl (fun s a => raise a.1 (.station x) a.2 s) s

/-! ## The report -/

/-- IN_MOTION is clear in the kept flags; absent flags count as clear (R30, R34). -/
def notInMotion (t : Tracker) : Bool :=
  match t.flags with
  | some f => !f.inMotion
  | none => true

/-- The quench-ring position for shaft coordinate `x` (R34). -/
def ringAt (v : Station) (x : Int) : Option Int :=
  v.seq.profile.map fun p =>
    match p.header.direction with
    | .up => x - p.header.quenchOffset.toNat
    | .down => x + p.header.quenchOffset.toNat

/-- Standstill in a report of an active station (R34). -/
def standstill (v : Station) : Bool :=
  decide (v.trk.velocity.natAbs ≤ v.par.standstill) &&
    (v.trk.estimate.isNone || notInMotion v.trk)

/-- The position report of a station for a sample of cycle `c` (R29, R30, R34). -/
def reportOf (v : Station) (c : Cycle) : Report :=
  let x := shaftOf v
  { x := x, velocity := v.trk.velocity,
    lookAhead :=
      if v.seq.state.active then x.map (fun p => p + travelled v.trk.velocity v.par.lookAhead)
      else x,
    ring := if v.seq.state.active then x.bind (ringAt v) else none,
    standstill := if v.seq.state.active then standstill v else notInMotion v.trk,
    extrapolating := v.trk.extrapolating, flags := v.trk.flags, cycle := c }

/-- The tracker's part of a POSITION sample: it judges, raises, and forms its report (R29). -/
def trackerStage (x : StationId) (sample : PositionSample) (s : State) : State :=
  let r := judge s.params.cycleTime (s.st x) sample
  let s1 := raiseAsks x r.2 (modTrk x (fun _ => r.1) s)
  modTrk x (fun t => { t with report := some (reportOf (s1.st x) sample.cycle) }) s1

/-- The tracker is cleared (R28). -/
def clearTracker (x : StationId) : State → State := modTrk x fun _ => clearedTracker

/-- The settle timer expires (R43). -/
def settleExpires (x : StationId) : State → State :=
  modTrk x fun t => { t with settle := .stopped, settled := true }

end Sys2Proof.Machine
end

