-- ==== Sys2Proof/Machine/Sequence.lean ====
section
/-! DEFINITION. The Scan Sequencer's handling of reports and timers (R51 to R65) and the handling of one
position report by sequencer, scheduler and power command unit (R76, R99, R103). -/

namespace Sys2Proof.Machine

/-! ## Entries -/

/-- Close the account of the segment in force at `cycle` and raise what the verdict asks for (R93). -/
def closeAndRaise (x : StationId) (cycle : Cycle) (s : State) : State :=
  let s1 := closeAccount x cycle false s
  match closingCond s x cycle with
  | some c => raiseSt c x s1
  | none => s1

/-- A new entry of the scan result (R174). -/
def newEntry (i : Nat) : SegEntry :=
  { index := i, expected := none, measured := 0, missing := 0, tempMin := none, tempMax := none,
    lateness := none, duration := 0, verdict := none }

/-- Append the entry of segment `i` to the scan result (R55, step 3; R173). -/
def appendResult (x : StationId) (i : Nat) : State → State :=
  modResult x (Option.map fun r => { r with highest := some i, entries := r.entries ++ [newEntry i] })

/-- The state a segment brings when no retune is needed (R55, step 5). -/
def stateOfKind : Kind → StationState
  | .dwell => .dwelling
  | .scan => .scanning
  | .skip => .scanning

/-- Step 5 of a segment entry: the station's new state, by way of a retune when the segment's channel is
not in force (R55, R58). -/
def enterSegmentState (x : StationId) (g : Segment) (s : State) : State :=
  if inForce (s.st x).pcu g.channel then enterState x (stateOfKind g.kind) s
  else
    startRetune x g.channel
      (enterState x .retuneHold
        (modSeq x (fun q => { q with pendingState := some (stateOfKind g.kind) }) s))

/-- The sequencer enters segment `i`, at the report or event of `cycle` (R55). -/
def segmentEntry (x : StationId) (i : Nat) (cycle : Cycle) (s : State) : State :=
  match (s.segments x)[i]? with
  | none => s
  | some g =>
    let s1 := setIndex x (some i) (closeAndRaise x cycle s)
    let s2 := openAccount x i cycle (appendResult x i s1)
    let s3 := recordAnswer x (.segment i) (offerSegment x g.start.toInt g.zones i s2)
    let s4 := enterSegmentState x g s3
    writeRetained x (s4.st x).seq.state cycle s4

/-- The sequencer enters TAIL (R63). -/
def tailEntry (x : StationId) (cycle : Cycle) (s : State) : State :=
  match (s.st x).seq.profile with
  | none => s
  | some p =>
    let s1 := closeAndRaise x cycle s
    let s2 :=
      recordAnswer x .endMarker (offerEnd x p.header.finish.toInt p.header.tailZones s1)
    let s3 := if (s2.st x).seq.phase = none then setPhase x (some .runout) s2 else s2
    writeRetained x .tail cycle (enterState x .tail s3)

/-! ## Stepping (R54) -/

/-- The next boundary: its position, and the segment it begins, or none for the profile end (R54). -/
def nextBoundary (s : State) (x : StationId) : Option (Int × Option Nat) :=
  (s.st x).seq.profile.map fun p =>
    match (s.st x).seq.index with
    | none => (p.header.start.toInt, some 0)
    | some i =>
      match (s.segments x)[i + 1]? with
      | some g => (g.start.toInt, some (i + 1))
      | none => (p.header.finish.toInt, none)

/-- Whether the sequencer steps in this state (R54). -/
def StationState.stepping : StationState → Bool
  | .approach | .scanning => true
  | .idle | .arming | .dwelling | .retuneHold | .holding | .tail | .halting | .complete | .faulted
  | .interrupted => false

/-- The boundary that the look-ahead position `p` has reached, if the sequencer takes it up now. -/
def reachedBoundary (s : State) (x : StationId) (p : Int) : Option (Option Nat) :=
  if (s.st x).seq.state.stepping then
    match nextBoundary s x with
    | some b => if reaches (s.direction x) p b.1 then some b.2 else none
    | none => none
  else none

/-- Step through the boundaries that look-ahead position `p` has reached (R54). `fuel` is the number of
boundaries a profile has. -/
def stepOn : Nat → StationId → Int → Cycle → State → State
  | 0, _, _, _, s => s
  | fuel + 1, x, p, cycle, s =>
    match reachedBoundary s x p with
    | none => s
    | some none => tailEntry x cycle s
    | some (some i) => stepOn fuel x p cycle (segmentEntry x i cycle s)

/-! ## The sequencer's handling of a report -/

/-- In ARMING the report brings the arm check (R51). -/
def armStage (x : StationId) (s : State) : State :=
  if armCheck s x then enterApproach x s else s

/-- The dwell timer starts (R57). -/
def startDwell (x : StationId) (s : State) : State :=
  match s.segInForce x with
  | some g => modSeq x (fun q => { q with dwellTimer := .running g.speed.toNat }) s
  | none => s

/-- Whether a report starts the dwell timer (R57; assumption 34). -/
def dwellStarts (s : State) (x : StationId) (r : Report) : Bool :=
  decide ((s.st x).seq.state = .dwelling) && r.standstill &&
    decide ((s.st x).seq.dwellTimer = .stopped)

/-- What the report does in the state it finds (R54, R57). -/
def stepStage (x : StationId) (r : Report) (s : State) : State :=
  if dwellStarts s x r then startDwell x s
  else
    match r.lookAhead with
    | some p => stepOn (Config.maxSegments + 1) x p r.cycle s
    | none => s

/-- The sequencer handles a position report (R51, R54, R57, R72). -/
def seqReport (x : StationId) (r : Report) (s : State) : State :=
  endHandling x (syncTravel x (stepStage x r (armStage x (beginHandling x s))))

/-! ## The scheduler's handling of a report (R98, R103, R127) -/

/-- The scheduler keeps a report. -/
def keepReport (x : StationId) (r : Report) (s : State) : State :=
  recomputeQuench x
    (modQsc x
      (fun q => { q with report := some { ring := r.ring, velocity := r.velocity, cycle := r.cycle } })
      s)

/-- How far the ring of a report has travelled beyond the due position of the waiting request, when
both are there (R127). -/
def waitTravel (s : State) (x : StationId) (r : Report) : Option Int :=
  match (s.st x).sar.waiting, r.ring with
  | some w, some ring => some (aheadBy (s.direction x) ring w.duePosition)
  | _, _ => none

/-- The late mark of the waiting request. -/
def lateMark (s : State) (x : StationId) : Bool := ((s.st x).sar.waiting.map Waiting.late).getD true

/-- QUENCH_LATE by distance (R127). -/
def lateByDistance (x : StationId) (r : Report) (s : State) : State :=
  match waitTravel s x r with
  | some d =>
    if ((s.st x).par.quenchLateDist : Int) < d ∧ lateMark s x = false then
      raiseSt .quenchLate x
        (modSar x (fun a => { a with waiting := a.waiting.map fun w => { w with late := true } }) s)
    else s
  | none => s

/-- The states in which the scheduler tests its head at a report (R103). -/
def StationState.testing : StationState → Bool
  | .scanning | .dwelling | .retuneHold | .holding | .tail => true
  | .idle | .arming | .approach | .halting | .complete | .faulted | .interrupted => false

/-- The scheduler handles a position report (R103). -/
def qscReport (x : StationId) (r : Report) (s : State) : State :=
  if (s.st x).seq.state.testing then
    settleTasks [.test x] (lateByDistance x r (keepReport x r s))
  else if (s.st x).seq.state = .arming ∨ (s.st x).seq.state = .approach then keepReport x r s
  else if s.active x then recomputeQuench x s
  else s

/-! ## One position report -/

/-- The report reaches sequencer and scheduler in an order that is a free value (R99; assumption 7), and
the Power Command Unit, which recomputes (R77). -/
def reportStage (x : StationId) (s : State) : State :=
  match (s.st x).trk.report with
  | none => s
  | some r =>
    let s0 := bump s
    pcuRecompute x
      (if Config.schedulerFirst s.draws then seqReport x r (qscReport x r s0)
       else qscReport x r (seqReport x r s0))

/-- A POSITION sample is handed to a station (R29). -/
def positionHanded (x : StationId) (sample : PositionSample) (s : State) : State :=
  reportStage x (trackerStage x sample s)

/-! ## Other events of the sequencer -/

/-- The dwell timer expires: the next segment is entered (R57). -/
def dwellExpires (x : StationId) (s : State) : State :=
  match (s.st x).seq.index with
  | none => s
  | some i =>
    endHandling x
      (segmentEntry x (i + 1) s.cycle
        (modSeq x (fun q => { q with dwellTimer := .stopped }) (beginHandling x s)))

/-- The retune is reported done (R59, R61, R85). -/
def retuneDone (x : StationId) (s : State) : State :=
  match (s.st x).seq.state, (s.st x).seq.pendingState with
  | .retuneHold, some n =>
    writeRetainedNow x (modSeq x (fun q => { q with pendingState := none }) (enterState x n s))
  | .holding, some n =>
    if (s.st x).seq.heldState = some .retuneHold then
      modSeq x (fun q => { q with heldState := some n, pendingState := none }) s
    else s
  | _, _ => s

/-- The scheduler reports the quench closed (R65). -/
def quenchClosed (x : StationId) (s : State) : State :=
  if (s.st x).seq.state = .tail ∧ (s.st x).seq.phase = some .closing then
    deliverEnd x
      (writeRetainedNow x (setPhase x (some .finishing) (requestProgram x .finish s)))
  else s

/-- The scheduler answers its closing request, if it still stands (R115). -/
def answerClosing (x : StationId) (s : State) : State :=
  if (s.st x).qsc.closing then
    quenchClosed x (modQsc x (fun q => { q with closing := false }) s)
  else s

end Sys2Proof.Machine
end

