-- ==== Sys2Proof/Machine/Samples.lean ====
section
/-! DEFINITION. The handling of POWER_ACTUAL, TEMPERATURE and QUENCH_ACTUAL samples (R76, R83 to R94, R110
to R114). -/

namespace Sys2Proof.Machine

/-! ## Energy (R92) -/

/-- Keep the result entry of the open account up to date (R92). -/
def showAccount (x : StationId) (s : State) : State :=
  match (s.st x).pcu.account with
  | some a => modEntry x a.index (accountFigures a) s
  | none => s

/-- Credit a sample to an account (R92, R174). -/
def creditBody (cycleTime : Nat) (body : PowerBody) (a : Account) : Account :=
  match body with
  | .fresh p _ _ => { a with sum := a.sum + p.toNat * cycleTime }
  | .missing => { a with missing := Nat.min satMax (a.missing + 1) }

/-- Credit a POWER_ACTUAL sample to the open account (R92). -/
def creditPower (x : StationId) (body : PowerBody) (s : State) : State :=
  showAccount x
    (modPcu x (fun p => { p with account := p.account.map (creditBody s.params.cycleTime body) }) s)

/-! ## Retune (R83, R84, R85) -/

/-- The residue of R83. -/
def residue (par : StationParams) : Nat := par.residualPower * par.powerRated / 100

/-- A FRESH sample ends DRAIN (R83). -/
def drainEnds (s : State) (x : StationId) (body : PowerBody) : Bool :=
  match (s.st x).pcu.retune, body with
  | .drain, .fresh p _ _ => decide (p.toNat ≤ residue (s.st x).par)
  | _, _ => false

/-- DRAIN passes to SWITCH (R83). -/
def toSwitch (x : StationId) (s : State) : State :=
  pcuRecompute x (modPcu x (fun p => { p with retune := .switch }) s)

/-- A FRESH sample restores (R84). -/
def restores (s : State) (x : StationId) (body : PowerBody) : Bool :=
  match (s.st x).pcu.retune, (s.st x).pcu.retuneChannel, body with
  | .switch, some c, .fresh _ active inverter =>
    decide (inverter = .ready) && decide (active = channelInForce c)
  | _, _, _ => false

/-- The retune timer stops at RESTORE, or is left expired (R85, step 1). -/
def Timer.halted (t : Timer) : Timer :=
  match t with
  | .expired => .expired
  | .stopped | .running _ | .frozen _ => .stopped

/-- RESTORE (R85). -/
def restore (x : StationId) (s : State) : State :=
  let s1 :=
    modPcu x
      (fun p => { p with retuneTimer := p.retuneTimer.halted,
                         channel := (p.retuneChannel.map channelInForce).getD p.channel,
                         retuneChannel := none, retune := .none }) s
  pcuRecompute x (retuneDone x s1)

/-- What a POWER_ACTUAL sample does to a retune; one captured before the retune began does nothing
(R83; assumption 41). -/
def retuneSample (x : StationId) (retuning : Bool) (body : PowerBody) (s : State) : State :=
  if retuning && drainEnds s x body then toSwitch x s
  else if retuning && restores s x body then restore x s
  else s

/-! ## Deviation (R88, R89) -/

/-- The band of a setpoint (R88). -/
def band (par : StationParams) (sp : Nat) : Nat :=
  Nat.max (sp * par.powerTol / 100) (par.powerRated / 100)

/-- The setpoint handed back for outbound cycle `c`, the latest one if two stand in the history. -/
def sentAt (p : Power) (c : Cycle) : Option Nat :=
  (p.history.reverse.find? (fun h => h.2 = c)).map Prod.fst

/-- The setpoint S1 of a counted cycle (R88). When the report of the same cycle is handed on with the
sample, the station it is judged on is the one that report leaves (R76; assumption 47). -/
def countedSetpoint (s : State) (x : StationId) (c : Cycle) : Option Nat :=
  let v := s.st x
  if v.seq.state.heating && decide (v.pcu.retune = .none) then
    match sentAt v.pcu (c - 1), sentAt v.pcu (c - 2) with
    | some s1, some s2 =>
      if ((s1 : Int) - s2).natAbs ≤ band v.par s1 then some s1 else none
    | _, _ => none
  else none

/-- The actual power deviates from `s1` (R89). -/
def powerDeviates (par : StationParams) (s1 actual : Nat) : Bool :=
  decide (band par s1 < ((actual : Int) - s1).natAbs)

/-- The sample raises POWER_DEVIATION (R89). -/
def deviationRaises (s : State) (x : StationId) (sample : PowerSample) : Bool :=
  match sample.body, countedSetpoint s x sample.cycle with
  | .fresh p _ _, some s1 =>
    powerDeviates (s.st x).par s1 p.toNat && !(s.st x).pcu.devRun &&
      decide (Nat.min (s.st x).par.powerDevCycles ((s.st x).pcu.devCount + 1) =
        (s.st x).par.powerDevCycles)
  | _, _ => false

/-- The deviation check at a POWER_ACTUAL sample (R88, R89). -/
def deviationCheck (x : StationId) (sample : PowerSample) (s : State) : State :=
  match sample.body, countedSetpoint s x sample.cycle with
  | .fresh p _ _, some s1 =>
    if powerDeviates (s.st x).par s1 p.toNat then
      let raises := deviationRaises s x sample
      let s2 :=
        modPcu x
          (fun u => { u with devCount := Nat.min (s.st x).par.powerDevCycles (u.devCount + 1),
                             devRun := u.devRun || raises }) s
      if raises then raiseSt .powerDeviation x s2 else s2
    else modPcu x (fun u => { u with devCount := 0, devRun := false }) s
  | _, _ => s

/-! ## Inverter fault (R90) -/

/-- The inverter state at a FRESH sample of an active station (R90). -/
def inverterCheck (x : StationId) (body : PowerBody) (s : State) : State :=
  match body with
  | .missing => s
  | .fresh _ _ inverter =>
    if s.active x then
      if inverter = .fault then
        if (s.st x).pcu.faultRun then s
        else raiseSt .inverterFault x (modPcu x (fun u => { u with faultRun := true }) s)
      else modPcu x (fun u => { u with faultRun := false }) s
    else s

/-- A POWER_ACTUAL sample is credited to the account open as it comes, and examined for the retune (R76,
R83 to R85, R92); `retuning` says that a retune was in progress when it was captured. -/
def powerTaken (x : StationId) (retuning : Bool) (body : PowerBody) (s : State) : State :=
  retuneSample x retuning body (creditPower x body s)

/-- A POWER_ACTUAL sample that was taken is checked for deviation and for the inverter's state (R88 to
R90). -/
def powerJudged (x : StationId) (sample : PowerSample) (s : State) : State :=
  inverterCheck x sample.body (deviationCheck x sample s)

/-- A POWER_ACTUAL sample is handed to a station with no report beside it (R76). The order inside is
assumption 14. -/
def powerHanded (x : StationId) (retuning : Bool) (sample : PowerSample) (s : State) : State :=
  powerJudged x sample (powerTaken x retuning sample.body s)

/-- A retune of station `x` is in progress. -/
def State.retuning (s : State) (x : StationId) : Bool := decide ((s.st x).pcu.retune ≠ .none)

/-! ## Temperature (R94) -/

/-- A signal is bound in the slot map. -/
def bound (m : SlotMap) (g : Signal) : Option MapEntry :=
  (m.toList.find? fun e => e.any fun v => v.signal = g).join

/-- The window under check: the account is open, the station heats, the segment has a window that
takes effect, TEMPERATURE is bound (R94). -/
def windowChecked (s : State) (x : StationId) : Option (Account × Window) :=
  match (s.st x).pcu.account with
  | none => none
  | some a =>
    match (s.segments x)[a.index]? with
    | none => none
    | some g =>
      match g.window with
      | none => none
      | some w =>
        if (s.st x).seq.state.heating && decide (g.kind ≠ .skip) &&
            (bound s.link.map (.feedback x .temperature)).isSome then some (a, w)
        else none

/-- An account takes a valid reading (R94). -/
def takeReading (t : Nat) (raises : Bool) (a : Account) : Account :=
  { a with tempMin := some (Nat.min (a.tempMin.getD t) t),
           tempMax := some (Nat.max (a.tempMax.getD t) t), tempRaised := a.tempRaised || raises }

/-- A TEMPERATURE sample is handed to a station (R94). -/
def temperatureHanded (x : StationId) (sample : TemperatureSample) (s : State) : State :=
  match sample.body, windowChecked s x with
  | .fresh c true, some (a, w) =>
    let t := c.toNat
    let raises := decide (t < w.low.toNat ∨ w.high.toNat < t) && !a.tempRaised
    let s1 :=
      showAccount x (modPcu x (fun p => { p with account := some (takeReading t raises a) }) s)
    if raises then raiseSt .temperatureWindow x s1 else s1
  | _, _ => s

/-! ## The manifold (R111, R113, R114) -/

/-- The sample passes the running valve check (R111). -/
def valvePasses (s : State) (x : StationId) (sample : QuenchSample) : Bool :=
  match (s.st x).qsc.valve, sample.body with
  | .running z issued _, .fresh zones manifold _ =>
    laterThan sample.cycle issued && decide (manifold = .ok) && decide (zones = z)
  | _, _ => false

/-- The set under a running valve check. -/
def checkedSet : ValveCheck → ZoneSet
  | .running z _ _ => z
  | .stopped | .passed | .failed => 0

/-- The pass of the valve check (R111). -/
def passValve (x : StationId) (c : Cycle) (s : State) : State :=
  answerClosing x
    (modQsc x
      (fun q => { q with valve := .passed,
                         flowCheck := if checkedSet q.valve = 0 then q.flowCheck else .armed 0 c }) s)

/-- The valve check at a sample (R111). -/
def valveStage (x : StationId) (sample : QuenchSample) (s : State) : State :=
  if valvePasses s x sample then passValve x sample.cycle s else s

/-- The manifold state at a FRESH sample of an active station (R113). -/
def manifoldStage (x : StationId) (body : QuenchBody) (s : State) : State :=
  match body with
  | .missing => s
  | .fresh _ manifold _ =>
    if s.active x then
      if manifold = .fault then
        if (s.st x).qsc.faultRun then s
        else raiseSt .valveMismatch x (modQsc x (fun q => { q with faultRun := true }) s)
      else modQsc x (fun q => { q with faultRun := false }) s
    else s

/-- The flow threshold (R114). -/
def flowThreshold (v : Station) : Nat := flowOf v.par v.qsc.lastIssued * v.par.flowLowPct / 100

/-- The low count and the flow of a sample that the armed flow check compares (R114). -/
def flowCompared (s : State) (x : StationId) (sample : QuenchSample) : Option (Nat × Cycle × Nat) :=
  match (s.st x).qsc.flowCheck, sample.body with
  | .armed low passed, .fresh _ _ flow =>
    if s.active x && decide ((s.st x).seq.state ≠ .halting) && laterThan sample.cycle passed then
      some (low, passed, flow.toNat)
    else none
  | _, _ => none

/-- The sample raises FLOW_LOW (R114). -/
def flowRaises (s : State) (x : StationId) (sample : QuenchSample) : Bool :=
  match flowCompared s x sample with
  | some (low, _, flow) =>
    decide (flow < flowThreshold (s.st x)) && !(s.st x).qsc.flowRun &&
      decide (Nat.min (s.st x).par.flowCheck (low + 1) = (s.st x).par.flowCheck)
  | none => false

/-- The flow check at a sample (R114). -/
def flowStage (x : StationId) (sample : QuenchSample) (s : State) : State :=
  match flowCompared s x sample with
  | some (low, passed, flow) =>
    if flow < flowThreshold (s.st x) then
      let raises := flowRaises s x sample
      let s1 :=
        modQsc x
          (fun q => { q with flowCheck := .armed (Nat.min (s.st x).par.flowCheck (low + 1)) passed,
                             flowRun := q.flowRun || raises }) s
      if raises then raiseSt .flowLow x s1 else s1
    else modQsc x (fun q => { q with flowCheck := .armed 0 passed, flowRun := false }) s
  | none => s

/-- A QUENCH_ACTUAL sample is handed to a station (R110): valve check, manifold state, flow check, in that
order, each on what the one before it left (assumption 48). -/
def quenchHanded (x : StationId) (sample : QuenchSample) (s : State) : State :=
  if s.active x then
    flowStage x sample (manifoldStage x sample.body (valveStage x sample s))
  else s

/-- The deadline of the valve check expires (R112). In a closing check the halt that VALVE_MISMATCH may bring
reaches the sequencer before the quench-closed report, of the two orders R65 and R115 allow (assumption
45). -/
def valveExpires (x : StationId) (s : State) : State :=
  answerClosing x
    (raiseSt .valveMismatch x (modQsc x (fun q => { q with valve := .failed }) s))

end Sys2Proof.Machine
end

