-- ==== Sys2Proof/Machine/Wire.lean ====
section
/-! DEFINITION. Bytes on the line: byte order, the two checks, the layout of a frame, and the rewriting
of slots during a passage (R5, R143, R158, R160). -/

namespace Sys2Proof.Machine

/-! ## Byte order (R158: most significant byte first) -/

/-- The two bytes of a 16-bit number. -/
def be16 (v : BitVec 16) : List Byte := [v.extractLsb' 8 8, v.extractLsb' 0 8]

/-- The four bytes of a 32-bit number. -/
def be32 (v : BitVec 32) : List Byte :=
  [v.extractLsb' 24 8, v.extractLsb' 16 8, v.extractLsb' 8 8, v.extractLsb' 0 8]

/-- The 16-bit number of two bytes. -/
def word16 (p q : Byte) : BitVec 16 := p ++ q

/-- The 32-bit number of four bytes. -/
def word32 (p q r t : Byte) : BitVec 32 := p ++ q ++ r ++ t

/-! ## Checks -/

/-- The bits of a byte, most significant first. -/
def bitsOf (b : Byte) : List Bool :=
  [b.getLsbD 7, b.getLsbD 6, b.getLsbD 5, b.getLsbD 4, b.getLsbD 3, b.getLsbD 2, b.getLsbD 1,
    b.getLsbD 0]

/-- One bit of the frame check, generator of R158. -/
def crc32Bit (c : BitVec 32) (bit : Bool) : BitVec 32 :=
  if c.msb != bit then (c <<< 1) ^^^ 0x04C11DB7#32 else c <<< 1

/-- The check register after the bytes. The match on the register's value has the kernel evaluate it byte
by byte; the value is the same in both branches. -/
def crc32From (c : BitVec 32) : List Byte → BitVec 32
  | [] => c
  | b :: rest =>
    match ((bitsOf b).foldl crc32Bit c).toNat with
    | 0 => crc32From (BitVec.ofNat 32 0) rest
    | n + 1 => crc32From (BitVec.ofNat 32 (n + 1)) rest

/-- The frame check: CRC-32 from all ones, most significant bit first, inverted at the end (R158). -/
def crc32 (bytes : List Byte) : BitVec 32 := ~~~(crc32From 0xFFFFFFFF#32 bytes)

/-- One bit of the profile check, generator x^16 + x^12 + x^5 + 1 (R5). -/
def crc16Bit (c : BitVec 16) (bit : Bool) : BitVec 16 :=
  if c.msb != bit then (c <<< 1) ^^^ 0x1021#16 else c <<< 1

/-- The check register after the bytes, evaluated byte by byte as in `crc32From`. -/
def crc16From (c : BitVec 16) : List Byte → BitVec 16
  | [] => c
  | b :: rest =>
    match ((bitsOf b).foldl crc16Bit c).toNat with
    | 0 => crc16From (BitVec.ofNat 16 0) rest
    | n + 1 => crc16From (BitVec.ofNat 16 (n + 1)) rest

/-- The profile check: CRC-16 from all ones, most significant bit first, no final inversion (R5). -/
def crc16 (bytes : List Byte) : BitVec 16 := crc16From 0xFFFF#16 bytes

/-! ## Frames (R160) -/

/-- The kind byte of a CYCLE frame. -/
def kindCycle : Byte := 1

/-- The kind byte of a LINK_RESET frame. -/
def kindReset : Byte := 2

/-- The 4-byte header of a frame: kind, slot count, cycle number (R143, R160). -/
structure FrameHeader where
  kind : Byte
  count : Byte
  number : CycleNumber
  deriving DecidableEq, Repr

/-- The header of the bytes received; none before four bytes have come (R143: no arrival). -/
def headerOf : List Byte → Option FrameHeader
  | kind :: count :: p :: q :: _ => some { kind := kind, count := count, number := word16 p q }
  | _ => none

/-- The length of a frame with `count` slots (R143). -/
def frameLength (count : Byte) : Nat := 61 + 11 * count.toNat

/-- Whether the frame is good at its completion: the negation of the four cases of R143. -/
def frameGood (bytes : List Byte) : Bool :=
  match headerOf bytes with
  | none => false
  | some h =>
    let n := frameLength h.count
    let frame := bytes.take n
    decide (n ≤ bytes.length) && decide (h.count.toNat ≤ 32)
      && (h.kind == kindCycle || h.kind == kindReset)
      && frame.drop (n - 4) == be32 (crc32 (frame.take (n - 4)))

/-- A good frame of kind CYCLE. -/
def goodCycle (bytes : List Byte) : Bool :=
  frameGood bytes && (headerOf bytes).any (fun h => h.kind == kindCycle)

/-- A good frame of kind LINK_RESET. -/
def goodReset (bytes : List Byte) : Bool :=
  frameGood bytes && (headerOf bytes).any (fun h => h.kind == kindReset)

/-- A slot of a frame: id, state, writer node, payload (R160). -/
structure Slot where
  id : Byte
  state : Byte
  writer : Byte
  payload : Vector Byte 8
  deriving DecidableEq, Repr

/-- Slot state VALID; any code but VALID and STALE is taken as ABSENT (R158, R160). -/
def slotValid : Byte := 1

/-- Slot state STALE (R160). -/
def slotStale : Byte := 2

/-- The slots of a frame in frame order, from the bytes after the header. -/
def slotsFrom : Nat → List Byte → List Slot
  | n + 1, i :: s :: w :: p0 :: p1 :: p2 :: p3 :: p4 :: p5 :: p6 :: p7 :: rest =>
    { id := i, state := s, writer := w, payload := #v[p0, p1, p2, p3, p4, p5, p6, p7] } ::
      slotsFrom n rest
  | _, _ => []

/-- The slots of a frame. -/
def slotsOf (bytes : List Byte) : List Slot :=
  match headerOf bytes with
  | none => []
  | some h => slotsFrom h.count.toNat (bytes.drop 4)

/-- The first slot in frame order with an id (R149, R151, R153, R154). -/
def findSlot (bytes : List Byte) (id : Byte) : Option Slot :=
  (slotsOf bytes).find? (fun s => s.id == id)

/-- The service channel of a frame (R157, R160). -/
structure ServiceChannel where
  target : Byte
  direction : Byte
  tag : Byte
  code : Byte
  length : Byte
  payload : List Byte
  deriving DecidableEq, Repr

/-- Where the service channel of a frame with this header begins. -/
def serviceStart (h : FrameHeader) : Nat := 4 + 11 * h.count.toNat

/-- The service channel of a frame, if its bytes were received. -/
def serviceOf (bytes : List Byte) : Option ServiceChannel :=
  match headerOf bytes with
  | none => none
  | some h =>
    match bytes.drop (serviceStart h) with
    | target :: direction :: tag :: code :: length :: rest =>
      some { target := target, direction := direction, tag := tag, code := code, length := length,
             payload := rest.take 48 }
    | _ => none

/-! ## Rewriting during the passage (R143, R149, R153) -/

/-- What the part writes into a slot. -/
structure SlotWrite where
  id : Byte
  stale : Bool
  payload : List Byte
  deriving DecidableEq, Repr

/-- Rewrite the first of `n` slots with the id; none when the frame carries no such slot. Slots cut off
by an idle line are not rewritten. -/
def rewriteSlot (writer : Byte) (w : SlotWrite) : Nat → List Byte → Option (List Byte)
  | n + 1, i :: s :: o :: p0 :: p1 :: p2 :: p3 :: p4 :: p5 :: p6 :: p7 :: rest =>
    if i = w.id then
      some (i :: (if w.stale then slotStale else slotValid) :: writer :: (w.payload ++ rest))
    else
      (rewriteSlot writer w n rest).map
        (fun r => i :: s :: o :: p0 :: p1 :: p2 :: p3 :: p4 :: p5 :: p6 :: p7 :: r)
  | _, _ => none

/-- Apply the writes one by one; the flag says whether anything has been rewritten. -/
def rewriteSlots (writer : Byte) (count : Nat) (writes : List SlotWrite) (body : List Byte) :
    List Byte × Bool :=
  writes.foldl
    (fun acc w =>
      match rewriteSlot writer w count acc.1 with
      | some r => (r, true)
      | none => acc)
    (body, false)

/-- The frame as sent on, from the frame as received, the writes into its slots and the bytes put in
place of its service channel: its own check when nothing was rewritten, a new check when something
was, and the ones' complement of that check when the frame was found bad (R143). Bytes after the
frame's length are dropped. A frame cut short is sent as far as it came (assumption 22). -/
def forwardFrame (writer : Byte) (writes : List SlotWrite) (service : Option (List Byte))
    (bytes : List Byte) : List Byte :=
  match headerOf bytes with
  | none => bytes
  | some h =>
    let n := frameLength h.count
    let frame := bytes.take n
    let slots := rewriteSlots writer h.count.toNat writes (frame.drop 4)
    let whole := frame.take 4 ++ slots.1
    if bytes.length < n then whole
    else
      let replaced :=
        match service with
        | some sv => whole.take (serviceStart h) ++ sv
        | none => whole.take (n - 4)
      if slots.2 || service.isSome then
        let check := crc32 replaced
        replaced ++ be32 (if frameGood bytes then check else ~~~check)
      else frame

end Sys2Proof.Machine
end

