-- ==== Sys2Proof/Machine/Operands.lean ====
section
/-! DEFINITION. The operand forms: the payloads of slots, the parts of a CONTROL slot, profile records
and the fields of requests and replies, as bytes and as named fields (R158, R159, R160, R181). -/

namespace Sys2Proof.Machine

/-! ## Feedback payloads (R159, R160): none when a field is out of range -/

/-- The axis flags of a POSITION payload (R160). -/
def axisFlagsOf (b : Byte) : AxisFlags :=
  { enabled := b.getLsbD 0, homed := b.getLsbD 1, inMotion := b.getLsbD 2,
    driveFault := b.getLsbD 3 }

/-- A POSITION payload; every value is accepted (R159). -/
def positionBodyOf (p : Vector Byte 8) : PositionBody :=
  .fresh (word32 p[0] p[1] p[2] p[3]) (axisFlagsOf p[4])

/-- A POWER_ACTUAL payload (R159, R160). -/
def powerBodyOf (p : Vector Byte 8) : Option PowerBody :=
  match activeChannelOf p[2], inverterOf p[3] with
  | some c, some i => some (.fresh (word16 p[0] p[1]) c i)
  | _, _ => none

/-- A QUENCH_ACTUAL payload (R159, R160). -/
def quenchBodyOf (p : Vector Byte 8) : Option QuenchBody :=
  (manifoldOf p[1]).map (fun m => .fresh p[0] m (word16 p[2] p[3]))

/-- A TEMPERATURE payload (R159, R160). -/
def temperatureBodyOf (p : Vector Byte 8) : Option TemperatureBody :=
  match flagOf p[2] with
  | some v => if (word16 p[0] p[1]).toNat ≤ 1400 then some (.fresh (word16 p[0] p[1]) v) else none
  | none => none

/-- Whether every field of a feedback payload holds a named value or lies in its range (R154, R159). -/
def payloadInRange (f : Feedback) (p : Vector Byte 8) : Bool :=
  match f with
  | .position => true
  | .powerActual => (powerBodyOf p).isSome
  | .quenchActual => (quenchBodyOf p).isSome
  | .temperature => (temperatureBodyOf p).isSome

/-! ## Setpoint payloads (R160); bytes no table names are sent as 0 (R158) -/

/-- The POWER_SET payload (R160). -/
def powerSetPayload (p : PowerSet) : List Byte :=
  be16 (BitVec.ofNat 16 p.setpoint) ++ [channelCode p.channel, flagByte p.run, 0, 0, 0, 0]

/-- The QUENCH_SET payload (R160). -/
def quenchSetPayload (z : ZoneSet) : List Byte := [z, 0, 0, 0, 0, 0, 0, 0]

/-- The TRAVEL_SET payload (R160). -/
def travelSetPayload (t : Travel) : List Byte :=
  [t.mode.code, t.direction.code] ++ be32 (BitVec.ofNat 32 t.speed) ++ [0, 0]

/-! ## CONTROL (R160) -/

/-- One station's part of the CONTROL slot. -/
structure ControlPart where
  code : BitVec 4
  nibble : BitVec 4
  profile : Byte
  adjust : BitVec 16
  deriving DecidableEq, Repr

/-- The four bytes of a CONTROL part (R160). -/
def controlPartOf (p q r t : Byte) : ControlPart :=
  { code := p.extractLsb' 4 4, nibble := p.extractLsb' 0 4, profile := q, adjust := word16 r t }

/-- The part of station `x` of a CONTROL payload (R160). -/
def controlPart (x : StationId) (p : Vector Byte 8) : ControlPart :=
  match x with
  | .a => controlPartOf p[0] p[1] p[2] p[3]
  | .b => controlPartOf p[4] p[5] p[6] p[7]

/-! ## Profile records (R160), also the form the check value is computed over (R5) -/

/-- The 26 bytes of a header record. -/
def headerBytes (h : Header) : List Byte :=
  [h.direction.code] ++ be32 h.start ++ be32 h.finish ++ be32 h.quenchOffset ++ [h.tailZones]
    ++ be16 h.tailTime ++ [h.energyTol, h.affinity.code] ++ h.label.toList

/-- Whether a byte is a printable character (R1, R8). -/
def printable (b : Byte) : Bool := decide (32 ≤ b.toNat ∧ b.toNat ≤ 126)

/-- A header record from its bytes; none when a named value or the label is not one (R8). -/
def headerFrom : List Byte → Option Header
  | [d, s0, s1, s2, s3, e0, e1, e2, e3, o0, o1, o2, o3, z, t0, t1, tol, af,
      l0, l1, l2, l3, l4, l5, l6, l7] =>
    match directionOf d, affinityOf af with
    | some dir, some aff =>
      if [l0, l1, l2, l3, l4, l5, l6, l7].all printable then
        some { direction := dir, start := word32 s0 s1 s2 s3, finish := word32 e0 e1 e2 e3,
               quenchOffset := word32 o0 o1 o2 o3, tailZones := z, tailTime := word16 t0 t1,
               energyTol := tol, affinity := aff, label := #v[l0, l1, l2, l3, l4, l5, l6, l7] }
      else none
    | _, _ => none
  | _ => none

/-- The window bytes of a segment record; 0 when absent (R160). -/
def windowBytes : Option Window → List Byte
  | none => [0, 0, 0, 0, 0]
  | some w => [1] ++ be16 w.low ++ be16 w.high

/-- The 19 bytes of a segment record. -/
def segmentBytes (g : Segment) : List Byte :=
  be32 g.start ++ [g.kind.code] ++ be16 g.power ++ [g.shape.code, channelCode g.channel] ++ be32 g.speed
    ++ [g.zones] ++ windowBytes g.window

/-- A segment record from its bytes; none when kind, shape, channel or the window mark is no named
value (R9, R180). Window bytes beside the mark 0 may hold anything and are dropped: the model's choice,
assumption 57. -/
def segmentFrom : List Byte → Option Segment
  | [s0, s1, s2, s3, k, p0, p1, sh, c, v0, v1, v2, v3, z, w, m0, m1, n0, n1] =>
    match kindOf k, shapeOf sh, channelOf c, flagOf w with
    | some kind, some shape, some channel, some present =>
      some { start := word32 s0 s1 s2 s3, kind := kind, power := word16 p0 p1, shape := shape,
             channel := channel, speed := word32 v0 v1 v2 v3, zones := z,
             window := if present then some { low := word16 m0 m1, high := word16 n0 n1 } else none }
    | _, _, _, _ => none
  | _ => none

/-- The check value of a profile: CRC-16 over the header record and the segment records (R5). -/
def checkValue (p : Profile) : BitVec 16 :=
  crc16 (headerBytes p.header ++ (p.segments.map segmentBytes).flatten)

/-! ## Fields of replies (R181) -/

/-- A signed number as four bytes; one that does not fit is a free value (assumption 11). -/
def int32Bytes (v : Int) : List Byte :=
  be32 (if -2147483648 ≤ v ∧ v ≤ 2147483647 then BitVec.ofInt 32 v else Config.outOfRangeInt v)

/-- An unsigned number as four bytes; one that does not fit is a free value (assumption 11). -/
def nat32Bytes (v : Nat) : List Byte :=
  be32 (if v < 4294967296 then BitVec.ofNat 32 v else Config.outOfRangeNat v)

/-- An optional one-byte field: 255 when absent (R181). -/
def optByte (v : Option Nat) : Byte := BitVec.ofNat 8 (v.getD 255)

/-- An optional wider field of `width` bytes: a presence byte, and zeros when absent (R181). -/
def optBytes (width : Nat) (v : Option (List Byte)) : List Byte :=
  match v with
  | some bytes => 1 :: bytes
  | none => 0 :: List.replicate width 0

/-- The code of a halt cause (R181). -/
def Cause.code : Cause → Nat
  | .cond c => c.code
  | .abortCommand => 29
  | .linkReset => 30

end Sys2Proof.Machine
end

