-- ==== Sys2Proof/Machine/Commands.lean ====
section
/-! DEFINITION. The run commands of the CONTROL slot (R48 to R50, R60, R62, R69, R70), the store's answer
to a START (R22) and the arbiter's reservation (R121). -/

namespace Sys2Proof.Machine

/-! ## The store's side of a START (R3, R22) -/

/-- The long operation that is RUNNING, if one is (R14). -/
def Store.running (t : Store) : Option Operation :=
  match t.register.result with
  | none => some t.register.operation
  | some _ => none

/-- A store check or STORE_CLEAR runs. -/
def Store.wholeBusy (t : Store) : Bool :=
  decide (t.running = some .storeCheck) || decide (t.running = some .clear)

/-- A long operation runs on profile `n`. -/
def Store.busyOn (t : Store) (n : Fin 16) : Bool :=
  t.running.isSome && decide (t.register.profile = some n)

/-- An affinity matches a station (R22). -/
def Affinity.fitsStation (f : Affinity) (x : StationId) : Bool :=
  match f, x with
  | .either, _ => true
  | .a, .a => true
  | .b, .b => true
  | .a, .b => false
  | .b, .a => false

/-- The segment lengths of a profile; absent for a DWELL (R3). -/
def segmentLengths (p : Profile) : List (Option Int) :=
  (List.range p.segments.length).map fun i =>
    match p.segments[i]? with
    | some g =>
      let stop :=
        match p.segments[i + 1]? with
        | some h => h.start.toInt
        | none => p.header.finish.toInt
      if g.kind = .dwell then none else some ((stop - g.start.toInt).natAbs : Int)
    | none => none

/-- What the store answers for an acceptable profile: header, revision and derived values (R3, R22). -/
def heldProfile (n : Fin 16) (e : DirEntry) (p : Profile) : HeldProfile :=
  { number := n, header := p.header, revision := e.revision, lengths := segmentLengths p,
    zoneSets := p.segments.map Segment.zones ++ [p.header.tailZones],
    firstChannel := (p.segments.head?.map Segment.channel).getD .low }

/-- A profile number, if it is one. -/
def profileOf (b : Byte) : Option (Fin 16) :=
  if h : b.toNat < 16 then some ⟨b.toNat, h⟩ else none

/-- The store's answer to a START (R22). -/
def storeAnswer (t : Store) (x : StationId) (b : Byte) : Except CommandResult HeldProfile :=
  if t.wholeBusy then .error .refusedBusy
  else
    match profileOf b with
    | none => .error .refusedProfile
    | some n =>
      let e := t.directory.get n
      if t.busyOn n then .error .refusedBusy
      else if e.state ≠ .valid ∨ e.affinity.fitsStation x = false then .error .refusedProfile
      else .ok (heldProfile n e (t.profiles.get n))

/-! ## The checks of a START (R49) -/

/-- The stop input of a station. -/
def ownStop (l : StopLevels) : StationId → Bool
  | .a => l.a
  | .b => l.b

/-- The station's own stop input or STOP_ALL is asserted (R49, R140). -/
def stopAsserted (s : State) (x : StationId) : Bool := ownStop s.stops x || s.stops.all

/-- The peak flow of a profile on a station (R3). -/
def peakFlow (par : StationParams) (p : HeldProfile) : Nat :=
  (p.zoneSets.map (flowOf par)).foldl Nat.max 0

/-- The flow check is made (R49, R120). -/
def reserves (s : State) : Bool :=
  decide (s.params.supplyMode = .reserve) && decide (s.params.supplyFlow ≠ 0)

/-- The reservation fits (R121). -/
def reservationFits (s : State) (x : StationId) (peak : Nat) : Bool :=
  decide (peak + ((s.st x.other).sar.reservation.getD 0) ≤ s.params.supplyFlow)

/-- The three checks of R49 in IDLE or COMPLETE. -/
def startChecks (s : State) (x : StationId) (b : Byte) : Except CommandResult HeldProfile :=
  if stopAsserted s x then .error .refusedLine
  else
    match storeAnswer s.store x b with
    | .error r => .error r
    | .ok p =>
      if reserves s && !reservationFits s x (peakFlow (s.st x).par p) then .error .refusedFlow
      else .ok p

/-- The states in which a START is examined (R49). -/
def StationState.startable : StationState → Bool
  | .idle | .complete => true
  | .arming | .approach | .scanning | .dwelling | .retuneHold | .holding | .tail | .halting
  | .faulted | .interrupted => false

/-! ## The acceptance of a START (R50) -/

/-- The datum of a START: DATUM_BASE plus the datum adjust (R50). -/
def startDatum (par : StationParams) (adjust : BitVec 16) : Int :=
  par.datumBase.toInt + adjust.toInt

/-- The scan result record as a START opens it (R173). -/
def openedResult (p : HeldProfile) (datum : Int) (cycle : Cycle) : ScanResult :=
  { outcome := .running, cause := none, profile := p.number, revision := p.revision, datum := datum,
    startCycle := cycle, endCycle := none, disturbed := false, highest := none, entries := [] }

/-- The arbiter books the peak flow, when the mode asks for it (R121). -/
def book (x : StationId) (p : HeldProfile) (s : State) : State :=
  if reserves s then
    modSar x (fun a => { a with reservation := some (peakFlow (s.st x).par p) }) s
  else s

/-- Steps 1 to 6 of an acceptance (R50). -/
def acceptHead (x : StationId) (p : HeldProfile) (adjust : BitVec 16) (s : State) : State :=
  let datum := startDatum (s.st x).par adjust
  let s1 :=
    modStore (fun t => { t with inUse := t.inUse.set x (some p.number) })
      (modSeq x (fun q => { q with profile := some p }) s)
  let s2 := modResult x (fun _ => some (openedResult p datum s.cycle)) s1
  let s3 := modSeq x (fun q => { q with resultReady := false, datum := datum }) s2
  let s4 := quenchStart x (clearTracker x s3)
  setIndex x none
    (modSeq x
      (fun q => { q with pendingState := none, heldState := none, phase := none, haltCause := none,
                         degraded := false, disturbed := false }) s4)

/-- Steps 7 to 11 of an acceptance (R50). -/
def acceptTail (x : StationId) (p : HeldProfile) (s : State) : State :=
  let s1 := writeRetained x .arming s.cycle (firstChannel x p.firstChannel s)
  let s2 := requestProgram x .start s1
  enterState x .arming
    (modSeq x (fun q => { q with armTimer := .running (s.st x).par.armTimeout }) s2)

/-- A START that is accepted (R50). -/
def acceptStart (x : StationId) (p : HeldProfile) (adjust : BitVec 16) (s : State) : State :=
  acceptTail x p (acceptHead x p adjust (book x p s))

/-! ## The commands -/

/-- START (R49, R50). -/
def doStart (x : StationId) (profile : Byte) (adjust : BitVec 16) (s : State) :
    State × CommandResult :=
  if (s.st x).seq.state.startable then
    match startChecks s x profile with
    | .error r => (s, r)
    | .ok p => (acceptStart x p adjust s, .accepted)
  else (s, .refusedState)

/-- The states in which a HOLD is taken (R60). -/
def StationState.holdable : StationState → Bool
  | .approach | .scanning | .dwelling | .retuneHold => true
  | .idle | .arming | .holding | .tail | .halting | .complete | .faulted | .interrupted => false

/-- A running dwell timer is frozen with its remaining time, a free value that is at most what was
running (R60; assumption 8). -/
def freezeDwell (x : StationId) (s : State) : State :=
  match (s.st x).seq.dwellTimer with
  | .running n =>
    bump (modSeq x (fun q => { q with dwellTimer := .frozen (Nat.min (Config.timeLeft s.draws) n) }) s)
  | .stopped | .frozen _ | .expired => s

/-- The hold (R60). -/
def hold (x : StationId) (s : State) : State :=
  let s1 :=
    modSeq x (fun q => { q with heldState := some q.state, disturbed := true }) s
  let s2 := freezeDwell x (modResult x (Option.map fun r => { r with disturbed := true }) s1)
  writeRetainedNow x
    (enterState x .holding
      (modSeq x (fun q => { q with holdTimer := .running (s.st x).par.holdLimit }) s2))

/-- HOLD (R60). -/
def doHold (x : StationId) (s : State) : State × CommandResult :=
  if (s.st x).seq.state.holdable then (hold x s, .accepted) else (s, .refusedState)

/-- A frozen timer runs on from its remaining time (R62). -/
def Timer.resumed (t : Timer) : Timer :=
  match t with
  | .frozen n => .running n
  | .stopped => .stopped
  | .running n => .running n
  | .expired => .expired

/-- RESUME into held state `n` (R62). -/
def resume (x : StationId) (n : StationState) (s : State) : State :=
  let s1 := modSeq x (fun q => { q with holdTimer := .stopped }) s
  writeRetainedNow x
    (modSeq x (fun q => { q with heldState := none, dwellTimer := q.dwellTimer.resumed })
      (enterState x n s1))

/-- RESUME (R62). -/
def doResume (x : StationId) (s : State) : State × CommandResult :=
  if (s.st x).seq.state = .holding then
    (resume x ((s.st x).seq.heldState.getD .holding) s, .accepted)
  else (s, .refusedState)

/-- ABORT (R69). -/
def doAbort (x : StationId) (s : State) : State × CommandResult :=
  if (s.st x).seq.state.haltable then (halt x .abortCommand s, .accepted) else (s, .refusedState)

/-- The station is cleared to IDLE (R70; assumption 28). -/
def clearStation (x : StationId) (s : State) : State :=
  let s1 := modSeq x (fun q => { q with profile := none, resultReady := false }) s
  enterState x .idle (setIndex x none s1)

/-- CLEAR (R70). -/
def doClear (x : StationId) (s : State) : State × CommandResult :=
  match (s.st x).seq.state with
  | .faulted => if stopAsserted s x then (s, .refusedLine) else (clearStation x s, .accepted)
  | .interrupted => (putRetained x none (clearStation x s), .accepted)
  | .complete => (clearStation x s, .accepted)
  | .idle | .arming | .approach | .scanning | .dwelling | .retuneHold | .holding | .tail | .halting =>
    (s, .refusedState)

/-- A command is taken when its nibble differs from the last taken one (R48): the nibble is kept, the
command carried out, its result shown, and the end of a program that came at once delivered (R133). -/
def takeCommand (x : StationId) (nibble : BitVec 4) (carry : State → State × CommandResult)
    (s : State) : State :=
  if nibble = (s.st x).seq.nibble then s
  else
    let r := carry (modSeq x (fun q => { q with nibble := nibble }) s)
    deliverEnd x (modSeq x (fun q => { q with commandResult := r.2 }) r.1)

/-- The command a CONTROL part carries (R48, R160). -/
def carryOut (x : StationId) (p : ControlPart) (s : State) : State × CommandResult :=
  if p.code = 0 then (s, .accepted)
  else if p.code = 1 then doStart x p.profile p.adjust s
  else if p.code = 2 then doHold x s
  else if p.code = 3 then doResume x s
  else if p.code = 4 then doAbort x s
  else if p.code = 5 then doClear x s
  else (s, .refusedCode)

/-- A station's part of a usable CONTROL slot reaches its sequencer (R48, R151). -/
def handControl (x : StationId) (p : ControlPart) (s : State) : State :=
  takeCommand x p.nibble (carryOut x p) s

/-- The nibble of a part is adopted without carrying out the command (R48, R151). -/
def adoptNibble (x : StationId) (p : ControlPart) : State → State :=
  modSeq x fun q => { q with nibble := p.nibble }

end Sys2Proof.Machine
end

