-- ==== Sys2Proof/Machine/Validate.lean ====
section
/-! DEFINITION. The validation of a profile at commit (R12, R13). -/

namespace Sys2Proof.Machine

/-- The header ranges (R13). -/
def headerInRange (h : Header) : Bool :=
  decide (5000 ≤ h.quenchOffset.toNat ∧ h.quenchOffset.toNat ≤ 150000) &&
    decide (h.tailTime.toNat ≤ 60000) && decide (h.energyTol.toNat ≤ 50)

/-- The range of the speed or dwell time (R13). -/
def speedInRange (g : Segment) : Bool :=
  match g.kind with
  | .scan => decide (100 ≤ g.speed.toNat ∧ g.speed.toNat ≤ 200000)
  | .skip => decide (100 ≤ g.speed.toNat ∧ g.speed.toNat ≤ 200000)
  | .dwell => decide (1 ≤ g.speed.toNat ∧ g.speed.toNat ≤ 60000)

/-- The range of a temperature window (R13). -/
def windowInRange (w : Window) : Bool :=
  decide (w.low.toNat ≤ 1400 ∧ w.high.toNat ≤ 1400 ∧ w.low.toNat ≤ w.high.toNat)

/-- The segment ranges (R13). -/
def segmentInRange (g : Segment) : Bool :=
  decide (g.power.toNat ≤ 20000) && speedInRange g && g.window.all windowInRange

/-- A test that fails with a reason when its condition holds. -/
def failIf (c : Bool) (i : Nat) (r : Reason) : Option Failure :=
  if c then some { index := i, reason := r } else none

/-- A segment shorter than 1,000 µm up to position `p`, which only a SCAN or SKIP has (R12). -/
def tooShort (g : Segment) (p : Int) : Bool :=
  decide (g.kind ≠ .dwell) && decide ((p - g.start.toInt).natAbs < 1000)

/-- The order test of a segment against the one before it (R12, ORDER). -/
def outOfOrder (d : Direction) (before g : Segment) : Bool :=
  if before.kind = .dwell then decide (g.start ≠ before.start)
  else !strictlyAhead d g.start.toInt before.start.toInt

/-- The tests of segment `i` in the order of R12. -/
def segmentTests (h : Header) (segs : List Segment) (i : Nat) (g : Segment) :
    List (Option Failure) :=
  let before := if i = 0 then none else segs[i - 1]?
  [failIf (!segmentInRange g) i .range,
    failIf (decide (g.kind = .skip) && decide (g.power ≠ 0)) i .skipPower,
    failIf (decide (i = 0) && decide (g.start ≠ h.start)) 0 .firstStart,
    failIf (before.any fun b => outOfOrder h.direction b g) i .order,
    failIf (before.any fun b => decide (b.kind = .dwell) && decide (g.kind = .dwell)) i .dwellPair,
    failIf (decide (i + 1 = segs.length) && decide (g.kind = .dwell)) i .lastDwell,
    failIf (before.any fun b => tooShort b g.start.toInt) (i - 1) .length]

/-- The first failure of segment `i`. -/
def segmentFailure (h : Header) (segs : List Segment) (i : Nat) : Option Failure :=
  match segs[i]? with
  | some g => (segmentTests h segs i g).findSome? id
  | none => none

/-- The tests of the last segment against the profile end (R12, END and LENGTH). -/
def endFailure (h : Header) (segs : List Segment) : Option Failure :=
  match segs.getLast? with
  | some g =>
    [failIf (!strictlyAhead h.direction h.finish.toInt g.start.toInt) (segs.length - 1) .endOrder,
      failIf (tooShort g h.finish.toInt) (segs.length - 1) .length].findSome? id
  | none => none

/-- Validation: the first failure in the order of R12, none when the profile is valid. -/
def validate (h : Header) (segs : List Segment) : Option Failure :=
  [failIf (decide (segs.length = 0)) 255 .empty, failIf (!headerInRange h) 255 .range,
    (List.range segs.length).findSome? (segmentFailure h segs), endFailure h segs].findSome? id

end Sys2Proof.Machine
end

