-- ==== Sys2Proof/Machine/Store.lean ====
section
/-! DEFINITION. The Profile Store: staging (R6 to R11), long operations and their completions (R14 to
R19), the store check (R24) and what a cut leaves (R25). -/

namespace Sys2Proof.Machine

/-! ## Directory and staging -/

/-- Change directory entry `n`. -/
def modDir (n : Fin 16) (f : DirEntry → DirEntry) (t : Store) : Store :=
  { t with directory := t.directory.set n (f (t.directory.get n)) }

/-- The state of directory entry `n`. -/
def Store.dirState (t : Store) (n : Fin 16) : DirState := (t.directory.get n).state

/-- The committing mark. -/
def Store.committing (t : Store) : Bool := t.staging.any Staging.committing

/-- A profile is referenced by an active station (R21). -/
def Store.referenced (t : Store) (n : Fin 16) : Bool :=
  decide (t.inUse.a = some n) || decide (t.inUse.b = some n)

/-- Segment slots from a list; the rest are cleared (R6, R7). -/
def slotsOfList (segs : List Segment) : Vector Segment 48 :=
  Vector.ofFn fun i => (segs[i.val]?).getD clearedSegment

/-- Staging as mode NEW opens it (R7). -/
def newStaging (n : Fin 16) : Staging :=
  { number := n, header := clearedHeader, slots := slotsOfList [], count := 0, committing := false }

/-- Staging as mode EDIT opens it (R7). -/
def editStaging (n : Fin 16) (t : Store) : Staging :=
  let p := t.profiles.get n
  let count := (t.directory.get n).count
  { number := n, header := p.header, slots := slotsOfList (p.segments.take count), count := count,
    committing := false }

/-- The segments a staging buffer holds. -/
def Staging.content (g : Staging) : List Segment := g.slots.toList.take g.count

/-- A SEGMENT_WRITE taken (R9). -/
def Staging.write (g : Staging) (i : Nat) (rec_ : Segment) : Staging :=
  { g with slots := g.slots.setIfInBounds i rec_, count := Nat.max g.count (i + 1) }

/-- A SEGMENT_TRUNCATE taken (R10). -/
def Staging.truncate (g : Staging) (c : Nat) : Staging :=
  if c < g.count then { g with slots := slotsOfList (g.slots.toList.take c), count := c } else g

/-! ## Long operations -/

/-- A long operation starts (R14). -/
def startOp (op : Operation) (n : Option (Fin 16)) (w : OpWork) (t : Store) : Store :=
  { t with register := { operation := op, profile := n, result := none }, work := w }

/-- A long operation ends (R14). -/
def endOp (r : OpResult) (t : Store) : Store :=
  { t with register := { t.register with result := some r }, work := .none }

/-- A commit is accepted: the committing mark, the copy, and the entry's first write (R15, R16;
assumption 16). -/
def acceptCommit (g : Staging) (t : Store) : Store :=
  let t1 :=
    startOp .commit (some g.number)
      (.commit { header := g.header, segments := g.content } (t.dirState g.number)) t
  modDir g.number (fun e => { e with state := .writing })
    { t1 with staging := some { g with committing := true } }

/-- The entry a verified commit writes (R4, R16). -/
def committedEntry (p : Profile) (e : DirEntry) : DirEntry :=
  { e with state := .valid, affinity := p.header.affinity, count := p.segments.length,
           label := p.header.label, revision := Nat.min 65535 (e.revision + 1),
           check := checkValue p }

/-- Staging after a verified commit: closed, when it is the commit's own (R16). -/
def stagingAfterCommit (g : Option Staging) : Option Staging :=
  if g.any Staging.committing then none else g

/-- A verified commit writes entry and content, and closes staging (R16). -/
def commitVerified (n : Fin 16) (p : Profile) (t : Store) : Store :=
  let t1 := modDir n (committedEntry p) t
  endOp .ok { t1 with profiles := t1.profiles.set n p, staging := stagingAfterCommit t1.staging }

/-- An entry whose write did not verify (R4). -/
def corrupted (e : DirEntry) : DirEntry := { e with state := .corrupt }

/-- A write on entry `n` that did not verify: CORRUPT, WRITE_FAILED, STORE_FAULT (R16, R17, R18). -/
def writeFailed (n : Fin 16) (s : State) : State :=
  raisePart .storeFault (modStore (fun t => endOp .writeFailed (modDir n corrupted t)) s)

/-- A failed commit leaves staging open with its content, the committing mark cleared (R16). -/
def reopenStaging (t : Store) : Store :=
  { t with staging := t.staging.map fun g => { g with committing := false } }

/-- The completion of a commit (R16). -/
def commitCompletes (verified : Bool) (s : State) : State :=
  match s.store.running, s.store.register.profile, s.store.work with
  | some .commit, some n, .commit p _ =>
    if verified then modStore (commitVerified n p) s
    else writeFailed n (modStore reopenStaging s)
  | _, _, _ => s

/-- The entry a verified erase writes (R17). -/
def erasedEntry (e : DirEntry) : DirEntry := { e with state := .empty, count := 0 }

/-- The completion of an erase (R17). -/
def eraseCompletes (verified : Bool) (s : State) : State :=
  match s.store.running, s.store.register.profile with
  | some .erase, some n =>
    if verified then modStore (fun t => endOp .ok (modDir n erasedEntry t)) s else writeFailed n s
  | _, _ => s

/-- The entry a verified protect writes (R18). -/
def protectedEntry (write read : Bool) (e : DirEntry) : DirEntry :=
  { e with writeProtected := e.writeProtected || write, readProtected := e.readProtected || read }

/-- The completion of a protect (R18). -/
def protectCompletes (verified : Bool) (s : State) : State :=
  match s.store.running, s.store.register.profile, s.store.work with
  | some .protect, some n, .protect w r =>
    if verified then modStore (fun t => endOp .ok (modDir n (protectedEntry w r) t)) s
    else writeFailed n s
  | _, _, _ => s

/-- The directory after STORE_CLEAR wrote the entries; `verified` says which writes verified (R19). -/
def clearedDirectory (verified : BitVec 16) (d : Vector DirEntry 16) : Vector DirEntry 16 :=
  Vector.ofFn fun i => if verified.getLsbD i.val then clearedEntry else corrupted (d.get i)

/-- Raise STORE_FAULT `n` times. -/
def raiseFaults : Nat → State → State
  | 0, s => s
  | n + 1, s => raiseFaults n (raisePart .storeFault s)

/-- How many of the sixteen writes did not verify. -/
def failures (verified : BitVec 16) : Nat :=
  ((List.range 16).filter fun i => !verified.getLsbD i).length

/-- The completion of STORE_CLEAR (R19). -/
def clearCompletes (verified : BitVec 16) (s : State) : State :=
  if s.store.running = some .clear then
    raiseFaults (failures verified)
      (modStore
        (fun t => endOp (if failures verified = 0 then .ok else .writeFailed)
          { t with directory := clearedDirectory verified t.directory }) s)
  else s

/-! ## The store check (R24) -/

/-- Whether the check makes an entry CORRUPT (R24). -/
def checkFails (e : DirEntry) (p : Profile) : Bool :=
  match e.state with
  | .writing => true
  | .valid => decide (checkValue p ≠ e.check)
  | .empty => false
  | .corrupt => false

/-- The directory after the check has examined the entries below `upTo` (R24, R25). -/
def checkedDirectory (upTo : Nat) (t : Store) : Vector DirEntry 16 :=
  Vector.ofFn fun i =>
    if i.val < upTo ∧ checkFails (t.directory.get i) (t.profiles.get i) then
      corrupted (t.directory.get i)
    else t.directory.get i

/-- How many entries the check makes CORRUPT. -/
def checkFaults (t : Store) : Nat :=
  ((List.finRange 16).filter fun i => checkFails (t.directory.get i) (t.profiles.get i)).length

/-- The completion of the store check (R24). -/
def checkCompletes (s : State) : State :=
  if s.store.running = some .storeCheck then
    raiseFaults (checkFaults s.store)
      (modStore (fun t => endOp .ok { t with directory := checkedDirectory 16 t }) s)
  else s

/-! ## A cut (R25) -/

/-- The directory after STORE_CLEAR was cut off with `upTo` entries written (R19, R25). -/
def clearedUpTo (upTo : Nat) (d : Vector DirEntry 16) : Vector DirEntry 16 :=
  Vector.ofFn fun i => if i.val < upTo then clearedEntry else d.get i

/-- What a loss of supply or RESET_N leaves of the directory when a long operation is cut off after
`progress` writes (R25; assumption 16). -/
def cutDirectory (progress : Nat) (t : Store) : Vector DirEntry 16 :=
  match t.running, t.register.profile, t.work with
  | some .commit, some n, .commit _ former =>
    if progress = 0 then (modDir n (fun e => { e with state := former }) t).directory
    else t.directory
  | some .erase, some n, _ =>
    if progress = 0 then t.directory else (modDir n erasedEntry t).directory
  | some .protect, some n, .protect w r =>
    if progress = 0 then t.directory else (modDir n (protectedEntry w r) t).directory
  | some .clear, _, _ => clearedUpTo progress t.directory
  | some .storeCheck, _, _ => checkedDirectory progress t
  | _, _, _ => t.directory

/-- The store after a cut; the volatile part goes with the restart (R25). -/
def cutStore (progress : Nat) (t : Store) : Store := { t with directory := cutDirectory progress t }

end Sys2Proof.Machine
end

