-- ==== Sys2Proof/Machine/Service.lean ====
section
/-! DEFINITION. The Service Request Handler: the 31 requests, each from the bytes that count of its
payload (R180 to R187), with the owning units' checks. -/

namespace Sys2Proof.Machine

/-- An answer to a request, and the state it leaves. -/
structure Answer where
  state : State
  status : ReplyStatus
  payload : List Byte
  deriving DecidableEq, Repr

/-- A request that is taken with OK and changes the state. -/
def okWith (s : State) : Answer := { state := s, status := .ok, payload := [] }

/-- A read: OK with a payload, nothing changed. -/
def okRead (s : State) (bytes : List Byte) : Answer := { state := s, status := .ok, payload := bytes }

/-- A refusal: nothing changes, length 0 (R180). -/
def refuse (s : State) (r : ReplyStatus) : Answer := { state := s, status := r, payload := [] }

/-- A long operation accepted (R185). -/
def acceptedWith (s : State) : Answer := { state := s, status := .accepted, payload := [] }

/-- A byte of a natural number. -/
def byteOf (n : Nat) : Byte := BitVec.ofNat 8 n

/-! ## Identification (R182) -/

/-- IDENT (R182; widths by assumption 20). -/
def askIdent (payload : List Byte) (s : State) : Answer :=
  match payload with
  | [] => okRead s (be16 1207 ++ be16 480 ++ [1] ++ [2, 16, 16, 48, 8, 16, 8, 28])
  | _ => refuse s .badArgument

/-! ## Parameters (R183) -/

/-- A flag-valued parameter. -/
def boolNat (b : Bool) : Nat := if b then 1 else 0

/-- A supply mode as a number (R183). -/
def SupplyMode.code : SupplyMode → Nat
  | .share => 0
  | .reserve => 1

/-- The value of a global parameter as 32 bits (R183). -/
def globalValue (g : GlobalParams) (n : Nat) : Option (BitVec 32) :=
  match n with
  | 1 => some (BitVec.ofNat 32 g.cycleTime)
  | 2 => some (BitVec.ofNat 32 g.returnTimeout)
  | 3 => some (BitVec.ofNat 32 g.linkLossCount)
  | 4 => some (BitVec.ofNat 32 g.supplyFlow)
  | 5 => some (BitVec.ofNat 32 g.supplyMode.code)
  | 6 => some (BitVec.ofNat 32 g.attentionLevel.code)
  | _ => none

/-- The numbered natural-number parameters of a station (R183). -/
def stationNat (p : StationParams) (n : Nat) : Option Nat :=
  match n with
  | 17 => some p.lookAhead
  | 18 => some p.maxStep
  | 19 => some p.staleLimit
  | 20 => some (boolNat p.strict)
  | 21 => some p.reversalTol
  | 22 => some p.approachSpeed
  | 23 => some p.approachMax
  | 24 => some p.runoutSpeed
  | 25 => some p.standstill
  | 26 => some p.followTol
  | 27 => some p.followSettle
  | 28 => some p.powerRated
  | 29 => some p.rampLimit
  | 30 => some p.powerTol
  | 31 => some p.powerDevCycles
  | 32 => some p.residualPower
  | 33 => some p.retuneTimeout
  | 34 => some p.armTimeout
  | 35 => some p.holdLimit
  | 36 => some p.valveLag
  | 37 => some p.valveCheck
  | 46 => some p.flowLowPct
  | 47 => some p.flowCheck
  | 48 => some p.quenchLateDist
  | 49 => some p.quenchWaitMax
  | _ => if 38 ≤ n then p.zoneFlow.toList[n - 38]? else none

/-- The value of a station parameter as 32 bits (R183). -/
def stationValue (p : StationParams) (n : Nat) : Option (BitVec 32) :=
  if n = 16 then some p.datumBase else (stationNat p n).map (BitVec.ofNat 32)

/-- A parameter number of the table (R183). -/
def isParam (n : Nat) : Bool := decide (1 ≤ n ∧ n ≤ 6) || decide (16 ≤ n ∧ n ≤ 49)

/-- The station a parameter is read or written for: none for a global one (R183). -/
def paramScope (n : Nat) (b : Byte) : Option (Option StationId) :=
  if n ≤ 6 then some none else (stationOf b).map some

/-- The value of a parameter (R183). -/
def paramValue (s : State) (n : Nat) (sc : Option StationId) : Option (BitVec 32) :=
  match sc with
  | none => globalValue s.params n
  | some x => stationValue (s.st x).par n

/-- PARAM_READ (R181, R183). The station byte of the reply repeats the request's, which for a parameter of
the part counts for nothing (R183): the model's choice, assumption 53. -/
def askParamRead (payload : List Byte) (s : State) : Answer :=
  match payload with
  | [n, b] =>
    match isParam n.toNat, paramScope n.toNat b with
    | true, some sc =>
      match paramValue s n.toNat sc with
      | some v => okRead s ([n, b] ++ be32 v)
      | none => refuse s .badArgument
    | _, _ => refuse s .badArgument
  | _ => refuse s .badArgument

/-- The range of a numbered parameter (R183); DATUM_BASE takes every value. -/
def paramRange (n : Nat) : Option (Nat × Nat) :=
  match n with
  | 1 => some (250, 4000)
  | 2 => some (50, 3900)
  | 3 => some (2, 16)
  | 4 => some (0, 4000)
  | 5 => some (0, 1)
  | 6 => some (0, 3)
  | 16 => some (0, 4294967295)
  | 17 => some (0, 20000)
  | 18 => some (10, 50000)
  | 19 => some (1, 8)
  | 20 => some (0, 1)
  | 21 => some (10, 10000)
  | 22 => some (1000, 200000)
  | 23 => some (0, 500000)
  | 24 => some (1000, 200000)
  | 25 => some (0, 5000)
  | 26 => some (1, 50)
  | 27 => some (1, 1000)
  | 28 => some (100, 20000)
  | 29 => some (1, 10000)
  | 30 => some (1, 50)
  | 31 => some (1, 64)
  | 32 => some (0, 10)
  | 33 => some (10, 2000)
  | 34 => some (100, 30000)
  | 35 => some (100, 60000)
  | 36 => some (0, 500)
  | 37 => some (10, 1000)
  | 46 => some (10, 100)
  | 47 => some (1, 100)
  | 48 => some (0, 20000)
  | 49 => some (1, 5000)
  | _ => if 38 ≤ n ∧ n ≤ 45 then some (0, 1000) else none

/-- A value lies in its parameter's range (R183). -/
def paramInRange (n v : Nat) : Bool :=
  match paramRange n with
  | some r => decide (r.1 ≤ v ∧ v ≤ r.2) && (decide (n ≠ 1) || decide (v % 250 = 0))
  | none => false

/-- The test of RETURN_TIMEOUT against CYCLE_TIME (R183, test 2). -/
def timingHolds (g : GlobalParams) (n v : Nat) : Bool :=
  match n with
  | 1 => decide (g.returnTimeout + 100 ≤ v)
  | 2 => decide (v + 100 ≤ g.cycleTime)
  | _ => true

/-- Write a global parameter. -/
def setGlobal (n v : Nat) (g : GlobalParams) : GlobalParams :=
  match n with
  | 1 => { g with cycleTime := v }
  | 2 => { g with returnTimeout := v }
  | 3 => { g with linkLossCount := v }
  | 4 => { g with supplyFlow := v }
  | 5 => { g with supplyMode := if v = 0 then .share else .reserve }
  | 6 => { g with attentionLevel := (severityOf v).getD .note }
  | _ => g

/-- Write a station parameter. -/
def setStation (n : Nat) (v : BitVec 32) (p : StationParams) : StationParams :=
  match n with
  | 16 => { p with datumBase := v }
  | 17 => { p with lookAhead := v.toNat }
  | 18 => { p with maxStep := v.toNat }
  | 19 => { p with staleLimit := v.toNat }
  | 20 => { p with strict := decide (v ≠ 0) }
  | 21 => { p with reversalTol := v.toNat }
  | 22 => { p with approachSpeed := v.toNat }
  | 23 => { p with approachMax := v.toNat }
  | 24 => { p with runoutSpeed := v.toNat }
  | 25 => { p with standstill := v.toNat }
  | 26 => { p with followTol := v.toNat }
  | 27 => { p with followSettle := v.toNat }
  | 28 => { p with powerRated := v.toNat }
  | 29 => { p with rampLimit := v.toNat }
  | 30 => { p with powerTol := v.toNat }
  | 31 => { p with powerDevCycles := v.toNat }
  | 32 => { p with residualPower := v.toNat }
  | 33 => { p with retuneTimeout := v.toNat }
  | 34 => { p with armTimeout := v.toNat }
  | 35 => { p with holdLimit := v.toNat }
  | 36 => { p with valveLag := v.toNat }
  | 37 => { p with valveCheck := v.toNat }
  | 46 => { p with flowLowPct := v.toNat }
  | 47 => { p with flowCheck := v.toNat }
  | 48 => { p with quenchLateDist := v.toNat }
  | 49 => { p with quenchWaitMax := v.toNat }
  | _ => if 38 ≤ n then { p with zoneFlow := p.zoneFlow.setIfInBounds (n - 38) v.toNat } else p

/-- The parameter's station, or either station for a global one, is active (R183, test 3). -/
def scopeActive (s : State) (sc : Option StationId) : Bool :=
  match sc with
  | some x => s.active x
  | none => s.anyActive

/-- The value replaces the old one (R183). -/
def putParam (n : Nat) (sc : Option StationId) (v : BitVec 32) (s : State) : State :=
  match sc with
  | some x => modSt x (fun st => { st with par := setStation n v st.par }) s
  | none => { s with params := setGlobal n v.toNat s.params }

/-- PARAM_WRITE of a decoded request (R183). -/
def writeParam (n : Nat) (b : Byte) (v : BitVec 32) (s : State) : Answer :=
  match isParam n, paramScope n b with
  | true, some sc =>
    if !paramInRange n v.toNat then refuse s .badArgument
    else if !timingHolds s.params n v.toNat then refuse s .badArgument
    else if scopeActive s sc then refuse s .inUse
    else okWith (putParam n sc v s)
  | _, _ => refuse s .badArgument

/-- PARAM_WRITE (R183). -/
def askParamWrite (payload : List Byte) (s : State) : Answer :=
  match payload with
  | [n, b, v0, v1, v2, v3] => writeParam n.toNat b (word32 v0 v1 v2 v3) s
  | _ => refuse s .badArgument

/-! ## The slot map (R148) -/

/-- Entry `i` of the slot map. -/
def mapEntry (m : SlotMap) (i : Nat) : Option MapEntry := (m[i]?).join

/-- A map entry on the line: the mark, then the four fields, each absent when the entry is empty (R148,
R181). -/
def mapBytes : Option MapEntry → List Byte
  | some e => [1, e.slotId, e.signal.code, e.writer, flagByte e.required]
  | none => [0, 255, 255, 255, 255]

/-- MAP_READ (R148). -/
def askMapRead (payload : List Byte) (s : State) : Answer :=
  match payload with
  | [i] =>
    if i.toNat ≤ 15 then okRead s (i :: mapBytes (mapEntry s.link.map i.toNat))
    else refuse s .badArgument
  | _ => refuse s .badArgument

/-- Another entry holds the same slot id or binds the same signal (R148, test 2). -/
def mapClash (m : SlotMap) (i : Nat) (e : MapEntry) : Bool :=
  (List.range 16).any fun j =>
    decide (j ≠ i) && (mapEntry m j).any fun f => decide (f.slotId = e.slotId ∨ f.signal = e.signal)

/-- Change the sample record of a feedback signal. -/
def modSample (f : Feedback) (g : SampleRecord → SampleRecord) (v : SampleSet) : SampleSet :=
  match f with
  | .position => { v with position := g v.position }
  | .powerActual => { v with powerActual := g v.powerActual }
  | .quenchActual => { v with quenchActual := g v.quenchActual }
  | .temperature => { v with temperature := g v.temperature }

/-- The sample record of a feedback signal. -/
def sampleOf (f : Feedback) (v : SampleSet) : SampleRecord :=
  match f with
  | .position => v.position
  | .powerActual => v.powerActual
  | .quenchActual => v.quenchActual
  | .temperature => v.temperature

/-- Change the output run of a setpoint signal. -/
def modRun (p : Setpoint) (g : Bool → Bool) (v : SetRuns) : SetRuns :=
  match p with
  | .powerSet => { v with power := g v.power }
  | .quenchSet => { v with quench := g v.quench }
  | .travelSet => { v with travel := g v.travel }

/-- The output run of a setpoint signal. -/
def runOf (p : Setpoint) (v : SetRuns) : Bool :=
  match p with
  | .powerSet => v.power
  | .quenchSet => v.quench
  | .travelSet => v.travel

/-- Clear the runs of a signal whose entry changes (R148). -/
def clearSignalRun (g : Signal) (l : Link) : Link :=
  match g with
  | .control => { l with controlRun := false }
  | .status => { l with statusRun := false }
  | .setpoint x p =>
    { l with setRuns := l.setRuns.set x (modRun p (fun _ => false) (l.setRuns.get x)) }
  | .feedback x f =>
    { l with samples :=
               l.samples.set x (modSample f (fun r => { r with missRun := false }) (l.samples.get x)) }

/-- Replace a map entry: the runs of the signal it bound are cleared (R148). That an entry replaced by an
identical one counts as changed is the model's choice, assumption 54. -/
def putMap (i : Nat) (e : Option MapEntry) (l : Link) : Link :=
  let l1 :=
    match mapEntry l.map i with
    | some old => clearSignalRun old.signal l
    | none => l
  { l1 with map := l1.map.setIfInBounds i e }

/-- MAP_WRITE of a bound entry (R148). -/
def writeMap (i : Nat) (e : MapEntry) (s : State) : Answer :=
  if 15 < i ∨ e.slotId.toNat < 1 ∨ 250 < e.slotId.toNat ∨ 62 < e.writer.toNat then
    refuse s .badArgument
  else if mapClash s.link.map i e then refuse s .badArgument
  else if s.anyActive then refuse s .inUse
  else okWith (modLink (putMap i (some e)) s)

/-- MAP_WRITE of the mark "empty": tests 1 and 3 alone (R148). -/
def emptyMap (i : Nat) (s : State) : Answer :=
  if 15 < i then refuse s .badArgument
  else if s.anyActive then refuse s .inUse
  else okWith (modLink (putMap i none) s)

/-- The required byte of a MAP_WRITE that says "empty": the field is absent, which is 255, as MAP_READ replies it
(R181), or it holds a named value (R180), which counts for nothing (assumption 43). -/
def requiredUnused (r : Byte) : Bool := decide (r = 255) || (flagOf r).isSome

/-- MAP_WRITE: the two flags belong to the decoding (R180); with the mark "empty" the required byte may be
absent, and the slot id, the signal and the writer are not looked at (R148, R181; assumption 43). -/
def askMapWrite (payload : List Byte) (s : State) : Answer :=
  match payload with
  | [i, b, id, g, w, r] =>
    match flagOf b with
    | some true =>
      match flagOf r, signalOf g with
      | some req, some sig =>
        writeMap i.toNat { slotId := id, signal := sig, writer := w, required := req } s
      | _, _ => refuse s .badArgument
    | some false => if requiredUnused r then emptyMap i.toNat s else refuse s .badArgument
    | none => refuse s .badArgument
  | _ => refuse s .badArgument

/-! ## Line programs (R135) -/

/-- Replace step `i` of a program. -/
def ProgTable.put (t : ProgTable) (p : Program) (i : Nat) (g : ProgStep) : ProgTable :=
  match p with
  | .start => { t with start := t.start.setIfInBounds i g }
  | .finish => { t with finish := t.finish.setIfInBounds i g }
  | .halt => { t with halt := t.halt.setIfInBounds i g }

/-- A program step on the line (R181). -/
def stepBytes (g : ProgStep) : List Byte :=
  [byteOf g.delay, g.permit.code, g.qforce.code, g.spin.code, flagByte g.last]

/-- PROGRAM_READ (R135). -/
def askProgramRead (payload : List Byte) (s : State) : Answer :=
  match payload with
  | [b, p, i] =>
    match stationOf b, programOf p with
    | some x, some pr =>
      if i.toNat ≤ 7 then okRead s ([b, p, i] ++ stepBytes (s.progStep x pr i.toNat))
      else refuse s .badArgument
    | _, _ => refuse s .badArgument
  | _ => refuse s .badArgument

/-- PROGRAM_WRITE of decoded fields (R135). -/
def writeProgram (x : StationId) (p : Program) (i : Nat) (g : ProgStep) (s : State) : Answer :=
  if 7 < i ∨ 15 < g.delay then refuse s .badArgument
  else if s.active x then refuse s .inUse
  else okWith (modEng x (fun e => { e with table := e.table.put p i g }) s)

/-- PROGRAM_WRITE (R135). -/
def askProgramWrite (payload : List Byte) (s : State) : Answer :=
  match payload with
  | [b, p, i, d, a0, a1, a2, e] =>
    match stationOf b, programOf p, actionOf a0, actionOf a1, actionOf a2, flagOf e with
    | some x, some pr, some permit, some qforce, some spin, some last =>
      writeProgram x pr i.toNat
        { delay := d.toNat, permit := permit, qforce := qforce, spin := spin, last := last } s
    | _, _, _, _, _, _ => refuse s .badArgument
  | _ => refuse s .badArgument

/-! ## Staging (R7 to R11) -/

/-- The modes of PROFILE_OPEN (R7): whether it is EDIT. -/
def editMode (b : Byte) : Option Bool := flagOf b

/-- PROFILE_OPEN of a profile number that exists (R7, tests 2 to 6). -/
def openProfile (n : Fin 16) (edit : Bool) (s : State) : Answer :=
  let e := s.store.directory.get n
  if s.store.staging.isSome then refuse s .busy
  else if s.store.wholeBusy || s.store.busyOn n then refuse s .busy
  else if e.writeProtected then refuse s .isProtected
  else if edit && e.readProtected then refuse s .isProtected
  else if edit && (decide (e.state = .empty) || decide (e.state = .corrupt)) then
    refuse s .notFound
  else
    okWith (modStore
      (fun t => { t with staging := some (if edit then editStaging n t else newStaging n) }) s)

/-- PROFILE_OPEN (R7). -/
def askProfileOpen (payload : List Byte) (s : State) : Answer :=
  match payload with
  | [b, m] =>
    match editMode m, profileOf b with
    | some edit, some n => openProfile n edit s
    | _, _ => refuse s .badArgument
  | _ => refuse s .badArgument

/-- A write of open staging that no commit holds; refused NOT_FOUND when closed and BUSY while the
committing mark is set (R8, R9, R10). -/
def withStaging (s : State) (f : Staging → Answer) : Answer :=
  match s.store.staging with
  | none => refuse s .notFound
  | some g => if g.committing then refuse s .busy else f g

/-- Staging replaced. -/
def putStaging (g : Staging) (s : State) : State := modStore (fun t => { t with staging := some g }) s

/-- HEADER_WRITE (R8). -/
def askHeaderWrite (payload : List Byte) (s : State) : Answer :=
  if payload.length = 26 then
    withStaging s fun g =>
      match headerFrom payload with
      | some h => okWith (putStaging { g with header := h } s)
      | none => refuse s .badArgument
  else refuse s .badArgument

/-- SEGMENT_WRITE (R9); the window mark is a flag of the decoding (R180). -/
def askSegmentWrite (payload : List Byte) (s : State) : Answer :=
  match payload with
  | i :: record =>
    if record.length = 19 ∧ (flagOf ((record[14]?).getD 0)).isSome then
      withStaging s fun g =>
        if 47 < i.toNat then refuse s .badArgument
        else
          match segmentFrom record with
          | some r => okWith (putStaging (g.write i.toNat r) s)
          | none => refuse s .badArgument
    else refuse s .badArgument
  | [] => refuse s .badArgument

/-- SEGMENT_TRUNCATE (R10). -/
def askSegmentTruncate (payload : List Byte) (s : State) : Answer :=
  match payload with
  | [c] =>
    withStaging s fun g =>
      if 48 < c.toNat then refuse s .badArgument
      else okWith (putStaging (g.truncate c.toNat) s)
  | _ => refuse s .badArgument

/-- PROFILE_CANCEL (R11). -/
def askProfileCancel (payload : List Byte) (s : State) : Answer :=
  match payload with
  | [] =>
    if s.store.committing then refuse s .busy
    else okWith (modStore (fun t => { t with staging := none }) s)
  | _ => refuse s .badArgument

/-! ## Long operations (R15, R17, R18, R19) -/

/-- A validation failure on the line (R12, R181). -/
def failureBytes (f : Failure) : List Byte := [byteOf f.index, f.reason.code]

/-- PROFILE_COMMIT after the BUSY test (R15, tests 2 to 5). -/
def commitStaging (s : State) : Answer :=
  match s.store.staging with
  | none => refuse s .notFound
  | some g =>
    if g.committing then refuse s .busy
    else if (s.store.directory.get g.number).writeProtected then refuse s .isProtected
    else
      match validate g.header g.content with
      | some f =>
        { state := modStore
            (fun t => { t with register := { operation := .commit, profile := some g.number,
                                             result := some (.invalid f) } }) s,
          status := .invalidProfile, payload := failureBytes f }
      | none =>
        if s.store.referenced g.number then refuse s .inUse
        else acceptedWith (modStore (acceptCommit g) s)

/-- PROFILE_COMMIT (R15). -/
def askProfileCommit (payload : List Byte) (s : State) : Answer :=
  match payload with
  | [] => if s.store.running.isSome then refuse s .busy else commitStaging s
  | _ => refuse s .badArgument

/-- PROFILE_ERASE of a profile (R17). -/
def eraseProfile (n : Fin 16) (s : State) : Answer :=
  if (s.store.directory.get n).writeProtected then refuse s .isProtected
  else if s.store.referenced n then refuse s .inUse
  else acceptedWith (modStore (startOp .erase (some n) .none) s)

/-- PROFILE_ERASE (R17). -/
def askProfileErase (payload : List Byte) (s : State) : Answer :=
  match payload with
  | [b] =>
    if s.store.running.isSome then refuse s .busy
    else
      match profileOf b with
      | some n => eraseProfile n s
      | none => refuse s .badArgument
  | _ => refuse s .badArgument

/-- PROFILE_PROTECT of a profile with at least one protection named (R18). -/
def protectProfile (n : Fin 16) (write read : Bool) (s : State) : Answer :=
  if s.store.dirState n ≠ .valid then refuse s .notFound
  else if s.store.referenced n then refuse s .inUse
  else acceptedWith (modStore (startOp .protect (some n) (.protect write read)) s)

/-- PROFILE_PROTECT (R18); bits 2 to 7 of the protections byte are not looked at (assumption 42). -/
def askProfileProtect (payload : List Byte) (s : State) : Answer :=
  match payload with
  | [b, f] =>
    if s.store.running.isSome then refuse s .busy
    else
      match profileOf b with
      | some n =>
        if f.getLsbD 0 || f.getLsbD 1 then protectProfile n (f.getLsbD 0) (f.getLsbD 1) s
        else refuse s .badArgument
      | none => refuse s .badArgument
  | _ => refuse s .badArgument

/-- STORE_CLEAR (R19). -/
def askStoreClear (payload : List Byte) (s : State) : Answer :=
  match payload with
  | [] =>
    if s.store.running.isSome then refuse s .busy
    else if s.anyActive then refuse s .inUse
    else acceptedWith (modStore (fun t => startOp .clear none .none { t with staging := none }) s)
  | _ => refuse s .badArgument

/-! ## Reading the store (R20, R185) -/

/-- The flags byte of a directory entry (R185). -/
def dirFlags (e : DirEntry) (isOpen : Bool) : Byte :=
  (if e.writeProtected then 1 else 0) ||| (if e.readProtected then 2 else 0)
    ||| (if isOpen then 4 else 0)

/-- A directory entry on the line (R185). -/
def dirBytes (e : DirEntry) (isOpen : Bool) : List Byte :=
  [e.state.code, e.affinity.code, dirFlags e isOpen, byteOf e.count] ++ e.label.toList
    ++ be16 (BitVec.ofNat 16 e.revision) ++ be16 e.check

/-- The entries f, f + 1 and f + 2, ending at entry 15 (R185). -/
def dirRange (t : Store) (f : Nat) : List Byte :=
  (((List.finRange 16).filter fun i => decide (f ≤ i.val ∧ i.val ≤ f + 2)).map fun i =>
    dirBytes (t.directory.get i) (t.staging.any fun g => g.number = i)).flatten

/-- DIR_READ (R20, R185). -/
def askDirRead (payload : List Byte) (s : State) : Answer :=
  match payload with
  | [f] => if f.toNat ≤ 15 then okRead s (dirRange s.store f.toNat) else refuse s .badArgument
  | _ => refuse s .badArgument

/-- The tests 2 to 4 of R20, then the read. -/
def readStored (n : Fin 16) (s : State) (f : DirEntry → Profile → Answer) : Answer :=
  let e := s.store.directory.get n
  if s.store.wholeBusy || decide (e.state = .writing) then refuse s .busy
  else if e.state = .empty ∨ e.state = .corrupt then refuse s .notFound
  else if e.readProtected then refuse s .isProtected
  else f e (s.store.profiles.get n)

/-- HEADER_READ (R20). -/
def askHeaderRead (payload : List Byte) (s : State) : Answer :=
  match payload with
  | [b] =>
    match profileOf b with
    | some n => readStored n s fun _ p => okRead s (headerBytes p.header)
    | none => refuse s .badArgument
  | _ => refuse s .badArgument

/-- SEGMENT_READ (R20). -/
def askSegmentRead (payload : List Byte) (s : State) : Answer :=
  match payload with
  | [b, i] =>
    match profileOf b with
    | some n =>
      readStored n s fun e p =>
        if e.count ≤ i.toNat then refuse s .badArgument
        else
          match p.segments[i.toNat]? with
          | some g => okRead s (segmentBytes g)
          | none => refuse s .badArgument
    | none => refuse s .badArgument
  | _ => refuse s .badArgument

/-- The result bytes of the long-operation register: result, index, reason (R185). -/
def resultBytes : Option OpResult → List Byte
  | none => [255, 255, 255]
  | some .ok => [0, 255, 255]
  | some .writeFailed => [1, 255, 255]
  | some (.invalid f) => 2 :: failureBytes f

/-- OP_QUERY (R14, R185). -/
def askOpQuery (payload : List Byte) (s : State) : Answer :=
  match payload with
  | [] =>
    let r := s.store.register
    okRead s ([r.operation.code, optByte (r.profile.map Fin.val), if r.result.isNone then 1 else 2]
      ++ resultBytes r.result)
  | _ => refuse s .badArgument

/-! ## Conditions (R167 to R171) -/

/-- The last severity of an entry as a byte; 255 when absent (R181). -/
def severityByte (v : Option Severity) : Byte := optByte (v.map Severity.code)

/-- An optional cycle with its presence byte (R181). -/
def cycleBytes (c : Option Cycle) : List Byte := optBytes 4 (c.map be32)

/-- The fields of an entry that COND_READ and COND_TAKE return after its flag or code. -/
def entryBytes (e : CondEntry) : List Byte :=
  [byteOf e.count] ++ cycleBytes e.lastCycle ++ [severityByte e.lastSeverity]

/-- The set of codes pending in a scope copy (R167, R181). -/
def pendingSet (u : Conditions) (sc : Scope) : BitVec 32 :=
  condKeys.foldl
    (fun acc k => if k.2 = sc ∧ (u.entry k.1 k.2).pending then acc ||| codeBit k.1 else acc) 0

/-- The summary of COND_READ with code 0 (R167). -/
def condSummary (s : State) : List Byte :=
  be32 (pendingSet s.cdu (.station .a)) ++ be32 (pendingSet s.cdu (.station .b))
    ++ be32 (pendingSet s.cdu .part) ++ [flagByte (attention s .a), flagByte (attention s .b)]

/-- COND_READ (R167). -/
def askCondRead (payload : List Byte) (s : State) : Answer :=
  match payload with
  | [c, i] =>
    if c = 0 then okRead s (condSummary s)
    else
      match Cond.ofCode c.toNat, scopeOf i with
      | some k, some sc =>
        if scopeFits k sc then
          okRead s (flagByte (s.cdu.entry k sc).pending :: entryBytes (s.cdu.entry k sc))
        else refuse s .badArgument
      | _, _ => refuse s .badArgument
  | _ => refuse s .badArgument

/-- The rank of a pending entry for COND_TAKE. -/
def takeRank (u : Conditions) (k : Cond × Scope) : Nat :=
  match (u.entry k.1 k.2).lastSeverity with
  | some v => v.code + 1
  | none => 0

/-- The entry COND_TAKE chooses: the highest last severity, then the order of the keys (R168). -/
def takeChoice (u : Conditions) : Option (Cond × Scope) :=
  (condKeys.filter fun k => (u.entry k.1 k.2).pending).foldl
    (fun best k =>
      match best with
      | none => some k
      | some b => if takeRank u b < takeRank u k then some k else some b) none

/-- COND_TAKE (R168); the reply's fields after the mark NONE are absent (assumption 20). -/
def askCondTake (payload : List Byte) (s : State) : Answer :=
  match payload with
  | [] =>
    match takeChoice s.cdu with
    | none => okRead s ([0, 255, 255] ++ [255] ++ cycleBytes none ++ [255])
    | some k =>
      let e := s.cdu.entry k.1 k.2
      { state := modCdu (fun u => u.putEntry k.1 k.2 { e with pending := false }) s, status := .ok,
        payload := [1, byteOf k.1.code, k.2.code] ++ entryBytes e }
  | _ => refuse s .badArgument

/-- The instances COND_CLEAR names; none of `some` is all (R169, R181). -/
def clearScope (b : Byte) : Option (Option Scope) :=
  if b = 3 then some none else (scopeOf b).map some

/-- An entry matches a selection (R169). -/
def clearMatches (code : Nat) (sc : Option Scope) (k : Cond × Scope) : Bool :=
  (decide (code = 0) || decide (k.1.code = code)) &&
    match sc with
    | none => true
    | some v => decide (k.2 = v)

/-- An entry after COND_CLEAR (R169). -/
def clearedBy (counts : Bool) (e : CondEntry) : CondEntry :=
  if counts then { pending := false, count := 0, lastCycle := none, lastSeverity := none }
  else { e with pending := false }

/-- COND_CLEAR of decoded fields (R169). -/
def clearConditions (code : Nat) (sc : Option Scope) (counts : Bool) (s : State) : Answer :=
  let keys := condKeys.filter (clearMatches code sc)
  let cleared := (keys.filter fun k => (s.cdu.entry k.1 k.2).pending).length
  { state := modCdu
      (fun u => keys.foldl (fun u k => u.putEntry k.1 k.2 (clearedBy counts (u.entry k.1 k.2))) u) s,
    status := .ok, payload := [byteOf cleared] }

/-- COND_CLEAR (R169). -/
def askCondClear (payload : List Byte) (s : State) : Answer :=
  match payload with
  | [c, i, f] =>
    match clearScope i, flagOf f with
    | some sc, some counts =>
      if c.toNat ≤ 28 then clearConditions c.toNat sc counts s else refuse s .badArgument
    | _, _ => refuse s .badArgument
  | _ => refuse s .badArgument

/-- The first-condition record on the line; absent fields when free (R170, R181; assumption 20). -/
def firstBytes (r : Option FirstRecord) : List Byte :=
  [flagByte r.isSome, optByte (r.map fun v => v.code.code),
      optByte ((r.bind FirstRecord.station).map fun x => (stationCode x).toNat),
      optByte ((r.bind FirstRecord.state).map fun n => n.code.toNat), optByte (r.bind FirstRecord.index)]
    ++ optBytes 4 ((r.bind FirstRecord.x).map int32Bytes)
    ++ cycleBytes (r.map FirstRecord.cycle) ++ [severityByte (r.map FirstRecord.severity)]

/-- FIRST_READ (R170). -/
def askFirstRead (payload : List Byte) (s : State) : Answer :=
  match payload with
  | [] =>
    okRead s (firstBytes s.cdu.first ++
      (if s.cdu.first.isSome then be32 s.cdu.nextSet ++ [byteOf s.cdu.nextCount] else [0, 0, 0, 0, 0]))
  | _ => refuse s .badArgument

/-- FIRST_RELEASE (R170). -/
def askFirstRelease (payload : List Byte) (s : State) : Answer :=
  match payload with
  | [] => okWith (modCdu (fun u => { u with first := none, nextSet := 0, nextCount := 0 }) s)
  | _ => refuse s .badArgument

/-- SEVERITY_READ (R171). -/
def askSeverityRead (payload : List Byte) (s : State) : Answer :=
  match payload with
  | [c] =>
    match Cond.ofCode c.toNat with
    | some k =>
      okRead s [byteOf (s.cdu.setSeverity k).code, byteOf k.defaultSeverity.code,
        byteOf k.minimumSeverity.code]
    | none => refuse s .badArgument
  | _ => refuse s .badArgument

/-- Set the severity of a condition. -/
def Conditions.putSeverity (u : Conditions) (c : Cond) (v : Severity) : Conditions :=
  { u with severity := u.severity.setIfInBounds (c.code - 1) v }

/-- SEVERITY_WRITE (R171). -/
def askSeverityWrite (payload : List Byte) (s : State) : Answer :=
  match payload with
  | [c, b] =>
    match Cond.ofCode c.toNat, severityOf b.toNat with
    | some k, some v =>
      if v.code < k.minimumSeverity.code then refuse s .badArgument
      else okWith (modCdu (fun u => u.putSeverity k v) s)
    | _, _ => refuse s .badArgument
  | _ => refuse s .badArgument

/-! ## Results, retained records, sample records (R176, R177, R186) -/

/-- The fields of a scan result record without its list (R172, R181). -/
def scanBytes (r : ScanResult) : List Byte :=
  [r.outcome.code, optByte (r.cause.map Cause.code), byteOf r.profile.val]
    ++ be16 (BitVec.ofNat 16 r.revision) ++ int32Bytes r.datum ++ be32 r.startCycle
    ++ cycleBytes r.endCycle ++ [flagByte r.disturbed, optByte r.highest, byteOf r.entries.length]

/-- RESULT_READ (R176). -/
def askResultRead (payload : List Byte) (s : State) : Answer :=
  match payload with
  | [b] =>
    match stationOf b with
    | some x =>
      match (s.st x).result with
      | some r => okRead s (scanBytes r)
      | none => refuse s .notFound
    | none => refuse s .badArgument
  | _ => refuse s .badArgument

/-- The duration of an entry as it is read: the cycles elapsed while its account is open (R92, R174). -/
def shownDuration (s : State) (x : StationId) (e : SegEntry) : Cycle :=
  match (s.st x).pcu.account with
  | some a => if a.index = e.index ∧ e.verdict.isNone then s.cycle - a.entryCycle else e.duration
  | none => e.duration

/-- A segment entry on the line (R174, R181). -/
def segEntryBytes (s : State) (x : StationId) (e : SegEntry) : List Byte :=
  [byteOf e.index] ++ optBytes 4 (e.expected.map nat32Bytes) ++ nat32Bytes e.measured
    ++ nat32Bytes e.missing ++ optBytes 2 (e.tempMin.map fun t => be16 (BitVec.ofNat 16 t))
    ++ optBytes 2 (e.tempMax.map fun t => be16 (BitVec.ofNat 16 t))
    ++ optBytes 4 (e.lateness.map nat32Bytes) ++ be32 (shownDuration s x e)
    ++ [optByte (e.verdict.map fun v => v.code.toNat)]

/-- RESULT_SEGMENT_READ (R176). -/
def askResultSegmentRead (payload : List Byte) (s : State) : Answer :=
  match payload with
  | [b, k] =>
    match stationOf b with
    | some x =>
      match (s.st x).result with
      | some r =>
        match r.entries[k.toNat]? with
        | some e => okRead s (segEntryBytes s x e)
        | none => refuse s .badArgument
      | none => refuse s .notFound
    | none => refuse s .badArgument
  | _ => refuse s .badArgument

/-- A retained record on the line: all fields absent while its active flag is clear (R177, R181;
assumption 20). -/
def retainedBytes (r : Option Retained) : List Byte :=
  [flagByte r.isSome, optByte (r.map fun v => v.profile.val)]
    ++ optBytes 2 (r.map fun v => be16 (BitVec.ofNat 16 v.revision))
    ++ optBytes 4 (r.map fun v => int32Bytes v.datum) ++ [optByte (r.bind Retained.index)]
    ++ optBytes 4 ((r.bind Retained.position).map int32Bytes)
    ++ cycleBytes (r.map Retained.cycle) ++ [optByte (r.map fun v => v.state.code.toNat)]

/-- RETAINED_READ (R177). -/
def askRetainedRead (payload : List Byte) (s : State) : Answer :=
  match payload with
  | [b] =>
    match stationOf b with
    | some x => okRead s (retainedBytes (s.rtb.records.get x))
    | none => refuse s .badArgument
  | _ => refuse s .badArgument

/-- A sample record on the line (R186). -/
def sampleBytes (r : SampleRecord) : List Byte :=
  [if r.fresh then 0 else 1] ++ optBytes 8 (r.value.map Vector.toList)
    ++ be32 (if r.value.isSome then r.cycle else 0) ++ [byteOf r.missCount, flagByte r.missRun]

/-- SAMPLE_READ (R186). -/
def askSampleRead (payload : List Byte) (s : State) : Answer :=
  match payload with
  | [b, g] =>
    match stationOf b, feedbackOf g with
    | some x, some f => okRead s (sampleBytes (sampleOf f (s.link.samples.get x)))
    | _, _ => refuse s .badArgument
  | _ => refuse s .badArgument

end Sys2Proof.Machine
end

