-- ==== Sys2Proof/Machine/Capture.lean ====
section
/-! DEFINITION. The closing of a return wait: classing the feedback signals, the sample records, and the
handing of the samples to the blocks (R152, R154, R155). -/

namespace Sys2Proof.Machine

/-- The class of a feedback signal at a closed return wait (R154). `lost` stands for unbound and for no
frame, which act alike (R155). -/
inductive Capture
  | fresh (payload : Vector Byte 8)
  | inFrame
  | lost
  deriving DecidableEq, Repr

/-- The slot's writer is accepted (R147, R151, R154). -/
def writerFits (e : MapEntry) (w : Byte) : Bool := decide (e.writer = 0) || decide (w = e.writer)

/-- The class of a feedback signal in a valid return (R154). -/
def classify (m : SlotMap) (frame : List Byte) (x : StationId) (f : Feedback) : Capture :=
  match bound m (.feedback x f) with
  | none => .lost
  | some e =>
    match findSlot frame e.slotId with
    | none => .inFrame
    | some sl =>
      if sl.state = slotValid ∧ writerFits e sl.writer ∧ payloadInRange f sl.payload then
        .fresh sl.payload
      else .inFrame

/-- One signal of a closed wait: whose it is, which, and how it was classed. -/
structure Captured where
  station : StationId
  signal : Feedback
  capture : Capture
  deriving DecidableEq, Repr

/-- The eight feedback signals, A before B (R155). -/
def feedbacks : List (StationId × Feedback) :=
  [(.a, .position), (.a, .powerActual), (.a, .quenchActual), (.a, .temperature),
    (.b, .position), (.b, .powerActual), (.b, .quenchActual), (.b, .temperature)]

/-- The eight signals of a valid return. -/
def capturesOf (m : SlotMap) (frame : List Byte) : List Captured :=
  feedbacks.map fun k => { station := k.1, signal := k.2, capture := classify m frame k.1 k.2 }

/-- The eight signals of a wait that no valid return closes. -/
def capturesLost : List Captured :=
  feedbacks.map fun k => { station := k.1, signal := k.2, capture := .lost }

/-- A miss on a sample record (R155). -/
def missRecord (r : SampleRecord) : SampleRecord :=
  { r with fresh := false, missCount := Nat.min 255 (r.missCount + 1) }

/-- A sample record after a closed wait; `required` is the map's mark (R155). -/
def updateRecord (cycle : Cycle) (required : Bool) (c : Capture) (r : SampleRecord) : SampleRecord :=
  match c with
  | .fresh p => { value := some p, cycle := cycle, fresh := true, missCount := 0, missRun := false }
  | .inFrame => { missRecord r with missRun := r.missRun || required }
  | .lost => missRecord r

/-- The signal's entry is required. -/
def isRequired (m : SlotMap) (x : StationId) (f : Feedback) : Bool :=
  (bound m (.feedback x f)).any MapEntry.required

/-- Update one sample record and raise SLOT_MISSING when a run begins (R155). -/
def recordOne (m : SlotMap) (cycle : Cycle) (s : State) (c : Captured) : State :=
  let r := sampleOf c.signal (s.link.samples.get c.station)
  let required := isRequired m c.station c.signal
  let s1 :=
    modLink
      (fun l =>
        { l with
          samples := l.samples.set c.station
            (modSample c.signal (updateRecord cycle required c.capture)
              (l.samples.get c.station)) }) s
  if decide (c.capture = .inFrame) && required && !r.missRun then
    raiseSt .slotMissing c.station s1
  else s1

/-- A retune was in progress when the return was captured (assumption 41). -/
structure RetuneMarks where
  a : Bool
  b : Bool
  deriving DecidableEq, Repr

/-- The mark of a station. -/
def retuneMark (k : RetuneMarks) : StationId → Bool
  | .a => k.a
  | .b => k.b

/-- A POWER_ACTUAL signal as it is handed (R76). -/
def powerSampleOf (cycle : Cycle) : Capture → PowerSample
  | .fresh p => { cycle := cycle, body := (powerBodyOf p).getD .missing }
  | .inFrame | .lost => { cycle := cycle, body := .missing }

/-- Hand one sample to its block (R155); a payload that fails its ranges has been classed MISSING. A
POWER_ACTUAL sample is only taken here: `judgeAfter` says when it is judged. -/
def handOne (k : RetuneMarks) (cycle : Cycle) (s : State) (c : Captured) : State :=
  match c.signal, c.capture with
  | .position, .fresh p => positionHanded c.station { cycle := cycle, body := positionBodyOf p } s
  | .position, _ => positionHanded c.station { cycle := cycle, body := .missing } s
  | .powerActual, p =>
    powerTaken c.station (retuneMark k c.station) (powerSampleOf cycle p).body s
  | .quenchActual, .fresh p =>
    quenchHanded c.station { cycle := cycle, body := (quenchBodyOf p).getD .missing } s
  | .quenchActual, _ => quenchHanded c.station { cycle := cycle, body := .missing } s
  | .temperature, .fresh p =>
    temperatureHanded c.station { cycle := cycle, body := (temperatureBodyOf p).getD .missing } s
  | .temperature, _ => temperatureHanded c.station { cycle := cycle, body := .missing } s

/-- A permutation of a list, picked place by place by a numeral; `fuel` is its length. -/
def permute {α : Type} : Nat → Nat → List α → List α
  | 0, _, _ => []
  | fuel + 1, n, l =>
    match l[n % l.length]? with
    | none => []
    | some v => v :: permute fuel (n / l.length) (l.eraseIdx (n % l.length))

/-- The signal is one that the power judgement of station `x` waits for: its POWER_ACTUAL sample, or the
POSITION sample that brings the report of the same cycle (R76). -/
def judgeWaits (x : StationId) (c : Captured) : Bool :=
  decide (c.station = x) && (decide (c.signal = .position) || decide (c.signal = .powerActual))

/-- The POWER_ACTUAL signal of a station among those of one return. -/
def powerCapture (cs : List Captured) (x : StationId) : Capture :=
  match cs.find? fun c => c.station = x ∧ c.signal = .powerActual with
  | some c => c.capture
  | none => .lost

/-- A POWER_ACTUAL sample is judged (R88 to R90) once both it and the report of its cycle have been
handed, whichever came first, so that their order decides only which account it is credited to (R76;
assumption 47). `all` are the signals of the return, `rest` those that are still to be handed. -/
def judgeAfter (cycle : Cycle) (all rest : List Captured) (c : Captured) (s : State) : State :=
  if judgeWaits c.station c && !rest.any (judgeWaits c.station) then
    powerJudged c.station (powerSampleOf cycle (powerCapture all c.station)) s
  else s

/-- Hand samples on in the order of the list (R155). -/
def handFrom (k : RetuneMarks) (cycle : Cycle) (all : List Captured) : List Captured → State → State
  | [], s => s
  | c :: rest, s => handFrom k cycle all rest (judgeAfter cycle all rest c (handOne k cycle s c))

/-- Hand the eight samples on, in an order that is a free value (R76, R155; assumption 6). -/
def handAll (cycle : Cycle) (cs : List Captured) (s : State) : State :=
  let k : RetuneMarks := { a := s.retuning .a, b := s.retuning .b }
  handFrom k cycle cs (permute 8 (Config.handOrder s.draws) cs) (bump s)

/-- The records are updated, then the samples handed (R155). That station A's records come before station B's
is the model's choice, assumption 59. -/
def closeSamples (m : SlotMap) (cycle : Cycle) (cs : List Captured) (s : State) : State :=
  handAll cycle cs (cs.foldl (recordOne m cycle) s)

/-- The wait is over: closed, its reply gone with it (R152). -/
def dropWait : State → State := modLink fun l => { l with wait := none, heldReply := none }

/-- The wait closes with every signal MISSING (R152, R154). -/
def closeLost (w : ReturnWait) (s : State) : State :=
  closeSamples s.link.map w.count capturesLost (dropWait s)

/-- The wait closes without a return: RETURN_TIMEOUT, every signal MISSING, the reply dropped (R152). -/
def timeOut (w : ReturnWait) (s : State) : State := closeLost w (raisePart .returnTimeout s)

/-- The wait closes at the completion of a valid return under the map of its arrival (R154). -/
def closeValid (w : ReturnWait) (m : SlotMap) (frame : List Byte) (s : State) : State :=
  closeSamples m w.count (capturesOf m frame) (dropWait s)

end Sys2Proof.Machine
end

