-- ==== Sys2Proof/Machine/Link.lean ====
section
/-! DEFINITION. The Link Port Unit: link states, the outbound pass, the return pass, link reset and the
service channel (R141 to R157). -/

namespace Sys2Proof.Machine

/-! ## The service channel (R157, R180) -/

/-- The request codes of R181. -/
def serve (code : Byte) (payload : List Byte) (s : State) : Answer :=
  match code.toNat with
  | 1 => askIdent payload s
  | 2 => askParamRead payload s
  | 3 => askParamWrite payload s
  | 4 => askMapRead payload s
  | 5 => askMapWrite payload s
  | 6 => askProgramRead payload s
  | 7 => askProgramWrite payload s
  | 8 => askProfileOpen payload s
  | 9 => askHeaderWrite payload s
  | 10 => askSegmentWrite payload s
  | 11 => askSegmentTruncate payload s
  | 12 => askProfileCancel payload s
  | 13 => askProfileCommit payload s
  | 14 => askProfileErase payload s
  | 15 => askProfileProtect payload s
  | 16 => askStoreClear payload s
  | 17 => askDirRead payload s
  | 18 => askHeaderRead payload s
  | 19 => askSegmentRead payload s
  | 20 => askOpQuery payload s
  | 21 => askCondRead payload s
  | 22 => askCondTake payload s
  | 23 => askCondClear payload s
  | 24 => askFirstRead payload s
  | 25 => askFirstRelease payload s
  | 26 => askSeverityRead payload s
  | 27 => askSeverityWrite payload s
  | 28 => askResultRead payload s
  | 29 => askResultSegmentRead payload s
  | 30 => askRetainedRead payload s
  | 31 => askSampleRead payload s
  | _ => refuse s .unknownRequest

/-- The answer becomes the held reply (R157, R180). -/
def holdReply (tag : Byte) (r : Answer) : State :=
  modLink (fun l => { l with heldReply := some { tag := tag, status := r.status, payload := r.payload } })
    r.state

/-- The own address as a byte. -/
def ownByte (l : Link) : Byte := BitVec.ofNat 8 (l.address.getD 0)

/-- The channel carries a request for the part (R157). -/
def channelTaken (l : Link) (c : ServiceChannel) : Bool :=
  decide (c.target = ownByte l) && decide (c.target ≠ 0) && decide (c.direction = 0)

/-- The answer to a taken channel: a length above 48 does not reach the handler (R157). -/
def answerChannel (c : ServiceChannel) (s : State) : Answer :=
  if 48 < c.length.toNat then refuse s .badArgument
  else serve c.code (c.payload.take c.length.toNat) s

/-- No reply is held for the wait that opens next (R150, R152). -/
def noReply : State → State := modLink fun l => { l with heldReply := none }

/-- Step 5 of R150 for a frame that arrived in UP. -/
def takeRequest (frame : List Byte) (s : State) : State :=
  let s1 := noReply s
  match serviceOf frame with
  | none => s1
  | some c => if channelTaken s1.link c then holdReply c.tag (answerChannel c s1) else s1

/-! ## Counting and supervision (R145, R146) -/

/-- The difference d by which a frame advances the cycle count (R145). -/
def advanceBy (l : Link) (n : CycleNumber) : Nat :=
  match l.lastNumber with
  | none => 1
  | some k => if n = k then 65536 else (n - k).toNat

/-- The cycle count advances and the number is taken (R145). -/
def advance (n : CycleNumber) (l : Link) : Link :=
  { l with count := l.count + BitVec.ofNat 32 (advanceBy l n), lastNumber := some n }

/-- Supervision restarts with 1.5 × CYCLE_TIME and the missed count returns to 0 (R146). -/
def restartSupervision (cycleTime : Nat) (l : Link) : Link :=
  { l with supervision := .running (3 * cycleTime / 2), missed := 0 }

/-- A frame number is in sequence (R144). -/
def inSequence (l : Link) (n : CycleNumber) : Bool := decide (l.lastNumber = some (n - 1))

/-! ## Frames sent on -/

/-- A frame is sent on port D. -/
def sendD (bytes : List Byte) : State → State := modLink fun l => { l with sentD := bytes }

/-- A frame is sent on port U. -/
def sendU (bytes : List Byte) : State → State := modLink fun l => { l with sentU := bytes }

/-- A frame as it is forwarded without rewriting (R143, R144). -/
def unchanged (frame : List Byte) : List Byte := forwardFrame 0 [] none frame

/-- A frame whose check is replaced by the ones' complement of the check over what is sent (R143). -/
def spoiled (sent : List Byte) : List Byte :=
  sent.take (sent.length - 4) ++ be32 (~~~crc32 (sent.take (sent.length - 4)))

/-! ## The outbound pass (R149) -/

/-- The values held for a station's setpoint signals (R149). -/
def snapshotOf (s : State) (x : StationId) : Snapshot :=
  { power := (s.st x).pcu.held, quench := (s.st x).qsc.held, quenchStale := (s.st x).qsc.stale,
    travel := (s.st x).seq.travelSet, travelStale := (s.st x).seq.travelStale }

/-- The snapshot payload of a setpoint signal with its stale mark (R36, R149, R160). -/
def setpointWrite (p : Setpoint) (id : Byte) (v : Snapshot) : SlotWrite :=
  match p with
  | .powerSet => { id := id, stale := v.power.stale, payload := powerSetPayload v.power }
  | .quenchSet => { id := id, stale := v.quenchStale, payload := quenchSetPayload v.quench }
  | .travelSet => { id := id, stale := v.travelStale, payload := travelSetPayload v.travel }

/-- The six setpoint signals. -/
def setpoints : List (StationId × Setpoint) :=
  [(.a, .powerSet), (.a, .quenchSet), (.a, .travelSet), (.b, .powerSet), (.b, .quenchSet),
    (.b, .travelSet)]

/-- The writes of a passage at port U, one for each bound setpoint signal (R149). -/
def setpointWrites (p : PassageU) : List SlotWrite :=
  setpoints.filterMap fun k =>
    (bound p.map (.setpoint k.1 k.2)).map fun e =>
      setpointWrite k.2 e.slotId (p.snapshot.get k.1)

/-- An outbound frame as it leaves port D (R149). -/
def outboundSent (l : Link) (p : PassageU) (frame : List Byte) : List Byte :=
  forwardFrame (ownByte l) (setpointWrites p) none frame

/-- A frame as it leaves port D at a completion outside UP: rewritten when its passage began in UP,
unchanged otherwise (R143, R144). R149 rewrites the slots of a frame that arrives in UP, and R144 and R146 pass the
slots unchanged once the link is LOST. That the frame in passage is rewritten to its end is the model's choice,
assumption 56. -/
def leavesD (l : Link) (n : CycleNumber) (frame : List Byte) : List Byte :=
  match l.passU with
  | some p => if p.number = n then outboundSent l p frame else unchanged frame
  | none => unchanged frame

/-- The frame has left port D outside UP with no wait opened for it: its passage is over, and an early return
that had come to its end belongs to no wait (assumption 38). -/
def leaveD (n : CycleNumber) (frame : List Byte) (s : State) : State :=
  modLink (fun l => { l with sentD := leavesD l n frame, passU := none, ended := none }) s

/-- A frame arrives at port U in UP: an open wait is overtaken (R152). -/
def overtake (s : State) : State :=
  match s.link.wait with
  | some w => timeOut w s
  | none => s

/-- A CYCLE frame's arrival at port U in UP: an open wait is overtaken, the snapshot taken; an early
return kept for a frame before it has no frame left to wait for (R149, R152; assumption 38). -/
def arriveU (n : CycleNumber) (s : State) : State :=
  let s1 := overtake s
  modLink
    (fun l => { l with passU := some { number := n, map := l.map,
                                       snapshot := { a := snapshotOf s1 .a, b := snapshotOf s1 .b } },
                       ended := none })
    s1

/-- The passage at port U carries number `n`. -/
def passingU (l : Link) (n : CycleNumber) : Bool := l.passU.any fun p => p.number = n

/-- The arrival that a completion implies, when it has not come as a command of its own (assumption
5). -/
def ensureArrivedU (h : FrameHeader) (s : State) : State :=
  if passingU s.link h.number then s
  else if h.kind = kindCycle then arriveU h.number s
  else overtake s

/-! ## The completion in UP (R150, R151) -/

/-- One output slot (R150, step 2). -/
def checkOutput (m : SlotMap) (frame : List Byte) (s : State) (k : StationId × Setpoint) : State :=
  match bound m (.setpoint k.1 k.2) with
  | none => s
  | some e =>
    let missing := (findSlot frame e.slotId).isNone
    let run := runOf k.2 (s.link.setRuns.get k.1)
    let s1 :=
      modLink
        (fun l =>
          { l with
            setRuns := l.setRuns.set k.1 (modRun k.2 (fun _ => missing) (l.setRuns.get k.1)) }) s
    if missing && !run then raiseSt .slotMissing k.1 s1 else s1

/-- Step 2 of R150; the slots are checked in the order of `setpoints`, station A before station B: the model's
choice, assumption 59. -/
def checkOutputs (m : SlotMap) (frame : List Byte) (s : State) : State :=
  setpoints.foldl (checkOutput m frame) s

/-- Step 3 of R150: the snapshot's POWER_SET values are handed back (R80). -/
def handBackAll (p : PassageU) (s : State) : State :=
  handBack .b (p.snapshot.get .b).power.setpoint s.cycle
    (handBack .a (p.snapshot.get .a).power.setpoint s.cycle s)

/-- The CONTROL slot, when usable (R151). -/
def usableControl (m : SlotMap) (frame : List Byte) : Option (Vector Byte 8) :=
  match bound m .control with
  | none => none
  | some e =>
    match findSlot frame e.slotId with
    | none => none
    | some sl => if sl.state = slotValid ∧ writerFits e sl.writer then some sl.payload else none

/-- CONTROL is bound and required. -/
def controlRequired (m : SlotMap) : Bool := (bound m .control).any MapEntry.required

/-- SLOT_MISSING once for station A and once for station B (R151, R153), in that order: the model's choice,
assumption 59. -/
def raiseBothMissing (s : State) : State := raiseSt .slotMissing .b (raiseSt .slotMissing .a s)

/-- Step 4 of R150 (R151). That station A's command is carried out before station B's is the model's choice,
assumption 59. -/
def takeControl (m : SlotMap) (frame : List Byte) (s : State) : State :=
  match usableControl m frame with
  | some p =>
    let s1 := modLink (fun l => { l with controlRun := false, adoption := false }) s
    if s.link.adoption then adoptNibble .b (controlPart .b p) (adoptNibble .a (controlPart .a p) s1)
    else handControl .b (controlPart .b p) (handControl .a (controlPart .a p) s1)
  | none =>
    if controlRequired m && !s.link.controlRun then
      raiseBothMissing (modLink (fun l => { l with controlRun := true }) s)
    else s

/-- An early return is passing for frame `n` (R152). -/
def earlyFor (l : Link) (n : CycleNumber) : Bool :=
  l.passD.any fun p => decide (p.kind = .early) && decide (p.number = n)

/-- An early return for frame `n` that has come to its end (R152). -/
def endedFor (l : Link) (n : CycleNumber) : Option EndedReturn :=
  match l.ended with
  | some e => if e.number = n then some e else none
  | none => none

/-- The STATUS slot is checked at the completion of a valid taken return (R153). -/
def checkStatus (m : SlotMap) (frame : List Byte) (s : State) : State :=
  match bound m .status with
  | none => s
  | some e =>
    let missing := (findSlot frame e.slotId).isNone
    let s1 := modLink (fun l => { l with statusRun := missing }) s
    if missing && !s.link.statusRun then raiseBothMissing s1 else s1

/-- A return closes its wait: by its samples when valid, with every signal MISSING when bad (R154). That
the STATUS slot is checked (R153) before the samples are updated and handed (R155) is the model's choice,
assumption 52. -/
def closeBy (w : ReturnWait) (m : SlotMap) (frame : List Byte) (s : State) : State :=
  if goodCycle frame then closeValid w m frame (checkStatus m frame s) else closeLost w s

/-- The wait that took the return with number `n`, when it is still open. -/
def waitOf (l : Link) (n : CycleNumber) : Option ReturnWait :=
  match l.wait with
  | some w => if w.taken ∧ w.number = n then some w else none
  | none => none

/-- The wait as it opens: running, or taken at once by an early return (R152). -/
def openedWait (n : CycleNumber) (c : Cycle) (timeout : Nat) (early : Bool) : ReturnWait :=
  { number := n, count := c, timer := if early then .stopped else .running timeout, taken := early }

/-- The early return is taken; a reply that is not formed in time is dropped, which is a free value
(R152; assumption 9). -/
def takeEarly (s : State) : State :=
  let inTime := Config.replyInTime s.draws
  modLink
    (fun l => { l with passD := l.passD.map fun p => { p with kind := .taken },
                       heldReply := if inTime then l.heldReply else none })
    (bump s)

/-- Step 6 of R150: the return wait opens (R152). -/
def openWait (n : CycleNumber) (s : State) : State :=
  let early := earlyFor s.link n
  let taken := early || (endedFor s.link n).isSome
  let s1 :=
    modLink (fun l => { l with wait := some (openedWait n l.count s.params.returnTimeout taken) }) s
  if early then takeEarly s1 else s1

/-- An early return that came to its end while its outbound frame still passed closes the wait of that
frame as it opens (R152, R154; assumption 38). -/
def closeEnded (n : CycleNumber) (s : State) : State :=
  match endedFor s.link n with
  | none => s
  | some e =>
    let s1 := modLink (fun l => { l with ended := none }) s
    match waitOf s.link n with
    | some w => closeBy w e.map e.frame s1
    | none => s1

/-- Steps 2 to 6 of R150 for a frame whose passage `p` began in UP. -/
def completeUp (p : PassageU) (n : CycleNumber) (frame : List Byte) (s : State) : State :=
  openWait n
    (takeRequest frame (takeControl p.map frame (handBackAll p (checkOutputs p.map frame s))))

/-- Steps 2, 4 and 6 of R150 for the frame that brings the link UP: its passage began before UP, so no value is
handed back (R144), and it arrived outside UP, so its request is not taken (R157; assumption 55). -/
def completeEntry (m : SlotMap) (n : CycleNumber) (frame : List Byte) (s : State) : State :=
  openWait n (noReply (takeControl m frame (checkOutputs m frame s)))

/-- Step 1 of R150: the count advances, a gap is raised, supervision restarts (R145, R146). -/
def countUp (n : CycleNumber) (s : State) : State :=
  let gap := decide (advanceBy s.link n ≠ 1)
  let s1 := modLink (fun l => restartSupervision s.params.cycleTime (advance n l)) s
  if gap then raisePart .cycleGap s1 else s1

/-- The completion of a valid CYCLE frame at port U in UP, its passage being there (R150). -/
def cycleUp (h : FrameHeader) (frame : List Byte) (s : State) : State :=
  let s0 := ensureArrivedU h s
  match s0.link.passU with
  | none => s0
  | some p =>
    let s1 := sendD (outboundSent s0.link p frame) s0
    let s2 := countUp h.number (modLink (fun l => { l with passU := none }) s1)
    closeEnded h.number (completeUp p h.number frame s2)

/-- Outside UP a valid CYCLE frame advances the count and restarts supervision (R145, R146). -/
def countDown (n : CycleNumber) (s : State) : State :=
  modLink (fun l => restartSupervision s.params.cycleTime (advance n l)) s

/-- The frame brings the link UP (R144). -/
def bringsUp (l : Link) (n : CycleNumber) : Bool :=
  decide (l.state = .syncing) && decide (l.good = 2) && inSequence l n

/-- The link enters UP at a completion, with the CONTROL nibbles still to be adopted (R144). -/
def enterUp (h : FrameHeader) (frame : List Byte) (s : State) : State :=
  let s1 := countDown h.number (leaveD h.number frame s)
  let s2 := modLink (fun l => { l with state := .up, good := 3, adoption := true }) s1
  completeEntry s2.link.map h.number frame s2

/-- The link state and good-frame count after a valid CYCLE frame that does not bring the link UP
(R144). -/
def syncState (n : CycleNumber) (l : Link) : Link :=
  match l.state with
  | .down => { l with state := .syncing, good := 1 }
  | .lost => { l with state := .syncing, good := 1 }
  | .syncing => { l with good := if inSequence l n then l.good + 1 else 1 }
  | .up => l
  | .passive => l

/-- The completion of a valid CYCLE frame at port U (R144, R145, R146, R150). -/
def cycleCompletes (h : FrameHeader) (frame : List Byte) (s : State) : State :=
  match s.link.state with
  | .passive => s
  | .up => cycleUp h frame s
  | .down | .syncing | .lost =>
    if bringsUp s.link h.number then enterUp h frame s
    else countDown h.number (modLink (syncState h.number) (leaveD h.number frame s))

/-! ## Bad frames at port U (R143, R144) -/

/-- The frame at port D as its outbound frame `n` completes bad: an early return stands as one (R152). -/
def orphaned (l : Link) (n : CycleNumber) : Option PassageD :=
  if earlyFor l n then l.passD.map fun p => { p with kind := .orphan } else l.passD

/-- The outbound frame `n` completes bad: its passage is over, an early return that still passes is marked,
and one that has come to its end is gone (R152). -/
def orphanEarly (n : CycleNumber) (l : Link) : Link :=
  { l with passU := none, passD := orphaned l n, ended := none }

/-- STRAY_RETURN for an early return that was received valid and whose outbound frame completes bad after
it (R152); a bad one has raised FRAME_CHECK already. It comes after that outbound frame's FRAME_CHECK: the
model's choice, assumption 58. -/
def raiseEnded (n : CycleNumber) (l : Link) (s : State) : State :=
  if (endedFor l n).any fun e => frameGood e.frame then raisePart .strayReturn s else s

/-- The passage at port U of frame `n`. -/
def passageU (l : Link) (n : CycleNumber) : Option PassageU := l.passU.filter fun p => p.number = n

/-- A bad frame whose passage began in UP completes, in whatever link state: it leaves spoiled, FRAME_CHECK
is raised, nothing it carries is acted on, and its early return has lost its frame (R143, R150, R152; rewritten
outside UP too by assumption 56). R164 lets either of two raises that come together be taken first; that
FRAME_CHECK comes before the STRAY_RETURN of an ended early return is the model's choice, assumption 58. -/
def badPassage (p : PassageU) (frame : List Byte) (s : State) : State :=
  raiseEnded p.number s.link
    (raisePart .frameCheck
      (modLink (orphanEarly p.number) (sendD (outboundSent s.link p frame) s)))

/-- A bad frame completes at port U in UP (R143, R150). -/
def badUp (frame : List Byte) (s : State) : State :=
  match headerOf frame with
  | none => raisePart .frameCheck (sendD (unchanged frame) s)
  | some h =>
    let s0 := ensureArrivedU h s
    match passageU s0.link h.number with
    | some p => badPassage p frame s0
    | none => raisePart .frameCheck (sendD (unchanged frame) s0)

/-- A bad frame completes at port U in DOWN, SYNCING or LOST (R143, R144). -/
def badDown (frame : List Byte) (s : State) : State :=
  match headerOf frame with
  | none => raisePart .frameCheck (sendD (unchanged frame) s)
  | some h =>
    match passageU s.link h.number with
    | some p => badPassage p frame s
    | none => raisePart .frameCheck (leaveD h.number frame s)

/-- A bad frame completes at port U (R143, R144). -/
def badU (frame : List Byte) (s : State) : State :=
  match s.link.state with
  | .passive => sendD (unchanged frame) s
  | .up => badUp frame s
  | .syncing => badDown frame (modLink (fun l => { l with good := 0 }) s)
  | .down | .lost => badDown frame s

/-! ## The return pass (R152, R153, R154) -/

/-- The return of the open wait arrives in time (R152). -/
def awaited (l : Link) (n : CycleNumber) : Bool :=
  match l.wait with
  | some w => !w.taken && w.timer.isRunning && decide (w.number = n)
  | none => false

/-- The awaited return arrives: it is taken, with STATUS as the part stands (R152, R153). -/
def arriveD (n : CycleNumber) (s : State) : State :=
  modLink
    (fun l => { l with wait := l.wait.map fun w => { w with taken := true, timer := .stopped },
                       attentionLevel := s.params.attentionLevel,
                       passD := some { number := n, map := l.map, status := statusPayload s,
                                       kind := .taken } }) s

/-- An early return arrives: it is forwarded and rewritten, its outbound frame still passing (R152). -/
def arriveEarly (n : CycleNumber) (s : State) : State :=
  modLink
    (fun l => { l with attentionLevel := s.params.attentionLevel,
                       passD := some { number := n, map := l.map, status := statusPayload s,
                                       kind := .early } }) s

/-- A stray arrives: it is not sent on (R152). -/
def arriveStray (n : CycleNumber) (s : State) : State :=
  modLink
    (fun l => { l with passD := some { number := n, map := l.map, status := [], kind := .stray } }) s

/-- A frame arrives at port D outside UP: it goes on as received, whatever comes of the link before its
end (R144). -/
def arriveForwarded (n : CycleNumber) (s : State) : State :=
  modLink
    (fun l => { l with passD := some { number := n, map := l.map, status := [], kind := .forwarded } }) s

/-- The frame at its completion is one that arrived at port D outside UP (R144). -/
def forwarding (l : Link) (frame : List Byte) : Bool :=
  (headerOf frame).any fun h =>
    l.passD.any fun p => decide (p.kind = .forwarded) && decide (p.number = h.number)

/-- A frame with number `n` is passing at port D. -/
def passingD (l : Link) (n : CycleNumber) : Bool := l.passD.any fun p => decide (p.number = n)

/-- The 53 bytes of a reply in the service channel (R153, R160). -/
def replyBytes (r : Reply) : List Byte :=
  [0, 1, r.tag, r.status.code, byteOf r.payload.length] ++ r.payload
    ++ List.replicate (48 - r.payload.length) 0

/-- The STATUS write of a passage at port D (R153). -/
def statusWrites (p : PassageD) : List SlotWrite :=
  match bound p.map .status with
  | some e => [{ id := e.slotId, stale := false, payload := p.status }]
  | none => []

/-- The reply that a taken return carries: the one its own wait holds; one whose wait is over carries none
(R152, R153). -/
def replyFor (l : Link) (n : CycleNumber) : Option Reply :=
  if (waitOf l n).isSome then l.heldReply else none

/-- A taken return as it leaves port U (R153). -/
def returnSent (l : Link) (p : PassageD) (frame : List Byte) : List Byte :=
  forwardFrame (ownByte l) (statusWrites p) ((replyFor l p.number).map replyBytes) frame

/-- A taken return closes its wait (R154). -/
def closeTaken (w : ReturnWait) (p : PassageD) (frame : List Byte) (s : State) : State :=
  closeBy w p.map frame (if goodCycle frame then s else raisePart .frameCheck s)

/-- The completion of a taken return (R153, R154); one whose wait is gone only leaves, its STATUS slot
unchecked (assumption 21). -/
def completeTaken (p : PassageD) (frame : List Byte) (s : State) : State :=
  let s1 :=
    modLink (fun l => { l with passD := none }) (sendU (returnSent s.link p frame) s)
  match waitOf s.link p.number with
  | some w => closeTaken w p frame s1
  | none => if goodCycle frame then s1 else raisePart .frameCheck s1

/-- A frame at port D that is judged at its completion: STRAY_RETURN when valid, FRAME_CHECK when bad
(R152). -/
def raiseStray (frame : List Byte) (s : State) : State :=
  if frameGood frame then raisePart .strayReturn s else raisePart .frameCheck s

/-- Every byte that the slot count of its header asks for has come. -/
def cameWhole (frame : List Byte) : Bool :=
  (headerOf frame).any fun h => decide (frameLength h.count ≤ frame.length)

/-- An early return whose outbound frame was bad, as it leaves port U: with its check spoiled (R152). One
cut short leaves as far as it came, and no check is put over it: the model's choice, assumption 22. -/
def orphanSent (l : Link) (p : PassageD) (frame : List Byte) : List Byte :=
  let sent := forwardFrame (ownByte l) (statusWrites p) none frame
  if cameWhole frame then spoiled sent else sent

/-- The completion of an early return whose outbound frame was bad (R152; assumption 22). -/
def completeOrphan (p : PassageD) (frame : List Byte) (s : State) : State :=
  let sent := orphanSent s.link p frame
  raiseStray frame (modLink (fun l => { l with passD := none }) (sendU sent s))

/-- The completion of a stray (R152). -/
def completeStray (frame : List Byte) (s : State) : State :=
  raiseStray frame (modLink (fun l => { l with passD := none }) s)

/-- The completion of a frame that arrived outside UP, in whatever link state: it has left as received,
and a bad one raises FRAME_CHECK; no wait is closed by it (R143, R144). -/
def completeForwarded (frame : List Byte) (s : State) : State :=
  let s1 := modLink (fun l => { l with passD := none }) (sendU (unchanged frame) s)
  if frameGood frame then s1 else raisePart .frameCheck s1

/-- The arrival that a return's completion implies, when it has not come as a command of its own
(assumption 5). -/
def ensureArrivedD (h : FrameHeader) (s : State) : State :=
  if passingD s.link h.number || decide (h.kind ≠ kindCycle) then s
  else if awaited s.link h.number then arriveD h.number s
  else if decide (s.link.state = .up) && passingU s.link h.number then arriveEarly h.number s
  else s

/-- The completion of an early return whose outbound frame completed valid outside UP: no wait is opened, and
the return only leaves (assumption 38). -/
def completeLoose (p : PassageD) (frame : List Byte) (s : State) : State :=
  let s1 :=
    modLink (fun l => { l with passD := none })
      (sendU (forwardFrame (ownByte s.link) (statusWrites p) none frame) s)
  if goodCycle frame then s1 else raisePart .frameCheck s1

/-- What is kept of an early return at its end. -/
def endedOf (p : PassageD) (frame : List Byte) : EndedReturn :=
  { number := p.number, map := p.map, frame := frame }

/-- An early return comes to its end while its outbound frame still passes: it leaves, FRAME_CHECK is
raised when it is bad, and its bytes are kept for the outbound frame's completion (R143, R152; assumption
38). -/
def endEarly (p : PassageD) (frame : List Byte) (s : State) : State :=
  let s1 :=
    modLink (fun l => { l with passD := none, ended := some (endedOf p frame) })
      (sendU (forwardFrame (ownByte s.link) (statusWrites p) none frame) s)
  if goodCycle frame then s1 else raisePart .frameCheck s1

/-- The completion of a frame that has arrived at port D (R144, R152, R154). -/
def completePassing (h : FrameHeader) (frame : List Byte) (s : State) : State :=
  match s.link.passD with
  | none => s
  | some p =>
    if p.number = h.number then
      match p.kind with
      | .taken => completeTaken p frame s
      | .orphan => completeOrphan p frame s
      | .early =>
        if passingU s.link h.number then endEarly p frame s else completeLoose p frame s
      | .stray => completeStray frame s
      | .forwarded => completeForwarded frame s
    else s

/-- The frame is neither passing nor one that would be taken or early: a stray of UP (R152). -/
def isStray (l : Link) (h : FrameHeader) : Bool :=
  !passingD l h.number &&
    !(decide (h.kind = kindCycle) && (awaited l h.number || passingU l h.number))

/-- A bad frame completes at port D (R143, R152, R154). In UP one that is cut before its header has not
arrived and is not sent on (assumption 44). -/
def badD (frame : List Byte) (s : State) : State :=
  match s.link.state with
  | .passive => sendU (unchanged frame) s
  | .up =>
    match headerOf frame with
    | none => raisePart .frameCheck s
    | some h =>
      if isStray s.link h then raiseStray frame s
      else completePassing h frame (ensureArrivedD h s)
  | .down | .syncing | .lost =>
    match headerOf frame with
    | none => raisePart .frameCheck (sendU (unchanged frame) s)
    | some h =>
      if passingD s.link h.number then completePassing h frame s
      else raisePart .frameCheck (sendU (unchanged frame) s)

/-! ## Supervision (R146) -/

/-- The link is lost (R146). -/
def loseLink (s : State) : State :=
  modLink
    (fun l => { l with supervision := .stopped, wait := none, heldReply := none, state := .lost })
    (raisePart .linkLost s)

/-- The missed count would reach LINK_LOSS_COUNT at an expiry in UP (R146). -/
def wouldLose (s : State) : Bool := decide (s.params.linkLossCount ≤ s.link.missed + 1)

/-- An expiry of the supervision timer (R144, R146; assumption 23). -/
def supervisionExpires (s : State) : State :=
  match s.link.state with
  | .up =>
    let s1 :=
      modLink
        (fun l => { l with missed := Nat.min 16 (l.missed + 1),
                           supervision := .running s.params.cycleTime })
        (raisePart .cycleMissed s)
    if wouldLose s then loseLink s1 else s1
  | .syncing =>
    modLink (fun l => { l with good := 0, supervision := .running s.params.cycleTime }) s
  | .down | .lost | .passive => s

/-! ## Link reset (R156) -/

/-- The LPU's own state at a link reset (R141, R156). -/
def resetLpu (l : Link) : Link :=
  { l with state := .syncing, good := 0, adoption := false, supervision := .stopped, missed := 0,
           wait := none, heldReply := none, samples := Pair.both resetSamples, controlRun := false,
           statusRun := false, setRuns := Pair.both clearRuns }

/-- A station at a link reset: halt, tracker cleared, sent history emptied (R28, R74, R75, R156). R156 gives
these acts no order. That the halts come first, so that they meet the tracker as it stood, is the model's
choice, assumption 51. -/
def resetStationLink (s : State) : State :=
  let s1 := haltRequest .b .linkReset (haltRequest .a .linkReset s)
  let s2 := clearTracker .b (clearTracker .a s1)
  modPcu .b (fun p => { p with history := [] }) (modPcu .a (fun p => { p with history := [] }) s2)

/-- The completion of a valid LINK_RESET frame at port U (R156). -/
def linkResets (frame : List Byte) (s : State) : State :=
  let s0 := if s.link.state = .up then overtake s else s
  let s1 := modLink resetLpu (sendD (unchanged frame) s0)
  resetStationLink (modStore (fun t => { t with staging := none }) s1)

end Sys2Proof.Machine
end

