-- ==== Sys2Proof/Machine/Startup.lean ====
section
/-! DEFINITION. Supply and reset: POWER_ON, RESET_N, MAIN_SUPPLY_LOSS, RETENTION_LEVEL_LOSS (R25, R47, R136, R142, R161,
R177, R179). -/

namespace Sys2Proof.Machine

/-- The answer of every command: the part has no way to stop. -/
abbrev Result := Host.Outcome State Fault Refusal

/-- An event that only a powered part meets; without main supply nothing changes (assumption 18). -/
def whenPowered (f : State → State) (s : State) : Result := .next (if s.vdd then f s else s)

/-- Every block at its values after power-on and RESET_N, nonvolatile contents kept (R27, R46, R75, R96,
R118, R129, R136, R141, R161, R183). -/
def resetBlocks (straps : BitVec 6) (stops : StopLevels) (store : Store) (s : State) : State :=
  { s with
    vdd := true, params := defaultGlobal, stations := Pair.both resetStation, stops := stops,
    store := resetStore store.directory store.profiles, link := resetLink straps,
    cdu := resetConditions }

/-- A station whose retained record is active comes up INTERRUPTED (R47, R179). -/
def comeUp (x : StationId) (s : State) : State :=
  if (s.rtb.records.get x).isSome then
    raiseSt .scanInterrupted x (modSeq x (fun q => { q with state := .interrupted }) s)
  else s

/-- The examination of the Retention Block (R179). -/
def examineRetention (s : State) : State :=
  if s.rtb.valid then comeUp .b (comeUp .a s)
  else raisePart .retentionLost { s with rtb := { records := Pair.both none, valid := true } }

/-- What power-on and RESET_N do: blocks at their reset values, then the examination (R47, R161, R179). -/
def restart (straps : BitVec 6) (stops : StopLevels) (store : Store) (s : State) : State :=
  examineRetention (resetBlocks straps stops store s)

/-- POWER_ON (R179): main supply is applied, with the straps and the stop levels as they are found. While
it is present already, the event stands for a loss and an application (assumption 33). -/
def execPowerOn (straps : BitVec 6) (stops : StopLevels) (progress : Nat) (s : State) : Result :=
  .next (restart straps stops (if s.vdd then cutStore progress s.store else s.store) s)

/-- RESET_N (R47, R25): a running long operation is cut off, and every block reset. -/
def execResetN (straps : BitVec 6) (stops : StopLevels) (progress : Nat) (s : State) : Result :=
  whenPowered (fun s => restart straps stops (cutStore progress s.store) s) s

/-- MAIN_SUPPLY_LOSS (R25, R177): nonvolatile memory stays as far as it was written. -/
def execMainSupplyLoss (progress : Nat) (s : State) : Result :=
  whenPowered (fun s => { s with vdd := false, store := cutStore progress s.store }) s

/-- RETENTION_LEVEL_LOSS (R177): the monitor clears the retention-valid flag, with VDD absent. -/
def execRetentionLevelLoss (s : State) : Result :=
  .next (if s.vdd then s else { s with rtb := { s.rtb with valid := false } })

end Sys2Proof.Machine
end

