-- ==== Sys2Proof/Machine/LinkEvents.lean ====
section
/-! DEFINITION. Frames, passages and timers of the cycle link (R143 to R157). -/

namespace Sys2Proof.Machine

/-- The link is UP. -/
def isUp (s : State) : Bool := decide (s.link.state = .up)

/-- The link is PASSIVE. -/
def isPassive (s : State) : Bool := decide (s.link.state = .passive)

/-- An event that only a powered part with its link UP meets. -/
def whenUp (f : State → State) : State → Result := whenPowered fun s => if isUp s then f s else s

/-- CYCLE_ARRIVAL (R149, R152): a CYCLE frame's header arrives at port U in UP. -/
def execCycleArrival (count : Byte) (number : CycleNumber) (s : State) : Result :=
  let _ := count
  whenUp (arriveU number) s

/-- A valid CYCLE frame at port U. -/
def validCycle (frame : List Byte) (s : State) : State :=
  match headerOf frame with
  | some h => if goodCycle frame then cycleCompletes h frame s else s
  | none => s

/-- CYCLE_COMPLETION (R144, R145, R146, R150). -/
def execCycleCompletion (frame : List Byte) (s : State) : Result := whenPowered (validCycle frame) s

/-- The frame that brings the link UP (R144). -/
def linkComesUp (frame : List Byte) (s : State) : State :=
  match headerOf frame with
  | some h => if goodCycle frame && bringsUp s.link h.number then enterUp h frame s else s
  | none => s

/-- LINK_UP (R144). -/
def execLinkUp (frame : List Byte) (s : State) : Result := whenPowered (linkComesUp frame) s

/-- A bad frame at a port, outside PASSIVE (R143). -/
def badFrame (port : PortId) (frame : List Byte) (s : State) : State :=
  if isPassive s || frameGood frame then s
  else
    match port with
    | .u => badU frame s
    | .d => badD frame s

/-- FRAME_CHECK (R143, R144, R150, R152, R154). -/
def execFrameCheck (port : PortId) (frame : List Byte) (s : State) : Result :=
  whenPowered (badFrame port frame) s

/-- LINK_RESET (R156). -/
def execLinkReset (frame : List Byte) (s : State) : Result :=
  whenPowered (fun s => if goodReset frame && !isPassive s then linkResets frame s else s) s

/-- A frame arrives outside UP: one at port D is known as forwarded until its end (R144). -/
def forwardArrives (port : PortId) (number : CycleNumber) (s : State) : State :=
  match port with
  | .u => s
  | .d => if isUp s || isPassive s then s else arriveForwarded number s

/-- A frame that arrived at port D outside UP leaves as received. The passage of a bad one ends with its
FRAME_CHECK, which is a command of its own (R143, R144). -/
def forwardLeaves (frame : List Byte) (s : State) : State :=
  if frameGood frame then completeForwarded frame s else sendU (unchanged frame) s

/-- A frame is sent on as received on the opposite port: any frame outside UP and in PASSIVE, and in UP one
that arrived at port D before the link came up (R142, R144). -/
def forwardCompletes (port : PortId) (frame : List Byte) (s : State) : State :=
  match port with
  | .u => if isUp s then s else sendD (unchanged frame) s
  | .d =>
    if forwarding s.link frame then forwardLeaves frame s
    else if isUp s then s
    else sendU (unchanged frame) s

/-- One moment of a frame that goes on as received. -/
def forwardMoment (port : PortId) : FrameMoment → State → State
  | .arrival _ number => forwardArrives port number
  | .completion frame => forwardCompletes port frame

/-- FRAME_FORWARD_UNCHANGED (R142, R144). -/
def execFrameForwardUnchanged (port : PortId) (moment : FrameMoment) (s : State) : Result :=
  whenPowered (forwardMoment port moment) s

/-- RETURN_ARRIVAL (R152, R153). -/
def execReturnArrival (number : CycleNumber) (s : State) : Result :=
  whenUp (fun s => if awaited s.link number then arriveD number s else s) s

/-- A frame that is passing or awaited completes at port D (R153, R154). -/
def returnCompletes (frame : List Byte) (s : State) : State :=
  match headerOf frame with
  | some h => if isStray s.link h then s else completePassing h frame (ensureArrivedD h s)
  | none => s

/-- RETURN_COMPLETION (R154). -/
def execReturnCompletion (frame : List Byte) (s : State) : Result := whenPowered (returnCompletes frame) s

/-- EARLY_RETURN (R152): a return arrives while its outbound frame is still passing. -/
def execEarlyReturn (number : CycleNumber) (s : State) : Result :=
  whenUp (fun s => if passingU s.link number then arriveEarly number s else s) s

/-- A frame at port D that is no return of the open wait: one that arrived as a stray, or an early return
whose outbound frame was bad (R152). -/
def ReturnKind.noReturn : ReturnKind → Bool
  | .orphan | .stray => true
  | .taken | .early | .forwarded => false

/-- The frame arrived as a stray, or as an early return whose outbound frame was bad (R152). -/
def arrivedStray (l : Link) (h : FrameHeader) : Bool :=
  l.passD.any fun p => p.kind.noReturn && decide (p.number = h.number)

/-- A stray's header is received in UP: it is neither the awaited return nor an early one (R152). -/
def strayArrives (kind : Byte) (number : CycleNumber) (s : State) : State :=
  if isUp s && !(decide (kind = kindCycle) && (awaited s.link number || passingU s.link number)) then
    arriveStray number s
  else s

/-- A stray comes to its end, in whatever link state: it was decided at its arrival, or is decided now
when no arrival stands (R152; assumption 5). -/
def strayCompletes (frame : List Byte) (s : State) : State :=
  match headerOf frame with
  | some h =>
    if isPassive s then s
    else if arrivedStray s.link h then completePassing h frame s
    else if isUp s && isStray s.link h then raiseStray frame s
    else s
  | none => s

/-- One moment of a stray. -/
def strayMoment : FrameMoment → State → State
  | .arrival kind number => strayArrives kind number
  | .completion frame => strayCompletes frame

/-- STRAY_RETURN (R152). -/
def execStrayReturn (moment : FrameMoment) (s : State) : Result := whenPowered (strayMoment moment) s

/-- The return timer of the open wait expires (R152). -/
def returnExpires (s : State) : State :=
  match s.link.wait with
  | some w => if w.timer.isRunning then timeOut w s else s
  | none => s

/-- RETURN_TIMEOUT (R152). -/
def execReturnTimeout (s : State) : Result := whenUp returnExpires s

/-- SUPERVISION_EXPIRY (R144, R146). -/
def execSupervisionExpiry (s : State) : Result :=
  whenPowered
    (fun s => if s.link.supervision.isRunning then supervisionExpires s else s) s

/-- LINK_LOST (R146): the expiry at which the missed count reaches LINK_LOSS_COUNT. -/
def execLinkLost (s : State) : Result :=
  whenUp
    (fun s => if s.link.supervision.isRunning && wouldLose s then supervisionExpires s else s) s

/-- LINK_RESET_ARRIVAL (R152): a frame that is not of kind CYCLE arrives at port U. -/
def execLinkResetArrival (kind : Byte) (s : State) : Result :=
  whenUp (fun s => if kind = kindCycle then s else overtake s) s

end Sys2Proof.Machine
end

