-- ==== Sys2Proof/Machine/ControlEvents.lean ====
section
/-! DEFINITION. The run commands of the CONTROL slot as commands of their own (R48 to R50, R60, R62, R69, R70). -/

namespace Sys2Proof.Machine

/-- A command of a usable CONTROL slot is handed on in UP once the nibbles have been adopted (R151;
assumption 24). -/
def whenControl (f : State → State) : State → Result :=
  whenUp fun s => if s.link.adoption then s else f s

/-- START (R49, R50). -/
def execStart (x : StationId) (nibble : BitVec 4) (profile : Byte) (adjust : BitVec 16) (s : State) :
    Result :=
  whenControl (takeCommand x nibble (doStart x profile adjust)) s

/-- HOLD (R60). -/
def execHold (x : StationId) (nibble : BitVec 4) (s : State) : Result :=
  whenControl (takeCommand x nibble (doHold x)) s

/-- RESUME (R62). -/
def execResume (x : StationId) (nibble : BitVec 4) (s : State) : Result :=
  whenControl (takeCommand x nibble (doResume x)) s

/-- ABORT (R69). -/
def execAbort (x : StationId) (nibble : BitVec 4) (s : State) : Result :=
  whenControl (takeCommand x nibble (doAbort x)) s

/-- CLEAR (R70). -/
def execClear (x : StationId) (nibble : BitVec 4) (s : State) : Result :=
  whenControl (takeCommand x nibble (doClear x)) s

/-- COMMAND_NONE (R48). -/
def execCommandNone (x : StationId) (nibble : BitVec 4) (s : State) : Result :=
  whenControl (takeCommand x nibble (fun s => (s, .accepted))) s

/-- COMMAND_UNKNOWN_CODE (R48); a named code is no command of this row. -/
def execCommandUnknownCode (x : StationId) (code nibble : BitVec 4) (s : State) : Result :=
  whenControl
    (fun s => if code.toNat ≤ 5 then s else takeCommand x nibble (fun s => (s, .refusedCode)) s) s

end Sys2Proof.Machine
end

