-- ==== Sys2Proof/Machine/LineEvents.lean ====
section
/-! DEFINITION. Stop inputs and program steps (R132, R136 to R138). -/

namespace Sys2Proof.Machine

/-- Set a station's own stop level. -/
def setOwnStop (x : StationId) (level : Bool) (s : State) : State :=
  match x with
  | .a => { s with stops := { s.stops with a := level } }
  | .b => { s with stops := { s.stops with b := level } }

/-- The assertion of a station's stop input (R137): the raise, with the Condition Unit's halt request, comes
before the direct request (assumption 49). -/
def stopAsserts (x : StationId) (s : State) : State :=
  haltRequest x (.cond .stopLine) (raiseSt .stopLine x (setOwnStop x true s))

/-- STOP_LINE (R136, R137); an input that is asserted already does not change. -/
def execStopLine (x : StationId) (s : State) : Result :=
  whenPowered (fun s => if ownStop s.stops x then s else stopAsserts x s) s

/-- The assertion of STOP_ALL (R138): the halt requests arrive in the order of the steps, A before B in each
(assumption 50). -/
def stopAllAsserts (s : State) : State :=
  let s1 := { s with stops := { s.stops with all := true } }
  let s2 := raise .stopLine (.station .a) (some .haltAll) s1
  let s3 := raise .stopLine (.station .b) (some .haltAll) s2
  haltRequest .b (.cond .stopLine) (haltRequest .a (.cond .stopLine) s3)

/-- STOP_ALL_ASSERTION (R136, R138). -/
def execStopAllAssertion (s : State) : Result :=
  whenPowered (fun s => if s.stops.all then s else stopAllAsserts s) s

/-- A stop input is released: its level changes and nothing else (R136, R140). -/
def releaseStop (input : StopInput) (s : State) : State :=
  match input with
  | .stopA => setOwnStop .a false s
  | .stopB => setOwnStop .b false s
  | .stopAll => { s with stops := { s.stops with all := false } }

/-- STOP_RELEASE (R136). -/
def execStopRelease (input : StopInput) (s : State) : Result := whenPowered (releaseStop input) s

/-- PROGRAM_STEP_EXPIRY (R132, R133). -/
def execProgramStepExpiry (x : StationId) (s : State) : Result :=
  whenPowered
    (fun s => if (s.st x).eng.timer.isRunning then deliverEnd x (stepExpires x s) else s) s

end Sys2Proof.Machine
end

