-- ==== Sys2Proof/Machine/PowerEvents.lean ====
section
/-! DEFINITION. Events of the Power Command Unit (R83 to R90). -/

namespace Sys2Proof.Machine

/-- A POWER_ACTUAL sample that is handed to a station and for which `p` holds (assumption 32). -/
def whenPower (p : State → Bool) (x : StationId) (sample : PowerSample) : State → Result :=
  whenUp fun s => if p s then powerHanded x (s.retuning x) sample s else s

/-- RETUNE_DRAIN_END (R83). -/
def execRetuneDrainEnd (x : StationId) (sample : PowerSample) (s : State) : Result :=
  whenPower (fun s => drainEnds s x sample.body) x sample s

/-- RETUNE_RESTORE (R84, R85). -/
def execRetuneRestore (x : StationId) (sample : PowerSample) (s : State) : Result :=
  whenPower (fun s => restores s x sample.body) x sample s

/-- The retune timer expires (R86). -/
def retuneExpires (x : StationId) (s : State) : State :=
  raiseSt .retuneTimeout x (modPcu x (fun p => { p with retuneTimer := .expired }) s)

/-- RETUNE_TIMEOUT (R86). -/
def execRetuneTimeout (x : StationId) (s : State) : Result :=
  whenPowered (fun s => if (s.st x).pcu.retuneTimer.isRunning then retuneExpires x s else s) s

/-- The sample raises POWER_DEVIATION (R89). -/
def deviationRaised (x : StationId) (sample : PowerSample) (s : State) : Bool :=
  deviationRaises (powerTaken x (s.retuning x) sample.body s) x sample

/-- POWER_DEVIATION (R89). -/
def execPowerDeviation (x : StationId) (sample : PowerSample) (s : State) : Result :=
  whenPower (deviationRaised x sample) x sample s

end Sys2Proof.Machine
end

