-- ==== Sys2Proof/Machine/SequenceEvents.lean ====
section
/-! DEFINITION. Events of the Position Tracker and the Scan Sequencer (R37, R43, R51 to R64). -/

namespace Sys2Proof.Machine

/-- A POSITION sample that is handed to a station and for which `p` holds; any other sample is no event
of the row (assumption 32). -/
def whenSample (p : State → Bool) (x : StationId) (sample : PositionSample) : State → Result :=
  whenUp fun s => if p s then positionHanded x sample s else s

/-- The sample makes the tracker raise POSITION_STALE (R37, R38). -/
def staleRaised (x : StationId) (sample : PositionSample) (s : State) : Bool :=
  (judge s.params.cycleTime (s.st x) sample).2.any fun a => a.1 = .positionStale

/-- POSITION_STALE (R37, R38). -/
def execPositionStale (x : StationId) (sample : PositionSample) (s : State) : Result :=
  whenSample (staleRaised x sample) x sample s

/-- FOLLOW_SETTLE_EXPIRY (R43). -/
def execFollowSettleExpiry (x : StationId) (s : State) : Result :=
  whenPowered (fun s => if (s.st x).trk.settle.isRunning then settleExpires x s else s) s

/-- The report of the sample passes the arm check (R51). -/
def armPasses (x : StationId) (sample : PositionSample) (s : State) : Bool :=
  armCheck (trackerStage x sample s) x

/-- ARM_CHECK_PASS (R51). -/
def execArmCheckPass (x : StationId) (sample : PositionSample) (s : State) : Result :=
  whenSample (armPasses x sample) x sample s

/-- ARM_FAILED (R52). -/
def execArmFailed (x : StationId) (s : State) : Result :=
  whenPowered
    (fun s =>
      if (s.st x).seq.armTimer.isRunning then
        raiseSt .armFailed x (modSeq x (fun q => { q with armTimer := .stopped }) s)
      else s) s

/-- The boundary that the report of the sample reaches first (R54). -/
def boundaryOf (x : StationId) (sample : PositionSample) (s : State) : Option (Option Nat) :=
  let s1 := armStage x (trackerStage x sample s)
  match (s1.st x).trk.report.bind Report.lookAhead with
  | some p => reachedBoundary s1 x p
  | none => none

/-- SEGMENT_ENTRY (R54, R55): the report reaches the start of a segment. -/
def execSegmentEntry (x : StationId) (sample : PositionSample) (s : State) : Result :=
  whenSample (fun s => (boundaryOf x sample s).any Option.isSome) x sample s

/-- TAIL_ENTRY (R63): the report reaches the profile end. -/
def execTailEntry (x : StationId) (sample : PositionSample) (s : State) : Result :=
  whenSample (fun s => (boundaryOf x sample s).any Option.isNone) x sample s

/-- The report of the sample starts the dwell timer (R57). -/
def dwellReported (x : StationId) (sample : PositionSample) (s : State) : Bool :=
  let s1 := trackerStage x sample s
  (s1.st x).trk.report.any fun r => dwellStarts s1 x r

/-- DWELL_TIMER_START (R57). -/
def execDwellTimerStart (x : StationId) (sample : PositionSample) (s : State) : Result :=
  whenSample (dwellReported x sample) x sample s

/-- DWELL_TIMER_EXPIRY (R57). -/
def execDwellTimerExpiry (x : StationId) (s : State) : Result :=
  whenPowered
    (fun s =>
      if (s.st x).seq.dwellTimer.isRunning ∧ (s.st x).seq.state = .dwelling then dwellExpires x s
      else s) s

/-- HOLD_EXPIRED (R61). -/
def execHoldExpired (x : StationId) (s : State) : Result :=
  whenPowered
    (fun s =>
      if (s.st x).seq.holdTimer.isRunning then
        raiseSt .holdExpired x (modSeq x (fun q => { q with holdTimer := .expired }) s)
      else s) s

/-- TAIL_TIMER_EXPIRY (R64, R115). -/
def execTailTimerExpiry (x : StationId) (s : State) : Result :=
  whenPowered
    (fun s =>
      if (s.st x).seq.tailTimer.isRunning ∧ (s.st x).seq.phase = some .openZones then tailExpired x s
      else s) s

end Sys2Proof.Machine
end

