-- ==== Sys2Proof/Machine/QuenchEvents.lean ====
section
/-! DEFINITION. Events of the Quench Scheduler and the Supply Arbiter (R104 to R126). -/

namespace Sys2Proof.Machine

/-- The report of the sample finds the head due (R104). -/
def headDue (x : StationId) (sample : PositionSample) (s : State) : Bool :=
  let s1 := trackerStage x sample s
  match (s1.st x).trk.report with
  | none => false
  | some r =>
    let s2 := keepReport x r s1
    (s1.st x).seq.state.testing &&
      ((s2.st x).qsc.queue.head?.any fun e => !e.waiting && (dueOf s2 x e).isSome)

/-- QUENCH_ISSUE (R104, R105, R107). -/
def execQuenchIssue (x : StationId) (sample : PositionSample) (s : State) : Result :=
  whenSample (headDue x sample) x sample s

/-- A waiting request is examined, and the changes that follow issued (R106, R124). -/
def serveWaiting (x : StationId) (s : State) : State :=
  let r := examineOne x s
  settleTasks r.2 r.1

/-- SUPPLY_GRANT (R124). -/
def execSupplyGrant (x : StationId) (s : State) : Result := whenPowered (serveWaiting x) s

/-- The wait timer expires: the timer is left expired and the request late (R126). -/
def expireWait (w : Waiting) : Waiting := { w with timer := .expired, late := true }

/-- The wait timer of a station's waiting request expires (R126). -/
def waitExpires (x : StationId) (s : State) : State :=
  match (s.st x).sar.waiting with
  | none => s
  | some w =>
    if w.timer.isRunning then
      let s1 := modSar x (fun a => { a with waiting := some (expireWait w) }) s
      if w.late then s1 else raiseSt .quenchLate x s1
    else s

/-- QUENCH_WAIT_EXPIRY (R126). -/
def execQuenchWaitExpiry (x : StationId) (s : State) : Result := whenPowered (waitExpires x) s

/-- A QUENCH_ACTUAL sample that is handed to a station and for which `p` holds (assumption 32). -/
def whenQuench (p : State → Bool) (x : StationId) (sample : QuenchSample) : State → Result :=
  whenUp fun s => if s.active x && p s then quenchHanded x sample s else s

/-- VALVE_CHECK_PASS (R111, R115). -/
def execValveCheckPass (x : StationId) (sample : QuenchSample) (s : State) : Result :=
  whenQuench (fun s => valvePasses s x sample) x sample s

/-- A running valve check. -/
def ValveCheck.isRunning : ValveCheck → Bool
  | .running _ _ _ => true
  | .stopped | .passed | .failed => false

/-- VALVE_MISMATCH (R112, R115): the deadline of the valve check expires. -/
def execValveMismatch (x : StationId) (s : State) : Result :=
  whenPowered (fun s => if (s.st x).qsc.valve.isRunning then valveExpires x s else s) s

/-- The sample raises FLOW_LOW (R114). -/
def flowRaised (x : StationId) (sample : QuenchSample) (s : State) : Bool :=
  flowRaises (manifoldStage x sample.body (valveStage x sample s)) x sample

/-- FLOW_LOW (R114). -/
def execFlowLow (x : StationId) (sample : QuenchSample) (s : State) : Result :=
  whenQuench (flowRaised x sample) x sample s

end Sys2Proof.Machine
end

