-- ==== Sys2Proof/Machine/Requests.lean ====
section
/-! DEFINITION. The service requests as commands of their own (R157, R180 to R187). -/

namespace Sys2Proof.Machine

/-- A request is taken in UP, and its answer becomes the held reply (R157, R180; assumption 24). -/
def whenAsked (ask : List Byte → State → Answer) (tag : Byte) (payload : List Byte) :
    State → Result :=
  whenUp fun s => holdReply tag (ask payload s)

/-- IDENT (R182). -/
def execIdent (tag : Byte) (payload : List Byte) (s : State) : Result :=
  whenAsked askIdent tag payload s

/-- PARAM_READ (R183). -/
def execParamRead (tag : Byte) (payload : List Byte) (s : State) : Result :=
  whenAsked askParamRead tag payload s

/-- PARAM_WRITE (R183). -/
def execParamWrite (tag : Byte) (payload : List Byte) (s : State) : Result :=
  whenAsked askParamWrite tag payload s

/-- MAP_READ (R148). -/
def execMapRead (tag : Byte) (payload : List Byte) (s : State) : Result :=
  whenAsked askMapRead tag payload s

/-- MAP_WRITE (R148). -/
def execMapWrite (tag : Byte) (payload : List Byte) (s : State) : Result :=
  whenAsked askMapWrite tag payload s

/-- PROGRAM_READ (R135). -/
def execProgramRead (tag : Byte) (payload : List Byte) (s : State) : Result :=
  whenAsked askProgramRead tag payload s

/-- PROGRAM_WRITE (R135). -/
def execProgramWrite (tag : Byte) (payload : List Byte) (s : State) : Result :=
  whenAsked askProgramWrite tag payload s

/-- PROFILE_OPEN (R7). -/
def execProfileOpen (tag : Byte) (payload : List Byte) (s : State) : Result :=
  whenAsked askProfileOpen tag payload s

/-- HEADER_WRITE (R8). -/
def execHeaderWrite (tag : Byte) (payload : List Byte) (s : State) : Result :=
  whenAsked askHeaderWrite tag payload s

/-- SEGMENT_WRITE (R9). -/
def execSegmentWrite (tag : Byte) (payload : List Byte) (s : State) : Result :=
  whenAsked askSegmentWrite tag payload s

/-- SEGMENT_TRUNCATE (R10). -/
def execSegmentTruncate (tag : Byte) (payload : List Byte) (s : State) : Result :=
  whenAsked askSegmentTruncate tag payload s

/-- PROFILE_CANCEL (R11). -/
def execProfileCancel (tag : Byte) (payload : List Byte) (s : State) : Result :=
  whenAsked askProfileCancel tag payload s

/-- PROFILE_COMMIT (R15). -/
def execProfileCommit (tag : Byte) (payload : List Byte) (s : State) : Result :=
  whenAsked askProfileCommit tag payload s

/-- PROFILE_ERASE (R17). -/
def execProfileErase (tag : Byte) (payload : List Byte) (s : State) : Result :=
  whenAsked askProfileErase tag payload s

/-- PROFILE_PROTECT (R18). -/
def execProfileProtect (tag : Byte) (payload : List Byte) (s : State) : Result :=
  whenAsked askProfileProtect tag payload s

/-- STORE_CLEAR (R19). -/
def execStoreClear (tag : Byte) (payload : List Byte) (s : State) : Result :=
  whenAsked askStoreClear tag payload s

/-- DIR_READ (R185). -/
def execDirRead (tag : Byte) (payload : List Byte) (s : State) : Result :=
  whenAsked askDirRead tag payload s

/-- HEADER_READ (R20). -/
def execHeaderRead (tag : Byte) (payload : List Byte) (s : State) : Result :=
  whenAsked askHeaderRead tag payload s

/-- SEGMENT_READ (R20). -/
def execSegmentRead (tag : Byte) (payload : List Byte) (s : State) : Result :=
  whenAsked askSegmentRead tag payload s

/-- OP_QUERY (R14). -/
def execOpQuery (tag : Byte) (payload : List Byte) (s : State) : Result :=
  whenAsked askOpQuery tag payload s

/-- COND_READ (R167). -/
def execCondRead (tag : Byte) (payload : List Byte) (s : State) : Result :=
  whenAsked askCondRead tag payload s

/-- COND_TAKE (R168). -/
def execCondTake (tag : Byte) (payload : List Byte) (s : State) : Result :=
  whenAsked askCondTake tag payload s

/-- COND_CLEAR (R169). -/
def execCondClear (tag : Byte) (payload : List Byte) (s : State) : Result :=
  whenAsked askCondClear tag payload s

/-- FIRST_READ (R170). -/
def execFirstRead (tag : Byte) (payload : List Byte) (s : State) : Result :=
  whenAsked askFirstRead tag payload s

/-- FIRST_RELEASE (R170). -/
def execFirstRelease (tag : Byte) (payload : List Byte) (s : State) : Result :=
  whenAsked askFirstRelease tag payload s

/-- SEVERITY_READ (R171). -/
def execSeverityRead (tag : Byte) (payload : List Byte) (s : State) : Result :=
  whenAsked askSeverityRead tag payload s

/-- SEVERITY_WRITE (R171). -/
def execSeverityWrite (tag : Byte) (payload : List Byte) (s : State) : Result :=
  whenAsked askSeverityWrite tag payload s

/-- RESULT_READ (R176). -/
def execResultRead (tag : Byte) (payload : List Byte) (s : State) : Result :=
  whenAsked askResultRead tag payload s

/-- RESULT_SEGMENT_READ (R176). -/
def execResultSegmentRead (tag : Byte) (payload : List Byte) (s : State) : Result :=
  whenAsked askResultSegmentRead tag payload s

/-- RETAINED_READ (R177). -/
def execRetainedRead (tag : Byte) (payload : List Byte) (s : State) : Result :=
  whenAsked askRetainedRead tag payload s

/-- SAMPLE_READ (R186). -/
def execSampleRead (tag : Byte) (payload : List Byte) (s : State) : Result :=
  whenAsked askSampleRead tag payload s

/-- The codes of R181. -/
def namedCode (code : Byte) : Bool := decide (1 ≤ code.toNat ∧ code.toNat ≤ 31)

/-- UNKNOWN_REQUEST (R180); a named code is no command of this row. -/
def execUnknownRequest (tag code : Byte) (payload : List Byte) (s : State) : Result :=
  let _ := payload
  whenUp (fun s => if namedCode code then s else holdReply tag (refuse s .unknownRequest)) s

end Sys2Proof.Machine
end

