-- ==== Sys2Proof/Machine/StoreEvents.lean ====
section
/-! DEFINITION. Completions of long operations (R16 to R19, R24). -/

namespace Sys2Proof.Machine

/-- STORE_CHECK_COMPLETION (R24). -/
def execStoreCheckCompletion (s : State) : Result := whenPowered checkCompletes s

/-- COMMIT_COMPLETION (R16). -/
def execCommitCompletion (verified : Bool) (s : State) : Result :=
  whenPowered (commitCompletes verified) s

/-- ERASE_COMPLETION (R17). -/
def execEraseCompletion (verified : Bool) (s : State) : Result :=
  whenPowered (eraseCompletes verified) s

/-- PROTECT_COMPLETION (R18). -/
def execProtectCompletion (verified : Bool) (s : State) : Result :=
  whenPowered (protectCompletes verified) s

/-- STORE_CLEAR_COMPLETION (R19); `verified` says which of the sixteen writes verified. -/
def execStoreClearCompletion (verified : BitVec 16) (s : State) : Result :=
  whenPowered (clearCompletes verified) s

end Sys2Proof.Machine
end

