-- ==== Sys2Proof/Machine/Dispatch.lean ====
section
/-! DEFINITION. One arm per command: each calls its meaning. -/

namespace Sys2Proof.Machine

def exec (i : Instr) (s : State) : Host.Outcome State Fault Refusal :=
  match i with
  | .powerOn straps stops progress => Sys2Proof.Machine.execPowerOn straps stops progress s
  | .resetN straps stops progress => Sys2Proof.Machine.execResetN straps stops progress s
  | .mainSupplyLoss progress => Sys2Proof.Machine.execMainSupplyLoss progress s
  | .retentionLevelLoss => Sys2Proof.Machine.execRetentionLevelLoss s
  | .storeCheckCompletion => Sys2Proof.Machine.execStoreCheckCompletion s
  | .stopLine x => Sys2Proof.Machine.execStopLine x s
  | .stopAllAssertion => Sys2Proof.Machine.execStopAllAssertion s
  | .stopRelease input => Sys2Proof.Machine.execStopRelease input s
  | .cycleArrival count number => Sys2Proof.Machine.execCycleArrival count number s
  | .cycleCompletion frame => Sys2Proof.Machine.execCycleCompletion frame s
  | .linkUp frame => Sys2Proof.Machine.execLinkUp frame s
  | .frameCheck port frame => Sys2Proof.Machine.execFrameCheck port frame s
  | .linkReset frame => Sys2Proof.Machine.execLinkReset frame s
  | .frameForwardUnchanged port moment => Sys2Proof.Machine.execFrameForwardUnchanged port moment s
  | .returnArrival number => Sys2Proof.Machine.execReturnArrival number s
  | .returnCompletion frame => Sys2Proof.Machine.execReturnCompletion frame s
  | .earlyReturn number => Sys2Proof.Machine.execEarlyReturn number s
  | .strayReturn moment => Sys2Proof.Machine.execStrayReturn moment s
  | .returnTimeout => Sys2Proof.Machine.execReturnTimeout s
  | .supervisionExpiry => Sys2Proof.Machine.execSupervisionExpiry s
  | .linkLost => Sys2Proof.Machine.execLinkLost s
  | .positionStale x sample => Sys2Proof.Machine.execPositionStale x sample s
  | .followSettleExpiry x => Sys2Proof.Machine.execFollowSettleExpiry x s
  | .start x nibble profile adjust => Sys2Proof.Machine.execStart x nibble profile adjust s
  | .hold x nibble => Sys2Proof.Machine.execHold x nibble s
  | .resume x nibble => Sys2Proof.Machine.execResume x nibble s
  | .abort x nibble => Sys2Proof.Machine.execAbort x nibble s
  | .clear x nibble => Sys2Proof.Machine.execClear x nibble s
  | .commandNone x nibble => Sys2Proof.Machine.execCommandNone x nibble s
  | .commandUnknownCode x code nibble => Sys2Proof.Machine.execCommandUnknownCode x code nibble s
  | .armCheckPass x sample => Sys2Proof.Machine.execArmCheckPass x sample s
  | .armFailed x => Sys2Proof.Machine.execArmFailed x s
  | .segmentEntry x sample => Sys2Proof.Machine.execSegmentEntry x sample s
  | .tailEntry x sample => Sys2Proof.Machine.execTailEntry x sample s
  | .dwellTimerStart x sample => Sys2Proof.Machine.execDwellTimerStart x sample s
  | .dwellTimerExpiry x => Sys2Proof.Machine.execDwellTimerExpiry x s
  | .holdExpired x => Sys2Proof.Machine.execHoldExpired x s
  | .tailTimerExpiry x => Sys2Proof.Machine.execTailTimerExpiry x s
  | .retuneDrainEnd x sample => Sys2Proof.Machine.execRetuneDrainEnd x sample s
  | .retuneRestore x sample => Sys2Proof.Machine.execRetuneRestore x sample s
  | .retuneTimeout x => Sys2Proof.Machine.execRetuneTimeout x s
  | .powerDeviation x sample => Sys2Proof.Machine.execPowerDeviation x sample s
  | .quenchIssue x sample => Sys2Proof.Machine.execQuenchIssue x sample s
  | .supplyGrant x => Sys2Proof.Machine.execSupplyGrant x s
  | .quenchWaitExpiry x => Sys2Proof.Machine.execQuenchWaitExpiry x s
  | .valveCheckPass x sample => Sys2Proof.Machine.execValveCheckPass x sample s
  | .valveMismatch x => Sys2Proof.Machine.execValveMismatch x s
  | .flowLow x sample => Sys2Proof.Machine.execFlowLow x sample s
  | .programStepExpiry x => Sys2Proof.Machine.execProgramStepExpiry x s
  | .commitCompletion verified => Sys2Proof.Machine.execCommitCompletion verified s
  | .eraseCompletion verified => Sys2Proof.Machine.execEraseCompletion verified s
  | .protectCompletion verified => Sys2Proof.Machine.execProtectCompletion verified s
  | .storeClearCompletion verified => Sys2Proof.Machine.execStoreClearCompletion verified s
  | .ident tag payload => Sys2Proof.Machine.execIdent tag payload s
  | .paramRead tag payload => Sys2Proof.Machine.execParamRead tag payload s
  | .paramWrite tag payload => Sys2Proof.Machine.execParamWrite tag payload s
  | .mapRead tag payload => Sys2Proof.Machine.execMapRead tag payload s
  | .mapWrite tag payload => Sys2Proof.Machine.execMapWrite tag payload s
  | .programRead tag payload => Sys2Proof.Machine.execProgramRead tag payload s
  | .programWrite tag payload => Sys2Proof.Machine.execProgramWrite tag payload s
  | .profileOpen tag payload => Sys2Proof.Machine.execProfileOpen tag payload s
  | .headerWrite tag payload => Sys2Proof.Machine.execHeaderWrite tag payload s
  | .segmentWrite tag payload => Sys2Proof.Machine.execSegmentWrite tag payload s
  | .segmentTruncate tag payload => Sys2Proof.Machine.execSegmentTruncate tag payload s
  | .profileCancel tag payload => Sys2Proof.Machine.execProfileCancel tag payload s
  | .profileCommit tag payload => Sys2Proof.Machine.execProfileCommit tag payload s
  | .profileErase tag payload => Sys2Proof.Machine.execProfileErase tag payload s
  | .profileProtect tag payload => Sys2Proof.Machine.execProfileProtect tag payload s
  | .storeClear tag payload => Sys2Proof.Machine.execStoreClear tag payload s
  | .dirRead tag payload => Sys2Proof.Machine.execDirRead tag payload s
  | .headerRead tag payload => Sys2Proof.Machine.execHeaderRead tag payload s
  | .segmentRead tag payload => Sys2Proof.Machine.execSegmentRead tag payload s
  | .opQuery tag payload => Sys2Proof.Machine.execOpQuery tag payload s
  | .condRead tag payload => Sys2Proof.Machine.execCondRead tag payload s
  | .condTake tag payload => Sys2Proof.Machine.execCondTake tag payload s
  | .condClear tag payload => Sys2Proof.Machine.execCondClear tag payload s
  | .firstRead tag payload => Sys2Proof.Machine.execFirstRead tag payload s
  | .firstRelease tag payload => Sys2Proof.Machine.execFirstRelease tag payload s
  | .severityRead tag payload => Sys2Proof.Machine.execSeverityRead tag payload s
  | .severityWrite tag payload => Sys2Proof.Machine.execSeverityWrite tag payload s
  | .resultRead tag payload => Sys2Proof.Machine.execResultRead tag payload s
  | .resultSegmentRead tag payload => Sys2Proof.Machine.execResultSegmentRead tag payload s
  | .retainedRead tag payload => Sys2Proof.Machine.execRetainedRead tag payload s
  | .sampleRead tag payload => Sys2Proof.Machine.execSampleRead tag payload s
  | .unknownRequest tag code payload => Sys2Proof.Machine.execUnknownRequest tag code payload s
  | .linkResetArrival kind => Sys2Proof.Machine.execLinkResetArrival kind s

end Sys2Proof.Machine
end

