-- ==== Sys2Proof/Safety.lean ====
section
/-! DEFINITION. What the part keeps through every event: the laws of the part as predicates of the
state, and what holds of its tables. -/

namespace Sys2Proof.Machine

/-! ## Power and travel -/

/-- R79, Law 1: a nonzero setpoint or a run request is held only while the station is in SCANNING or
DWELLING, its PERMIT line is ON and no retune is in progress. -/
def PowerLaw (v : Station) : Prop :=
  (v.pcu.held.setpoint ≠ 0 ∨ v.pcu.held.run = true) →
    v.seq.state.heating = true ∧ v.eng.permit = true ∧ v.pcu.retune = .none

/-- R72, Law 2: the travel request is MOVE only in APPROACH, in SCANNING, and in TAIL before its end
marker has been issued, and TRAVEL_SET holds the travel request. -/
def TravelLaw (v : Station) : Prop :=
  v.seq.travelSet = v.seq.travel ∧
    (v.seq.travel.mode = .move →
      v.seq.state = .approach ∨ v.seq.state = .scanning ∨
        (v.seq.state = .tail ∧ v.seq.phase = some .runout))

/-! ## Quench -/

/-- Law 10: empty queue, no waiting request, zero granted flow, and the empty set issued. -/
def QuenchIdle (v : Station) : Prop :=
  v.qsc.queue = [] ∧ v.sar.waiting = none ∧ v.sar.granted = 0 ∧ v.qsc.lastIssued = 0

/-- The queue holds the end marker. -/
def HoldsEnd (v : Station) : Prop := ∃ e ∈ v.qsc.queue, e.origin = .endMarker

/-- The waiting request belongs to the head of the queue (R105, R118, R119). -/
def WaitingIsHead (v : Station) : Prop :=
  ∀ w, v.sar.waiting = some w →
    (∃ e, v.qsc.queue.head? = some e ∧ e.waiting = true ∧ e.zones = w.zones) ∧
      w.flow = flowOf v.par w.zones

/-- What holds of a scheduler and its arbiter's record at every moment (R96, R97, R118, R119). -/
structure QuenchCore (v : Station) : Prop where
  bounded : v.qsc.queue.length ≤ Config.queueCapacity
  endLast : ∀ e ∈ v.qsc.queue.dropLast, e.origin ≠ .endMarker
  headWaits : ∀ e ∈ v.qsc.queue.tail, e.waiting = false
  head : WaitingIsHead v
  flow : v.sar.granted = flowOf v.par v.qsc.lastIssued
  opened : v.seq.phase = some .openZones → v.qsc.queue = [] ∧ v.sar.waiting = none
  closed : v.seq.phase = some .closing ∨ v.seq.phase = some .finishing → QuenchIdle v

/-- What holds of a scheduler between events: its core, Law 10, and the end marker only in TAIL. -/
structure QuenchLaw (v : Station) : Prop where
  core : QuenchCore v
  idle : v.seq.state.active = false ∨ v.seq.state = .halting → QuenchIdle v
  endTail : HoldsEnd v → v.seq.state = .tail
  phaseTail : v.seq.phase ≠ none → v.seq.state = .tail

/-- Law 4 in SHARE mode: with SUPPLY_FLOW nonzero the granted flows of the two stations together stay
within it. -/
def SupplyLaw (s : State) : Prop :=
  s.params.supplyFlow ≠ 0 → s.params.supplyMode = .share →
    (s.st .a).sar.granted + (s.st .b).sar.granted ≤ s.params.supplyFlow

/-- R58, R59: the pending state is one of the two that a segment brings. -/
def PendingLaw (v : Station) : Prop :=
  ∀ n, v.seq.pendingState = some n → n = .scanning ∨ n = .dwelling

/-- R60, R61: the held state is one of those a HOLD is taken in. -/
def HeldLaw (v : Station) : Prop := ∀ n, v.seq.heldState = some n → n.holdable = true

/-- R111, R114: while the valve check runs, the flow check is disarmed. -/
def CheckLaw (v : Station) : Prop :=
  ∀ z c d, v.qsc.valve = .running z c d → v.qsc.flowCheck = .disarmed

/-- What holds of one station between events. -/
structure StationSound (v : Station) : Prop where
  power : PowerLaw v
  travel : TravelLaw v
  quench : QuenchLaw v
  pending : PendingLaw v
  held : HeldLaw v
  check : CheckLaw v

/-- What holds of both stations between events. -/
structure Sound (s : State) : Prop where
  station : ∀ x, StationSound (s.st x)
  supply : SupplyLaw s

/-- Between events no handling is open, no halt request waits, and no program's end is owed (R54, R133;
assumption 27). -/
def Settled (v : Station) : Prop :=
  v.seq.handling = false ∧ v.seq.haltWaiting = none ∧ v.eng.endOwed = none

/-! ## Tables -/

/-- R162, R171: no set severity lies below its minimum. -/
def SeverityLaw (s : State) : Prop :=
  ∀ c : Cond, c.minimumSeverity.code ≤ (s.cdu.setSeverity c).code

/-- R163, R164: an entry that is pending has the severity it was raised with. -/
def CondLaw (s : State) : Prop :=
  ∀ c sc, (s.cdu.entry c sc).pending = true → (s.cdu.entry c sc).lastSeverity ≠ none

/-- R164, Law 9: a first-condition record that is held stays as it is. -/
def FirstKept (s t : State) : Prop := ∀ r, s.cdu.first = some r → t.cdu.first = some r

/-- R54, Law 8: no station's segment index falls; none lies below every index. -/
def IndexRises (s t : State) : Prop :=
  ∀ x i, (s.st x).seq.index = some i → ∃ j, (t.st x).seq.index = some j ∧ i ≤ j

/-- R18, Law 7: no commit or erase is under way on a write-protected profile. -/
def ProtectLaw (s : State) : Prop :=
  ∀ n, (s.store.running = some .commit ∨ s.store.running = some .erase) →
    s.store.register.profile = some n → (s.store.directory.get n).writeProtected = false

/-- R21, R22, Law 6: an active station references the profile it holds, which is VALID, and no long
operation runs on it or on the whole store. -/
def InUseLaw (s : State) : Prop :=
  ∀ x, s.active x = true → ∃ p, (s.st x).seq.profile = some p ∧
    s.store.inUse.get x = some p.number ∧ (s.store.directory.get p.number).state = .valid ∧
    s.store.busyOn p.number = false ∧ s.store.wholeBusy = false

/-- R148: no two entries of the slot map hold the same slot id or bind the same signal. -/
def MapLaw (s : State) : Prop :=
  ∀ i j e f, mapEntry s.link.map i = some e → mapEntry s.link.map j = some f → i ≠ j →
    e.slotId ≠ f.slotId ∧ e.signal ≠ f.signal

/-! ## The scan against its stored profile -/

/-- R97: an entry stands at the start of the segment it names, which has been entered, or at the profile
end. -/
def OriginStands (p : HeldProfile) (segs : List Segment) (index : Option Nat) (e : QEntry) : Prop :=
  match e.origin with
  | .segment i => ∃ g k, segs[i]? = some g ∧ e.base = g.start.toInt ∧ index = some k ∧ i ≤ k
  | .endMarker => e.base = p.header.finish.toInt

/-- R97, Law 3: the bases are strictly ordered in the scan direction, no two equal. -/
def BasesOrdered (d : Direction) (q : List QEntry) : Prop :=
  q.Pairwise fun e f => 0 < aheadBy d f.base e.base

/-- In RESERVE mode with SUPPLY_FLOW nonzero (R121). -/
def Reserving (s : State) : Prop := s.params.supplyMode = .reserve ∧ s.params.supplyFlow ≠ 0

/-- What holds of an active station that scans the profile `p`: it holds what the store holds (R3, R22,
R23), its queue stands along the shaft in order (R97, Law 3), every set it opens is one of the profile's,
and in RESERVE mode each of them is booked (R121). -/
structure ScanHeld (s : State) (x : StationId) (p : HeldProfile) : Prop where
  header : p.header = (s.store.profiles.get p.number).header
  zones : p.zoneSets =
    (s.store.profiles.get p.number).segments.map Segment.zones ++ [p.header.tailZones]
  origins : ∀ e ∈ (s.st x).qsc.queue,
    e.zones ∈ p.zoneSets ∧ OriginStands p (s.segments x) (s.st x).seq.index e
  ordered : BasesOrdered p.header.direction (s.st x).qsc.queue
  issued : (s.st x).qsc.lastIssued = 0 ∨ (s.st x).qsc.lastIssued ∈ p.zoneSets
  booked : Reserving s → ∃ r, (s.st x).sar.reservation = some r ∧
    ∀ z ∈ p.zoneSets, flowOf (s.st x).par z ≤ r

/-- What holds of the stored profiles and of both scans between events: a VALID profile passes validation
(R12, R16), and so does the copy of a running commit and the profile it replaces; only an active station
holds a reservation, and the two together stay within SUPPLY_FLOW (R121, R122, Law 4). -/
structure ScanLaw (s : State) : Prop where
  stored : ∀ n, (s.store.directory.get n).state = .valid →
    validate (s.store.profiles.get n).header (s.store.profiles.get n).segments = none
  committed : ∀ n p f, s.store.running = some .commit → s.store.register.profile = some n →
    s.store.work = .commit p f → validate p.header p.segments = none ∧
      (f = .valid →
        validate (s.store.profiles.get n).header (s.store.profiles.get n).segments = none)
  scans : ∀ x p, s.active x = true → (s.st x).seq.profile = some p → ScanHeld s x p
  rest : ∀ x, s.active x = false → (s.st x).sar.reservation = none
  together : Reserving s → (s.st .a).sar.reservation.getD 0 + (s.st .b).sar.reservation.getD 0 ≤
    s.params.supplyFlow

/-- R119, Law 4 in RESERVE mode: no station's granted flow exceeds its reservation, and the two together
stay within SUPPLY_FLOW. -/
def ReserveLaw (s : State) : Prop :=
  Reserving s →
    (∀ x, (s.st x).sar.granted ≤ (s.st x).sar.reservation.getD 0) ∧
      (s.st .a).sar.granted + (s.st .b).sar.granted ≤ s.params.supplyFlow

/-! ## What an event leaves alone -/

/-- What the events inside the stations leave alone: the queue of commands, supply, parameters, stop
levels, the link unit, the store but for its in-use marks, the program tables, the severity map, a held
first-condition record, the retention-valid flag. -/
structure BlocksKept (s t : State) : Prop where
  pending : t.pending = s.pending
  vdd : t.vdd = s.vdd
  params : t.params = s.params
  stops : t.stops = s.stops
  link : t.link = s.link
  store : { t.store with inUse := s.store.inUse } = s.store
  severity : t.cdu.severity = s.cdu.severity
  first : FirstKept s t
  par : ∀ x, (t.st x).par = (s.st x).par
  table : ∀ x, (t.st x).eng.table = (s.st x).eng.table
  valid : t.rtb.valid = s.rtb.valid

/-! ## Words that the statements share -/

/-- The part is powered and its link is UP, so that a request is taken (R144, R157). -/
def Ready (s : State) : Prop := s.vdd = true ∧ s.link.state = .up

/-- Run commands are carried out: the part is ready and the nibbles have been adopted (R151). -/
def Commanded (s : State) : Prop := Ready s ∧ s.link.adoption = false

/-- The state with a reply held (R157). -/
def replied (tag : Byte) (status : ReplyStatus) (payload : List Byte) (s : State) : State :=
  { s with link := { s.link with
      heldReply := some { tag := tag, status := status, payload := payload } } }

/-- From `s` to `t` one raise of condition `c` with scope copy `sc` and applied severity `v` has been
logged in its entry (R163, R164). -/
def Logged (c : Cond) (sc : Scope) (v : Severity) (s t : State) : Prop :=
  t.cdu.entry c sc =
    { pending := true, count := Nat.min 255 ((s.cdu.entry c sc).count + 1),
      lastCycle := some s.link.count, lastSeverity := some v }

/-- From `s` to `t` one raise of condition `c` with scope copy `sc` and applied severity `v` has met the
first-condition record: it has filled a free one with the station as it stood at the raise, or added its code
and one count beside a held one (R164, step 2). -/
structure Recorded (c : Cond) (sc : Scope) (v : Severity) (s t : State) : Prop where
  free : s.cdu.first = none →
    (∃ r, t.cdu.first = some r ∧ r.code = c ∧ r.cycle = s.link.count ∧ r.severity = v ∧
      (∀ x, sc = .station x → r.station = some x ∧ r.state = some (s.st x).seq.state ∧
        r.index = (s.st x).seq.index ∧ r.x = (s.st x).trk.report.bind Report.x) ∧
      (sc = .part → r.station = none ∧ r.state = none ∧ r.index = none ∧ r.x = none)) ∧
    t.cdu.nextSet = s.cdu.nextSet ∧ t.cdu.nextCount = s.cdu.nextCount
  held : ∀ r, s.cdu.first = some r → t.cdu.first = some r ∧
    (∀ k, k < 32 →
      t.cdu.nextSet.getLsbD k = (s.cdu.nextSet.getLsbD k || decide (k = c.code))) ∧
    t.cdu.nextCount = Nat.min 255 (s.cdu.nextCount + 1)

/-- The station has been halted by a condition: HALTING, or FAULTED when its HALT program has ended already (R67,
R68; what the program does is `HaltedBy`). -/
def Halted (v : Station) : Prop := v.seq.state = .halting ∨ v.seq.state = .faulted

/-- What every halt leaves of a station: no power, no travel, a quench at rest, no open account, no
retune, no timer (R67, R95, R116). -/
structure AtRest (v : Station) : Prop where
  power : v.pcu.held.setpoint = 0 ∧ v.pcu.held.run = false
  travel : v.seq.travel.mode = .stop
  quench : QuenchIdle v
  account : v.pcu.account = none
  retune : v.pcu.retune = .none
  timers : v.seq.armTimer = .stopped ∧ v.seq.dwellTimer = .stopped ∧ v.seq.holdTimer = .stopped ∧
    v.seq.tailTimer = .stopped

/-- The start power of a RAMP segment `i`: the power of the nearest earlier segment whose power is nonzero, 0 if
there is none (R78). -/
def StartPower (segs : List Segment) (i power : Nat) : Prop :=
  (power = 0 ∧ ∀ j g, j < i → segs[j]? = some g → g.power = 0) ∨
    ∃ j g, j < i ∧ segs[j]? = some g ∧ g.power ≠ 0 ∧ power = g.power.toNat ∧
      ∀ k f, j < k → k < i → segs[k]? = some f → f.power = 0

/-- The value of the RAMP segment `i` of length `length` at distance `d` ahead of its start: the start power behind
it, its own power at its end and beyond, and between them the linear value rounded down (R78). -/
def RampValue (segs : List Segment) (i : Nat) (length d : Int) (value : Nat) : Prop :=
  ∃ g start, segs[i]? = some g ∧ StartPower segs i start ∧
    (d ≤ 0 → value = start) ∧ (0 < d → length ≤ d → value = g.power.toNat) ∧
    (0 < d → d < length →
      (value : Int) * length ≤ start * length + ((g.power.toNat : Int) - start) * d ∧
        start * length + ((g.power.toNat : Int) - start) * d < ((value : Int) + 1) * length)

/-- An accepted sample that left the tracker `t` is checked for following (R44). -/
def FollowChecked (v : Station) (t : Tracker) : Prop :=
  (v.seq.state = .approach ∨ v.seq.state = .scanning ∨ v.seq.state = .tail) ∧
    v.seq.travel.mode = .move ∧ v.trk.settled = true ∧ t.established = true

/-- The codes of the reply statuses (R160). -/
def replyCode : ReplyStatus → Byte
  | .ok => 0
  | .accepted => 1
  | .busy => 2
  | .inUse => 3
  | .badArgument => 4
  | .isProtected => 5
  | .notFound => 6
  | .invalidProfile => 7
  | .unknownRequest => 8

/-- The four bytes of a station's part of STATUS as the part stands in `u` (R153, R160, R166). -/
structure StatusBytes (u : State) (x : StationId) (state index echo flags : Byte) : Prop where
  state : state = match (u.st x).seq.state with
    | .idle => 0
    | .arming => 1
    | .approach => 2
    | .scanning => 3
    | .dwelling => 4
    | .retuneHold => 5
    | .holding => 6
    | .tail => 7
    | .halting => 8
    | .complete => 9
    | .faulted => 10
    | .interrupted => 11
  index : index = match (u.st x).seq.index with
    | none => 255
    | some i => BitVec.ofNat 8 i
  echo : echo.toNat = 16 * (u.st x).seq.nibble.toNat + match (u.st x).seq.commandResult with
    | .accepted => 0
    | .refusedState => 1
    | .refusedProfile => 2
    | .refusedBusy => 3
    | .refusedFlow => 4
    | .refusedLine => 5
    | .refusedCode => 6
  attention : flags.getLsbD 0 = true ↔
    ∃ c sc v, scopeFits c sc = true ∧ (sc = .station x ∨ sc = .part) ∧
      (u.cdu.entry c sc).pending = true ∧ (u.cdu.entry c sc).lastSeverity = some v ∧
      u.params.attentionLevel.code ≤ v.code
  ready : flags.getLsbD 1 = (u.st x).seq.resultReady
  extrapolating : flags.getLsbD 2 = (u.st x).trk.extrapolating
  flowWait : flags.getLsbD 3 = (u.st x).sar.waiting.isSome
  permit : flags.getLsbD 4 = (u.st x).eng.permit
  unused : flags.toNat < 32

/-- The sets of a queue, in order. -/
def setsOf (q : List QEntry) : List ZoneSet := q.map QEntry.zones

/-- The state that power-on and RESET_N bring when the Retention Block has nothing to tell. -/
def freshState (straps : BitVec 6) (stops : StopLevels) (s : State) : State :=
  { s with
    vdd := true, params := defaultGlobal, stations := Pair.both resetStation, stops := stops,
    store := { directory := s.store.directory, profiles := s.store.profiles, staging := none,
               register := { operation := .storeCheck, profile := none, result := none },
               work := .none, inUse := Pair.both none },
    link := resetLink straps, cdu := resetConditions }

/-- The run command that a station's part of a usable CONTROL slot carries (R48, R160). -/
def commandOf (x : StationId) (c : ControlPart) : Instr :=
  if c.code = 0 then .commandNone x c.nibble
  else if c.code = 1 then .start x c.nibble c.profile c.adjust
  else if c.code = 2 then .hold x c.nibble
  else if c.code = 3 then .resume x c.nibble
  else if c.code = 4 then .abort x c.nibble
  else if c.code = 5 then .clear x c.nibble
  else .commandUnknownCode x c.code c.nibble

/-- The request that a code names, with its tag and payload (R181). -/
def requestOf (code tag : Byte) (p : List Byte) : Instr :=
  match code.toNat with
  | 1 => .ident tag p
  | 2 => .paramRead tag p
  | 3 => .paramWrite tag p
  | 4 => .mapRead tag p
  | 5 => .mapWrite tag p
  | 6 => .programRead tag p
  | 7 => .programWrite tag p
  | 8 => .profileOpen tag p
  | 9 => .headerWrite tag p
  | 10 => .segmentWrite tag p
  | 11 => .segmentTruncate tag p
  | 12 => .profileCancel tag p
  | 13 => .profileCommit tag p
  | 14 => .profileErase tag p
  | 15 => .profileProtect tag p
  | 16 => .storeClear tag p
  | 17 => .dirRead tag p
  | 18 => .headerRead tag p
  | 19 => .segmentRead tag p
  | 20 => .opQuery tag p
  | 21 => .condRead tag p
  | 22 => .condTake tag p
  | 23 => .condClear tag p
  | 24 => .firstRead tag p
  | 25 => .firstRelease tag p
  | 26 => .severityRead tag p
  | 27 => .severityWrite tag p
  | 28 => .resultRead tag p
  | 29 => .resultSegmentRead tag p
  | 30 => .retainedRead tag p
  | 31 => .sampleRead tag p
  | _ => .unknownRequest tag code p

/-- The setpoint signals of station `x` that are bound, whose slot is not in the frame and whose output run is
clear (R150, step 2). -/
def newlyMissing (m : SlotMap) (frame : List Byte) (l : Link) (x : StationId) : List Setpoint :=
  [.powerSet, .quenchSet, .travelSet].filter fun p =>
    !runOf p (l.setRuns.get x) &&
      (bound m (.setpoint x p)).any fun e => (findSlot frame e.slotId).isNone

/-- The frame carries a service request to the part (R157). -/
def AddressedHere (l : Link) (c : ServiceChannel) : Prop :=
  c.target = BitVec.ofNat 8 (l.address.getD 0) ∧ c.target ≠ 0 ∧ c.direction = 0

/-- From `l` to `m` the runs of the signal `g` have been cleared, and those of no other (R148). -/
structure RunsCleared (g : Option Signal) (l m : Link) : Prop where
  control : m.controlRun = (l.controlRun && decide (g ≠ some .control))
  status : m.statusRun = (l.statusRun && decide (g ≠ some .status))
  setpoint : ∀ x p, runOf p (m.setRuns.get x) =
    (runOf p (l.setRuns.get x) && decide (g ≠ some (.setpoint x p)))
  feedback : ∀ x f, sampleOf f (m.samples.get x) =
    { sampleOf f (l.samples.get x) with
      missRun := (sampleOf f (l.samples.get x)).missRun && decide (g ≠ some (.feedback x f)) }

/-- `n` is the lateness of an entry that is issued: the travel of the ring, at `ring` by the latest report, ahead of
its due position; 0 when that is negative, when the ring is absent, and for an entry that this report found due
(R108). -/
structure LatenessIs (d : Direction) (due : Option Due) (ring : Option Int) (n : Nat) : Prop where
  measured : ∀ u p, due = some u → ring = some p → n = (aheadBy d p u.position).toNat
  absent : due = none ∨ ring = none → n = 0

/-- The result entry of an origin: its segment's, the last segment's for END (R108). -/
def OriginEntry (segs : List Segment) (o : Origin) (i : Nat) : Prop :=
  o = .segment i ∨ (o = .endMarker ∧ i + 1 = segs.length)

/-- From `s` to `t` entry `i` of the scan result of `x` keeps the greater of its lateness and `n` (R108). -/
def LatenessKept (x : StationId) (i n : Nat) (s t : State) : Prop :=
  ∀ r k, (s.st x).result = some r → r.entries[i]? = some k → ∃ r', (t.st x).result = some r' ∧
    r'.entries[i]? = some { k with lateness := some (Nat.max (k.lateness.getD 0) n) }

/-- The record of a missed sample (R155). -/
def missed (r : SampleRecord) : SampleRecord :=
  { r with fresh := false, missCount := Nat.min 255 (r.missCount + 1) }

/-- What a closed wait without a return leaves of the link unit: the wait and its reply gone, every sample
record missed. -/
def LostReturn (s t : State) : Prop :=
  t.link.wait = none ∧ t.link.heldReply = none ∧
    ∀ x f, sampleOf f (t.link.samples.get x) = missed (sampleOf f (s.link.samples.get x))

/-- The slot that a map entry binds carries a FRESH sample of signal `f`: VALID, by an accepted writer, every
field in its range (R154). -/
def SlotUsable (f : Feedback) (e : MapEntry) (sl : Slot) : Prop :=
  sl.state = 1 ∧ (e.writer = 0 ∨ sl.writer = e.writer) ∧ payloadInRange f sl.payload = true

/-- The class of a feedback signal in a valid return: FRESH with the payload of its slot, MISSING in the frame,
or MISSING because it is not bound (R154). -/
def ClassedAs (m : SlotMap) (frame : List Byte) (x : StationId) (f : Feedback) : Capture → Prop
  | .fresh p => ∃ e sl, bound m (.feedback x f) = some e ∧ findSlot frame e.slotId = some sl ∧
      SlotUsable f e sl ∧ p = sl.payload
  | .inFrame => ∃ e, bound m (.feedback x f) = some e ∧
      ∀ sl, findSlot frame e.slotId = some sl → ¬SlotUsable f e sl
  | .lost => bound m (.feedback x f) = none

/-- No signal stands twice in a list of captures. -/
def OnceEach (cs : List Captured) : Prop :=
  cs.Pairwise fun e f => e.station ≠ f.station ∨ e.signal ≠ f.signal

/-- The required feedback signals of station `x` whose slot carries no FRESH sample in the frame and whose run is
clear (R155). -/
def newlyLost (m : SlotMap) (frame : List Byte) (l : Link) (x : StationId) : List Feedback :=
  [.position, .powerActual, .quenchActual, .temperature].filter fun f =>
    !(sampleOf f (l.samples.get x)).missRun &&
      (bound m (.feedback x f)).any fun e =>
        e.required &&
          !(findSlot frame e.slotId).any fun sl =>
            decide (sl.state = 1) && (decide (e.writer = 0) || decide (sl.writer = e.writer)) &&
              payloadInRange f sl.payload

/-- From `u` to `t` the captures `cs` of the return awaited for cycle `c` have been handed on as samples, in some
order: the model's draw counter has picked it (R76, R155; assumptions 6, 30 and 41). -/
def HandedOn (c : Cycle) (cs : List Captured) (u t : State) : Prop :=
  ∃ order : List Captured, order.Perm cs ∧
    t = handFrom { a := decide ((u.st .a).pcu.retune ≠ .none), b := decide ((u.st .b).pcu.retune ≠ .none) }
      c cs order { u with draws := u.draws + 1 }

/-- From `s` to `t` a return wait with awaited cycle `c` has been closed with the captures `cs` under the map `m`:
the wait and its reply are gone, the eight records updated in their order, then the samples handed on (R154, R155). -/
def ClosedWith (m : SlotMap) (c : Cycle) (cs : List Captured) (s t : State) : Prop :=
  HandedOn c cs
    (cs.foldl (recordOne m c) { s with link := { s.link with wait := none, heldReply := none } }) t

/-- The sample that a capture of POSITION is handed on as (R155, R160). -/
def PositionIn : Capture → PositionBody → Prop
  | .fresh p, b => ∃ f, b = .fresh (word32 p[0] p[1] p[2] p[3]) f ∧ f.enabled = p[4].getLsbD 0 ∧
      f.homed = p[4].getLsbD 1 ∧ f.inMotion = p[4].getLsbD 2 ∧ f.driveFault = p[4].getLsbD 3
  | .inFrame, b => b = .missing
  | .lost, b => b = .missing

/-- The sample that a capture of POWER_ACTUAL is handed on as (R155, R160). -/
def PowerIn : Capture → PowerBody → Prop
  | .fresh p, b => ∃ ch inv, b = .fresh (word16 p[0] p[1]) ch inv ∧
      p[2] = (match ch with | .none => 0 | .low => 1 | .high => 2) ∧
      p[3] = (match inv with | .off => 0 | .ready => 1 | .running => 2 | .retuning => 3 | .fault => 4)
  | .inFrame, b => b = .missing
  | .lost, b => b = .missing

/-- The sample that a capture of QUENCH_ACTUAL is handed on as (R155, R160). -/
def QuenchIn : Capture → QuenchBody → Prop
  | .fresh p, b => ∃ m, b = .fresh p[0] m (word16 p[2] p[3]) ∧ p[1] = (match m with | .ok => 0 | .fault => 1)
  | .inFrame, b => b = .missing
  | .lost, b => b = .missing

/-- The sample that a capture of TEMPERATURE is handed on as (R155, R160). -/
def TemperatureIn : Capture → TemperatureBody → Prop
  | .fresh p, b => ∃ v, b = .fresh (word16 p[0] p[1]) v ∧ p[2] = if v = true then 1 else 0
  | .inFrame, b => b = .missing
  | .lost, b => b = .missing

/-- The link unit's synchronisation is as it was: state, address, count, last number, map. -/
def SyncKept (s t : State) : Prop :=
  t.link.state = s.link.state ∧ t.link.address = s.link.address ∧ t.link.count = s.link.count ∧
    t.link.lastNumber = s.link.lastNumber ∧ t.link.missed = s.link.missed ∧ t.link.map = s.link.map

/-- The state in which a command's nibble and result are shown (R48). -/
def shown (x : StationId) (nibble : BitVec 4) (r : CommandResult) (s : State) : State :=
  modSeq x (fun q => { q with nibble := nibble, commandResult := r }) s

/-- The parameters of R183: number, least and greatest value. -/
def parameterTable : List (Nat × Nat × Nat) :=
  [(1, 250, 4000), (2, 50, 3900), (3, 2, 16), (4, 0, 4000), (5, 0, 1), (6, 0, 3),
    (16, 0, 4294967295), (17, 0, 20000), (18, 10, 50000), (19, 1, 8), (20, 0, 1), (21, 10, 10000),
    (22, 1000, 200000), (23, 0, 500000), (24, 1000, 200000), (25, 0, 5000), (26, 1, 50),
    (27, 1, 1000)] ++
  [(28, 100, 20000), (29, 1, 10000), (30, 1, 50), (31, 1, 64), (32, 0, 10), (33, 10, 2000),
    (34, 100, 30000), (35, 100, 60000), (36, 0, 500), (37, 10, 1000), (38, 0, 1000), (39, 0, 1000),
    (40, 0, 1000), (41, 0, 1000), (42, 0, 1000), (43, 0, 1000), (44, 0, 1000), (45, 0, 1000),
    (46, 10, 100), (47, 1, 100), (48, 0, 20000), (49, 1, 5000)]

/-- The commands that may free the first-condition record: FIRST_RELEASE, power-on reset, and a frame whose
service channel carries FIRST_RELEASE, unless it is the one that brings the link UP, whose request is not taken
(R157). -/
def mayRelease : Instr → Bool
  | .powerOn _ _ _ | .resetN _ _ _ | .firstRelease _ _ => true
  | .cycleCompletion f => (serviceOf f).any fun v => v.code == 25
  | _ => false

/-- The global parameters of R183 with their values. -/
def globalTable (g : GlobalParams) : List (Nat × BitVec 32) :=
  [(1, BitVec.ofNat 32 g.cycleTime), (2, BitVec.ofNat 32 g.returnTimeout),
    (3, BitVec.ofNat 32 g.linkLossCount), (4, BitVec.ofNat 32 g.supplyFlow),
    (5, if g.supplyMode = .share then 0 else 1), (6, BitVec.ofNat 32 g.attentionLevel.code)]

/-- The station parameters of R183 with their values. -/
def stationTable (p : StationParams) : List (Nat × BitVec 32) :=
  (16, p.datumBase) ::
    ([(17, p.lookAhead), (18, p.maxStep), (19, p.staleLimit), (20, if p.strict then 1 else 0),
      (21, p.reversalTol), (22, p.approachSpeed), (23, p.approachMax), (24, p.runoutSpeed),
      (25, p.standstill), (26, p.followTol), (27, p.followSettle), (28, p.powerRated),
      (29, p.rampLimit), (30, p.powerTol), (31, p.powerDevCycles), (32, p.residualPower),
      (33, p.retuneTimeout), (34, p.armTimeout), (35, p.holdLimit), (36, p.valveLag)] ++
    [(37, p.valveCheck), (38, p.zoneFlow[0]), (39, p.zoneFlow[1]), (40, p.zoneFlow[2]),
      (41, p.zoneFlow[3]), (42, p.zoneFlow[4]), (43, p.zoneFlow[5]), (44, p.zoneFlow[6]),
      (45, p.zoneFlow[7]), (46, p.flowLowPct), (47, p.flowCheck), (48, p.quenchLateDist),
      (49, p.quenchWaitMax)]).map fun k => (k.1, BitVec.ofNat 32 k.2)

/-- The tests of a segment in the order of R12. -/
def testOrder : List Reason :=
  [.range, .skipPower, .firstStart, .order, .dwellPair, .lastDwell, .length]

/-- A header field is outside its range (R13). -/
def HeaderOut (h : Header) : Prop :=
  h.quenchOffset.toNat < 5000 ∨ 150000 < h.quenchOffset.toNat ∨ 60000 < h.tailTime.toNat ∨
    50 < h.energyTol.toNat

/-- A field of a segment is outside its range (R13). -/
def SegmentOut (g : Segment) : Prop :=
  20000 < g.power.toNat ∨
    (g.kind ≠ .dwell ∧ (g.speed.toNat < 100 ∨ 200000 < g.speed.toNat)) ∨
    (g.kind = .dwell ∧ (g.speed.toNat < 1 ∨ 60000 < g.speed.toNat)) ∨
    ∃ w, g.window = some w ∧
      (1400 < w.low.toNat ∨ 1400 < w.high.toNat ∨ w.high.toNat < w.low.toNat)

/-- Test `r` of R12 rejects segment `i`. -/
def Rejects (h : Header) (segs : List Segment) (i : Nat) (r : Reason) : Prop :=
  ∃ g, segs[i]? = some g ∧
    match r with
    | .range => SegmentOut g
    | .skipPower => g.kind = .skip ∧ g.power ≠ 0
    | .firstStart => i = 0 ∧ g.start ≠ h.start
    | .order => ∃ k b, i = k + 1 ∧ segs[k]? = some b ∧
        (b.kind = .dwell ∧ g.start ≠ b.start ∨
          b.kind ≠ .dwell ∧ aheadBy h.direction g.start.toInt b.start.toInt ≤ 0)
    | .dwellPair => ∃ k b, i = k + 1 ∧ segs[k]? = some b ∧ b.kind = .dwell ∧ g.kind = .dwell
    | .lastDwell => i + 1 = segs.length ∧ g.kind = .dwell
    | .length => ∃ k b, i = k + 1 ∧ segs[k]? = some b ∧ b.kind ≠ .dwell ∧
        (g.start.toInt - b.start.toInt).natAbs < 1000
    | .empty | .endOrder => False

/-- The level of a line after `n` steps of a program have acted, from step `i` on (R130, R132). -/
def linesFrom (s : State) (x : StationId) (p : Program) (i n : Nat) (act : ProgStep → LineAction)
    (level : Bool) : Bool :=
  (List.range n).foldl (fun l j => (act (s.progStep x p (i + j))).apply l) level

/-- Step `j` of program `p` starts the step timer: it has a delay, and is not the step `due` whose delay has run
out (R132). -/
def StepWaits (s : State) (x : StationId) (p : Program) (due : Option Nat) (j : Nat) : Prop :=
  (s.progStep x p j).delay ≠ 0 ∧ due ≠ some j

/-- Program `p` of `x`, going on at step `i` in `s`, leaves the engine `e`: the steps before the first that waits
have acted on the lines, and that one waits for its delay; with none, the program has ended behind its last step
(R130, R132). -/
def RunsFrom (s : State) (x : StationId) (p : Program) (i : Nat) (due : Option Nat) (e : Engine) : Prop :=
  ∀ k, i ≤ k → k ≤ 7 →
    (∀ j, i ≤ j → j < k → ¬StepWaits s x p due j ∧ (s.progStep x p j).last = false) →
    (StepWaits s x p due k → e = { (s.st x).eng with
      permit := linesFrom s x p i (k - i) ProgStep.permit (s.st x).eng.permit,
      qforce := linesFrom s x p i (k - i) ProgStep.qforce (s.st x).eng.qforce,
      spin := linesFrom s x p i (k - i) ProgStep.spin (s.st x).eng.spin,
      running := some p, step := some k, timer := .running (2 ^ ((s.progStep x p k).delay - 1)) }) ∧
    (¬StepWaits s x p due k → (s.progStep x p k).last = true ∨ k = 7 → e = { (s.st x).eng with
      permit := linesFrom s x p i (k + 1 - i) ProgStep.permit (s.st x).eng.permit,
      qforce := linesFrom s x p i (k + 1 - i) ProgStep.qforce (s.st x).eng.qforce,
      spin := linesFrom s x p i (k + 1 - i) ProgStep.spin (s.st x).eng.spin,
      running := none, step := none, timer := .stopped })

/-- A request for program `p` leaves the engine `e`: it begins at step 0, whatever other program ran; a running HALT
program goes on instead (R132, R134). -/
def Engaged (s : State) (x : StationId) (p : Program) (e : Engine) : Prop :=
  ((s.st x).eng.running = some .halt → e = (s.st x).eng) ∧
    ((s.st x).eng.running ≠ some .halt → RunsFrom s x p 0 none e)

/-- From `s` to `t` station `x` has been halted with cause `c`: at rest, its HALT program requested, its scan ABORTED
with the cause, an open account closed EXEMPT, segment index, profile and datum kept. While the HALT program runs it is
HALTING and the retained record is written so; when the program has ended, at once where no step has a delay, the
station has given back what it held for the scan (R67, R68, R93, R134, R172, R175, R176). -/
structure HaltedBy (x : StationId) (c : Cause) (s t : State) : Prop where
  rest : AtRest (t.st x)
  cause : (t.st x).seq.haltCause = some c
  kept : (t.st x).seq.index = (s.st x).seq.index ∧ (t.st x).seq.profile = (s.st x).seq.profile ∧
    (t.st x).seq.datum = (s.st x).seq.datum
  cleared : (t.st x).seq.heldState = none ∧ (t.st x).seq.pendingState = none ∧
    (t.st x).seq.phase = none
  program : Engaged s x .halt (t.st x).eng
  result : ∀ r, (s.st x).result = some r → ∃ entries, entries.length = r.entries.length ∧
    (t.st x).result = some { r with
      outcome := .aborted, cause := some c, entries := entries,
      endCycle := if (t.st x).eng.running = none then some s.link.count else r.endCycle }
  account : ∀ a r e, (s.st x).pcu.account = some a → (s.st x).result = some r →
    r.entries[a.index]? = some e → ∃ r' e', (t.st x).result = some r' ∧
      r'.entries[a.index]? = some e' ∧ e'.verdict = some .exempt ∧
      e'.duration = s.link.count - a.entryCycle
  halting : (t.st x).eng.running ≠ none → (t.st x).seq.state = .halting ∧
    ∀ p, (s.st x).seq.profile = some p → t.rtb.records.get x = some
      { profile := p.number, revision := p.revision, datum := (s.st x).seq.datum,
        index := (s.st x).seq.index, position := lastShaft (s.st x), cycle := s.link.count,
        state := .halting }
  ended : (t.st x).eng.running = none →
    (t.st x).seq.state = (match c with
      | .cond _ => .faulted
      | .abortCommand | .linkReset => .idle) ∧
    (t.st x).seq.resultReady = true ∧ t.rtb.records.get x = none ∧ t.store.inUse.get x = none ∧
    (t.st x).sar.reservation = none

/-- Once the START program has ended, the arm check passes on profile `p`: its first channel in force and no retune,
the inverter READY on it by a FRESH sample, the axis homed and enabled without a fault, the tracker not extrapolating,
and the shaft behind the profile start within APPROACH_MAX (R51). -/
structure ArmReady (s : State) (x : StationId) (p : HeldProfile) : Prop where
  channel : (s.st x).pcu.retune = .none ∧ inForce (s.st x).pcu p.firstChannel = true
  inverter : (s.link.samples.get x).powerActual.fresh = true ∧
    ∃ v, (s.link.samples.get x).powerActual.value = some v ∧ v[3] = 1 ∧
      v[2] = match p.firstChannel with | .low => 1 | .high => 2
  axis : ∃ f, (s.st x).trk.flags = some f ∧ f.homed = true ∧ f.enabled = true ∧ f.driveFault = false
  tracked : (s.st x).trk.extrapolating = false
  place : ∃ e, (s.st x).trk.estimate = some e ∧
    0 ≤ aheadBy p.header.direction p.header.start.toInt (e - (s.st x).seq.datum) ∧
    aheadBy p.header.direction p.header.start.toInt (e - (s.st x).seq.datum) ≤ (s.st x).par.approachMax

/-- From `s` to `t` the FINISH or HALT program of `x` has ended its scan: the state `n`, the result ready, no timer, no
travel, and what the scan held given back; segment index, profile and datum stay (R66, R68, R176). -/
structure ScanEnded (x : StationId) (n : StationState) (s t : State) : Prop where
  state : (t.st x).seq.state = n
  ready : (t.st x).seq.resultReady = true
  timers : (t.st x).seq.armTimer = .stopped ∧ (t.st x).seq.dwellTimer = .stopped ∧
    (t.st x).seq.holdTimer = .stopped ∧ (t.st x).seq.tailTimer = .stopped
  travel : (t.st x).seq.travel.mode = .stop
  power : (t.st x).pcu.held.setpoint = 0 ∧ (t.st x).pcu.held.run = false
  kept : (t.st x).seq.index = (s.st x).seq.index ∧ (t.st x).seq.profile = (s.st x).seq.profile ∧
    (t.st x).seq.datum = (s.st x).seq.datum ∧ (t.st x).seq.haltCause = (s.st x).seq.haltCause
  record : t.rtb.records.get x = none
  inUse : t.store.inUse.get x = none
  reservation : (t.st x).sar = { (s.st x).sar with reservation := none }

/-- The commands that end a running STORE_CLEAR: its completion, or a cut (R19, R25). -/
def mayClear : Instr → Bool
  | .storeClearCompletion _ | .powerOn _ _ _ | .resetN _ _ _ | .mainSupplyLoss _ => true
  | _ => false

/-- A frame's usable CONTROL slot carries START or CLEAR for station `x` (R151, R160). -/
def restartsBy (m : SlotMap) (x : StationId) (frame : List Byte) : Bool :=
  (usableControl m frame).any fun p =>
    decide ((controlPart x p).code = 1) || decide ((controlPart x p).code = 5)

/-- The commands that may lower the segment index of station `x`: a restart, START and CLEAR for it, and a
frame whose usable CONTROL slot, under the map as it stands or that of the frame's arrival, carries one. -/
def mayRestart (s : State) (c : Instr) (x : StationId) : Bool :=
  match c with
  | .powerOn _ _ _ | .resetN _ _ _ => true
  | .start y _ _ _ | .clear y _ => decide (y = x)
  | .cycleCompletion f =>
    restartsBy s.link.map x f || (s.link.passU.any fun p => restartsBy p.map x f)
  | _ => false

end Sys2Proof.Machine
end

