-- ==== Sys2Proof/Certificates/Slice0/Obligations.lean ====
section
/-! DEFINITION. The statements for the provers: what a step is, what each command does where it takes
effect, what it leaves alone, and what every step keeps. -/

section Statements

open Sys2Proof Sys2Proof.Machine

/-! ## The step -/

/-- The step takes the command at the front of the queue and runs it with the queue's rest. -/
def Obligations.StepRunsTheFrontCommand : Prop :=
  ∀ (s : State) (c : Instr) (rest : List Instr), s.pending = c :: rest →
    step s = exec c { s with pending := rest }

/-- Every command is answered with a next state, also where its row's condition does not hold (the model's
choice, assumption 1), and no command touches the queue (the model's own field, assumption 2). -/
def Obligations.EveryCommandAnswersAndKeepsTheQueue : Prop :=
  ∀ (c : Instr) (s : State), ∃ t, exec c s = .next t ∧ t.pending = s.pending

/-- The model's choices of when nothing happens: on an empty queue (assumption 2), to an unpowered part
but for POWER_ON and RETENTION_LEVEL_LOSS (assumption 18), to every run command outside UP and while adoption
is pending, and to every request outside UP (assumption 24). -/
def Obligations.NothingHappensOutsideAnEvent : Prop :=
  (∀ s : State, s.pending = [] → step s = .next s) ∧
  (∀ (s : State) (c : Instr), s.vdd = false → (∀ k l n, c ≠ .powerOn k l n) →
    c ≠ .retentionLevelLoss → exec c s = .next s) ∧
  (∀ (s : State) (x : StationId) (n k : BitVec 4) (p : Byte) (d : BitVec 16),
    s.link.state ≠ .up ∨ s.link.adoption = true →
    exec (.start x n p d) s = .next s ∧ exec (.hold x n) s = .next s ∧
    exec (.resume x n) s = .next s ∧ exec (.abort x n) s = .next s ∧ exec (.clear x n) s = .next s ∧
    exec (.commandNone x n) s = .next s ∧ exec (.commandUnknownCode x k n) s = .next s) ∧
  (∀ (s : State) (tag code : Byte) (p : List Byte) (c : Instr), s.link.state ≠ .up →
    c ∈ [Instr.ident tag p, .paramRead tag p, .paramWrite tag p, .mapRead tag p, .mapWrite tag p,
      .programRead tag p, .programWrite tag p, .profileOpen tag p, .headerWrite tag p,
      .segmentWrite tag p, .segmentTruncate tag p, .profileCancel tag p, .profileCommit tag p,
      .profileErase tag p, .profileProtect tag p, .storeClear tag p] ++
      [.dirRead tag p, .headerRead tag p, .segmentRead tag p, .opQuery tag p, .condRead tag p,
      .condTake tag p, .condClear tag p, .firstRead tag p, .firstRelease tag p, .severityRead tag p,
      .severityWrite tag p, .resultRead tag p, .resultSegmentRead tag p, .retainedRead tag p,
      .sampleRead tag p, .unknownRequest tag code p] →
    exec c s = .next s)

/-! ## Supply and reset -/

/-- POWER_ON and RESET_N set every block to its reset values and keep nonvolatile memory; the straps decide
between DOWN and PASSIVE; the Retention Block decides what the stations come up in. That POWER_ON does so
with main supply present too is the model's choice (assumption 33). -/
def Obligations.PowerOnAndResetNRestartThePart : Prop :=
  ∀ (s : State) (straps : BitVec 6) (stops : StopLevels) (k : Nat) (c : Instr),
    (c = .powerOn straps stops k ∧ (s.vdd = false ∨ s.store.running = none)) ∨
      (c = .resetN straps stops k ∧ s.vdd = true ∧ s.store.running = none) →
    (s.rtb.valid = true → s.rtb.records = Pair.both none →
      exec c s = .next (freshState straps stops s)) ∧
    ∃ t, exec c s = .next t ∧
      t.link.state = (if straps.toNat = 0 ∨ straps.toNat = 63 then .passive else .down) ∧
      t.link.address = (if straps.toNat = 0 ∨ straps.toNat = 63 then none else some straps.toNat) ∧
      t.store = (freshState straps stops s).store ∧ t.params = defaultGlobal ∧ t.stops = stops ∧
      (s.rtb.valid = true → t.rtb = s.rtb ∧
        ∀ x, ((s.rtb.records.get x).isSome = true →
            (t.st x).seq.state = .interrupted ∧
              t.cdu.entry .scanInterrupted (.station x) =
                { pending := true, count := 1, lastCycle := some 0, lastSeverity := some .note }) ∧
          (s.rtb.records.get x = none → t.st x = resetStation)) ∧
      (s.rtb.valid = false → t.rtb = { records := Pair.both none, valid := true } ∧
        (∀ x, t.st x = resetStation) ∧
        t.cdu.entry .retentionLost .part =
          { pending := true, count := 1, lastCycle := some 0, lastSeverity := some .note })

/-- A loss of main supply, and a RESET_N, cut a running long operation off and leave the directory as
far as it was written. How the count k of writes made is read, and that a cut commit leaves the stored
content as it was, are the model's choice (assumption 16). -/
def Obligations.CutLongOperationLeavesWhatItWrote : Prop :=
  ∀ (s : State) (straps : BitVec 6) (stops : StopLevels) (k : Nat), s.vdd = true →
    ∃ d, exec (.mainSupplyLoss k) s =
        .next { s with vdd := false, store := { s.store with directory := d } } ∧
      (∃ u, exec (.resetN straps stops k) s = .next u ∧ u.store.directory = d ∧
        u.store.profiles = s.store.profiles ∧ u.store.staging = none ∧
        u.store.running = some .storeCheck) ∧
      (s.store.running = none → d = s.store.directory) ∧
      (∀ n p f, s.store.running = some .commit → s.store.register.profile = some n →
        s.store.work = .commit p f →
        d = if k = 0 then s.store.directory.set n { s.store.directory.get n with state := f }
          else s.store.directory) ∧
      (∀ n, s.store.running = some .erase → s.store.register.profile = some n →
        d = if k = 0 then s.store.directory
          else s.store.directory.set n { s.store.directory.get n with state := .empty, count := 0 }) ∧
      (∀ n w r, s.store.running = some .protect → s.store.register.profile = some n →
        s.store.work = .protect w r → ∀ i, (d.get i).state = (s.store.directory.get i).state ∧
          (d.get i).writeProtected =
            ((s.store.directory.get i).writeProtected || (decide (i = n ∧ k ≠ 0) && w)) ∧
          (d.get i).readProtected =
            ((s.store.directory.get i).readProtected || (decide (i = n ∧ k ≠ 0) && r))) ∧
      (s.store.running = some .clear →
        ∀ i, d.get i = if i.val < k then clearedEntry else s.store.directory.get i) ∧
      (s.store.running = some .storeCheck → ∀ i : Fin 16, d.get i =
        if i.val < k ∧ ((s.store.directory.get i).state = .writing ∨
            ((s.store.directory.get i).state = .valid ∧
              checkValue (s.store.profiles.get i) ≠ (s.store.directory.get i).check))
          then { s.store.directory.get i with state := .corrupt } else s.store.directory.get i)

/-! ## Commands that write one thing -/

/-- The commands whose whole effect is one field: STOP_RELEASE, FOLLOW_SETTLE_EXPIRY, RETENTION_LEVEL_LOSS, and
FRAME_FORWARD_UNCHANGED at the end of a frame (one known at port D since its arrival is BadAndStrayFramesOnlyRaise's).
-/
def Obligations.OneFieldCommandsWriteTheirFieldAlone : Prop :=
  (∀ s : State, s.vdd = true →
    exec (.stopRelease .stopA) s = .next { s with stops := { s.stops with a := false } } ∧
    exec (.stopRelease .stopB) s = .next { s with stops := { s.stops with b := false } } ∧
    exec (.stopRelease .stopAll) s = .next { s with stops := { s.stops with all := false } }) ∧
  (∀ (s : State) (x : StationId) (n : Nat), s.vdd = true → (s.st x).trk.settle = .running n →
    exec (.followSettleExpiry x) s =
      .next (modTrk x (fun t => { t with settle := .stopped, settled := true }) s)) ∧
  (∀ (s : State) (h : FrameHeader) (f : List Byte), s.vdd = true → s.link.state ≠ .up →
    headerOf f = some h →
    exec (.frameForwardUnchanged .u (.completion f)) s =
        .next { s with link := { s.link with sentD := f.take (61 + 11 * h.count.toNat) } } ∧
      ((∀ p, s.link.passD = some p → p.kind ≠ .forwarded ∨ p.number ≠ h.number) →
        exec (.frameForwardUnchanged .d (.completion f)) s =
          .next { s with link := { s.link with sentU := f.take (61 + 11 * h.count.toNat) } })) ∧
  (∀ s : State, s.vdd = false →
    exec .retentionLevelLoss s = .next { s with rtb := { s.rtb with valid := false } })

/-! ## Long operations -/

/-- The completions of long operations. A verified commit writes entry and content and closes its staging; one that
does not verify leaves the entry CORRUPT, staging open, and STORE_FAULT. Erase, protect, STORE_CLEAR and the store
check write their entries, show DONE, and raise STORE_FAULT where a write did not verify or an entry became
CORRUPT. That a commit or another write that does not verify leaves the stored content and the entry's other
fields as they were rests on the model's assumptions 16 and 17. -/
def Obligations.CompletionsWriteTheStore : Prop :=
  (∀ (s : State) (n : Fin 16) (p : Profile) (f : DirState), s.vdd = true →
    s.store.running = some .commit → s.store.register.profile = some n → s.store.work = .commit p f →
    exec (.commitCompletion true) s =
      .next { s with store := { s.store with
        directory := s.store.directory.set n
          { s.store.directory.get n with
            state := .valid, affinity := p.header.affinity, count := p.segments.length,
            label := p.header.label, revision := Nat.min 65535 ((s.store.directory.get n).revision + 1),
            check := checkValue p },
        profiles := s.store.profiles.set n p,
        staging := if s.store.staging.any Staging.committing then none else s.store.staging,
        register := { s.store.register with result := some .ok }, work := .none } } ∧
    ∃ t, exec (.commitCompletion false) s = .next t ∧
      t.store.directory =
        s.store.directory.set n { s.store.directory.get n with state := .corrupt } ∧
      t.store.profiles = s.store.profiles ∧
      t.store.staging = s.store.staging.map (fun g => { g with committing := false }) ∧
      t.store.register = { s.store.register with result := some .writeFailed } ∧
      Logged .storeFault .part (s.cdu.setSeverity .storeFault) s t) ∧
  ((∀ (s : State) (n : Fin 16), s.vdd = true → s.store.running = some .erase →
    s.store.register.profile = some n →
    exec (.eraseCompletion true) s =
      .next { s with store := { s.store with
        directory := s.store.directory.set n
          { s.store.directory.get n with state := .empty, count := 0 },
        register := { s.store.register with result := some .ok }, work := .none } } ∧
    ∃ t, exec (.eraseCompletion false) s = .next t ∧
      t.store.directory =
        s.store.directory.set n { s.store.directory.get n with state := .corrupt } ∧
      t.store.register = { s.store.register with result := some .writeFailed } ∧
      Logged .storeFault .part (s.cdu.setSeverity .storeFault) s t) ∧
  (∀ (s : State) (n : Fin 16) (w r : Bool), s.vdd = true → s.store.running = some .protect →
    s.store.register.profile = some n → s.store.work = .protect w r →
    exec (.protectCompletion true) s =
      .next { s with store := { s.store with
        directory := s.store.directory.set n
          { s.store.directory.get n with
            writeProtected := (s.store.directory.get n).writeProtected || w,
            readProtected := (s.store.directory.get n).readProtected || r },
        register := { s.store.register with result := some .ok }, work := .none } } ∧
    ∃ t, exec (.protectCompletion false) s = .next t ∧
      t.store.directory =
        s.store.directory.set n { s.store.directory.get n with state := .corrupt } ∧
      t.store.register = { s.store.register with result := some .writeFailed } ∧
      Logged .storeFault .part (s.cdu.setSeverity .storeFault) s t) ∧
  (∀ (s : State) (v : BitVec 16), s.vdd = true → s.store.running = some .clear →
    ∃ t, exec (.storeClearCompletion v) s = .next t ∧
      (∀ i, t.store.directory.get i =
        if v.getLsbD i.val then clearedEntry
        else { s.store.directory.get i with state := .corrupt }) ∧
      t.store.register.result =
        (if ∀ i : Fin 16, v.getLsbD i.val = true then some .ok else some .writeFailed) ∧
      ((∃ i : Fin 16, v.getLsbD i.val = false) → (t.cdu.entry .storeFault .part).pending = true) ∧
      ((∀ i : Fin 16, v.getLsbD i.val = true) → t.cdu = s.cdu ∧ t.stations = s.stations)) ∧
  (∀ s : State, s.vdd = true → s.store.running = some .storeCheck →
    ∃ t, exec .storeCheckCompletion s = .next t ∧
      t.store.register = { s.store.register with result := some .ok } ∧
      ∀ i, t.store.directory.get i =
          (if (s.store.directory.get i).state = .writing ∨
              ((s.store.directory.get i).state = .valid ∧
                checkValue (s.store.profiles.get i) ≠ (s.store.directory.get i).check)
            then { s.store.directory.get i with state := .corrupt }
            else s.store.directory.get i) ∧
        (t.store.directory.get i ≠ s.store.directory.get i →
          (t.cdu.entry .storeFault .part).pending = true)))

/-! ## Stop inputs and line programs -/

/-- STOP_LINE and STOP_ALL_ASSERTION: the level is asserted, STOP_LINE logged, and every station covered that can be
halted is halted with that cause (`HaltedBy`): the input's own station, whatever the set severity, and both at STOP_ALL,
each with its own condition at HALT_ALL. At set severity HALT_ALL the input of one station halts the other one too; below
that the other goes on. An input already asserted does nothing. -/
def Obligations.StopInputsHaltTheirStations : Prop :=
  (∀ (s : State) (x : StationId), s.vdd = true → ownStop s.stops x = true →
    exec (.stopLine x) s = .next s) ∧
  (∀ (s : State) (x : StationId), s.vdd = true → ownStop s.stops x = false →
    ∃ t, exec (.stopLine x) s = .next t ∧ ownStop t.stops x = true ∧
      ownStop t.stops x.other = ownStop s.stops x.other ∧ t.stops.all = s.stops.all ∧
      t.link = s.link ∧ t.params = s.params ∧
      Logged .stopLine (.station x) (s.cdu.setSeverity .stopLine) s t ∧
      ((s.st x).seq.state.haltable = true → Settled (s.st x) →
        HaltedBy x (.cond .stopLine) s t) ∧
      (s.cdu.setSeverity .stopLine = .haltAll → (s.st x.other).seq.state.haltable = true →
        Settled (s.st x.other) → HaltedBy x.other (.cond .stopLine) s t) ∧
      (s.cdu.setSeverity .stopLine ≠ .haltAll →
        (t.st x.other).seq.state = (s.st x.other).seq.state ∧
        (t.st x.other).seq.haltCause = (s.st x.other).seq.haltCause ∧
        (t.st x.other).seq.degraded = (s.st x.other).seq.degraded ∧
        (t.st x.other).eng = (s.st x.other).eng) ∧
      ((s.st x).seq.state.active = false → QuenchIdle (s.st x) → (t.st x).seq = (s.st x).seq)) ∧
  (∀ s : State, s.vdd = true → s.stops.all = true → exec .stopAllAssertion s = .next s) ∧
  (∀ s : State, s.vdd = true → s.stops.all = false →
    ∃ t, exec .stopAllAssertion s = .next t ∧ t.stops = { s.stops with all := true } ∧
      t.link = s.link ∧ t.params = s.params ∧
      ∀ x, Logged .stopLine (.station x) .haltAll s t ∧
        ((s.st x).seq.state.haltable = true → Settled (s.st x) →
          HaltedBy x (.cond .stopLine) s t) ∧
        ((s.st x).seq.state.active = false → QuenchIdle (s.st x) → (t.st x).seq = (s.st x).seq))

/-- PROGRAM_STEP_EXPIRY: the step's three actions change the lines together; steps without a delay behind it act at
once; then the program waits at the next step that has a delay, or ends; with PERMIT off no power is held. The end of
the HALT program in HALTING, and of the FINISH program in FINISHING, ends the scan (`ScanEnded`), the result's end
cycle the current count; at the end of the START program in ARMING a station that is ready (`ArmReady`) enters
APPROACH. A program that does not end, or whose end meets none of these, leaves the station but for engine and power
unit. -/
def Obligations.ProgramStepActsOnTheLines : Prop :=
  ∀ (s : State) (x : StationId) (p : Program) (i n : Nat), s.vdd = true →
    (s.st x).eng.timer = .running n → (s.st x).eng.running = some p → (s.st x).eng.step = some i →
    i ≤ 7 → Settled (s.st x) → PowerLaw (s.st x) →
    ∃ t, exec (.programStepExpiry x) s = .next t ∧ t.st x.other = s.st x.other ∧
      t.link = s.link ∧ t.cdu = s.cdu ∧ RunsFrom s x p i (some i) (t.st x).eng ∧
      ((t.st x).eng.permit = false →
        (t.st x).pcu.held.setpoint = 0 ∧ (t.st x).pcu.held.run = false) ∧
      ((t.st x).eng.running = none →
        (p = .halt → (s.st x).seq.state = .halting →
          ScanEnded x (match (s.st x).seq.haltCause with
            | some .abortCommand | some .linkReset => .idle
            | some (.cond _) | none => .faulted) s t ∧
          (t.st x).result =
            (s.st x).result.map fun r => { r with endCycle := some s.link.count }) ∧
        (p = .finish → (s.st x).seq.state = .tail → (s.st x).seq.phase = some .finishing →
          ScanEnded x .complete s t ∧ (t.st x).seq.phase = none ∧
          (t.st x).result = (s.st x).result.map fun r =>
            { r with
              outcome := if (s.st x).seq.degraded = true ∨ (s.st x).seq.disturbed = true
                then .degraded else .good,
              endCycle := some s.link.count }) ∧
        (∀ k, p = .start → (s.st x).seq.state = .arming → (s.st x).seq.profile = some k →
          ArmReady s x k →
          (t.st x).seq.state = .approach ∧ (t.st x).seq.armTimer = .stopped ∧
          (t.st x).seq.travel =
            { mode := .move, speed := (s.st x).par.approachSpeed,
              direction := if k.header.direction = .down then .decreasing else .increasing } ∧
          (t.st x).seq.index = (s.st x).seq.index ∧ (t.st x).result = (s.st x).result ∧
          (t.st x).sar = (s.st x).sar ∧ t.store = s.store ∧
          t.rtb.records.get x = some
            { profile := k.number, revision := k.revision, datum := (s.st x).seq.datum,
              index := (s.st x).seq.index, position := lastShaft (s.st x), cycle := s.link.count,
              state := .approach })) ∧
      ((t.st x).eng.running ≠ none ∨
          ¬(p = .halt ∧ (s.st x).seq.state = .halting ∨
            p = .finish ∧ (s.st x).seq.state = .tail ∧ (s.st x).seq.phase = some .finishing ∨
            p = .start ∧ (s.st x).seq.state = .arming ∧
              ∃ k, (s.st x).seq.profile = some k ∧ ArmReady s x k) →
        t.st x = { s.st x with eng := (t.st x).eng, pcu := (t.st x).pcu } ∧ t.rtb = s.rtb ∧
          t.store = s.store)

/-! ## The cycle link -/

/-- CYCLE_ARRIVAL takes the snapshot of the held values, and drops an early return that was kept for a frame before
it (assumption 38); RETURN_ARRIVAL and EARLY_RETURN take the STATUS payload and bring a written ATTENTION_LEVEL into
force; nothing else changes. A wait that a frame at port U overtakes, or whose return timer expires, closes with
RETURN_TIMEOUT, its reply dropped, and every feedback signal MISSING; the snapshot of a CYCLE frame that overtakes is
that of the values held after it has closed. The eight records are updated as missed, and eight MISSING samples are
handed to trackers, power command units and schedulers, in an order that is a free value (assumption 6). -/
def Obligations.ArrivalsTakeTheirSnapshotAndLostReturnsClose : Prop :=
  (∀ (s : State) (k : Byte) (n : CycleNumber), Ready s → s.link.wait = none →
    exec (.cycleArrival k n) s =
      .next { s with link := { s.link with
        passU := some { number := n, map := s.link.map, snapshot :=
          { a := { power := (s.st .a).pcu.held, quench := (s.st .a).qsc.held,
                   quenchStale := (s.st .a).qsc.stale, travel := (s.st .a).seq.travelSet,
                   travelStale := (s.st .a).seq.travelStale },
            b := { power := (s.st .b).pcu.held, quench := (s.st .b).qsc.held,
                   quenchStale := (s.st .b).qsc.stale, travel := (s.st .b).seq.travelSet,
                   travelStale := (s.st .b).seq.travelStale } } },
        ended := none } }) ∧
  (∀ (s : State) (n : CycleNumber) (w : ReturnWait) (a : Nat), Ready s → s.link.wait = some w →
    w.taken = false → w.timer = .running a → w.number = n →
    exec (.returnArrival n) s =
      .next { s with link := { s.link with
        wait := some { w with taken := true, timer := .stopped },
        attentionLevel := s.params.attentionLevel,
        passD := some { number := n, map := s.link.map, status := statusPayload s,
                        kind := .taken } } }) ∧
  (∀ (s : State) (n : CycleNumber) (p : PassageU), Ready s → s.link.passU = some p → p.number = n →
    exec (.earlyReturn n) s =
      .next { s with link := { s.link with
        attentionLevel := s.params.attentionLevel,
        passD := some { number := n, map := s.link.map, status := statusPayload s,
                        kind := .early } } }) ∧
  (∀ (s : State) (k : Byte), Ready s → s.link.wait = none → exec (.linkResetArrival k) s = .next s) ∧
  (∀ (s : State) (w : ReturnWait) (c : Instr), Ready s → s.link.wait = some w →
    (∃ k n, c = .cycleArrival k n) ∨ (∃ k, c = .linkResetArrival k ∧ k ≠ kindCycle) ∨
      (c = .returnTimeout ∧ w.timer.isRunning = true) →
    ∃ t, exec c s = .next t ∧ LostReturn s t ∧ SyncKept s t ∧
      t.params = s.params ∧ t.stops = s.stops ∧
      Logged .returnTimeout .part (s.cdu.setSeverity .returnTimeout) s t ∧
      (∃ v, ClosedWith s.link.map w.count capturesLost (raise .returnTimeout .part none s) v ∧
        { t with link := { t.link with passU := v.link.passU, ended := v.link.ended } } = v) ∧
      (∀ k n, c = .cycleArrival k n → t.link.ended = none ∧
        t.link.passU = some { number := n, map := s.link.map, snapshot :=
          { a := { power := (t.st .a).pcu.held, quench := (t.st .a).qsc.held,
                   quenchStale := (t.st .a).qsc.stale, travel := (t.st .a).seq.travelSet,
                   travelStale := (t.st .a).seq.travelStale },
            b := { power := (t.st .b).pcu.held, quench := (t.st .b).qsc.held,
                   quenchStale := (t.st .b).qsc.stale, travel := (t.st .b).seq.travelSet,
                   travelStale := (t.st .b).seq.travelStale } } }) ∧
      (c = .returnTimeout ∨ (∃ k, c = .linkResetArrival k) →
        t.link.passU = s.link.passU ∧ t.link.ended = s.link.ended)) ∧
  (OnceEach capturesLost ∧
    ∀ x f k, ({ station := x, signal := f, capture := k } : Captured) ∈ capturesLost ↔ k = .lost) ∧
  (∀ (s : State) (m : SlotMap) (c : Cycle) (x : StationId) (f : Feedback),
    recordOne m c s { station := x, signal := f, capture := .lost } = { s with link := { s.link with
      samples := s.link.samples.set x (modSample f missed (s.link.samples.get x)) } }) ∧
  (∀ (s : State) (k : RetuneMarks) (c : Cycle) (x : StationId) (body : PowerBody), body = .missing →
    handOne k c s { station := x, signal := .position, capture := .lost } =
      positionHanded x { cycle := c, body := .missing } s ∧
    handOne k c s { station := x, signal := .powerActual, capture := .lost } =
      powerTaken x (retuneMark k x) body s ∧
    handOne k c s { station := x, signal := .quenchActual, capture := .lost } =
      quenchHanded x { cycle := c, body := .missing } s ∧
    handOne k c s { station := x, signal := .temperature, capture := .lost } =
      temperatureHanded x { cycle := c, body := .missing } s)

/-- CYCLE_COMPLETION in UP: the six steps of R150, in their order, under the map of the frame's arrival. The count
advances by the difference of the numbers, a difference other than 1 is CYCLE_GAP, supervision restarts. The output run
of each bound setpoint signal is set or cleared by its slot, SLOT_MISSING raised where it begins. The POWER_SET of the
snapshot becomes the last sent one and enters the sent history. A usable CONTROL slot is carried out as the run command
of each station, A's first (assumption 59), or adopted; an unusable one that is required sets its run and raises
SLOT_MISSING for both. A request to the part is answered into the held reply, one longer than 48 bytes with
BAD_ARGUMENT. The wait for the return opens; an early return that passes is taken, one that came to its end while the
frame still passed closes the wait at once, whatever has come to port D since (assumption 38): a valid one by its
samples, which are handed on, a bad one with every signal MISSING. -/
def Obligations.CycleCompletionInUpCountsAndOpensTheWait : Prop :=
  (∀ (s : State) (frame : List Byte) (h : FrameHeader) (d : Nat), Ready s → goodCycle frame = true →
    headerOf frame = some h →
    (s.link.lastNumber = none ∧ d = 1 ∨
      ∃ k, s.link.lastNumber = some k ∧ d = (if h.number = k then 65536 else (h.number - k).toNat)) →
    (∀ p, s.link.passU = some p → p.number = h.number) →
    ∃ t, exec (.cycleCompletion frame) s = .next t ∧ t.link.state = .up ∧
      t.link.count = s.link.count + BitVec.ofNat 32 d ∧ t.link.lastNumber = some h.number ∧
      t.link.supervision = .running (3 * s.params.cycleTime / 2) ∧ t.link.missed = 0 ∧
      t.link.passU = none ∧
      (s.link.passU = none ∨ (∀ e, s.link.ended = some e → e.number ≠ h.number) →
        ∃ w, t.link.wait = some w ∧ w.number = h.number ∧ w.count = t.link.count ∧
          ((∀ q, s.link.passD = some q → q.kind ≠ .early ∨ q.number ≠ h.number) →
            w.taken = false ∧ w.timer = .running t.params.returnTimeout ∧
            t.link.passD = s.link.passD ∧
            (∀ c, serviceOf frame = some c →
              (¬AddressedHere s.link c → t.link.heldReply = none) ∧
              (AddressedHere s.link c → ∃ r, t.link.heldReply = some r ∧ r.tag = c.tag ∧
                (48 < c.length.toNat → r.status = .badArgument ∧ r.payload = [])))) ∧
          (∀ q, s.link.passD = some q → q.kind = .early → q.number = h.number →
            w.taken = true ∧ w.timer = .stopped ∧
            t.link.passD = some { q with kind := .taken })) ∧
      (∀ p e, s.link.passU = some p → s.link.ended = some e → e.number = h.number →
        t.link.wait = none ∧ t.link.heldReply = none ∧ t.link.ended = none ∧
        ((∀ q, s.link.passD = some q → q.kind ≠ .early) → t.link.passD = s.link.passD)) ∧
      (∀ p x, s.link.passU = some p →
        (t.st x).pcu.lastSent = (p.snapshot.get x).power.setpoint ∧
        (t.st x).pcu.history.getLast? =
          some ((p.snapshot.get x).power.setpoint, t.link.count)) ∧
      (d ≠ 1 → (t.cdu.entry .cycleGap .part).pending = true ∨
        ∃ v, serviceOf frame = some v ∧ (v.code = 22 ∨ v.code = 23))) ∧
  (∀ (s : State) (frame : List Byte) (h : FrameHeader) (p : PassageU), Ready s →
    goodCycle frame = true → headerOf frame = some h → s.link.passU = some p → p.number = h.number →
    exec (.cycleCompletion frame) s = .next (closeEnded h.number (openWait h.number
      (takeRequest frame (takeControl p.map frame (handBackAll p (checkOutputs p.map frame
        (countUp h.number { s with link :=
          { s.link with sentD := outboundSent s.link p frame, passU := none } })))))))) ∧
  ((∀ (s t : State) (m : SlotMap) (frame : List Byte), t = checkOutputs m frame s →
    { t.link with setRuns := s.link.setRuns } = s.link ∧
    ∀ x, (∀ p, (bound m (.setpoint x p) = none →
          runOf p (t.link.setRuns.get x) = runOf p (s.link.setRuns.get x)) ∧
        (∀ e, bound m (.setpoint x p) = some e →
          runOf p (t.link.setRuns.get x) = (findSlot frame e.slotId).isNone)) ∧
      t.cdu.entry .slotMissing (.station x) =
        if newlyMissing m frame s.link x = [] then s.cdu.entry .slotMissing (.station x)
        else
          { pending := true,
            count := Nat.min 255 ((s.cdu.entry .slotMissing (.station x)).count +
              (newlyMissing m frame s.link x).length),
            lastCycle := some s.link.count, lastSeverity := some (s.cdu.setSeverity .slotMissing) }) ∧
  (∀ (s : State) (p : PassageU) (x : StationId),
    { handBackAll p s with stations := s.stations } = s ∧
    (handBackAll p s).st x = { s.st x with pcu := { (s.st x).pcu with
      lastSent := (p.snapshot.get x).power.setpoint,
      history := (if (s.st x).pcu.history.length < 3 then (s.st x).pcu.history
          else (s.st x).pcu.history.drop 1) ++
        [((p.snapshot.get x).power.setpoint, s.link.count)] } }) ∧
  (∀ (m : SlotMap) (frame : List Byte) (p : Vector Byte 8), usableControl m frame = some p ↔
    ∃ e sl, bound m .control = some e ∧ findSlot frame e.slotId = some sl ∧ sl.state = 1 ∧
      (e.writer = 0 ∨ sl.writer = e.writer) ∧ p = sl.payload) ∧
  (∀ (s u : State) (m : SlotMap) (frame : List Byte), Ready s →
    u = { s with link := { s.link with controlRun := false, adoption := false } } →
    (∀ p, usableControl m frame = some p →
      (s.link.adoption = false → ∃ v,
        exec (commandOf .a (controlPart .a p)) u = .next v ∧
        exec (commandOf .b (controlPart .b p)) v = .next (takeControl m frame s)) ∧
      (s.link.adoption = true → (takeControl m frame s).link = u.link ∧
        (takeControl m frame s).cdu = s.cdu ∧
        ∀ x, (takeControl m frame s).st x = { s.st x with seq :=
          { (s.st x).seq with nibble := (controlPart x p).nibble } })) ∧
    (usableControl m frame = none →
      ((∃ e, bound m .control = some e ∧ e.required = true) → s.link.controlRun = false →
        (takeControl m frame s).link = { s.link with controlRun := true } ∧
        ∀ x, Logged .slotMissing (.station x) (s.cdu.setSeverity .slotMissing) s
          (takeControl m frame s)) ∧
      ((∀ e, bound m .control = some e → e.required = false) ∨ s.link.controlRun = true →
        takeControl m frame s = s))) ∧
  (∀ (s u : State) (frame : List Byte), Ready s →
    u = { s with link := { s.link with heldReply := none } } →
    ((∀ c, serviceOf frame = some c → ¬AddressedHere s.link c) → takeRequest frame s = u) ∧
    (∀ c, serviceOf frame = some c → AddressedHere s.link c →
      (48 < c.length.toNat → takeRequest frame s = replied c.tag .badArgument [] s) ∧
      (c.length.toNat ≤ 48 →
        exec (requestOf c.code c.tag (c.payload.take c.length.toNat)) u =
          .next (takeRequest frame s)))) ∧
  (∀ (s u : State) (n : CycleNumber) (e : EndedReturn) (w : ReturnWait),
    s.link.ended = some e → e.number = n → s.link.wait = some w → w.taken = true → w.number = n →
    u = { s with link := { s.link with ended := none } } →
    (goodCycle e.frame = true →
      ClosedWith e.map w.count (capturesOf e.map e.frame) (checkStatus e.map e.frame u)
        (closeEnded n s)) ∧
    (goodCycle e.frame = false → ClosedWith s.link.map w.count capturesLost u (closeEnded n s))))

/-- LINK_UP, which is also the CYCLE_COMPLETION of the third frame in sequence: the link is UP, the output slots are
checked, a usable CONTROL slot of that frame gives the nibbles and no command, and the wait for its return opens. No
value is handed back, and a request in its service channel is not taken, since the frame arrived outside UP (assumption
55): no reply is held, and what a request writes stays. The frame leaves unchanged, but one whose passage began in UP
as that passage rewrites it (assumption 56). -/
def Obligations.ThirdFrameInSequenceBringsTheLinkUp : Prop :=
  ∀ (s : State) (frame : List Byte) (h : FrameHeader), s.vdd = true → goodCycle frame = true →
    headerOf frame = some h → s.link.state = .syncing → s.link.good = 2 →
    s.link.lastNumber = some (h.number - 1) →
    exec (.cycleCompletion frame) s = exec (.linkUp frame) s ∧
    ∃ t, exec (.linkUp frame) s = .next t ∧ t.link.state = .up ∧ t.link.good = 3 ∧
      t.link.count = s.link.count + 1 ∧ t.link.lastNumber = some h.number ∧ t.link.missed = 0 ∧
      (∃ w, t.link.wait = some w ∧ w.number = h.number ∧ w.count = t.link.count) ∧
      (∀ p, usableControl s.link.map frame = some p →
        t.link.adoption = false ∧ ∀ x, (t.st x).seq.nibble = (controlPart x p).nibble) ∧
      (usableControl s.link.map frame = none → t.link.adoption = true) ∧
      (∀ x, (t.st x).seq.commandResult = (s.st x).seq.commandResult) ∧
      t.link.heldReply = none ∧ t.link.map = s.link.map ∧ t.params = s.params ∧
      { t.store with inUse := s.store.inUse } = s.store ∧ t.cdu.severity = s.cdu.severity ∧
      FirstKept s t ∧
      (∀ x, (t.st x).par = (s.st x).par ∧ (t.st x).eng.table = (s.st x).eng.table ∧
        (t.st x).pcu.lastSent = (s.st x).pcu.lastSent ∧
        (t.st x).pcu.history = (s.st x).pcu.history) ∧
      ((∀ p, s.link.passU = some p → p.number ≠ h.number) →
        t.link.sentD = frame.take (61 + 11 * h.count.toNat)) ∧
      (∀ p, s.link.passU = some p → p.number = h.number →
        t.link.sentD = outboundSent s.link p frame) ∧
      ∃ v, v = takeControl s.link.map frame (checkOutputs s.link.map frame { s with link :=
          { s.link with
            state := .up, good := 3, adoption := true, lastNumber := some h.number,
            count := s.link.count + 1, supervision := .running (3 * s.params.cycleTime / 2),
            missed := 0, sentD := t.link.sentD, passU := none, ended := none } }) ∧
        t = openWait h.number { v with link := { v.link with heldReply := none } }

/-- CYCLE_COMPLETION outside UP: the good frames are counted, the count advances, by 65,536 when the number is the
last one again, and supervision restarts. The frame leaves unchanged, but one whose passage began in UP as that
passage rewrites it (assumption 56); its passage is over, and an early return that was kept is forgotten (assumption
38). Nothing else of the part changes, in the link unit or outside it; a PASSIVE part does not act. -/
def Obligations.CycleCompletionOutsideUpOnlySynchronises : Prop :=
  ∀ (s : State) (frame : List Byte) (h : FrameHeader), s.vdd = true → goodCycle frame = true →
    headerOf frame = some h →
    (s.link.state = .passive → exec (.cycleCompletion frame) s = .next s) ∧
    (s.link.state = .down ∨ s.link.state = .lost ∨
        (s.link.state = .syncing ∧ ¬(s.link.good = 2 ∧ s.link.lastNumber = some (h.number - 1))) →
      ∃ t, exec (.cycleCompletion frame) s = .next t ∧ { t with link := s.link } = s ∧
        t.link.state = .syncing ∧
        t.link.good =
          (if s.link.state = .syncing ∧ s.link.lastNumber = some (h.number - 1)
            then s.link.good + 1 else 1) ∧
        t.link.lastNumber = some h.number ∧
        (∀ k, s.link.lastNumber = some k → t.link.count = s.link.count +
          BitVec.ofNat 32 (if h.number = k then 65536 else (h.number - k).toNat)) ∧
        (s.link.lastNumber = none → t.link.count = s.link.count + 1) ∧
        t.link.supervision = .running (3 * s.params.cycleTime / 2) ∧ t.link.missed = 0 ∧
        ((∀ p, s.link.passU = some p → p.number ≠ h.number) →
          t.link.sentD = frame.take (61 + 11 * h.count.toNat)) ∧
        (∀ p, s.link.passU = some p → p.number = h.number →
          t.link.sentD = outboundSent s.link p frame) ∧
        t.link.passU = none ∧ t.link.ended = none ∧
        { t.link with
          state := s.link.state, good := s.link.good, lastNumber := s.link.lastNumber,
          count := s.link.count, supervision := s.link.supervision, missed := s.link.missed,
          sentD := s.link.sentD, passU := s.link.passU, ended := s.link.ended } = s.link)

/-- A frame that leaves port D at its completion in UP is as long as it came, good, and carries in the
slot of each setpoint signal the value held at its arrival, with the part's own address as writer. The POWER_SET
held is the recomputed one after every POSITION sample and every entry of SCANNING and DWELLING: in those states,
PERMIT on and no retune, the smaller of the target by kind and shape and one step beyond the value last handed back,
run while above 0 or on a powered segment; else 0 and no run. The channel request is the one in force, in SWITCH the
retune channel (LOW in DRAIN while it is NONE: assumption 46). The stale mark is the tracker's. -/
def Obligations.ForwardedCycleFrameCarriesTheSetpoints : Prop :=
  (∀ (s : State) (frame : List Byte) (h : FrameHeader) (p : PassageU), Ready s →
    goodCycle frame = true → headerOf frame = some h → s.link.passU = some p → p.number = h.number →
    (∀ i j e f, mapEntry p.map i = some e → mapEntry p.map j = some f → i ≠ j →
      e.slotId ≠ f.slotId ∧ e.signal ≠ f.signal) →
    ∃ t, exec (.cycleCompletion frame) s = .next t ∧ frameGood t.link.sentD = true ∧
      headerOf t.link.sentD = some h ∧ t.link.sentD.length = 61 + 11 * h.count.toNat ∧
      ∀ i x sl e, mapEntry p.map i = some e → findSlot frame e.slotId = some sl →
        (e.signal = .setpoint x .powerSet → ∃ r, findSlot t.link.sentD e.slotId = some r ∧
          r.writer = BitVec.ofNat 8 (s.link.address.getD 0) ∧
          r.state = (if (p.snapshot.get x).power.stale = true then 2 else 1) ∧
          r.payload.toList =
            be16 (BitVec.ofNat 16 (p.snapshot.get x).power.setpoint) ++
              [channelCode (p.snapshot.get x).power.channel,
                if (p.snapshot.get x).power.run = true then 1 else 0, 0, 0, 0, 0]) ∧
        (e.signal = .setpoint x .quenchSet → ∃ r, findSlot t.link.sentD e.slotId = some r ∧
          r.writer = BitVec.ofNat 8 (s.link.address.getD 0) ∧
          r.state = (if (p.snapshot.get x).quenchStale = true then 2 else 1) ∧
          r.payload.toList = [(p.snapshot.get x).quench, 0, 0, 0, 0, 0, 0, 0]) ∧
        (e.signal = .setpoint x .travelSet → ∃ r, findSlot t.link.sentD e.slotId = some r ∧
          r.writer = BitVec.ofNat 8 (s.link.address.getD 0) ∧
          r.state = (if (p.snapshot.get x).travelStale = true then 2 else 1) ∧
          r.payload.toList =
            [if (p.snapshot.get x).travel.mode = .move then 1 else 0,
              if (p.snapshot.get x).travel.direction = .decreasing then 1 else 0] ++
              be32 (BitVec.ofNat 32 (p.snapshot.get x).travel.speed) ++ [0, 0]) ∧
        (e.signal = .control → findSlot t.link.sentD e.slotId = some sl)) ∧
  (∀ (s : State) (x : StationId),
    let v := s.st x
    let u := ((pcuRecompute x s).st x).pcu
    { pcuRecompute x s with stations := s.stations } = s ∧
    (pcuRecompute x s).st x.other = s.st x.other ∧
    { (pcuRecompute x s).st x with pcu := v.pcu } = v ∧
    { u with target := v.pcu.target, rampValue := v.pcu.rampValue, held := v.pcu.held } = v.pcu ∧
    u.held.stale = v.trk.extrapolating ∧
    (∀ c, v.pcu.retune = .switch → v.pcu.retuneChannel = some c → u.held.channel = c) ∧
    (v.pcu.retune ≠ .switch → u.held.channel = if v.pcu.channel = .high then .high else .low) ∧
    (v.seq.state ≠ .scanning → v.seq.state ≠ .dwelling → u.target = 0) ∧
    ((v.seq.state ≠ .scanning ∧ v.seq.state ≠ .dwelling) ∨ v.eng.permit = false ∨
        v.pcu.retune ≠ .none →
      u.held.setpoint = 0 ∧ u.held.run = false) ∧
    ∀ i g, v.seq.state = .scanning ∨ v.seq.state = .dwelling → v.seq.index = some i →
      (s.segments x)[i]? = some g →
      (g.kind = .dwell ∨ (g.kind = .scan ∧ g.shape = .step) → u.target = g.power.toNat) ∧
      (g.kind = .skip → u.target = 0) ∧
      (g.kind = .scan → g.shape = .ramp → u.rampValue = some u.target ∧
        (∀ k p, v.trk.report = some k → k.lookAhead = some p →
          RampValue (s.segments x) i (s.segLength x i) (aheadBy (s.direction x) p g.start.toInt)
            u.target) ∧
        (∀ n, (∀ k, v.trk.report = some k → k.lookAhead = none) → v.pcu.rampValue = some n →
          u.target = n) ∧
        ((∀ k, v.trk.report = some k → k.lookAhead = none) → v.pcu.rampValue = none →
          StartPower (s.segments x) i u.target)) ∧
      (v.eng.permit = true → v.pcu.retune = .none →
        u.held.setpoint = Nat.min u.target
          (v.pcu.lastSent + Nat.max 1 (v.par.rampLimit * s.params.cycleTime / 100000)) ∧
        (u.held.run = true ↔ 0 < u.held.setpoint ∨ (g.kind ≠ .skip ∧ g.power ≠ 0)))) ∧
  (∀ (s : State) (x : StationId),
    (∀ sample, pcuRecompute x (positionHanded x sample s) = positionHanded x sample s) ∧
    (∀ n, n = .scanning ∨ n = .dwelling → pcuRecompute x (enterState x n s) = enterState x n s) ∧
    ∀ value cycle, handBack x value cycle s = modPcu x (fun p => { p with
      lastSent := value,
      history := (if p.history.length < 3 then p.history else p.history.drop 1) ++
        [(value, cycle)] }) s)

/-- FRAME_CHECK at port U and STRAY_RETURN: the condition is logged, and the bad frame advances no count, restarts no
supervision and opens no wait. A stray is decided at its arrival in UP, and raises at its completion in every link
state but PASSIVE, STRAY_RETURN or, when bad, FRAME_CHECK; an early return that ends bad raises FRAME_CHECK while its
outbound frame still passes (assumption 38). In every link state but PASSIVE a bad frame whose passage began in UP
leaves as that passage rewrites it (outside UP: assumption 56), and leaves its early return without a frame: one that
still passes goes on with its check spoiled and raises at its end as a stray does (one cut short: assumption 22), one
that has ended valid raises STRAY_RETURN at once (assumption 38). A frame that arrived at port D outside UP goes on
as received whatever the link has become at its end, also when it is the awaited one: a wait is left as it was, and a
bad one only raises FRAME_CHECK. -/
def Obligations.BadAndStrayFramesOnlyRaise : Prop :=
  (∀ (s : State) (frame : List Byte), s.vdd = true → frameGood frame = false →
    (s.link.state = .passive → exec (.frameCheck .u frame) s = .next s ∧
      exec (.frameCheck .d frame) s = .next s) ∧
    (s.link.state ≠ .passive → ∃ t, exec (.frameCheck .u frame) s = .next t ∧ SyncKept s t ∧
      t.link.supervision = s.link.supervision ∧
      (t.link.wait = s.link.wait ∨ t.link.wait = none) ∧
      t.link.good = (if s.link.state = .syncing then 0 else s.link.good) ∧
      Logged .frameCheck .part (s.cdu.setSeverity .frameCheck) s t)) ∧
  (∀ (s : State) (frame : List Byte) (h : FrameHeader), Ready s → frameGood frame = true →
    headerOf frame = some h → s.link.passD = none →
    (h.kind = kindReset ∨ (s.link.wait = none ∧ s.link.passU = none)) →
    ∃ t, exec (.strayReturn (.completion frame)) s = .next t ∧ t.link = s.link ∧ t.params = s.params ∧
      Logged .strayReturn .part (s.cdu.setSeverity .strayReturn) s t) ∧
  (∀ (s : State) (kind : Byte) (n : CycleNumber), Ready s →
    kind ≠ kindCycle ∨ (s.link.wait = none ∧ s.link.passU = none) →
    exec (.strayReturn (.arrival kind n)) s = .next { s with link := { s.link with
      passD := some { number := n, map := s.link.map, status := [], kind := .stray } } }) ∧
  (∀ (s : State) (frame : List Byte) (h : FrameHeader) (p : PassageD), s.vdd = true →
    s.link.state ≠ .passive → headerOf frame = some h → s.link.passD = some p →
    p.number = h.number → p.kind = .stray →
    (frameGood frame = false →
      exec (.frameCheck .d frame) s = exec (.strayReturn (.completion frame)) s) ∧
    ∃ t, exec (.strayReturn (.completion frame)) s = .next t ∧
      t.link = { s.link with passD := none } ∧ t.params = s.params ∧
      (frameGood frame = true →
        Logged .strayReturn .part (s.cdu.setSeverity .strayReturn) s t) ∧
      (frameGood frame = false →
        Logged .frameCheck .part (s.cdu.setSeverity .frameCheck) s t)) ∧
  (∀ (s : State) (frame : List Byte) (h : FrameHeader) (p : PassageD) (q : PassageU),
    s.vdd = true → s.link.state ≠ .passive → headerOf frame = some h → s.link.passD = some p →
    p.number = h.number → p.kind = .early → s.link.passU = some q → q.number = h.number →
    frameGood frame = false →
    ∃ t, exec (.frameCheck .d frame) s = .next t ∧ SyncKept s t ∧
      t.link.passD = none ∧ t.link.passU = s.link.passU ∧
      t.link.ended = some { number := p.number, map := p.map, frame := frame } ∧
      t.link.wait = s.link.wait ∧ Logged .frameCheck .part (s.cdu.setSeverity .frameCheck) s t) ∧
  (∀ (s : State) (kind : Byte) (n : CycleNumber), s.vdd = true →
    exec (.frameForwardUnchanged .u (.arrival kind n)) s = .next s ∧
    (s.link.state = .down ∨ s.link.state = .syncing ∨ s.link.state = .lost →
      exec (.frameForwardUnchanged .d (.arrival kind n)) s = .next { s with link := { s.link with
        passD := some { number := n, map := s.link.map, status := [], kind := .forwarded } } })) ∧
  (∀ (s : State) (frame : List Byte) (h : FrameHeader) (p : PassageD),
    s.vdd = true → s.link.state ≠ .passive → headerOf frame = some h → s.link.passD = some p →
    p.number = h.number → p.kind = .forwarded →
    (frameGood frame = true → exec (.frameForwardUnchanged .d (.completion frame)) s =
      .next { s with link := { s.link with
        sentU := frame.take (61 + 11 * h.count.toNat), passD := none } }) ∧
    (frameGood frame = false → ∃ t, exec (.frameCheck .d frame) s = .next t ∧
      t.link = { s.link with sentU := frame.take (61 + 11 * h.count.toNat), passD := none } ∧
      t.params = s.params ∧ Logged .frameCheck .part (s.cdu.setSeverity .frameCheck) s t)) ∧
  (∀ (s : State) (frame : List Byte) (h : FrameHeader) (p : PassageU), s.vdd = true →
    s.link.state ≠ .passive → frameGood frame = false → headerOf frame = some h →
    s.link.passU = some p → p.number = h.number →
    ∃ t, exec (.frameCheck .u frame) s = .next t ∧ t.link.passU = none ∧ t.link.ended = none ∧
      t.link.sentD = outboundSent s.link p frame ∧ t.link.wait = s.link.wait ∧
      t.link.passD = (s.link.passD.map fun q =>
        if q.kind = .early ∧ q.number = h.number then { q with kind := .orphan } else q) ∧
      (∀ e, s.link.ended = some e → e.number = h.number → frameGood e.frame = true →
        Logged .strayReturn .part (s.cdu.setSeverity .strayReturn) s t) ∧
      ((∀ e, s.link.ended = some e → e.number ≠ h.number ∨ frameGood e.frame = false) →
        t.cdu.entry .strayReturn .part = s.cdu.entry .strayReturn .part)) ∧
  (∀ (s : State) (frame : List Byte) (h : FrameHeader) (q : PassageD) (sent : List Byte),
    s.vdd = true → s.link.state ≠ .passive → headerOf frame = some h → s.link.passD = some q →
    q.number = h.number → q.kind = .orphan →
    sent = forwardFrame (ownByte s.link) (statusWrites q) none frame →
    (frameGood frame = false →
      exec (.frameCheck .d frame) s = exec (.strayReturn (.completion frame)) s) ∧
    ∃ t, exec (.strayReturn (.completion frame)) s = .next t ∧ t.params = s.params ∧
      t.link = { s.link with
        passD := none
        sentU := if frameLength h.count ≤ frame.length then spoiled sent else sent } ∧
      (frameGood frame = true →
        Logged .strayReturn .part (s.cdu.setSeverity .strayReturn) s t) ∧
      (frameGood frame = false →
        Logged .frameCheck .part (s.cdu.setSeverity .frameCheck) s t))

/-- LINK_RESET: SYNCING, the unit's own state as after power-on, every output run cleared, the map and the own
address kept; staging closed and the long operation kept; both trackers cleared, both sent histories emptied, every
station that can be halted halted with cause LINK_RESET (`HaltedBy`), HALTING while its HALT program runs and IDLE when
it has ended. That the halts come before the clearing is the model's choice (assumption 51). -/
def Obligations.LinkResetBringsSyncing : Prop :=
  ∀ (s : State) (frame : List Byte), s.vdd = true → goodReset frame = true →
    (s.link.state = .passive → exec (.linkReset frame) s = .next s) ∧
    (s.link.state ≠ .passive → ∃ t, exec (.linkReset frame) s = .next t ∧
      t.link.state = .syncing ∧ t.link.good = 0 ∧ t.link.missed = 0 ∧ t.link.adoption = false ∧
      t.link.supervision = .stopped ∧ t.link.wait = none ∧ t.link.heldReply = none ∧
      t.link.samples = Pair.both resetSamples ∧ t.link.map = s.link.map ∧
      t.link.address = s.link.address ∧ t.link.controlRun = false ∧ t.link.statusRun = false ∧
      (∀ x, (t.link.setRuns.get x).power = false ∧ (t.link.setRuns.get x).quench = false ∧
        (t.link.setRuns.get x).travel = false) ∧
      t.link.count = s.link.count ∧ t.link.lastNumber = s.link.lastNumber ∧
      t.store.staging = none ∧ t.store.register = s.store.register ∧ t.store.work = s.store.work ∧
      t.store.directory = s.store.directory ∧ t.store.profiles = s.store.profiles ∧
      t.params = s.params ∧ t.stops = s.stops ∧ t.cdu.severity = s.cdu.severity ∧
      ∀ x, (t.st x).trk = clearedTracker ∧ (t.st x).pcu.history = [] ∧
        (s.link.wait = none → (s.st x).seq.state.haltable = true → Settled (s.st x) →
          HaltedBy x .linkReset s t) ∧
        (s.link.wait = none → Sound s → (s.st x).seq.state.haltable = false →
          (t.st x).seq = (s.st x).seq))

/-- RETURN_COMPLETION, and FRAME_CHECK for a bad one: a taken return closes its wait and drops the reply; a valid one
makes the samples of its usable slots FRESH and of every other signal MISSING (a bound slot that is not in the frame,
not VALID, of another writer or out of its range is MISSING in the frame: its run is set when it is required, and
SLOT_MISSING raised when the run was clear), a bad one makes every signal MISSING. The eight samples are then handed to
trackers, power command units and schedulers, in an order that is a free value (assumption 6); whether a POWER_ACTUAL
sample is examined for a retune is assumption 41, when it is judged assumption 47. The frame leaves port U as long as
it came, with the STATUS bytes formed at its arrival in the STATUS slot and the held reply in the service channel, all
else as received; good if it was valid, bad if it was bad. A STATUS slot that is not in it sets the run, and raises
SLOT_MISSING for both stations when the run was clear, before the samples (assumption 52), A before B (assumption 59).
One whose wait is over only leaves, its service channel as it came: a reply held since belongs to a later wait
(assumption 21). -/
def Obligations.TakenReturnClosesItsWait : Prop :=
  (∀ (s : State) (frame : List Byte) (h : FrameHeader) (p : PassageD), Ready s →
    goodCycle frame = true → headerOf frame = some h → s.link.passD = some p →
    p.number = h.number → p.kind = .taken →
    (∀ w, s.link.wait = some w → w.taken = false ∨ w.number ≠ h.number) →
    ∃ sent, exec (.returnCompletion frame) s =
        .next { s with link := { s.link with sentU := sent, passD := none } } ∧
      ∀ u, p.status = statusPayload u →
        frameGood sent = true ∧ headerOf sent = some h ∧ serviceOf sent = serviceOf frame ∧
        ∀ id, (∀ e, bound p.map .status = some e → e.slotId ≠ id) →
          findSlot sent id = findSlot frame id) ∧
  (∀ (m : SlotMap) (frame : List Byte), OnceEach (capturesOf m frame) ∧
    ∀ x f k, ({ station := x, signal := f, capture := k } : Captured) ∈ capturesOf m frame ↔
      ClassedAs m frame x f k) ∧
  (∀ p : Vector Byte 8, payloadInRange .position p = true ∧
    (payloadInRange .powerActual p = true ↔ p[2].toNat ≤ 2 ∧ p[3].toNat ≤ 4) ∧
    (payloadInRange .quenchActual p = true ↔ p[1].toNat ≤ 1) ∧
    (payloadInRange .temperature p = true ↔ (word16 p[0] p[1]).toNat ≤ 1400 ∧ p[2].toNat ≤ 1)) ∧
  (∀ (s v : State) (m : SlotMap) (frame : List Byte),
    (bound m .status = none → checkStatus m frame s = s) ∧
    (∀ e, bound m .status = some e →
      v = { s with link := { s.link with statusRun := (findSlot frame e.slotId).isNone } } →
      (findSlot frame e.slotId = none → s.link.statusRun = false → checkStatus m frame s =
        raise .slotMissing (.station .b) none (raise .slotMissing (.station .a) none v)) ∧
      ((findSlot frame e.slotId).isSome = true ∨ s.link.statusRun = true →
        checkStatus m frame s = v))) ∧
  (∀ (s t : State) (m : SlotMap) (c : Cycle) (frame : List Byte),
    t = (capturesOf m frame).foldl (recordOne m c) s →
    { t.link with samples := s.link.samples } = s.link ∧
    ∀ x, t.cdu.entry .slotMissing (.station x) =
      if newlyLost m frame s.link x = [] then s.cdu.entry .slotMissing (.station x)
      else
        { pending := true,
          count := Nat.min 255 ((s.cdu.entry .slotMissing (.station x)).count +
            (newlyLost m frame s.link x).length),
          lastCycle := some s.link.count, lastSeverity := some (s.cdu.setSeverity .slotMissing) }) ∧
  (∀ (s : State) (k : RetuneMarks) (c : Cycle) (q : Captured),
    (∀ p, q.capture = .fresh p → payloadInRange q.signal p = true) →
    (q.signal = .position → ∃ b, PositionIn q.capture b ∧
      handOne k c s q = positionHanded q.station { cycle := c, body := b } s) ∧
    (q.signal = .powerActual → ∃ b, PowerIn q.capture b ∧
      handOne k c s q = powerTaken q.station (retuneMark k q.station) b s) ∧
    (q.signal = .quenchActual → ∃ b, QuenchIn q.capture b ∧
      handOne k c s q = quenchHanded q.station { cycle := c, body := b } s) ∧
    (q.signal = .temperature → ∃ b, TemperatureIn q.capture b ∧
      handOne k c s q = temperatureHanded q.station { cycle := c, body := b } s)) ∧
  (∀ (s : State) (k : RetuneMarks) (c : Cycle) (all rest : List Captured) (q : Captured),
    handFrom k c all [] s = s ∧
    ((q.signal = .quenchActual ∨ q.signal = .temperature ∨ ∃ r ∈ rest, r.station = q.station ∧
        (r.signal = .position ∨ r.signal = .powerActual)) →
      handFrom k c all (q :: rest) s = handFrom k c all rest (handOne k c s q)) ∧
    (∀ cap, q.signal = .position ∨ q.signal = .powerActual →
      (∀ r ∈ rest, r.station = q.station → r.signal ≠ .position ∧ r.signal ≠ .powerActual) →
      OnceEach all →
      ({ station := q.station, signal := .powerActual, capture := cap } : Captured) ∈ all →
      (∀ p, cap = .fresh p → payloadInRange .powerActual p = true) →
      ∃ b, PowerIn cap b ∧ handFrom k c all (q :: rest) s = handFrom k c all rest
        (powerJudged q.station { cycle := c, body := b } (handOne k c s q)))) ∧
  ∀ (s : State) (frame : List Byte) (h : FrameHeader) (w : ReturnWait) (p : PassageD), Ready s →
    headerOf frame = some h → s.link.wait = some w → w.taken = true → w.number = h.number →
    s.link.passD = some p → p.number = h.number → p.kind = .taken →
    (goodCycle frame = true → ∃ t, exec (.returnCompletion frame) s = .next t ∧ SyncKept s t ∧
      ClosedWith p.map w.count (capturesOf p.map frame) (checkStatus p.map frame { s with link :=
        { s.link with sentU := t.link.sentU, passD := none } }) t ∧
      t.link.wait = none ∧ t.link.heldReply = none ∧ t.link.passD = none ∧
      t.link.supervision = s.link.supervision ∧
      (∀ u, p.status = statusPayload u → (∀ r, s.link.heldReply = some r → r.payload.length ≤ 48) →
        frameGood t.link.sentU = true ∧ headerOf t.link.sentU = some h ∧
        t.link.sentU.length = 61 + 11 * h.count.toNat ∧
        (∀ e, bound p.map .status = some e → (findSlot frame e.slotId).isSome = true →
          ∃ sl, findSlot t.link.sentU e.slotId = some sl ∧ sl.state = 1 ∧
            sl.writer = BitVec.ofNat 8 (s.link.address.getD 0) ∧
            StatusBytes u .a sl.payload[0] sl.payload[1] sl.payload[2] sl.payload[3] ∧
            StatusBytes u .b sl.payload[4] sl.payload[5] sl.payload[6] sl.payload[7]) ∧
        (∀ id, (∀ e, bound p.map .status = some e → e.slotId ≠ id) →
          findSlot t.link.sentU id = findSlot frame id) ∧
        (s.link.heldReply = none → serviceOf t.link.sentU = serviceOf frame) ∧
        (∀ r, s.link.heldReply = some r → serviceOf t.link.sentU =
          some { target := 0, direction := 1, tag := r.tag, code := replyCode r.status,
                 length := BitVec.ofNat 8 r.payload.length,
                 payload := r.payload ++ List.replicate (48 - r.payload.length) 0 })) ∧
      (bound p.map .status = none → t.link.statusRun = s.link.statusRun) ∧
      (∀ e, bound p.map .status = some e →
        t.link.statusRun = (findSlot frame e.slotId).isNone ∧
        (findSlot frame e.slotId = none → s.link.statusRun = false →
          ∀ x, (t.cdu.entry .slotMissing (.station x)).pending = true)) ∧
      ∀ x f, (bound p.map (.feedback x f) = none →
          sampleOf f (t.link.samples.get x) = missed (sampleOf f (s.link.samples.get x))) ∧
        (∀ e sl, bound p.map (.feedback x f) = some e → findSlot frame e.slotId = some sl →
          sl.state = slotValid → (e.writer = 0 ∨ sl.writer = e.writer) →
          payloadInRange f sl.payload = true →
          sampleOf f (t.link.samples.get x) =
            { value := some sl.payload, cycle := w.count, fresh := true, missCount := 0,
              missRun := false }) ∧
        (∀ e, bound p.map (.feedback x f) = some e →
          (findSlot frame e.slotId = none ∨ ∃ sl, findSlot frame e.slotId = some sl ∧
            (sl.state ≠ slotValid ∨ (e.writer ≠ 0 ∧ sl.writer ≠ e.writer) ∨
              payloadInRange f sl.payload = false)) →
          sampleOf f (t.link.samples.get x) =
            { missed (sampleOf f (s.link.samples.get x)) with
              missRun := (sampleOf f (s.link.samples.get x)).missRun || e.required } ∧
          (e.required = true → (sampleOf f (s.link.samples.get x)).missRun = false →
            (t.cdu.entry .slotMissing (.station x)).pending = true))) ∧
    (frameGood frame = false → ∃ t, exec (.frameCheck .d frame) s = .next t ∧ SyncKept s t ∧
      LostReturn s t ∧ t.link.passD = none ∧
      ClosedWith s.link.map w.count capturesLost (raise .frameCheck .part none { s with link :=
        { s.link with sentU := t.link.sentU, passD := none } }) t ∧
      (∀ u, p.status = statusPayload u → (∀ r, s.link.heldReply = some r → r.payload.length ≤ 48) →
        frameGood t.link.sentU = false) ∧
      Logged .frameCheck .part (s.cdu.setSeverity .frameCheck) s t)

/-- SUPERVISION_EXPIRY in UP counts a missed cycle and raises CYCLE_MISSED, no more; at LINK_LOSS_COUNT it is
LINK_LOST: the link is lost, the wait closed and the reply dropped, and HALT_ALL halts both stations (`HaltedBy`), with
cause LINK_LOST, or CYCLE_MISSED where that, raised before it, is at ABORT or HALT_ALL. In SYNCING it restarts the
count of good frames, and the timer with CYCLE_TIME (assumption 23). That LINK_LOST below the limit changes nothing is
the model's choice (assumption 1). -/
def Obligations.MissedCyclesLoseTheLink : Prop :=
  (∀ (s : State) (a : Nat), Ready s → s.link.supervision = .running a →
    s.link.missed + 1 < s.params.linkLossCount →
    exec .linkLost s = .next s ∧
    ∃ t, exec .supervisionExpiry s = .next t ∧
      t.link = { s.link with missed := Nat.min 16 (s.link.missed + 1),
                             supervision := .running s.params.cycleTime } ∧
      t = { raise .cycleMissed .part none s with link := t.link } ∧
      Logged .cycleMissed .part (s.cdu.setSeverity .cycleMissed) s t) ∧
  (∀ (s : State) (a : Nat), Ready s → s.link.supervision = .running a →
    s.params.linkLossCount ≤ s.link.missed + 1 → SeverityLaw s →
    exec .linkLost s = exec .supervisionExpiry s ∧
    ∃ t, exec .linkLost s = .next t ∧ t.link.state = .lost ∧ t.link.supervision = .stopped ∧
      t.link.wait = none ∧ t.link.heldReply = none ∧ t.link.count = s.link.count ∧
      t.link.map = s.link.map ∧ t.link.samples = s.link.samples ∧
      Logged .cycleMissed .part (s.cdu.setSeverity .cycleMissed) s t ∧
      Logged .linkLost .part .haltAll s t ∧
      ∀ x, (s.st x).seq.state.haltable = true → Settled (s.st x) →
        HaltedBy x (.cond (if 2 ≤ (s.cdu.setSeverity .cycleMissed).code then .cycleMissed
          else .linkLost)) s t) ∧
  (∀ (s : State) (a : Nat), s.vdd = true → s.link.state = .syncing → s.link.supervision = .running a →
    exec .supervisionExpiry s =
      .next { s with link := { s.link with good := 0, supervision := .running s.params.cycleTime } })

/-! ## Conditions raised by timers and samples -/

/-- A POSITION sample of an active station. Within MAX_STEP of the prediction, or with no last accepted sample, it is
accepted: it becomes the last accepted sample and the estimate, the velocity is its difference to the last one over
their time apart, and the counts of misses and the runs are cleared. Farther away it is rejected: flags kept, the
estimate carried forward by the velocity, EXTRAPOLATING set, the miss counted, POSITION_JUMP once per run. A MISSING
one is a miss too. POSITION_STALE comes once per run, at STALE_LIMIT or at once under STRICT. AXIS_FAULT, REVERSAL
(behind the farthest reached) and FOLLOWING come once per run too, each where it is tested. At rest a sample is
followed without judging, the sample before it kept as it was (assumption 36). The report has shaft coordinate,
look-ahead and quench-ring position and standstill. -/
def Obligations.TrackerJudgesEachSample : Prop :=
  (∀ (v : Station) (ct : Nat) (c : Cycle) (p : BitVec 32) (f : AxisFlags),
    v.seq.state.active = true →
    (∀ l, v.trk.last = some l → (p.toInt - (l.position +
      (v.trk.velocity * (((c - l.cycle).toNat * ct : Nat) : Int)).tdiv 1000000)).natAbs ≤ v.par.maxStep) →
    let r := judge ct v { cycle := c, body := .fresh p f }
    r.1.last = some { position := p.toInt, cycle := c } ∧ r.1.previous = v.trk.last ∧
      r.1.estimate = some p.toInt ∧ r.1.extrapolating = false ∧ r.1.missCount = 0 ∧
      r.1.jumpRun = false ∧ r.1.staleRun = false ∧ r.1.flags = some f ∧
      r.1.homedSeen = (v.trk.homedSeen || f.homed) ∧
      r.1.enabledSeen = (v.trk.enabledSeen || f.enabled) ∧
      (v.trk.last = none → r.1.velocity = v.trk.velocity ∧ r.1.established = v.trk.established) ∧
      (∀ l, v.trk.last = some l → (c - l.cycle).toNat * ct ≠ 0 → r.1.established = true ∧
        r.1.velocity =
          ((p.toInt - l.position) * 1000000).tdiv (((c - l.cycle).toNat * ct : Nat) : Int)) ∧
      ∀ a ∈ r.2, a.1 ≠ .positionJump ∧ a.1 ≠ .positionStale) ∧
  (∀ (v : Station) (ct : Nat) (c : Cycle) (body : PositionBody) (r : Tracker × List Ask),
    v.seq.state.active = true → r = judge ct v { cycle := c, body := body } →
    (body = .missing ∨ ∃ p f l, body = .fresh p f ∧ v.trk.last = some l ∧
      v.par.maxStep < (p.toInt - (l.position +
        (v.trk.velocity * (((c - l.cycle).toNat * ct : Nat) : Int)).tdiv 1000000)).natAbs) →
    r.1.last = v.trk.last ∧ r.1.previous = v.trk.previous ∧ r.1.velocity = v.trk.velocity ∧
      r.1.established = v.trk.established ∧ r.1.extrapolating = true ∧
      r.1.missCount = Nat.min 255 (v.trk.missCount + 1) ∧
      (v.trk.last = none → r.1.estimate = none) ∧
      (∀ l, v.trk.last = some l → r.1.estimate = some (l.position +
        (v.trk.velocity * (((c - l.cycle).toNat * ct : Nat) : Int)).tdiv 1000000)) ∧
      (body = .missing → r.1.flags = v.trk.flags ∧ r.1.jumpRun = v.trk.jumpRun) ∧
      (∀ p f, body = .fresh p f → r.1.flags = some f ∧ r.1.jumpRun = true) ∧
      ((.positionJump, none) ∈ r.2 ↔ body ≠ .missing ∧ v.trk.jumpRun = false) ∧
      ((.positionStale, some .abort) ∈ r.2 ↔ v.trk.staleRun = false ∧ v.par.strict = true ∧
        v.seq.state.strictState = true) ∧
      ((.positionStale, none) ∈ r.2 ↔ v.trk.staleRun = false ∧
        ¬(v.par.strict = true ∧ v.seq.state.strictState = true) ∧
        Nat.min 255 (v.trk.missCount + 1) = v.par.staleLimit) ∧
      (r.1.staleRun = true ↔ v.trk.staleRun = true ∨
        (v.par.strict = true ∧ v.seq.state.strictState = true) ∨
        Nat.min 255 (v.trk.missCount + 1) = v.par.staleLimit)) ∧
  (∀ (v : Station) (ct : Nat) (c : Cycle) (p : BitVec 32) (f : AxisFlags),
    v.seq.state.active = false →
    judge ct v { cycle := c, body := .missing } = (v.trk, []) ∧
    judge ct v { cycle := c, body := .fresh p f } =
      ({ v.trk with last := some { position := p.toInt, cycle := c }, estimate := some p.toInt,
                    flags := some f, homedSeen := v.trk.homedSeen || f.homed,
                    enabledSeen := v.trk.enabledSeen || f.enabled }, [])) ∧
  (∀ (v : Station) (ct : Nat) (c : Cycle) (body : PositionBody) (r : Tracker × List Ask),
    v.seq.state.active = true → r = judge ct v { cycle := c, body := body } →
    (∀ p f, body = .fresh p f →
      (r.1.axisFaultRun = true ↔ f.driveFault = true ∨ (f.homed = false ∧ v.trk.homedSeen = true) ∨
        (f.enabled = false ∧ v.trk.enabledSeen = true)) ∧
      ((.axisFault, none) ∈ r.2 ↔ r.1.axisFaultRun = true ∧ v.trk.axisFaultRun = false)) ∧
    (body = .missing → r.1.axisFaultRun = v.trk.axisFaultRun ∧ (.axisFault, none) ∉ r.2) ∧
    ((body = .missing ∨ ∃ p f l, body = .fresh p f ∧ v.trk.last = some l ∧
        v.par.maxStep < (p.toInt - (l.position +
          (v.trk.velocity * (((c - l.cycle).toNat * ct : Nat) : Int)).tdiv 1000000)).natAbs) →
      r.1.farthest = v.trk.farthest ∧ r.1.reversalRun = v.trk.reversalRun ∧
      r.1.followingRun = v.trk.followingRun ∧ (.reversal, none) ∉ r.2 ∧ (.following, none) ∉ r.2)) ∧
  (∀ (v : Station) (ct : Nat) (c : Cycle) (p : BitVec 32) (f : AxisFlags) (k : HeldProfile) (x : Int)
    (r : Tracker × List Ask), v.seq.state.active = true → v.seq.profile = some k →
    x = p.toInt - v.seq.datum → r = judge ct v { cycle := c, body := .fresh p f } →
    (∀ l, v.trk.last = some l → (p.toInt - (l.position +
      (v.trk.velocity * (((c - l.cycle).toNat * ct : Nat) : Int)).tdiv 1000000)).natAbs ≤ v.par.maxStep) →
    (v.seq.state = .arming → r.1.farthest = v.trk.farthest) ∧
    (v.seq.state ≠ .arming → r.1.farthest = some (match v.trk.farthest with
      | none => x
      | some g => if 0 < aheadBy k.header.direction x g then x else g)) ∧
    (v.seq.state = .scanning ∨ v.seq.state = .dwelling ∨ v.seq.state = .tail →
      ∀ g, r.1.farthest = some g →
        (r.1.reversalRun = true ↔ (v.par.reversalTol : Int) < aheadBy k.header.direction g x) ∧
        ((.reversal, none) ∈ r.2 ↔ r.1.reversalRun = true ∧ v.trk.reversalRun = false)) ∧
    (v.seq.state ≠ .scanning → v.seq.state ≠ .dwelling → v.seq.state ≠ .tail →
      r.1.reversalRun = v.trk.reversalRun ∧ (.reversal, none) ∉ r.2) ∧
    (FollowChecked v r.1 →
      (r.1.followingRun = true ↔
        v.seq.travel.speed * v.par.followTol <
          ((r.1.velocity.natAbs : Int) - v.seq.travel.speed).natAbs * 100) ∧
      ((.following, none) ∈ r.2 ↔ r.1.followingRun = true ∧ v.trk.followingRun = false)) ∧
    (¬FollowChecked v r.1 →
      r.1.followingRun = v.trk.followingRun ∧ (.following, none) ∉ r.2)) ∧
  (∀ (s : State) (x : StationId) (sample : PositionSample) (k : Tracker) (c : Cond),
    judge s.params.cycleTime (s.st x) sample = (k, [(c, none)]) → c.stationScope = true →
    Logged c (.station x) (s.cdu.setSeverity c) s (trackerStage x sample s)) ∧
  (∀ (s : State) (x : StationId) (sample : PositionSample) (k : Tracker),
    judge s.params.cycleTime (s.st x) sample = (k, []) →
    trackerStage x sample s = modTrk x
      (fun _ => { k with report := some (reportOf { s.st x with trk := k } sample.cycle) }) s) ∧
  (∀ (v : Station) (c : Cycle),
    (reportOf v c).velocity = v.trk.velocity ∧ (reportOf v c).flags = v.trk.flags ∧
    (reportOf v c).extrapolating = v.trk.extrapolating ∧ (reportOf v c).cycle = c ∧
    (v.trk.estimate = none → (reportOf v c).x = none ∧ (reportOf v c).lookAhead = none ∧
      (reportOf v c).ring = none) ∧
    (∀ e, v.trk.estimate = some e → (reportOf v c).x = some (e - v.seq.datum) ∧
      (v.seq.state.active = true →
        (reportOf v c).lookAhead = some (e - v.seq.datum +
          (v.trk.velocity * (v.par.lookAhead : Int)).tdiv 1000000) ∧
        (∀ p, v.seq.profile = some p → (reportOf v c).ring = some (match p.header.direction with
          | .up => e - v.seq.datum - (p.header.quenchOffset.toNat : Int)
          | .down => e - v.seq.datum + (p.header.quenchOffset.toNat : Int)))) ∧
      (v.seq.state.active = false → (reportOf v c).lookAhead = some (e - v.seq.datum) ∧
        (reportOf v c).ring = none)) ∧
    ((reportOf v c).standstill = true ↔
      (v.seq.state.active = true → v.trk.velocity.natAbs ≤ v.par.standstill) ∧
      ((v.seq.state.active = true ∧ v.trk.estimate = none) ∨ v.trk.flags = none ∨
        ∃ f, v.trk.flags = some f ∧ f.inMotion = false)))

/-- A raise logs its condition with its applied severity, the set one or a higher floor, in its entry and no other; a
free first-condition record it fills with the station as it stands at the raise (its x is that of the report formed
last: assumption 15), beside a held one it adds its code to the next-condition set and one to the next-count. Its
severity then acts on the stations it covers, those of its scope copy and, at HALT_ALL, both: NOTE does no more,
DEGRADE marks each that is active, ABORT and HALT_ALL halt each that can be halted (`HaltedBy`), or wait there while it
handles an event; a station not covered, or that cannot be halted, goes on (what the supply freed lets it issue apart).
Each row that raises a condition logs it so: the expired timers ARM_FAILED, HOLD_EXPIRED, RETUNE_TIMEOUT,
QUENCH_WAIT_EXPIRY with the late mark clear and VALVE_MISMATCH; the samples POSITION_STALE (with STRICT's floor of
ABORT), POWER_DEVIATION and FLOW_LOW. POWER_DEVIATION comes at a counted cycle whose actual power is beyond the band of
the setpoint one cycle earlier, FLOW_LOW at a flow below the threshold of the last issued set, each when its count is
full and its run clear; an inverter in FAULT raises INVERTER_FAULT, and a manifold in FAULT VALVE_MISMATCH, once per
run. "Later" on the wrapping cycle count is assumption 12. -/
def Obligations.TimersAndSamplesLogTheirCondition : Prop :=
  (∀ (s : State) (c : Cond) (sc : Scope) (floor : Option Severity) (v : Severity),
    scopeFits c sc = true →
    (floor = none ∧ v = s.cdu.setSeverity c) ∨
      (∃ f, floor = some f ∧ v = (s.cdu.setSeverity c).max f) →
    Logged c sc v s (raise c sc floor s) ∧ Recorded c sc v s (raise c sc floor s) ∧
    (raise c sc floor s).cdu.severity = s.cdu.severity ∧
    (∀ d sd, scopeFits d sd = true → (d, sd) ≠ (c, sc) →
      (raise c sc floor s).cdu.entry d sd = s.cdu.entry d sd) ∧
    ∀ (y : StationId) (u : Station), u = (raise c sc floor s).st y →
      (v = .note → u = s.st y) ∧
      (v = .degrade → sc = .part ∨ sc = .station y →
        u = { s.st y with seq := { (s.st y).seq with
          degraded := (s.st y).seq.degraded || (s.st y).seq.state.active } }) ∧
      (v = .degrade → sc = .station y.other → u = s.st y) ∧
      (v = .abort ∨ v = .haltAll → sc = .part ∨ sc = .station y ∨ v = .haltAll →
        (s.st y).seq.state.haltable = true →
        (Settled (s.st y) → HaltedBy y (.cond c) s (raise c sc floor s)) ∧
        ((s.st y).seq.handling = true → u.seq.state = (s.st y).seq.state ∧
          u.seq.haltWaiting = some ((s.st y).seq.haltWaiting.getD (.cond c)))) ∧
      (v = .abort ∨ v = .haltAll →
        (v = .abort ∧ sc = .station y.other) ∨ (s.st y).seq.state.haltable = false →
        u.seq.state = (s.st y).seq.state ∧ u.seq.haltCause = (s.st y).seq.haltCause ∧
        u.seq.degraded = (s.st y).seq.degraded ∧ u.seq.index = (s.st y).seq.index ∧
        u.eng = (s.st y).eng ∧ (QuenchIdle (s.st y) → u = s.st y))) ∧
  (∀ (s : State) (x : StationId) (c : Instr) (k : Cond), s.vdd = true →
    (c = .armFailed x ∧ k = .armFailed ∧ (s.st x).seq.armTimer.isRunning = true) ∨
      (c = .holdExpired x ∧ k = .holdExpired ∧ (s.st x).seq.holdTimer.isRunning = true) ∨
      (c = .retuneTimeout x ∧ k = .retuneTimeout ∧ (s.st x).pcu.retuneTimer.isRunning = true) ∨
      (c = .quenchWaitExpiry x ∧ k = .quenchLate ∧
        ∃ w, (s.st x).sar.waiting = some w ∧ w.timer.isRunning = true ∧ w.late = false) ∨
      (c = .valveMismatch x ∧ k = .valveMismatch ∧ (s.st x).qsc.valve.isRunning = true) →
    ∃ t, exec c s = .next t ∧ BlocksKept s t ∧
      Logged k (.station x) (s.cdu.setSeverity k) s t ∧
      Recorded k (.station x) (s.cdu.setSeverity k) s t) ∧
  ((∀ (s : State) (x : StationId) (sample : PositionSample), Ready s →
    (s.st x).seq.state.active = true → (s.st x).trk.staleRun = false →
    (sample.body = .missing ∨ ∃ p f, sample.body = .fresh p f ∧
      withinStep s.params.cycleTime (s.st x).par.maxStep (s.st x).trk p.toInt sample.cycle = false) →
    ((s.st x).par.strict = true ∧ (s.st x).seq.state.strictState = true ∨
      Nat.min 255 ((s.st x).trk.missCount + 1) = (s.st x).par.staleLimit) →
    ∃ t, exec (.positionStale x sample) s = .next t ∧ BlocksKept s t ∧
      Logged .positionStale (.station x)
        (if (s.st x).par.strict = true ∧ (s.st x).seq.state.strictState = true
          then (s.cdu.setSeverity .positionStale).max .abort else s.cdu.setSeverity .positionStale)
        s t) ∧
  (∀ (s : State) (x : StationId) (sample : PowerSample), Ready s →
    deviationRaised x sample s = true →
    ∃ t, exec (.powerDeviation x sample) s = .next t ∧ BlocksKept s t ∧
      Logged .powerDeviation (.station x) (s.cdu.setSeverity .powerDeviation) s t) ∧
  (∀ (s : State) (x : StationId) (sample : QuenchSample), Ready s →
    (s.st x).seq.state.active = true → flowRaised x sample s = true →
    ∃ t, exec (.flowLow x sample) s = .next t ∧ BlocksKept s t ∧
      Logged .flowLow (.station x) (s.cdu.setSeverity .flowLow) s t)) ∧
  (∀ (s : State) (x : StationId) (c : Cycle) (body : PowerBody) (v : Station), v = s.st x →
    (∀ p ch inv a b pre post band, body = .fresh p ch inv →
      v.pcu.history = pre ++ [(b, c - 2), (a, c - 1)] ++ post → (∀ h ∈ post, h.2 = c) →
      v.seq.state.heating = true → v.pcu.retune = .none →
      band = Nat.max (a * v.par.powerTol / 100) (v.par.powerRated / 100) →
      (deviationRaised x { cycle := c, body := body } s = true ↔
        ((a : Int) - b).natAbs ≤ band ∧ band < ((p.toNat : Int) - a).natAbs ∧
          v.pcu.devRun = false ∧ v.par.powerDevCycles ≤ v.pcu.devCount + 1) ∧
      (((a : Int) - b).natAbs ≤ band → ((p.toNat : Int) - a).natAbs ≤ band →
        deviationCheck x { cycle := c, body := body } s =
          modPcu x (fun u => { u with devCount := 0, devRun := false }) s) ∧
      (((a : Int) - b).natAbs ≤ band → band < ((p.toNat : Int) - a).natAbs →
        v.pcu.devRun = true ∨ v.pcu.devCount + 1 < v.par.powerDevCycles →
        deviationCheck x { cycle := c, body := body } s = modPcu x
          (fun u => { u with devCount := Nat.min v.par.powerDevCycles (v.pcu.devCount + 1) }) s)) ∧
    (body = .missing ∨ v.seq.state.heating = false ∨ v.pcu.retune ≠ .none ∨
        (∀ h ∈ v.pcu.history, h.2 ≠ c - 1) ∨ (∀ h ∈ v.pcu.history, h.2 ≠ c - 2) →
      deviationCheck x { cycle := c, body := body } s = s) ∧
    (∀ p ch, body = .fresh p ch .fault → v.seq.state.active = true →
      (v.pcu.faultRun = true → inverterCheck x body s = s) ∧
      (v.pcu.faultRun = false →
        Logged .inverterFault (.station x) (s.cdu.setSeverity .inverterFault) s
          (inverterCheck x body s) ∧
        (Ready s → v.pcu.retune = .drain → p.toNat ≤ v.par.residualPower * v.par.powerRated / 100 →
          ∃ t, exec (.retuneDrainEnd x { cycle := c, body := body }) s = .next t ∧
            Logged .inverterFault (.station x) (s.cdu.setSeverity .inverterFault) s t))) ∧
    (∀ p ch inv, body = .fresh p ch inv → inv ≠ .fault → v.seq.state.active = true →
      inverterCheck x body s = modPcu x (fun u => { u with faultRun := false }) s) ∧
    (body = .missing ∨ v.seq.state.active = false → inverterCheck x body s = s)) ∧
  (∀ (s : State) (x : StationId) (c : Cycle) (body : QuenchBody) (v : Station), v = s.st x →
    v.seq.state.active = true →
    (∀ z flow low passed limit, body = .fresh z .ok flow → v.qsc.flowCheck = .armed low passed →
      v.seq.state ≠ .halting → laterThan c passed = true →
      limit = flowOf v.par v.qsc.lastIssued * v.par.flowLowPct / 100 →
      (v.qsc.valve.isRunning = false →
        (flowRaised x { cycle := c, body := body } s = true ↔
          flow.toNat < limit ∧ v.qsc.flowRun = false ∧ v.par.flowCheck ≤ low + 1)) ∧
      (limit ≤ flow.toNat → flowStage x { cycle := c, body := body } s =
        modQsc x (fun q => { q with flowCheck := .armed 0 passed, flowRun := false }) s) ∧
      (flow.toNat < limit → v.qsc.flowRun = true ∨ low + 1 < v.par.flowCheck →
        flowStage x { cycle := c, body := body } s = modQsc x
          (fun q => { q with flowCheck := .armed (Nat.min v.par.flowCheck (low + 1)) passed }) s)) ∧
    (body = .missing → quenchHanded x { cycle := c, body := body } s = s) ∧
    (v.qsc.flowCheck = .disarmed ∨ v.seq.state = .halting ∨
        (∃ low passed, v.qsc.flowCheck = .armed low passed ∧ laterThan c passed = false) →
      flowStage x { cycle := c, body := body } s = s) ∧
    (∀ z flow, body = .fresh z .fault flow →
      (v.qsc.faultRun = true → manifoldStage x body s = s) ∧
      (v.qsc.faultRun = false →
        Logged .valveMismatch (.station x) (s.cdu.setSeverity .valveMismatch) s
          (quenchHanded x { cycle := c, body := body } s))) ∧
    (∀ z flow, body = .fresh z .ok flow →
      manifoldStage x body s = modQsc x (fun q => { q with faultRun := false }) s))

/-- What an expired timer leaves at NOTE and at DEGRADE: the timer expired, the sequencer as it was but for
the degraded mark, which DEGRADE sets; a request that is late already raises nothing. The deadline of a closing
check brings, after the raise (assumption 45), the end of the closing: the FINISH program is requested (`Engaged`) and
the phase is FINISHING, unless no step of the program has a delay, when the scan is complete at once (`ScanEnded`); a
running HALT program goes on. -/
def Obligations.MildConditionsLeaveTheStationRunning : Prop :=
  ∀ (s : State) (x : StationId), s.vdd = true → (s.st x).seq.state.active = true →
    ((s.st x).seq.holdTimer.isRunning = true → (s.cdu.setSeverity .holdExpired).code ≤ 1 →
      ∃ t, exec (.holdExpired x) s = .next t ∧
        (t.st x).seq = { (s.st x).seq with
          holdTimer := .expired,
          degraded := (s.st x).seq.degraded || decide ((s.cdu.setSeverity .holdExpired).code = 1) } ∧
        { t.st x with seq := (s.st x).seq } = s.st x ∧ t.st x.other = s.st x.other) ∧
    ((s.st x).pcu.retuneTimer.isRunning = true → (s.cdu.setSeverity .retuneTimeout).code ≤ 1 →
      ∃ t, exec (.retuneTimeout x) s = .next t ∧
        (t.st x).pcu = { (s.st x).pcu with retuneTimer := .expired } ∧
        (t.st x).seq = { (s.st x).seq with
          degraded := (s.st x).seq.degraded || decide ((s.cdu.setSeverity .retuneTimeout).code = 1) } ∧
        t.st x.other = s.st x.other) ∧
    (∀ w, (s.st x).sar.waiting = some w → w.timer.isRunning = true →
      w.late = true ∨ (s.cdu.setSeverity .quenchLate).code ≤ 1 →
      ∃ t, exec (.quenchWaitExpiry x) s = .next t ∧
        (t.st x).sar = { (s.st x).sar with waiting := some { w with timer := .expired, late := true } } ∧
        (t.st x).qsc = (s.st x).qsc ∧ t.st x.other = s.st x.other ∧
        (w.late = true → t.cdu = s.cdu ∧ (t.st x).seq = (s.st x).seq) ∧
        (w.late = false → (t.st x).seq = { (s.st x).seq with
          degraded := (s.st x).seq.degraded || decide ((s.cdu.setSeverity .quenchLate).code = 1) })) ∧
    ((s.st x).qsc.valve.isRunning = true → (s.cdu.setSeverity .valveMismatch).code ≤ 1 →
      (s.st x).qsc.closing = false →
      ∃ t, exec (.valveMismatch x) s = .next t ∧
        (t.st x).qsc = { (s.st x).qsc with valve := .failed } ∧
        (t.st x).seq = { (s.st x).seq with
          degraded := (s.st x).seq.degraded || decide ((s.cdu.setSeverity .valveMismatch).code = 1) } ∧
        t.st x.other = s.st x.other) ∧
    ((s.st x).qsc.valve.isRunning = true → (s.cdu.setSeverity .valveMismatch).code ≤ 1 →
      (s.st x).qsc.closing = true → (s.st x).seq.state = .tail →
      (s.st x).seq.phase = some .closing → Settled (s.st x) →
      ∃ t degraded, exec (.valveMismatch x) s = .next t ∧ t.st x.other = s.st x.other ∧
        degraded = ((s.st x).seq.degraded ||
          decide ((s.cdu.setSeverity .valveMismatch).code = 1)) ∧
        Logged .valveMismatch (.station x) (s.cdu.setSeverity .valveMismatch) s t ∧
        (t.st x).qsc.closing = false ∧ (t.st x).seq.degraded = degraded ∧
        (t.st x).seq.travel.mode = .stop ∧ (t.st x).seq.index = (s.st x).seq.index ∧
        ((t.st x).seq.state = .tail →
          (t.st x).seq.phase = some .finishing ∧
          (t.st x).qsc = { (s.st x).qsc with valve := .failed, closing := false } ∧
          (t.st x).sar = (s.st x).sar ∧
          ∀ p, (s.st x).seq.profile = some p → ∃ r, t.rtb.records.get x = some r ∧
            r.state = .tail ∧ r.cycle = s.link.count) ∧
        Engaged s x .finish (t.st x).eng ∧
        ((t.st x).eng.running ≠ none → (t.st x).seq.state = .tail) ∧
        ((t.st x).eng.running = none →
          ScanEnded x .complete s t ∧ (t.st x).seq.phase = none ∧
          (t.st x).result = (s.st x).result.map fun r =>
            { r with
              outcome := if degraded = true ∨ (s.st x).seq.disturbed = true then .degraded else .good,
              endCycle := some s.link.count }))

/-- What an expired timer leaves at ABORT and HALT_ALL: the station is halted with the condition as cause (`HaltedBy`);
at HALT_ALL the other station too, where it can be halted. ARM_FAILED, whose minimum is ABORT, always halts. -/
def Obligations.AbortingConditionsHaltTheStation : Prop :=
  ∀ (s : State) (x : StationId) (c : Instr) (k : Cond), s.vdd = true →
    (s.st x).seq.state.haltable = true → Settled (s.st x) →
    (c = .armFailed x ∧ k = .armFailed ∧ (s.st x).seq.armTimer.isRunning = true ∧ SeverityLaw s) ∨
      (c = .holdExpired x ∧ k = .holdExpired ∧ (s.st x).seq.holdTimer.isRunning = true ∧
        2 ≤ (s.cdu.setSeverity .holdExpired).code) ∨
      (c = .retuneTimeout x ∧ k = .retuneTimeout ∧ (s.st x).pcu.retuneTimer.isRunning = true ∧
        2 ≤ (s.cdu.setSeverity .retuneTimeout).code) ∨
      (c = .quenchWaitExpiry x ∧ k = .quenchLate ∧ 2 ≤ (s.cdu.setSeverity .quenchLate).code ∧
        ∃ w, (s.st x).sar.waiting = some w ∧ w.timer.isRunning = true ∧ w.late = false) ∨
      (c = .valveMismatch x ∧ k = .valveMismatch ∧ (s.st x).qsc.valve.isRunning = true ∧
        2 ≤ (s.cdu.setSeverity .valveMismatch).code) →
    ∃ t, exec c s = .next t ∧ HaltedBy x (.cond k) s t ∧
      (s.cdu.setSeverity k = .haltAll → (s.st x.other).seq.state.haltable = true →
        Settled (s.st x.other) → HaltedBy x.other (.cond k) s t)

/-! ## Run commands -/

/-- A START that is accepted: result, in-use mark, datum, marks and held states cleared, cleared tracker, emptied
quench queue, no power and no travel, START program, arm timer, ARMING, retained record; the other station, the
link unit and the conditions are left alone. The program waits at its first step that has a delay, the steps before
it having acted; one without any delay has ended; a running HALT program goes on (`Engaged`). In RESERVE mode with
SUPPLY_FLOW nonzero it books the profile's peak flow when that fits beside the other station's reservation, and
is refused REFUSED_FLOW when it does not. -/
def Obligations.AcceptedStartArmsTheStation : Prop :=
  (∀ (s : State) (x : StationId) (nibble : BitVec 4) (b : Byte) (adjust : BitVec 16) (n : Fin 16),
    Commanded s → nibble ≠ (s.st x).seq.nibble → Settled (s.st x) →
    ((s.st x).seq.state = .idle ∨ (s.st x).seq.state = .complete) →
    ownStop s.stops x = false → s.stops.all = false → s.store.wholeBusy = false →
    b.toNat = n.val → s.store.busyOn n = false → (s.store.directory.get n).state = .valid →
    ((s.store.directory.get n).affinity = .either ∨
      (x = .a ∧ (s.store.directory.get n).affinity = .a) ∨
      (x = .b ∧ (s.store.directory.get n).affinity = .b)) →
    (Reserving s → ∃ peak, peak + (s.st x.other).sar.reservation.getD 0 ≤ s.params.supplyFlow ∧
      (∀ g ∈ (s.store.profiles.get n).segments, flowOf (s.st x).par g.zones ≤ peak) ∧
      flowOf (s.st x).par (s.store.profiles.get n).header.tailZones ≤ peak) →
    ∃ t, exec (.start x nibble b adjust) s = .next t ∧ BlocksKept s t ∧ t.cdu = s.cdu ∧
      t.st x.other = s.st x.other ∧ (t.st x).seq.state = .arming ∧
      (t.st x).seq.nibble = nibble ∧ (t.st x).seq.commandResult = .accepted ∧
      (t.st x).seq.datum = (s.st x).par.datumBase.toInt + adjust.toInt ∧
      (t.st x).seq.index = none ∧ (t.st x).seq.resultReady = false ∧
      (t.st x).seq.degraded = false ∧ (t.st x).seq.disturbed = false ∧
      (t.st x).seq.haltCause = none ∧ (t.st x).seq.phase = none ∧
      (t.st x).seq.pendingState = none ∧ (t.st x).seq.heldState = none ∧
      (t.st x).seq.armTimer = .running (s.st x).par.armTimeout ∧
      (t.st x).seq.travel =
        { mode := .stop, speed := 0,
          direction := if (s.store.profiles.get n).header.direction = .down then .decreasing
            else .increasing } ∧
      (t.st x).pcu.held.setpoint = 0 ∧ (t.st x).pcu.held.run = false ∧
      (t.st x).par = (s.st x).par ∧ (¬Reserving s → (t.st x).sar = (s.st x).sar) ∧
      Engaged s x .start (t.st x).eng ∧
      (∃ p, (t.st x).seq.profile = some p ∧ p.number = n ∧
        p.header = (s.store.profiles.get n).header ∧
        p.revision = (s.store.directory.get n).revision ∧
        (t.st x).result = some
          { outcome := .running, cause := none, profile := n, revision := p.revision,
            datum := (t.st x).seq.datum, startCycle := s.link.count, endCycle := none,
            disturbed := false, highest := none, entries := [] } ∧
        (inForce (s.st x).pcu p.firstChannel = true →
          (t.st x).pcu.retune = (s.st x).pcu.retune) ∧
        (inForce (s.st x).pcu p.firstChannel = false →
          (t.st x).pcu.retune = .drain ∧ (t.st x).pcu.retuneChannel = some p.firstChannel)) ∧
      t.store.inUse.get x = some n ∧
      (t.st x).trk.last = none ∧ (t.st x).trk.estimate = none ∧ (t.st x).trk.flags = none ∧
      (t.st x).trk.velocity = 0 ∧
      (t.st x).qsc.queue = [] ∧ (t.st x).qsc.report = none ∧ (t.st x).qsc.valve = .stopped ∧
      (∃ r, t.rtb.records.get x = some r ∧ r.state = .arming ∧ r.profile = n ∧ r.index = none)) ∧
  (∀ (s : State) (x : StationId) (nibble : BitVec 4) (b : Byte) (adjust : BitVec 16) (p : HeldProfile)
    (peak : Nat),
    Commanded s → nibble ≠ (s.st x).seq.nibble → Settled (s.st x) →
    ((s.st x).seq.state = .idle ∨ (s.st x).seq.state = .complete) →
    ownStop s.stops x = false → s.stops.all = false → storeAnswer s.store x b = .ok p →
    s.params.supplyMode = .reserve → s.params.supplyFlow ≠ 0 →
    (∀ z ∈ p.zoneSets, flowOf (s.st x).par z ≤ peak) →
    (∃ z ∈ p.zoneSets, flowOf (s.st x).par z = peak) →
    (peak + (s.st x.other).sar.reservation.getD 0 ≤ s.params.supplyFlow →
      ∃ t, exec (.start x nibble b adjust) s = .next t ∧ (t.st x).seq.state = .arming ∧
        (t.st x).sar.reservation = some peak ∧ (t.st x).seq.commandResult = .accepted) ∧
    (s.params.supplyFlow < peak + (s.st x.other).sar.reservation.getD 0 →
      exec (.start x nibble b adjust) s = .next (shown x nibble .refusedFlow s)))

/-- Commands that leave the scan alone: one whose nibble is the last taken one does nothing at all; NONE,
an unknown code, and every command refused show their result and change nothing else. -/
def Obligations.CommandsNotTakenShowOnlyTheirResult : Prop :=
  ∀ (s : State) (x : StationId) (nibble : BitVec 4) (b : Byte) (adjust : BitVec 16)
    (code : BitVec 4), Commanded s →
    (nibble = (s.st x).seq.nibble →
      exec (.start x nibble b adjust) s = .next s ∧ exec (.hold x nibble) s = .next s ∧
      exec (.resume x nibble) s = .next s ∧ exec (.abort x nibble) s = .next s ∧
      exec (.clear x nibble) s = .next s ∧ exec (.commandNone x nibble) s = .next s ∧
      exec (.commandUnknownCode x code nibble) s = .next s) ∧
    (nibble ≠ (s.st x).seq.nibble → Settled (s.st x) →
      exec (.commandNone x nibble) s = .next (shown x nibble .accepted s) ∧
      (5 < code.toNat →
        exec (.commandUnknownCode x code nibble) s = .next (shown x nibble .refusedCode s)) ∧
      ((s.st x).seq.state ≠ .idle → (s.st x).seq.state ≠ .complete →
        exec (.start x nibble b adjust) s = .next (shown x nibble .refusedState s)) ∧
      ((s.st x).seq.state = .idle ∨ (s.st x).seq.state = .complete →
        (ownStop s.stops x = true ∨ s.stops.all = true →
          exec (.start x nibble b adjust) s = .next (shown x nibble .refusedLine s)) ∧
        (ownStop s.stops x = false → s.stops.all = false →
          (s.store.wholeBusy = true →
            exec (.start x nibble b adjust) s = .next (shown x nibble .refusedBusy s)) ∧
          (s.store.wholeBusy = false → 15 < b.toNat →
            exec (.start x nibble b adjust) s = .next (shown x nibble .refusedProfile s)) ∧
          (∀ n : Fin 16, s.store.wholeBusy = false → b.toNat = n.val →
            (s.store.busyOn n = true →
              exec (.start x nibble b adjust) s = .next (shown x nibble .refusedBusy s)) ∧
            (s.store.busyOn n = false → (s.store.directory.get n).state ≠ .valid ∨
                (s.store.directory.get n).affinity.fitsStation x = false →
              exec (.start x nibble b adjust) s = .next (shown x nibble .refusedProfile s))))) ∧
      ((s.st x).seq.state.holdable = false →
        exec (.hold x nibble) s = .next (shown x nibble .refusedState s)) ∧
      ((s.st x).seq.state ≠ .holding →
        exec (.resume x nibble) s = .next (shown x nibble .refusedState s)) ∧
      ((s.st x).seq.state.haltable = false →
        exec (.abort x nibble) s = .next (shown x nibble .refusedState s)) ∧
      ((s.st x).seq.state.active = true ∨ (s.st x).seq.state = .idle →
        exec (.clear x nibble) s = .next (shown x nibble .refusedState s)) ∧
      ((s.st x).seq.state = .faulted → ownStop s.stops x = true ∨ s.stops.all = true →
        exec (.clear x nibble) s = .next (shown x nibble .refusedLine s)))

/-- HOLD taken in APPROACH, SCANNING, DWELLING and RETUNE_HOLD, and RESUME taken in HOLDING. -/
def Obligations.HoldStopsAndResumeGoesOn : Prop :=
  (∀ (s : State) (x : StationId) (nibble : BitVec 4), Commanded s →
    nibble ≠ (s.st x).seq.nibble → Settled (s.st x) →
    ((s.st x).seq.state = .approach ∨ (s.st x).seq.state = .scanning ∨
      (s.st x).seq.state = .dwelling ∨ (s.st x).seq.state = .retuneHold) →
    ∃ t, exec (.hold x nibble) s = .next t ∧ BlocksKept s t ∧ t.cdu = s.cdu ∧
      t.st x.other = s.st x.other ∧ (t.st x).qsc = (s.st x).qsc ∧ (t.st x).sar = (s.st x).sar ∧
      (t.st x).eng = (s.st x).eng ∧ (t.st x).seq.state = .holding ∧
      (t.st x).seq.heldState = some (s.st x).seq.state ∧ (t.st x).seq.disturbed = true ∧
      (t.st x).seq.index = (s.st x).seq.index ∧
      (t.st x).seq.pendingState = (s.st x).seq.pendingState ∧
      (t.st x).seq.commandResult = .accepted ∧ (t.st x).seq.nibble = nibble ∧
      (t.st x).seq.holdTimer = .running (s.st x).par.holdLimit ∧
      (t.st x).seq.travel.mode = .stop ∧ (t.st x).pcu.held.setpoint = 0 ∧
      (t.st x).pcu.retune = (s.st x).pcu.retune ∧
      (t.st x).pcu.retuneTimer = (s.st x).pcu.retuneTimer ∧
      (∀ a, (s.st x).seq.dwellTimer = .running a →
        ∃ b, b ≤ a ∧ (t.st x).seq.dwellTimer = .frozen b) ∧
      ((s.st x).seq.dwellTimer = .stopped → (t.st x).seq.dwellTimer = .stopped) ∧
      (∀ r, (s.st x).result = some r → (t.st x).result = some { r with disturbed := true }) ∧
      (∀ p, (s.st x).seq.profile = some p → ∃ r, t.rtb.records.get x = some r ∧
        r.state = .holding ∧ r.cycle = s.link.count)) ∧
  (∀ (s : State) (x : StationId) (nibble : BitVec 4) (n : StationState), Commanded s →
    nibble ≠ (s.st x).seq.nibble → Settled (s.st x) → (s.st x).seq.state = .holding →
    (s.st x).seq.heldState = some n → n.active = true →
    ∃ t, exec (.resume x nibble) s = .next t ∧ BlocksKept s t ∧ t.cdu = s.cdu ∧
      t.st x.other = s.st x.other ∧ (t.st x).qsc = (s.st x).qsc ∧ (t.st x).sar = (s.st x).sar ∧
      (t.st x).eng = (s.st x).eng ∧ (t.st x).seq.state = n ∧ (t.st x).seq.heldState = none ∧
      (t.st x).seq.holdTimer = .stopped ∧ (t.st x).seq.commandResult = .accepted ∧
      (t.st x).seq.index = (s.st x).seq.index ∧
      (∀ a, (s.st x).seq.dwellTimer = .frozen a → (t.st x).seq.dwellTimer = .running a) ∧
      (n = .scanning → ∀ g, s.segInForce x = some g →
        (t.st x).seq.travel.mode = .move ∧ (t.st x).seq.travel.speed = g.speed.toNat) ∧
      (n = .approach → (t.st x).seq.travel.mode = .move ∧
        (t.st x).seq.travel.speed = (s.st x).par.approachSpeed) ∧
      (∀ p, (s.st x).seq.profile = some p → ∃ r, t.rtb.records.get x = some r ∧
        r.state = n ∧ r.cycle = s.link.count))

/-- ABORT in every active state but HALTING: the halt of R67 with cause ABORT_COMMAND (`HaltedBy`), which ends in
IDLE. -/
def Obligations.AbortHaltsTheStation : Prop :=
  ∀ (s : State) (x : StationId) (nibble : BitVec 4), Commanded s → nibble ≠ (s.st x).seq.nibble →
    Settled (s.st x) → (s.st x).seq.state.active = true → (s.st x).seq.state ≠ .halting →
    ∃ t, exec (.abort x nibble) s = .next t ∧ BlocksKept s t ∧ t.cdu = s.cdu ∧
      HaltedBy x .abortCommand s t ∧ (t.st x).seq.commandResult = .accepted ∧
      (t.st x).seq.nibble = nibble

/-- CLEAR brings FAULTED (with no stop asserted), INTERRUPTED and COMPLETE to IDLE. -/
def Obligations.ClearBringsTheStationToIdle : Prop :=
  ∀ (s : State) (x : StationId) (nibble : BitVec 4), Commanded s → nibble ≠ (s.st x).seq.nibble →
    Settled (s.st x) →
    ((s.st x).seq.state = .faulted ∧ ownStop s.stops x = false ∧ s.stops.all = false) ∨
      (s.st x).seq.state = .interrupted ∨ (s.st x).seq.state = .complete →
    ∃ t, exec (.clear x nibble) s = .next t ∧ BlocksKept s t ∧ t.cdu = s.cdu ∧
      t.store = s.store ∧ t.st x.other = s.st x.other ∧ (t.st x).seq.state = .idle ∧
      (t.st x).seq.profile = none ∧ (t.st x).seq.index = none ∧
      (t.st x).seq.resultReady = false ∧ (t.st x).seq.commandResult = .accepted ∧
      (t.st x).seq.nibble = nibble ∧ (t.st x).result = (s.st x).result ∧
      (t.st x).sar = (s.st x).sar ∧ (t.st x).eng = (s.st x).eng ∧
      (t.st x).qsc.queue = (s.st x).qsc.queue ∧
      ((s.st x).seq.state = .interrupted → t.rtb.records.get x = none) ∧
      ((s.st x).seq.state ≠ .interrupted → t.rtb = s.rtb)

/-! ## The scan -/

/-- ARM_CHECK_PASS: a report that passes the arm check ends ARMING and stops the arm timer; when its
look-ahead position has not reached the profile start, the station is in APPROACH, moving at APPROACH_SPEED. -/
def Obligations.ArmCheckPassEntersApproach : Prop :=
  ∀ (s : State) (x : StationId) (sample : PositionSample) (p : HeldProfile), Ready s →
    Settled (s.st x) → (s.st x).seq.profile = some p → armPasses x sample s = true →
    ∃ t, exec (.armCheckPass x sample) s = .next t ∧ BlocksKept s t ∧
      (t.st x).seq.state ≠ .arming ∧ (t.st x).seq.armTimer = .stopped ∧
      (boundaryOf x sample s = none →
        (t.st x).seq.state = .approach ∧ (t.st x).seq.travel.mode = .move ∧
        (t.st x).seq.travel.speed = (s.st x).par.approachSpeed ∧
        (t.st x).seq.index = (s.st x).seq.index ∧
        ∃ r, t.rtb.records.get x = some r ∧ r.state = .approach ∧ r.profile = p.number ∧
          r.cycle = s.link.count)

/-- SEGMENT_ENTRY: a report that reaches the start of segment i enters it, and the segments after it that
it reaches too; only a station that a waiting change has halted meanwhile does not enter it. An entry leaves the
index, a new result entry, and the state: DWELLING for a DWELL, SCANNING for a SCAN or SKIP, with that state pending in
RETUNE_HOLD and the retune begun when the segment's channel is not in force. The travel request is MOVE at the speed of
a SCAN or SKIP and STOP else, in the profile's direction. The retained record is written whole, with the index, the
state, the last shaft position and the report's cycle. -/
def Obligations.SegmentEntryRaisesTheIndex : Prop :=
  (∀ (s t : State) (x : StationId) (i : Nat) (c : Cycle) (g : Segment) (p : HeldProfile),
    (s.segments x)[i]? = some g → (s.st x).seq.profile = some p → (s.st x).seq.handling = true →
    (s.st x).seq.state.active = true → t = segmentEntry x i c s →
    (t.st x).seq.index = some i ∧
    (inForce (s.st x).pcu g.channel = true → (t.st x).seq.state = stateOfKind g.kind ∧
      (t.st x).pcu.retune = (s.st x).pcu.retune ∧
      (t.st x).seq.pendingState = (s.st x).seq.pendingState ∧
      (t.st x).seq.travel =
        { mode := if g.kind = .dwell then .stop else .move,
          speed := if g.kind = .dwell then 0 else g.speed.toNat,
          direction := if p.header.direction = .down then .decreasing else .increasing }) ∧
    (inForce (s.st x).pcu g.channel = false → (t.st x).seq.state = .retuneHold ∧
      (t.st x).seq.pendingState = some (stateOfKind g.kind) ∧ (t.st x).pcu.retune = .drain ∧
      (t.st x).pcu.retuneChannel = some g.channel ∧
      (t.st x).pcu.retuneTimer = .running (s.st x).par.retuneTimeout ∧
      (t.st x).seq.travel =
        { mode := .stop, speed := 0,
          direction := if p.header.direction = .down then .decreasing else .increasing }) ∧
    t.rtb.records.get x = some
      { profile := p.number, revision := p.revision, datum := (s.st x).seq.datum, index := some i,
        position := lastShaft (s.st x), cycle := c, state := (t.st x).seq.state } ∧
    (∀ r, (s.st x).result = some r → ∃ r', (t.st x).result = some r' ∧ r'.highest = some i ∧
      r'.entries.length = r.entries.length + 1 ∧ ∃ e, r'.entries.getLast? = some e ∧ e.index = i)) ∧
  ∀ (s : State) (x : StationId) (sample : PositionSample) (i : Nat) (g : Segment), Ready s →
    Settled (s.st x) → boundaryOf x sample s = some (some i) → (s.segments x)[i]? = some g →
    ∃ t, exec (.segmentEntry x sample) s = .next t ∧ BlocksKept s t ∧
      ((s.st x).sar.waiting = none ∨ ¬Halted (t.st x) →
        ∃ j, (t.st x).seq.index = some j ∧ i ≤ j ∧
          ∀ r, (s.st x).result = some r → ∃ r', (t.st x).result = some r' ∧ r'.highest = some j ∧
            r.entries.length < r'.entries.length) ∧
      (Sound s → ¬Halted (t.st x) → (t.st x).seq.state = .tail ∨
        ∃ j f p, (t.st x).seq.index = some j ∧ (s.segments x)[j]? = some f ∧
          (s.st x).seq.profile = some p ∧
          ((t.st x).seq.state = stateOfKind f.kind ∧ inForce (t.st x).pcu f.channel = true ∧
              (t.st x).seq.travel =
                { mode := if f.kind = .dwell then .stop else .move,
                  speed := if f.kind = .dwell then 0 else f.speed.toNat,
                  direction := if p.header.direction = .down then .decreasing else .increasing } ∨
            (t.st x).seq.state = .retuneHold ∧ inForce (t.st x).pcu f.channel = false ∧
              (t.st x).seq.pendingState = some (stateOfKind f.kind) ∧
              (t.st x).pcu.retune = .drain ∧ (t.st x).pcu.retuneChannel = some f.channel ∧
              (t.st x).seq.travel.mode = .stop) ∧
          t.rtb.records.get x = some
            { profile := p.number, revision := p.revision, datum := (s.st x).seq.datum,
              index := some j, position := (t.st x).trk.report.bind Report.x,
              cycle := sample.cycle, state := (t.st x).seq.state }) ∧
      ((t.st x).seq.state.active = true ∨ (t.st x).seq.state = .faulted)

/-- TAIL_ENTRY: a report that reaches the profile end closes the account, offers the end marker at the profile end with
the tail zones, and brings TAIL, the segment index as it was and power at 0: in RUNOUT with the travel request MOVE at
RUNOUT_SPEED in the profile's direction; or, the end marker issued already, in OPEN with travel stopped and the tail
timer running, or past OPEN with TAIL_TIME 0 (assumption 26). In RUNOUT the end marker is the last entry of the queue,
unless the queue was full and QUENCH_QUEUE_FULL raised. The retained record is written whole with state TAIL. The
lateness of the last segment's entry becomes present (assumption 39). Only one of ENERGY_LOW, ENERGY_HIGH,
QUENCH_QUEUE_FULL and QUENCH_LATE at ABORT or HALT_ALL halts the station instead, and is then its cause; with these
four at NOTE or DEGRADE the station is in TAIL. -/
def Obligations.TailEntryBringsTail : Prop :=
  (∀ (s t : State) (x : StationId) (c : Cycle) (p : HeldProfile) (r : State × OfferAnswer),
    (s.st x).seq.profile = some p → (s.st x).seq.handling = true →
    (s.st x).seq.state.active = true → (s.st x).seq.phase = none →
    r = offerEnd x p.header.finish.toInt p.header.tailZones (closeAndRaise x c s) →
    t = tailEntry x c s →
    (t.st x).qsc = (r.1.st x).qsc ∧ (t.st x).sar = (r.1.st x).sar ∧ t.st x.other = r.1.st x.other ∧
    t.cdu = r.1.cdu ∧ (t.st x).seq.state = .tail ∧ (t.st x).seq.index = (s.st x).seq.index ∧
    (t.st x).pcu.account = none ∧ (t.st x).pcu.held.setpoint = 0 ∧ (t.st x).pcu.held.run = false ∧
    ((r.1.st x).seq.phase = none → (t.st x).seq.phase = some .runout ∧
      (t.st x).seq.travel =
        { mode := .move, speed := (s.st x).par.runoutSpeed,
          direction := if p.header.direction = .down then .decreasing else .increasing }) ∧
    ((r.1.st x).seq.phase ≠ none → (t.st x).seq.phase = (r.1.st x).seq.phase ∧
      (t.st x).seq.tailTimer = (r.1.st x).seq.tailTimer ∧
      (t.st x).seq.travel =
        { mode := .stop, speed := 0,
          direction := if p.header.direction = .down then .decreasing else .increasing }) ∧
    (∀ i, r.2 = .added ∨ r.2 = .replaced → OriginEntry (s.segments x) .endMarker i →
      LatenessKept x i 0 r.1 t) ∧
    t.rtb.records.get x = some
      { profile := p.number, revision := p.revision, datum := (s.st x).seq.datum,
        index := (s.st x).seq.index, position := lastShaft (s.st x), cycle := c, state := .tail }) ∧
  ∀ (s : State) (x : StationId) (sample : PositionSample) (p : HeldProfile) (direction : TravelDirection),
    Ready s → Settled (s.st x) → boundaryOf x sample s = some none →
    (s.st x).seq.profile = some p →
    direction = (if p.header.direction = .down then .decreasing else .increasing) →
    ∃ t, exec (.tailEntry x sample) s = .next t ∧ BlocksKept s t ∧
      (t.st x).pcu.account = none ∧ (t.st x).seq.index = (s.st x).seq.index ∧
      (t.st x).pcu.held.setpoint = 0 ∧ (t.st x).pcu.held.run = false ∧
      ((t.st x).seq.state = .tail ∧ (t.st x).seq.phase.isSome = true ∨
        Halted (t.st x) ∧ ∃ c ∈ [Cond.energyLow, .energyHigh, .quenchQueueFull, .quenchLate],
          2 ≤ (s.cdu.setSeverity c).code ∧ (t.st x).seq.haltCause = some (.cond c) ∧
          Logged c (.station x) (s.cdu.setSeverity c) s t) ∧
      ((∀ c ∈ [Cond.energyLow, .energyHigh, .quenchQueueFull, .quenchLate],
        (s.cdu.setSeverity c).code ≤ 1) → (t.st x).seq.state = .tail) ∧
      (Sound s → (t.st x).seq.state = .tail →
        (∃ c, (c = sample.cycle ∨ c = s.link.count) ∧ t.rtb.records.get x = some
          { profile := p.number, revision := p.revision, datum := (s.st x).seq.datum,
            index := (s.st x).seq.index, position := (t.st x).trk.report.bind Report.x, cycle := c,
            state := .tail }) ∧
        ((t.st x).seq.phase = some .runout ∧
            (t.st x).seq.travel =
              { mode := .move, speed := (s.st x).par.runoutSpeed, direction := direction } ∧
            ((∃ e, (t.st x).qsc.queue.getLast? = some e ∧ e.origin = .endMarker ∧
                e.base = p.header.finish.toInt ∧ e.zones = p.header.tailZones) ∨
              Logged .quenchQueueFull (.station x) (s.cdu.setSeverity .quenchQueueFull) s t) ∨
          (t.st x).seq.phase = some .openZones ∧
            (t.st x).seq.travel = { mode := .stop, speed := 0, direction := direction } ∧
            (t.st x).qsc.queue = [] ∧ (t.st x).sar.waiting = none ∧
            (t.st x).qsc.lastIssued = p.header.tailZones ∧ p.header.tailTime ≠ 0 ∧
            (t.st x).seq.tailTimer = .running p.header.tailTime.toNat ∨
          (t.st x).seq.phase = some .closing ∧
            (t.st x).seq.travel = { mode := .stop, speed := 0, direction := direction } ∧
            (t.st x).qsc.queue = [] ∧ (t.st x).sar.waiting = none ∧
            (t.st x).qsc.lastIssued = 0 ∧ p.header.tailTime = 0))

/-- DWELL_TIMER_START at standstill starts the dwell timer with the segment's dwell time; DWELL_TIMER_EXPIRY enters
the next segment; TAIL_TIMER_EXPIRY brings phase CLOSING, the empty set issued, its valve check running, the
granted flow zero. -/
def Obligations.DwellAndTailTimersRunTheirCourse : Prop :=
  ((∀ (s : State) (x : StationId) (sample : PositionSample) (g : Segment), Ready s →
    Settled (s.st x) → dwellReported x sample s = true → s.segInForce x = some g →
    ∃ t, exec (.dwellTimerStart x sample) s = .next t ∧ BlocksKept s t ∧
      (t.st x).seq.index = (s.st x).seq.index ∧
      ((s.st x).sar.waiting = none →
        (t.st x).seq.state = .dwelling ∧ (t.st x).seq.dwellTimer = .running g.speed.toNat) ∧
      ((t.st x).seq.dwellTimer = .running g.speed.toNat ∨ Halted (t.st x))) ∧
  (∀ (s : State) (x : StationId) (i a : Nat) (g : Segment), s.vdd = true → Settled (s.st x) →
    (s.st x).seq.state = .dwelling → (s.st x).seq.dwellTimer = .running a →
    (s.st x).seq.index = some i → (s.segments x)[i + 1]? = some g →
    ∃ t, exec (.dwellTimerExpiry x) s = .next t ∧ BlocksKept s t ∧
      (t.st x).seq.index = some (i + 1) ∧ (t.st x).seq.dwellTimer = .stopped ∧
      ((t.st x).seq.state = stateOfKind g.kind ∨ (t.st x).seq.state = .retuneHold ∨
        Halted (t.st x)) ∧
      ((t.st x).seq.state = .retuneHold → (t.st x).pcu.retune = .drain ∧
        (t.st x).pcu.retuneChannel = some g.channel ∧
        (t.st x).seq.pendingState = some (stateOfKind g.kind)))) ∧
  (∀ (s : State) (x : StationId) (a : Nat), s.vdd = true → (s.st x).seq.tailTimer = .running a →
    (s.st x).seq.phase = some .openZones → QuenchLaw (s.st x) →
    ∃ t, exec (.tailTimerExpiry x) s = .next t ∧ BlocksKept s t ∧ t.cdu = s.cdu ∧
      (t.st x).seq.state = .tail ∧ (t.st x).seq.phase = some .closing ∧
      (t.st x).seq.tailTimer = .stopped ∧ (t.st x).seq.travel.mode = .stop ∧
      QuenchIdle (t.st x) ∧ (t.st x).qsc.held = 0 ∧ (t.st x).qsc.closing = true ∧
      (t.st x).qsc.valve =
        .running 0 s.link.count ((s.st x).par.valveLag + (s.st x).par.valveCheck) ∧
      (t.st x).qsc.flowCheck = .disarmed)

/-! ## Power -/

/-- RETUNE_DRAIN_END passes DRAIN to SWITCH and requests the retune channel; RETUNE_RESTORE puts the retune channel in
force and ends the retune, and a station in RETUNE_HOLD goes on to its pending state. The same sample is then judged
for deviation on the station in that state (assumption 14): at every severity of POWER_DEVIATION the station is in its
pending state, or, the severity ABORT or HALT_ALL, halted with that cause and the condition logged; it is halted where
the sample raises the condition (the cycle counted, the power beyond the band, the run clear, the count full), and in
its pending state where it raises none or only marks. -/
def Obligations.RetunePassesThroughSwitchToItsChannel : Prop :=
  (∀ (s : State) (x : StationId) (c : Cycle) (pw : BitVec 16) (a : ChannelInForce)
    (i : InverterState) (ch : Channel), Ready s → (s.st x).pcu.retune = .drain →
    (s.st x).pcu.retuneChannel = some ch → i ≠ .fault →
    pw.toNat ≤ (s.st x).par.residualPower * (s.st x).par.powerRated / 100 →
    ∃ t, exec (.retuneDrainEnd x { cycle := c, body := .fresh pw a i }) s = .next t ∧
      BlocksKept s t ∧ t.cdu = s.cdu ∧ t.st x.other = s.st x.other ∧
      (t.st x).pcu.retune = .switch ∧ (t.st x).pcu.retuneChannel = some ch ∧
      (t.st x).pcu.held.channel = ch ∧ (t.st x).pcu.held.setpoint = 0 ∧
      (t.st x).pcu.held.run = false ∧ (t.st x).seq = (s.st x).seq ∧
      (t.st x).pcu.channel = (s.st x).pcu.channel) ∧
  (∀ (s : State) (x : StationId) (c : Cycle) (pw : BitVec 16) (ch : Channel), Ready s →
    (s.st x).pcu.retune = .switch → (s.st x).pcu.retuneChannel = some ch →
    ∃ t, exec (.retuneRestore x
        { cycle := c, body := .fresh pw (match ch with | .low => .low | .high => .high) .ready })
        s = .next t ∧ BlocksKept s t ∧
      (t.st x).pcu.retune = .none ∧ (t.st x).pcu.retuneChannel = none ∧
      inForce (t.st x).pcu ch = true ∧
      (∀ n, (s.st x).seq.state = .retuneHold → (s.st x).seq.pendingState = some n →
        (s.cdu.setSeverity .powerDeviation).code ≤ 1 →
        (t.st x).seq.state = n ∧ (t.st x).seq.pendingState = none) ∧
      (∀ n, (s.st x).seq.state = .retuneHold → (s.st x).seq.pendingState = some n → Settled (s.st x) →
        ((t.st x).seq.state = n ∧ (t.st x).seq.pendingState = none ∨
          2 ≤ (s.cdu.setSeverity .powerDeviation).code ∧ HaltedBy x (.cond .powerDeviation) s t ∧
            Logged .powerDeviation (.station x) (s.cdu.setSeverity .powerDeviation) s t) ∧
        ((s.cdu.setSeverity .powerDeviation).code ≤ 1 ∨ n.heating = false ∨
            (∀ h ∈ (s.st x).pcu.history, h.2 ≠ c - 1) ∨ (∀ h ∈ (s.st x).pcu.history, h.2 ≠ c - 2) ∨
            (s.st x).pcu.devRun = true ∨
            (s.st x).pcu.devCount + 1 < (s.st x).par.powerDevCycles →
          (t.st x).seq.state = n ∧ (t.st x).seq.pendingState = none) ∧
        ∀ a b pre post band,
          (s.st x).pcu.history = pre ++ [(b, c - 2), (a, c - 1)] ++ post → (∀ h ∈ post, h.2 = c) →
          band = Nat.max (a * (s.st x).par.powerTol / 100) ((s.st x).par.powerRated / 100) →
          n.heating = true → (s.st x).pcu.devRun = false →
          (((a : Int) - b).natAbs ≤ band → band < ((pw.toNat : Int) - a).natAbs →
            (s.st x).par.powerDevCycles ≤ (s.st x).pcu.devCount + 1 →
            2 ≤ (s.cdu.setSeverity .powerDeviation).code →
            HaltedBy x (.cond .powerDeviation) s t ∧
            Logged .powerDeviation (.station x) (s.cdu.setSeverity .powerDeviation) s t) ∧
          (band < ((a : Int) - b).natAbs ∨ ((pw.toNat : Int) - a).natAbs ≤ band →
            (t.st x).seq.state = n ∧ (t.st x).seq.pendingState = none)) ∧
      (∀ n, (s.st x).seq.state = .holding → (s.st x).seq.heldState = some .retuneHold →
        (s.st x).seq.pendingState = some n →
        (t.st x).seq.state = .holding ∧ (t.st x).seq.heldState = some n ∧
          (t.st x).seq.pendingState = none))

/-- The energy account: opened at a segment entry with nothing measured and the expected energy of its kind and shape;
each FRESH POWER_ACTUAL sample adds its power times CYCLE_TIME, each MISSING one to the missing count; closed with
duration and verdict, ENERGY_LOW or ENERGY_HIGH raised at a segment entry or TAIL; the result entry shows the
figures. A valid TEMPERATURE reading under check moves minimum and maximum, and raises TEMPERATURE_WINDOW once per
segment outside the window; any other sample does nothing. The order in which a POWER_ACTUAL sample and the report of
its cycle come decides only which account it falls into: in both orders it is judged for deviation on the station that
the report leaves, and not counted when that station is in no heating state or in a retune (assumption 47). -/
def Obligations.AccountsAndTemperatureWindowsAreKept : Prop :=
  (∀ (s : State) (x : StationId) (k : RetuneMarks) (c : Cycle) (p q : Capture) (pos pow : Captured)
    (smp : PowerSample), pos = { station := x, signal := .position, capture := p } →
    pow = { station := x, signal := .powerActual, capture := q } → smp = powerSampleOf c q →
    handFrom k c [pos, pow] [pos, pow] s =
      powerJudged x smp (powerTaken x (retuneMark k x) smp.body (handOne k c s pos)) ∧
    handFrom k c [pow, pos] [pow, pos] s =
      powerJudged x smp (handOne k c (powerTaken x (retuneMark k x) smp.body s) pos)) ∧
  (∀ (s : State) (x : StationId) (smp : PowerSample),
    (s.st x).seq.state.heating = false ∨ (s.st x).pcu.retune ≠ .none →
    powerJudged x smp s = inverterCheck x smp.body s) ∧
  (∀ (s : State) (x : StationId) (i : Nat) (c : Cycle) (g : Segment) (r : ScanResult) (e : SegEntry),
    (s.segments x)[i]? = some g → (s.st x).result = some r → r.entries[i]? = some e →
    ∃ r', ((openAccount x i c s).st x).result = some r' ∧ r'.entries.length = r.entries.length ∧
      (∀ j, j ≠ i → r'.entries[j]? = r.entries[j]?) ∧
      r'.entries[i]? = some { e with expected :=
        match g.kind, g.shape with
        | .scan, .step => some (g.power.toNat * (s.segLength x i).toNat / g.speed.toNat)
        | .scan, .ramp => some ((rampStart (s.segments x) i + g.power.toNat) *
            (s.segLength x i).toNat / (2 * g.speed.toNat))
        | .dwell, _ => some (g.power.toNat * g.speed.toNat / 1000)
        | .skip, _ => none } ∧
      ((openAccount x i c s).st x).pcu = { (s.st x).pcu with
        account := some
          { index := i, entryCycle := c, sum := 0, missing := 0, tempMin := none,
            tempMax := none, tempRaised := false } }) ∧
  (∀ (s : State) (x : StationId) (body : PowerBody),
    ((s.st x).pcu.account = none → creditPower x body s = s) ∧
    (∀ a b r e, (s.st x).pcu.account = some a → (s.st x).result = some r →
      r.entries[a.index]? = some e →
      (body = .missing ∧ b = { a with missing := Nat.min 4294967295 (a.missing + 1) }) ∨
        (∃ p ch inv, body = .fresh p ch inv ∧
          b = { a with sum := a.sum + p.toNat * s.params.cycleTime }) →
      ((creditPower x body s).st x).pcu = { (s.st x).pcu with account := some b } ∧
      ∃ r', ((creditPower x body s).st x).result = some r' ∧
        r'.entries[a.index]? = some { e with
          measured := Nat.min 4294967295 (b.sum / 1000000), missing := b.missing,
          tempMin := b.tempMin, tempMax := b.tempMax })) ∧
  (∀ (s : State) (x : StationId) (c : Cycle) (byHalt : Bool) (a : Account) (p : HeldProfile)
    (g : Segment) (r : ScanResult) (e : SegEntry) (verdict : Verdict) (figure expected : Nat),
    (s.st x).pcu.account = some a → (s.st x).seq.profile = some p →
    (s.segments x)[a.index]? = some g → (s.st x).result = some r → r.entries[a.index]? = some e →
    figure = Nat.min 4294967295 (a.sum / 1000000) → expected = e.expected.getD 0 →
    verdict = (if g.kind = .skip ∨ byHalt = true then .exempt
      else if p.header.energyTol = 0 then .off
      else if (c - a.entryCycle).toNat < 20 then .exempt
      else if figure * 100 < expected * (100 - p.header.energyTol.toNat) then .low
      else if expected * (100 + p.header.energyTol.toNat) < figure * 100 then .high
      else .pass) →
    ((closeAccount x c byHalt s).st x).pcu = { (s.st x).pcu with account := none } ∧
    (closeAccount x c byHalt s).cdu = s.cdu ∧
    (∃ r', ((closeAccount x c byHalt s).st x).result = some r' ∧
      r'.entries[a.index]? = some { e with
        measured := figure, missing := a.missing, tempMin := a.tempMin, tempMax := a.tempMax,
        duration := c - a.entryCycle, verdict := some verdict }) ∧
    (byHalt = false →
      (verdict ≠ .low → verdict ≠ .high → closeAndRaise x c s = closeAccount x c false s) ∧
      (verdict = .low → Logged .energyLow (.station x) (s.cdu.setSeverity .energyLow) s
        (closeAndRaise x c s)) ∧
      (verdict = .high → Logged .energyHigh (.station x) (s.cdu.setSeverity .energyHigh) s
        (closeAndRaise x c s)))) ∧
  (∀ (s : State) (x : StationId) (c : Cycle) (body : TemperatureBody),
    ((∀ v, body ≠ .fresh v true) ∨ (s.st x).pcu.account = none ∨
        (s.st x).seq.state.heating = false ∨ bound s.link.map (.feedback x .temperature) = none ∨
        (∃ a g, (s.st x).pcu.account = some a ∧ (s.segments x)[a.index]? = some g ∧
          (g.window = none ∨ g.kind = .skip)) →
      temperatureHanded x { cycle := c, body := body } s = s) ∧
    (∀ v a g w e, body = .fresh v true → (s.st x).pcu.account = some a →
      (s.st x).seq.state.heating = true → (bound s.link.map (.feedback x .temperature)).isSome = true →
      (s.segments x)[a.index]? = some g → g.kind ≠ .skip → g.window = some w →
      ((s.st x).result.bind fun r => r.entries[a.index]?) = some e →
      let b := { a with tempMin := some (Nat.min (a.tempMin.getD v.toNat) v.toNat),
                        tempMax := some (Nat.max (a.tempMax.getD v.toNat) v.toNat) }
      let t := temperatureHanded x { cycle := c, body := body } s
      (w.low.toNat ≤ v.toNat ∧ v.toNat ≤ w.high.toNat ∨ a.tempRaised = true →
        (t.st x).pcu = { (s.st x).pcu with account := some b } ∧ t.cdu = s.cdu ∧
        ((t.st x).result.bind fun r => r.entries[a.index]?) = some { e with
          measured := Nat.min 4294967295 (a.sum / 1000000), missing := a.missing,
          tempMin := b.tempMin, tempMax := b.tempMax }) ∧
      (v.toNat < w.low.toNat ∨ w.high.toNat < v.toNat → a.tempRaised = false →
        Logged .temperatureWindow (.station x) (s.cdu.setSeverity .temperatureWindow) s t ∧
        ((s.cdu.setSeverity .temperatureWindow).code ≤ 1 →
          (t.st x).pcu = { (s.st x).pcu with account := some { b with tempRaised := true } }))))

/-! ## Quench -/

/-- QUENCH_ISSUE at a report that brings no boundary: a due head that needs no more than its station holds, or is
granted (supply unlimited, RESERVE mode, or the sum within SUPPLY_FLOW), leaves the queue with its set issued and
its valve check running, and the end marker stops the travel and opens the tail; one that does not fit waits
with its due cycle and due position, its wait timer started and its late mark clear. An issue writes its lateness, the
ring's travel ahead of the due position, into the result entry of its origin, which keeps the greater one. That RESERVE
mode grants without asking for a reservation is assumption 25. -/
def Obligations.DueHeadIsIssuedOrWaits : Prop :=
  (∀ (s : State) (x : StationId) (e : QEntry) (i n : Nat) (r : ScanResult) (k : SegEntry),
    OriginEntry (s.segments x) e.origin i →
    LatenessIs (s.direction x) e.due ((s.st x).qsc.report.bind KeptReport.ring) n →
    (s.st x).result = some r → r.entries[i]? = some k →
    ((issueHead x e s).1.st x).result = some
      { r with
        entries := r.entries.set i { k with lateness := some (Nat.max (k.lateness.getD 0) n) } }) ∧
  ∀ (s : State) (x : StationId) (sample : PositionSample) (e : QEntry) (rest : List QEntry),
    Ready s → Sound s → Settled (s.st x) → headDue x sample s = true →
    boundaryOf x sample s = none → (s.st x).qsc.queue = e :: rest →
    ∃ t, exec (.quenchIssue x sample) s = .next t ∧ BlocksKept s t ∧
      ((s.params.supplyFlow = 0 ∨ s.params.supplyMode = .reserve ∨
          flowOf (s.st x).par e.zones ≤ (s.st x).sar.granted ∨
          ((trackerStage x sample s).st x.other).sar.granted + flowOf (s.st x).par e.zones ≤
            s.params.supplyFlow) →
        (∃ done, setsOf (e :: rest) = e.zones :: (done ++ setsOf (t.st x).qsc.queue)) ∧
        (∀ i n, rest = [] → OriginEntry (s.segments x) e.origin i →
          LatenessIs (s.direction x) e.due
            (((trackerStage x sample s).st x).trk.report.bind Report.ring) n →
          LatenessKept x i n s t) ∧
        (∀ i, e.origin = .segment i → rest = [] → (t.st x).qsc.queue = [] ∧
          (t.st x).qsc.lastIssued = e.zones ∧ (t.st x).qsc.held = e.zones ∧
          (t.st x).sar.granted = flowOf (s.st x).par e.zones ∧ (t.st x).sar.waiting = none ∧
          (t.st x).qsc.valve = .running e.zones s.link.count
            ((s.st x).par.valveLag + (s.st x).par.valveCheck)) ∧
        (e.origin = .endMarker → rest = [] ∧ (t.st x).qsc.queue = [] ∧
          (t.st x).sar.waiting = none ∧ (t.st x).seq.travel.mode = .stop ∧
          ((t.st x).seq.phase = some .openZones ∧ (t.st x).qsc.lastIssued = e.zones ∧
              (t.st x).seq.tailTimer = .running (s.tailTime x) ∨
            s.tailTime x = 0 ∧ (t.st x).seq.phase = some .closing ∧
              (t.st x).qsc.lastIssued = 0))) ∧
      (s.params.supplyFlow ≠ 0 → s.params.supplyMode = .share →
        (s.st x).sar.granted < flowOf (s.st x).par e.zones →
        s.params.supplyFlow <
          ((trackerStage x sample s).st x.other).sar.granted + flowOf (s.st x).par e.zones →
        setsOf (t.st x).qsc.queue = setsOf (e :: rest) ∧
        (t.st x).qsc.lastIssued = (s.st x).qsc.lastIssued ∧
        (t.st x).sar.granted = (s.st x).sar.granted ∧
        ∀ d, e.due = some d ∨ (e.due = none ∧ d.cycle = s.link.count ∧
            ((trackerStage x sample s).st x).trk.report.bind Report.ring = some d.position) →
          (t.st x).sar.waiting = some
            { zones := e.zones, flow := flowOf (s.st x).par e.zones, waitStart := d.cycle,
              duePosition := d.position, timer := .running (s.st x).par.quenchWaitMax,
              late := false } ∧
          (t.st x).qsc.queue.head? = some { e with due := some d, waiting := true })

/-- An offer to a quench queue. A segment offer at another base than the tail's adds no entry when its zones are the
reference set, is dropped with QUENCH_QUEUE_FULL on a full queue, and is appended otherwise, where a new head is
tested at once; at the tail's base it removes the tail entry (zones of the entry before it), leaves it (its own
zones) or replaces its zones and origin, and a waiting request follows. The end marker replaces the tail entry at
its base, and else is dropped or appended, on an empty queue as well. Removal where both zone tests hold is
assumption 35, and that RESERVE mode grants without asking for a reservation is assumption 25. -/
def Obligations.OffersJoinOrMergeAtTheTail : Prop :=
  (∀ (s : State) (x : StationId) (b : Int) (z : ZoneSet) (i : Nat),
    (∀ u, (s.st x).qsc.queue.getLast? = some u → u.base ≠ b) →
    ((s.st x).qsc.queue.getLast?.map QEntry.zones).getD (s.st x).qsc.lastIssued = z →
    offerSegment x b z i s = (s, .noEntry)) ∧
  (∀ (s : State) (x : StationId) (b : Int) (z : ZoneSet) (i : Nat) (o : Origin)
    (r : State × OfferAnswer),
    (∀ u, (s.st x).qsc.queue.getLast? = some u → u.base ≠ b) →
    (o = .segment i ∧ r = offerSegment x b z i s ∧
        ((s.st x).qsc.queue.getLast?.map QEntry.zones).getD (s.st x).qsc.lastIssued ≠ z) ∨
      (o = .endMarker ∧ r = offerEnd x b z s) →
    (16 ≤ (s.st x).qsc.queue.length → r.2 = .noEntry ∧
      Logged .quenchQueueFull (.station x) (s.cdu.setSeverity .quenchQueueFull) s r.1 ∧
      ((s.st x).seq.handling = true → (s.st x).sar.waiting = none →
        (r.1.st x).qsc = (s.st x).qsc ∧ (r.1.st x).sar = (s.st x).sar)) ∧
    ((s.st x).qsc.queue ≠ [] → (s.st x).qsc.queue.length < 16 →
      r = (modQsc x (fun q => { q with queue := q.queue ++
        [{ base := b, zones := z, origin := o, due := none, waiting := false }] }) s, .added))) ∧
  (∀ (s : State) (x : StationId) (b : Int) (z : ZoneSet) (i : Nat), (s.st x).qsc.queue = [] →
    (s.st x).sar.waiting = none → (s.st x).qsc.lastIssued ≠ z →
    ∃ t, offerSegment x b z i s = (t, .added) ∧
      ((∀ k p, (s.st x).qsc.report = some k → k.ring = some p →
          aheadBy (s.direction x) p b + ((k.velocity.natAbs * (s.st x).par.valveLag / 1000 : Nat) : Int)
            < 0) →
        t = modQsc x (fun q => { q with queue :=
          [{ base := b, zones := z, origin := .segment i, due := none, waiting := false }] }) s) ∧
      (∀ k p, (s.st x).qsc.report = some k → k.ring = some p →
        0 ≤ aheadBy (s.direction x) p b +
          ((k.velocity.natAbs * (s.st x).par.valveLag / 1000 : Nat) : Int) →
        (s.params.supplyFlow = 0 ∨ s.params.supplyMode = .reserve ∨
            flowOf (s.st x).par z ≤ (s.st x).sar.granted ∨
            (s.st x.other).sar.granted + flowOf (s.st x).par z ≤ s.params.supplyFlow →
          (t.st x).qsc.queue = [] ∧ (t.st x).qsc.lastIssued = z ∧ (t.st x).qsc.held = z ∧
          (t.st x).sar.granted = flowOf (s.st x).par z ∧ (t.st x).sar.waiting = none) ∧
        (s.params.supplyFlow ≠ 0 → s.params.supplyMode = .share →
          (s.st x).sar.granted < flowOf (s.st x).par z →
          s.params.supplyFlow < (s.st x.other).sar.granted + flowOf (s.st x).par z →
          (t.st x).qsc = { (s.st x).qsc with queue :=
            [{ base := b, zones := z, origin := .segment i,
               due := some { cycle := s.link.count, position := p }, waiting := true }] } ∧
          (t.st x).sar = { (s.st x).sar with
            waiting := some
              { zones := z, flow := flowOf (s.st x).par z, waitStart := s.link.count,
                duePosition := p, timer := .running (s.st x).par.quenchWaitMax, late := false } }))) ∧
  (∀ (s : State) (x : StationId) (z : ZoneSet) (i : Nat) (front : List QEntry) (u : QEntry),
    (s.st x).qsc.queue = front ++ [u] →
    ((front.getLast?.map QEntry.zones).getD (s.st x).qsc.lastIssued = z →
      (offerSegment x u.base z i s).2 = .removed ∧
      (u.waiting = false → (offerSegment x u.base z i s).1 =
        modQsc x (fun q => { q with queue := front }) s) ∧
      (u.waiting = true → front = [] → (offerSegment x u.base z i s).1 =
        modSar x (fun a => { a with waiting := none })
          (modQsc x (fun q => { q with queue := [] }) s))) ∧
    ((front.getLast?.map QEntry.zones).getD (s.st x).qsc.lastIssued ≠ z →
      (z = u.zones → offerSegment x u.base z i s = (s, .noEntry)) ∧
      (z ≠ u.zones → u.waiting = false → offerSegment x u.base z i s =
        (modQsc x (fun q => { q with queue := front ++ [{ u with zones := z, origin := .segment i }] })
          s, .replaced)) ∧
      (∀ w, z ≠ u.zones → u.waiting = true → front = [] → (s.st x).sar.waiting = some w →
        (offerSegment x u.base z i s).2 = .replaced ∧
        (s.params.supplyFlow < (s.st x.other).sar.granted + flowOf (s.st x).par z →
          (offerSegment x u.base z i s).1 =
            modSar x (fun a => { a with
                waiting := some { w with zones := z, flow := flowOf (s.st x).par z } })
              (modQsc x (fun q => { q with queue := [{ u with zones := z, origin := .segment i }] }) s)) ∧
        ((s.st x.other).sar.granted + flowOf (s.st x).par z ≤ s.params.supplyFlow →
          ((offerSegment x u.base z i s).1.st x).qsc.queue = [] ∧
          ((offerSegment x u.base z i s).1.st x).qsc.lastIssued = z ∧
          ((offerSegment x u.base z i s).1.st x).sar.granted = flowOf (s.st x).par z ∧
          ((offerSegment x u.base z i s).1.st x).sar.waiting = none))) ∧
    (u.waiting = false → offerEnd x u.base z s =
      (modQsc x (fun q => { q with queue := front ++ [{ u with zones := z, origin := .endMarker }] })
        s, .replaced))) ∧
  (∀ (s : State) (x : StationId) (b : Int) (z : ZoneSet), (s.st x).qsc.queue = [] →
    (s.st x).sar.waiting = none →
    ∃ t, offerEnd x b z s = (t, .added) ∧
      ((∀ k p, (s.st x).qsc.report = some k → k.ring = some p →
          aheadBy (s.direction x) p b + ((k.velocity.natAbs * (s.st x).par.valveLag / 1000 : Nat) : Int)
            < 0) →
        t = modQsc x (fun q => { q with queue :=
          [{ base := b, zones := z, origin := .endMarker, due := none, waiting := false }] }) s) ∧
      (∀ k p f, (s.st x).qsc.report = some k → k.ring = some p →
        (s.st x).seq.profile = some f → f.header.tailTime ≠ 0 →
        0 ≤ aheadBy (s.direction x) p b +
          ((k.velocity.natAbs * (s.st x).par.valveLag / 1000 : Nat) : Int) →
        (s.params.supplyFlow = 0 ∨ s.params.supplyMode = .reserve ∨
            flowOf (s.st x).par z ≤ (s.st x).sar.granted ∨
            (s.st x.other).sar.granted + flowOf (s.st x).par z ≤ s.params.supplyFlow →
          (t.st x).qsc.queue = [] ∧ (t.st x).qsc.lastIssued = z ∧
          (t.st x).sar.granted = flowOf (s.st x).par z ∧ (t.st x).sar.waiting = none ∧
          (t.st x).seq.phase = some .openZones ∧
          (t.st x).seq.tailTimer = .running f.header.tailTime.toNat)))

/-- SUPPLY_GRANT: a waiting request that fits beside the other station's granted flow is granted and its set issued,
its lateness written into its result entry; one that does not fit goes on waiting. While it waits, a report whose ring
has travelled more than QUENCH_LATE_DIST ahead of the due position makes it late: QUENCH_LATE is raised and the late
mark set, at ABORT and HALT_ALL the station is halted and the request withdrawn; any other report, and one of a request
that is late already, changes nothing. -/
def Obligations.SupplyGrantServesTheWaitingRequest : Prop :=
  (∀ (s t : State) (x : StationId) (k : Report), t = lateByDistance x k s →
    ((s.st x).sar.waiting = none ∨ k.ring = none → t = s) ∧
    (∀ w p, (s.st x).sar.waiting = some w → k.ring = some p →
      (w.late = true ∨
          aheadBy (s.direction x) p w.duePosition ≤ ((s.st x).par.quenchLateDist : Int) → t = s) ∧
      (w.late = false → ((s.st x).par.quenchLateDist : Int) < aheadBy (s.direction x) p w.duePosition →
        Logged .quenchLate (.station x) (s.cdu.setSeverity .quenchLate) s t ∧
        ((s.cdu.setSeverity .quenchLate).code ≤ 1 →
          (t.st x).sar = { (s.st x).sar with waiting := some { w with late := true } } ∧
          (t.st x).qsc = (s.st x).qsc) ∧
        (2 ≤ (s.cdu.setSeverity .quenchLate).code → (s.st x).seq.state.haltable = true →
          Settled (s.st x) → Halted (t.st x) ∧ (t.st x).sar.waiting = none ∧
            (t.st x).seq.haltCause = some (.cond .quenchLate))))) ∧
  (∀ (s u : State) (x : StationId) (sample : PositionSample) (w : Waiting) (k : Report) (p : Int),
    u = trackerStage x sample s → (u.st x).seq.state.testing = true → Settled (u.st x) →
    boundaryOf x sample s = none → (u.st x).sar.waiting = some w → (u.st x).trk.report = some k →
    k.ring = some p → w.late = false →
    ((u.st x).par.quenchLateDist : Int) < aheadBy (u.direction x) p w.duePosition →
    Logged .quenchLate (.station x) (u.cdu.setSeverity .quenchLate) u (positionHanded x sample s)) ∧
  ∀ (s : State) (x : StationId), s.vdd = true →
    ((s.st x).sar.waiting = none → exec (.supplyGrant x) s = .next s) ∧
    (∀ w, (s.st x).sar.waiting = some w →
      (s.params.supplyFlow < (s.st x.other).sar.granted + w.flow →
        exec (.supplyGrant x) s = .next s) ∧
      (Sound s → (s.st x.other).sar.granted + w.flow ≤ s.params.supplyFlow →
        ∃ t, exec (.supplyGrant x) s = .next t ∧ BlocksKept s t ∧ t.cdu = s.cdu ∧
          (∃ done, setsOf (s.st x).qsc.queue = w.zones :: (done ++ setsOf (t.st x).qsc.queue)) ∧
          (∀ e i n, (s.st x).qsc.queue = [e] → OriginEntry (s.segments x) e.origin i →
            LatenessIs (s.direction x) e.due ((s.st x).qsc.report.bind KeptReport.ring) n →
            LatenessKept x i n s t) ∧
          (∀ e i, (s.st x).qsc.queue = [e] → e.origin = .segment i →
            (t.st x).qsc.queue = [] ∧ (t.st x).qsc.lastIssued = w.zones ∧
            (t.st x).qsc.held = w.zones ∧ (t.st x).sar.granted = w.flow ∧
            (t.st x).sar.waiting = none) ∧
          (∀ e, (s.st x).qsc.queue = [e] → e.origin = .endMarker →
            (t.st x).qsc.queue = [] ∧ (t.st x).sar.waiting = none ∧
            (t.st x).seq.travel.mode = .stop ∧
            ((t.st x).seq.phase = some .openZones ∧ (t.st x).qsc.lastIssued = w.zones ∧
                (t.st x).seq.tailTimer = .running (s.tailTime x) ∨
              (s.tailTime x = 0 ∧ (t.st x).seq.phase = some .closing ∧
                (t.st x).qsc.lastIssued = 0)))))

/-- VALVE_CHECK_PASS: a later sample that shows the set under check with the manifold OK passes the check and
arms the flow check; in CLOSING it brings FINISHING. -/
def Obligations.ValveCheckPassArmsTheFlowCheck : Prop :=
  ∀ (s : State) (x : StationId) (z : ZoneSet) (issued c : Cycle) (d : Nat) (flow : BitVec 16), Ready s →
    (s.st x).seq.state.active = true → StationSound (s.st x) → Settled (s.st x) →
    (s.st x).qsc.valve = .running z issued d → laterThan c issued = true →
    ∃ t, exec (.valveCheckPass x { cycle := c, body := .fresh z .ok flow }) s = .next t ∧
      BlocksKept s t ∧ t.cdu = s.cdu ∧ t.st x.other = s.st x.other ∧
      ((s.st x).qsc.closing = false →
        (t.st x).qsc = { (s.st x).qsc with
          valve := .passed, flowCheck := if z = 0 then .disarmed else .armed 0 c,
          faultRun := false } ∧
        { t.st x with qsc := (s.st x).qsc } = s.st x) ∧
      ((s.st x).qsc.closing = true → (s.st x).seq.state = .tail →
        (s.st x).seq.phase = some .closing →
        (t.st x).qsc.closing = false ∧
        ((t.st x).seq.state = .tail ∧ (t.st x).seq.phase = some .finishing ∨
          (t.st x).seq.state = .complete ∧ (t.st x).seq.phase = none))

/-! ## Service requests -/

/-- IDENT returns the fixed identity, a request of no code of the table UNKNOWN_REQUEST, and SAMPLE_READ the sample
record as it stands; none changes anything but the held reply (the widths of the identity's fields are assumption
20). -/
def Obligations.IdentAndSampleReadReturnWhatIsHeld : Prop :=
  (∀ (s : State) (tag : Byte), Ready s →
    exec (.ident tag []) s =
      .next (replied tag .ok [0x04, 0xB7, 0x01, 0xE0, 1, 2, 16, 16, 48, 8, 16, 8, 28] s)) ∧
  (∀ (s : State) (tag b : Byte) (p : List Byte), Ready s →
    exec (.ident tag (b :: p)) s = .next (replied tag .badArgument [] s)) ∧
  (∀ (s : State) (tag code : Byte) (p : List Byte), Ready s → code = 0 ∨ 31 < code.toNat →
    exec (.unknownRequest tag code p) s = .next (replied tag .unknownRequest [] s)) ∧
  (∀ (s : State) (tag : Byte), Ready s →
    (∀ (x : StationId) (f : Feedback) (g : Byte) (r : SampleRecord),
      (f = .position ∧ g = 0) ∨ (f = .powerActual ∧ g = 1) ∨ (f = .quenchActual ∧ g = 2) ∨
        (f = .temperature ∧ g = 3) →
      r = sampleOf f (s.link.samples.get x) →
      exec (.sampleRead tag [stationCode x, g]) s = .next (replied tag .ok
        ([if r.fresh = true then 0 else 1] ++
          (match r.value with
            | some v => 1 :: v.toList
            | none => [0, 0, 0, 0, 0, 0, 0, 0, 0]) ++
          be32 (if r.value = none then 0 else r.cycle) ++
          [BitVec.ofNat 8 r.missCount, if r.missRun = true then 1 else 0]) s)) ∧
    (∀ b g : Byte, 1 < b.toNat ∨ 3 < g.toNat →
      exec (.sampleRead tag [b, g]) s = .next (replied tag .badArgument [] s)))

/-- PARAM_READ returns the value of every parameter of the table, and BAD_ARGUMENT for a number or a station that is
none; that the reply repeats the station byte sent for a parameter of the part is assumption 53. PARAM_WRITE within
the range, with RETURN_TIMEOUT at least 100 µs below CYCLE_TIME and the parameter's station at rest, is read back and
leaves every other parameter reading as before; a value outside the range, or the timing broken, is BAD_ARGUMENT, and
an active station IN_USE. -/
def Obligations.WrittenParameterReadsBack : Prop :=
  (∀ (s : State) (tag n b : Byte) (x : StationId), Ready s →
    (∀ v, (n.toNat, v) ∈ globalTable s.params →
      exec (.paramRead tag [n, b]) s = .next (replied tag .ok (n :: b :: be32 v) s)) ∧
    (∀ v, (n.toNat, v) ∈ stationTable (s.st x).par →
      exec (.paramRead tag [n, stationCode x]) s =
        .next (replied tag .ok (n :: stationCode x :: be32 v) s)) ∧
    (n.toNat ∉ parameterTable.map Prod.fst ∨ (6 < n.toNat ∧ 1 < b.toNat) →
      exec (.paramRead tag [n, b]) s = .next (replied tag .badArgument [] s))) ∧
  (∀ (s : State) (tag tag' n b v0 v1 v2 v3 : Byte) (v lo hi : Nat) (x : StationId), Ready s →
    (n.toNat, lo, hi) ∈ parameterTable → v = (word32 v0 v1 v2 v3).toNat →
    (n.toNat ≤ 6 ∨ b = stationCode x) →
    (lo ≤ v → v ≤ hi → (n = 1 → v % 250 = 0 ∧ s.params.returnTimeout + 100 ≤ v) →
      (n = 2 → v + 100 ≤ s.params.cycleTime) →
      ((n.toNat ≤ 6 ∧ s.active .a = false ∧ s.active .b = false) ∨
          (6 < n.toNat ∧ s.active x = false) →
        ∃ t, exec (.paramWrite tag [n, b, v0, v1, v2, v3]) s = .next t ∧
          t.link.heldReply = some { tag := tag, status := .ok, payload := [] } ∧
          exec (.paramRead tag' [n, b]) t = .next (replied tag' .ok [n, b, v0, v1, v2, v3] t) ∧
          (∀ m c : Byte, m ≠ n ∨ (6 < n.toNat ∧ c ≠ b) → ∃ r p,
            exec (.paramRead tag' [m, c]) s = .next (replied tag' r p s) ∧
            exec (.paramRead tag' [m, c]) t = .next (replied tag' r p t)) ∧
          { t with params := s.params, stations := s.stations, link := s.link } = s ∧
          { t.link with heldReply := s.link.heldReply } = s.link ∧
          (∀ y, { t.st y with par := (s.st y).par } = s.st y) ∧
          (6 < n.toNat → t.params = s.params ∧ t.st x.other = s.st x.other) ∧
          (n.toNat ≤ 6 → t.stations = s.stations)) ∧
      ((n.toNat ≤ 6 ∧ (s.active .a = true ∨ s.active .b = true)) ∨
          (6 < n.toNat ∧ s.active x = true) →
        exec (.paramWrite tag [n, b, v0, v1, v2, v3]) s = .next (replied tag .inUse [] s))) ∧
    (v < lo ∨ hi < v ∨ (n = 1 ∧ (v % 250 ≠ 0 ∨ v < s.params.returnTimeout + 100)) ∨
        (n = 2 ∧ s.params.cycleTime < v + 100) →
      exec (.paramWrite tag [n, b, v0, v1, v2, v3]) s = .next (replied tag .badArgument [] s)))

/-- MAP_READ returns each entry as it stands, an empty one with its fields absent, and BAD_ARGUMENT above 15.
MAP_WRITE of a free slot id and signal is read back, leaves every other entry, and clears the runs of the signal the
entry bound, also when it is written as it stood (assumption 54); one that clashes, or names a slot id or writer
outside the ranges, is BAD_ARGUMENT, and an active station IN_USE. One with the mark empty empties its entry,
whatever its slot id, signal and writer (assumption 43), its required byte absent, as MAP_READ replies it, or a flag;
flags that are none, and a signal that is none, are BAD_ARGUMENT. -/
def Obligations.WrittenMapEntryReadsBack : Prop :=
  (∀ (s : State) (tag tag' i id w : Byte) (g : Signal) (r : Bool), Ready s →
    (i.toNat ≤ 15 → 1 ≤ id.toNat → id.toNat ≤ 250 → w.toNat ≤ 62 →
      (∀ j f, j ≠ i.toNat → mapEntry s.link.map j = some f → f.slotId ≠ id ∧ f.signal ≠ g) →
      (s.active .a = false → s.active .b = false →
        ∃ t, exec (.mapWrite tag [i, 1, id, g.code, w, flagByte r]) s = .next t ∧
          { t with link := s.link } = s ∧
          t.link.heldReply = some { tag := tag, status := .ok, payload := [] } ∧
          (∀ j, mapEntry t.link.map j = if j = i.toNat then
            some { slotId := id, signal := g, writer := w, required := r }
            else mapEntry s.link.map j) ∧
          RunsCleared ((mapEntry s.link.map i.toNat).map MapEntry.signal) s.link t.link ∧
          t.link.count = s.link.count ∧ t.link.state = s.link.state ∧ t.link.wait = s.link.wait ∧
          exec (.mapRead tag' [i]) t =
            .next (replied tag' .ok [i, 1, id, g.code, w, flagByte r] t)) ∧
      (s.active .a = true ∨ s.active .b = true →
        exec (.mapWrite tag [i, 1, id, g.code, w, flagByte r]) s =
          .next (replied tag .inUse [] s))) ∧
    (15 < i.toNat ∨ id = 0 ∨ 250 < id.toNat ∨ 62 < w.toNat ∨
        (∃ j f, j < 16 ∧ j ≠ i.toNat ∧ mapEntry s.link.map j = some f ∧
          (f.slotId = id ∨ f.signal = g)) →
      exec (.mapWrite tag [i, 1, id, g.code, w, flagByte r]) s =
        .next (replied tag .badArgument [] s))) ∧
  (∀ (s : State) (tag i : Byte), Ready s →
    (i.toNat ≤ 15 → mapEntry s.link.map i.toNat = none →
      exec (.mapRead tag [i]) s = .next (replied tag .ok [i, 0, 255, 255, 255, 255] s)) ∧
    (∀ e, mapEntry s.link.map i.toNat = some e →
      exec (.mapRead tag [i]) s = .next (replied tag .ok
        [i, 1, e.slotId, e.signal.code, e.writer, flagByte e.required] s)) ∧
    (15 < i.toNat → exec (.mapRead tag [i]) s = .next (replied tag .badArgument [] s))) ∧
  (∀ (s : State) (tag i id g w b r : Byte), Ready s →
    (1 < b.toNat ∨ (1 < r.toNat ∧ (b = 1 ∨ r ≠ 255)) ∨ (b = 1 ∧ 15 < g.toNat) ∨ 15 < i.toNat →
      exec (.mapWrite tag [i, b, id, g, w, r]) s = .next (replied tag .badArgument [] s)) ∧
    (i.toNat ≤ 15 → r.toNat ≤ 1 ∨ r = 255 →
      (s.active .a = true ∨ s.active .b = true →
        exec (.mapWrite tag [i, 0, id, g, w, r]) s = .next (replied tag .inUse [] s)) ∧
      (s.active .a = false → s.active .b = false →
        ∃ t, exec (.mapWrite tag [i, 0, id, g, w, r]) s = .next t ∧ { t with link := s.link } = s ∧
          t.link.heldReply = some { tag := tag, status := .ok, payload := [] } ∧
          RunsCleared ((mapEntry s.link.map i.toNat).map MapEntry.signal) s.link t.link ∧
          t.link.count = s.link.count ∧ t.link.state = s.link.state ∧ t.link.wait = s.link.wait ∧
          ∀ j, mapEntry t.link.map j = if j = i.toNat then none else mapEntry s.link.map j)))

/-- PROGRAM_READ returns each step as it stands, and BAD_ARGUMENT for a station, program or step that is none.
PROGRAM_WRITE of a step of a station at rest is read back and leaves every other step; a step above 7 or a delay
code above 15 is BAD_ARGUMENT, and an active station IN_USE. -/
def Obligations.WrittenProgramStepReadsBack : Prop :=
  (∀ (s : State) (tag tag' p i d : Byte) (x : StationId) (g : ProgStep) (pr : Program), Ready s →
    programOf p = some pr → g.delay = d.toNat →
    (i.toNat ≤ 7 → d.toNat ≤ 15 →
      (s.active x = false →
        ∃ t, exec (.programWrite tag [stationCode x, p, i, d, g.permit.code, g.qforce.code,
              g.spin.code, flagByte g.last]) s = .next t ∧
          t.link = { s.link with
            heldReply := some { tag := tag, status := .ok, payload := [] } } ∧
          t.params = s.params ∧ t.store = s.store ∧ t.cdu = s.cdu ∧ t.st x.other = s.st x.other ∧
          { t.st x with eng := { (t.st x).eng with table := (s.st x).eng.table } } = s.st x ∧
          (∀ q j, j ≤ 7 → t.progStep x q j =
            if q = pr ∧ j = i.toNat then g else s.progStep x q j) ∧
          exec (.programRead tag' [stationCode x, p, i]) t =
            .next (replied tag' .ok [stationCode x, p, i, d, g.permit.code, g.qforce.code,
              g.spin.code, flagByte g.last] t)) ∧
      (s.active x = true →
        exec (.programWrite tag [stationCode x, p, i, d, g.permit.code, g.qforce.code,
          g.spin.code, flagByte g.last]) s = .next (replied tag .inUse [] s))) ∧
    (7 < i.toNat ∨ 15 < d.toNat →
      exec (.programWrite tag [stationCode x, p, i, d, g.permit.code, g.qforce.code,
        g.spin.code, flagByte g.last]) s = .next (replied tag .badArgument [] s))) ∧
  (∀ (s : State) (tag b p i : Byte) (x : StationId) (pr : Program), Ready s →
    (1 < b.toNat ∨ 2 < p.toNat ∨ 7 < i.toNat →
      exec (.programRead tag [b, p, i]) s = .next (replied tag .badArgument [] s)) ∧
    (i.toNat ≤ 7 → p = (match pr with | .start => 0 | .finish => 1 | .halt => 2) →
      exec (.programRead tag [stationCode x, p, i]) s = .next (replied tag .ok
        [stationCode x, p, i, BitVec.ofNat 8 (s.progStep x pr i.toNat).delay,
          (s.progStep x pr i.toNat).permit.code, (s.progStep x pr i.toNat).qforce.code,
          (s.progStep x pr i.toNat).spin.code, flagByte (s.progStep x pr i.toNat).last] s)))

/-- PROFILE_OPEN: the refusals in their order, then staging with cleared values (NEW) or with the stored
profile (EDIT). -/
def Obligations.ProfileOpenFillsStaging : Prop :=
  ∀ (s : State) (tag b : Byte) (n : Fin 16), Ready s → b.toNat = n.val →
    let e := s.store.directory.get n
    let busy := s.store.staging.isSome || s.store.wholeBusy || s.store.busyOn n
    (exec (.profileOpen tag [b, 0]) s =
      if busy then .next (replied tag .busy [] s)
      else if e.writeProtected then .next (replied tag .isProtected [] s)
      else .next (replied tag .ok [] { s with store := { s.store with
        staging := some { number := n, header := clearedHeader,
                          slots := Vector.replicate 48 clearedSegment, count := 0,
                          committing := false } } })) ∧
    (busy = true → exec (.profileOpen tag [b, 1]) s = .next (replied tag .busy [] s)) ∧
    (busy = false → e.writeProtected = true ∨ e.readProtected = true →
      exec (.profileOpen tag [b, 1]) s = .next (replied tag .isProtected [] s)) ∧
    (busy = false → e.writeProtected = false → e.readProtected = false →
      (e.state = .empty ∨ e.state = .corrupt →
        exec (.profileOpen tag [b, 1]) s = .next (replied tag .notFound [] s)) ∧
      (e.state = .valid ∨ e.state = .writing →
        ∃ g, exec (.profileOpen tag [b, 1]) s = .next (replied tag .ok []
            { s with store := { s.store with staging := some g } }) ∧
          g.number = n ∧ g.header = (s.store.profiles.get n).header ∧ g.count = e.count ∧
          g.committing = false ∧
          ∀ j : Fin 48, g.slots.get j =
            if j.val < e.count then ((s.store.profiles.get n).segments[j.val]?).getD clearedSegment
            else clearedSegment))

/-- HEADER_WRITE: NOT_FOUND, BUSY, BAD_ARGUMENT for a value that is not named, else the whole header as it was sent;
a refused write leaves staging as it was. SEGMENT_WRITE replaces one slot and raises the count; a window mark other
than 0 and 1 is BAD_ARGUMENT before the staging tests (the model's choice, assumption 19), and window bytes beside
the mark 0 are dropped (assumption 57); SEGMENT_TRUNCATE lowers the count and clears the slots from it on.
PROFILE_CANCEL closes staging and discards its content, and nothing else changes. -/
def Obligations.StagingRequestsWriteStagingAlone : Prop :=
  (∀ (s : State) (tag : Byte) (p : Vector Byte 26), Ready s →
    (s.store.staging = none →
      exec (.headerWrite tag p.toList) s = .next (replied tag .notFound [] s)) ∧
    ∀ g, s.store.staging = some g →
      (g.committing = true → exec (.headerWrite tag p.toList) s = .next (replied tag .busy [] s)) ∧
      (g.committing = false →
        (1 < p[0].toNat ∨ 2 < p[17].toNat ∨
            (∃ j : Fin 26, 18 ≤ j.val ∧ ((p.get j).toNat < 32 ∨ 126 < (p.get j).toNat)) →
          exec (.headerWrite tag p.toList) s = .next (replied tag .badArgument [] s)) ∧
        (p[0].toNat ≤ 1 → p[17].toNat ≤ 2 →
            (∀ j : Fin 26, 18 ≤ j.val → 32 ≤ (p.get j).toNat ∧ (p.get j).toNat ≤ 126) →
          ∃ h, headerBytes h = p.toList ∧
            exec (.headerWrite tag p.toList) s = .next (replied tag .ok []
              { s with store := { s.store with staging := some { g with header := h } } })))) ∧
  ((∀ (s : State) (tag i : Byte) (rec_ : Vector Byte 19) (g : Staging), Ready s →
    s.store.staging = some g → g.committing = false → rec_[14].toNat ≤ 1 →
    (47 < i.toNat ∨ 2 < rec_[4].toNat ∨ 1 < rec_[7].toNat ∨ rec_[8].toNat = 0 ∨ 2 < rec_[8].toNat →
      exec (.segmentWrite tag (i :: rec_.toList)) s = .next (replied tag .badArgument [] s)) ∧
    (i.toNat ≤ 47 → rec_[4].toNat ≤ 2 → rec_[7].toNat ≤ 1 → 1 ≤ rec_[8].toNat → rec_[8].toNat ≤ 2 →
      ∃ g' r, exec (.segmentWrite tag (i :: rec_.toList)) s = .next (replied tag .ok []
          { s with store := { s.store with staging := some g' } }) ∧
        (segmentBytes r).take 15 = rec_.toList.take 15 ∧
        (rec_[14] = 1 → segmentBytes r = rec_.toList) ∧ (rec_[14] = 0 → r.window = none) ∧
        g'.number = g.number ∧ g'.header = g.header ∧ g'.committing = false ∧
        g'.count = Nat.max g.count (i.toNat + 1) ∧
        ∀ j : Fin 48, g'.slots.get j = if j.val = i.toNat then r else g.slots.get j)) ∧
  (∀ (s : State) (tag c : Byte) (g : Staging), Ready s → s.store.staging = some g →
    g.committing = false →
    (48 < c.toNat → exec (.segmentTruncate tag [c]) s = .next (replied tag .badArgument [] s)) ∧
    (c.toNat ≤ 48 → g.count ≤ c.toNat →
      exec (.segmentTruncate tag [c]) s = .next (replied tag .ok [] s)) ∧
    (c.toNat ≤ 48 → c.toNat < g.count →
      ∃ g', exec (.segmentTruncate tag [c]) s = .next (replied tag .ok []
          { s with store := { s.store with staging := some g' } }) ∧
        g'.number = g.number ∧ g'.header = g.header ∧ g'.count = c.toNat ∧
        ∀ j : Fin 48, g'.slots.get j = if j.val < c.toNat then g.slots.get j else clearedSegment)) ∧
  (∀ (s : State) (tag i c : Byte) (rec_ : Vector Byte 19), Ready s → rec_[14].toNat ≤ 1 →
    (s.store.staging = none →
      exec (.segmentWrite tag (i :: rec_.toList)) s = .next (replied tag .notFound [] s) ∧
      exec (.segmentTruncate tag [c]) s = .next (replied tag .notFound [] s)) ∧
    (s.store.committing = true →
      exec (.segmentWrite tag (i :: rec_.toList)) s = .next (replied tag .busy [] s) ∧
      exec (.segmentTruncate tag [c]) s = .next (replied tag .busy [] s))) ∧
  (∀ (s : State) (tag i : Byte) (rec_ : Vector Byte 19), Ready s → 1 < rec_[14].toNat →
    exec (.segmentWrite tag (i :: rec_.toList)) s = .next (replied tag .badArgument [] s))) ∧
  (∀ (s : State) (tag : Byte), Ready s →
    (s.store.committing = true →
      exec (.profileCancel tag []) s = .next (replied tag .busy [] s)) ∧
    (s.store.committing = false →
      exec (.profileCancel tag []) s =
        .next (replied tag .ok [] { s with store := { s.store with staging := none } })) ∧
    (s.store.staging = none → exec (.profileCancel tag []) s = .next (replied tag .ok [] s)))

/-- PROFILE_COMMIT: the refusals in their order, a failed validation recorded and answered with its index and reason,
else ACCEPTED with the operation running on a copy of the staging content. PROFILE_ERASE, PROFILE_PROTECT and
STORE_CLEAR: BUSY while a long operation runs, their refusals, else ACCEPTED with the operation running and the
directory as it was (bits 2 to 7 of the protections byte are not looked at: assumption 42). -/
def Obligations.LongRequestsAreExaminedInOrder : Prop :=
  (∀ (s : State) (tag : Byte), Ready s →
    (s.store.running ≠ none → exec (.profileCommit tag []) s = .next (replied tag .busy [] s)) ∧
    (s.store.running = none → s.store.staging = none →
      exec (.profileCommit tag []) s = .next (replied tag .notFound [] s)) ∧
    ∀ g, s.store.running = none → s.store.staging = some g → g.committing = false →
      ((s.store.directory.get g.number).writeProtected = true →
        exec (.profileCommit tag []) s = .next (replied tag .isProtected [] s)) ∧
      ((s.store.directory.get g.number).writeProtected = false →
        (∀ f, validate g.header (g.slots.toList.take g.count) = some f →
          exec (.profileCommit tag []) s =
            .next (replied tag .invalidProfile [BitVec.ofNat 8 f.index, f.reason.code]
              { s with store := { s.store with
                register := { operation := .commit, profile := some g.number,
                              result := some (.invalid f) } } })) ∧
        (validate g.header (g.slots.toList.take g.count) = none →
          (s.store.inUse.a = some g.number ∨ s.store.inUse.b = some g.number →
            exec (.profileCommit tag []) s = .next (replied tag .inUse [] s)) ∧
          (s.store.inUse.a ≠ some g.number → s.store.inUse.b ≠ some g.number →
            exec (.profileCommit tag []) s =
              .next (replied tag .accepted [] { s with store := { s.store with
                directory := s.store.directory.set g.number
                  { s.store.directory.get g.number with state := .writing },
                staging := some { g with committing := true },
                register := { operation := .commit, profile := some g.number, result := none },
                work := .commit { header := g.header, segments := g.slots.toList.take g.count }
                  (s.store.directory.get g.number).state } }))))) ∧
  (∀ (s : State) (tag b f : Byte) (n : Fin 16), Ready s → b.toNat = n.val →
    (s.store.running ≠ none →
      exec (.profileErase tag [b]) s = .next (replied tag .busy [] s) ∧
      exec (.profileProtect tag [b, f]) s = .next (replied tag .busy [] s) ∧
      exec (.storeClear tag []) s = .next (replied tag .busy [] s)) ∧
    (s.store.running = none →
      (exec (.profileErase tag [b]) s =
        if (s.store.directory.get n).writeProtected then .next (replied tag .isProtected [] s)
        else if s.store.inUse.a = some n ∨ s.store.inUse.b = some n then
          .next (replied tag .inUse [] s)
        else .next (replied tag .accepted [] { s with store := { s.store with
          register := { operation := .erase, profile := some n, result := none },
          work := .none } })) ∧
      (exec (.profileProtect tag [b, f]) s =
        if f.getLsbD 0 = false ∧ f.getLsbD 1 = false then .next (replied tag .badArgument [] s)
        else if (s.store.directory.get n).state ≠ .valid then .next (replied tag .notFound [] s)
        else if s.store.inUse.a = some n ∨ s.store.inUse.b = some n then
          .next (replied tag .inUse [] s)
        else .next (replied tag .accepted [] { s with store := { s.store with
          register := { operation := .protect, profile := some n, result := none },
          work := .protect (f.getLsbD 0) (f.getLsbD 1) } })) ∧
      (exec (.storeClear tag []) s =
        if s.active .a = true ∨ s.active .b = true then .next (replied tag .inUse [] s)
        else .next (replied tag .accepted [] { s with store := { s.store with
          register := { operation := .clear, profile := none, result := none },
          work := .none, staging := none } }))))

/-- Validation passes exactly the profiles that no test of R12 rejects, and answers any other with the index and
reason of the first test that rejects it, in the order of R12. -/
def Obligations.ValidationPassesExactlyTheValidProfiles : Prop :=
  (∀ (h : Header) (segs : List Segment),
    validate h segs = none ↔
      segs ≠ [] ∧ 5000 ≤ h.quenchOffset.toNat ∧ h.quenchOffset.toNat ≤ 150000 ∧
      h.tailTime.toNat ≤ 60000 ∧ h.energyTol.toNat ≤ 50 ∧
      (∀ g ∈ segs, g.power.toNat ≤ 20000 ∧
        (g.kind = .dwell → 1 ≤ g.speed.toNat ∧ g.speed.toNat ≤ 60000) ∧
        (g.kind ≠ .dwell → 100 ≤ g.speed.toNat ∧ g.speed.toNat ≤ 200000) ∧
        (∀ w, g.window = some w → w.high.toNat ≤ 1400 ∧ w.low.toNat ≤ w.high.toNat) ∧
        (g.kind = .skip → g.power = 0)) ∧
      (∀ g, segs[0]? = some g → g.start = h.start) ∧
      (∀ i g k, segs[i]? = some g → segs[i + 1]? = some k →
        (g.kind = .dwell → k.start = g.start ∧ k.kind ≠ .dwell) ∧
        (g.kind ≠ .dwell → 1000 ≤ aheadBy h.direction k.start.toInt g.start.toInt)) ∧
      (∀ g, segs.getLast? = some g → g.kind ≠ .dwell ∧
        1000 ≤ aheadBy h.direction h.finish.toInt g.start.toInt)) ∧
  (∀ h : Header, validate h [] = some { index := 255, reason := .empty }) ∧
  (∀ (h : Header) (segs : List Segment), segs ≠ [] → HeaderOut h →
    validate h segs = some { index := 255, reason := .range }) ∧
  (∀ (h : Header) (segs : List Segment) (i : Nat) (r : Reason) (before behind : List Reason),
    ¬HeaderOut h → testOrder = before ++ r :: behind → Rejects h segs i r →
    (∀ q ∈ before, ¬Rejects h segs i q) → (∀ j q, j < i → q ∈ testOrder → ¬Rejects h segs j q) →
    validate h segs = some { index := if r = .length then i - 1 else i, reason := r }) ∧
  (∀ (h : Header) (segs : List Segment) (g : Segment), segs.getLast? = some g → ¬HeaderOut h →
    (∀ j q, q ∈ testOrder → ¬Rejects h segs j q) →
    (aheadBy h.direction h.finish.toInt g.start.toInt ≤ 0 →
      validate h segs = some { index := segs.length - 1, reason := .endOrder }) ∧
    (0 < aheadBy h.direction h.finish.toInt g.start.toInt →
      (h.finish.toInt - g.start.toInt).natAbs < 1000 →
      validate h segs = some { index := segs.length - 1, reason := .length }))

/-- HEADER_READ, SEGMENT_READ, DIR_READ (up to three entries, ending at entry 15) and OP_QUERY answer with the
stored records, and change nothing but the held reply; a profile number above 15 is BAD_ARGUMENT. -/
def Obligations.StoreReadsReturnTheStoredRecords : Prop :=
  ∀ (s : State) (tag b i : Byte) (n : Fin 16), Ready s → b.toNat = n.val →
    let e := s.store.directory.get n
    let busy := s.store.wholeBusy = true ∨ e.state = .writing
    (busy → exec (.headerRead tag [b]) s = .next (replied tag .busy [] s) ∧
      exec (.segmentRead tag [b, i]) s = .next (replied tag .busy [] s)) ∧
    (¬busy → e.state = .empty ∨ e.state = .corrupt →
      exec (.headerRead tag [b]) s = .next (replied tag .notFound [] s) ∧
      exec (.segmentRead tag [b, i]) s = .next (replied tag .notFound [] s)) ∧
    (¬busy → e.state = .valid → e.readProtected = true →
      exec (.headerRead tag [b]) s = .next (replied tag .isProtected [] s) ∧
      exec (.segmentRead tag [b, i]) s = .next (replied tag .isProtected [] s)) ∧
    (¬busy → e.state = .valid → e.readProtected = false →
      exec (.headerRead tag [b]) s =
          .next (replied tag .ok (headerBytes (s.store.profiles.get n).header) s) ∧
        (e.count ≤ i.toNat →
          exec (.segmentRead tag [b, i]) s = .next (replied tag .badArgument [] s)) ∧
        (∀ g, i.toNat < e.count → (s.store.profiles.get n).segments[i.toNat]? = some g →
          exec (.segmentRead tag [b, i]) s = .next (replied tag .ok (segmentBytes g) s))) ∧
    (∃ p, exec (.dirRead tag [b]) s = .next (replied tag .ok p s) ∧
      p.length = 16 * Nat.min 3 (16 - n.val) ∧
      ∀ m : Fin 16, n.val ≤ m.val → m.val ≤ n.val + 2 →
        let f := s.store.directory.get m
        (p.drop (16 * (m.val - n.val))).take 16 = [f.state.code, f.affinity.code,
          (if f.writeProtected then 1 else 0) ||| (if f.readProtected then 2 else 0) |||
            (if s.store.staging.any (fun g => g.number = m) then 4 else 0), BitVec.ofNat 8 f.count] ++
          (f.label.toList ++ (be16 (BitVec.ofNat 16 f.revision) ++ be16 f.check))) ∧
    (∀ c : Byte, 15 < c.toNat →
      exec (.headerRead tag [c]) s = .next (replied tag .badArgument [] s) ∧
      exec (.segmentRead tag [c, i]) s = .next (replied tag .badArgument [] s) ∧
      exec (.dirRead tag [c]) s = .next (replied tag .badArgument [] s)) ∧
    exec (.opQuery tag []) s = .next (replied tag .ok
      ([s.store.register.operation.code,
        (match s.store.register.profile with | some m => BitVec.ofNat 8 m.val | none => 255),
        if s.store.register.result.isNone then 1 else 2] ++
      (match s.store.register.result with
        | none => [255, 255, 255]
        | some .ok => [0, 255, 255]
        | some .writeFailed => [1, 255, 255]
        | some (.invalid v) => [2, BitVec.ofNat 8 v.index, v.reason.code])) s)

/-- COND_READ of an entry returns its fields, and of code 0 the pending flags of all entries and the ATTENTION flag
of each station, set while an entry of that station or of the part is pending with a last severity at or above the
ATTENTION_LEVEL in force, which is that of the last return pass (R166, R184); it changes nothing. COND_TAKE takes the
pending entry with the highest last severity, then the lowest code, then A before B; it clears that entry's pending
flag and nothing else. -/
def Obligations.CondReadAndTakeServeTheTable : Prop :=
  (∀ (s : State) (tag : Byte), Ready s →
    (∀ (c : Cond) (sc : Scope), exec (.condRead tag [BitVec.ofNat 8 c.code, sc.code]) s =
      if scopeFits c sc then .next (replied tag .ok
        (flagByte (s.cdu.entry c sc).pending :: BitVec.ofNat 8 (s.cdu.entry c sc).count ::
          ((match (s.cdu.entry c sc).lastCycle with
            | some y => 1 :: be32 y | none => [0, 0, 0, 0, 0]) ++
          [match (s.cdu.entry c sc).lastSeverity with
            | some v => BitVec.ofNat 8 v.code | none => 255])) s)
      else .next (replied tag .badArgument [] s)) ∧
    (∀ (b i : Byte), 28 < b.toNat ∨ (b ≠ 0 ∧ 2 < i.toNat) →
      exec (.condRead tag [b, i]) s = .next (replied tag .badArgument [] s)) ∧
    (∀ i : Byte, ∃ (wa wb wp : BitVec 32) (flag : StationId → Bool),
      exec (.condRead tag [0, i]) s = .next (replied tag .ok
        (be32 wa ++ be32 wb ++ be32 wp ++ [flagByte (flag .a), flagByte (flag .b)]) s) ∧
      (∀ c : Cond,
        (c.stationScope = true → wa.getLsbD c.code = (s.cdu.entry c (.station .a)).pending ∧
          wb.getLsbD c.code = (s.cdu.entry c (.station .b)).pending) ∧
        (c.stationScope = false → wp.getLsbD c.code = (s.cdu.entry c .part).pending)) ∧
      ∀ x : StationId, flag x = true ↔ ∃ c sc v, scopeFits c sc = true ∧
        (sc = .station x ∨ sc = .part) ∧ (s.cdu.entry c sc).pending = true ∧
        (s.cdu.entry c sc).lastSeverity = some v ∧ s.link.attentionLevel.code ≤ v.code)) ∧
  (∀ (s : State) (tag : Byte), Ready s →
    CondLaw s →
    ((∀ c sc, scopeFits c sc = true → (s.cdu.entry c sc).pending = false) →
      ∃ p, exec (.condTake tag []) s = .next (replied tag .ok (0 :: p) s)) ∧
    ((∃ c sc, scopeFits c sc = true ∧ (s.cdu.entry c sc).pending = true) →
      ∃ t c sc v, exec (.condTake tag []) s = .next t ∧ scopeFits c sc = true ∧
        (s.cdu.entry c sc).pending = true ∧ (s.cdu.entry c sc).lastSeverity = some v ∧
        (∀ d sd u, scopeFits d sd = true → (s.cdu.entry d sd).pending = true →
          (s.cdu.entry d sd).lastSeverity = some u →
          u.code < v.code ∨ (u.code = v.code ∧ (c.code < d.code ∨
            (c.code = d.code ∧ sc.code.toNat ≤ sd.code.toNat)))) ∧
        t.cdu.entry c sc = { s.cdu.entry c sc with pending := false } ∧
        (∀ d sd, scopeFits d sd = true → (d, sd) ≠ (c, sc) →
          t.cdu.entry d sd = s.cdu.entry d sd) ∧
        t.cdu.first = s.cdu.first ∧ t.cdu.nextSet = s.cdu.nextSet ∧
        t.cdu.nextCount = s.cdu.nextCount ∧
        t.cdu.severity = s.cdu.severity ∧ { t with cdu := s.cdu, link := s.link } = s ∧
        t.link = { s.link with
          heldReply := some { tag := tag, status := .ok, payload :=
            [1, BitVec.ofNat 8 c.code, sc.code, BitVec.ofNat 8 (s.cdu.entry c sc).count] ++
              ((match (s.cdu.entry c sc).lastCycle with
                | some y => 1 :: be32 y | none => [0, 0, 0, 0, 0]) ++
              [BitVec.ofNat 8 v.code]) } }))

/-- COND_CLEAR clears the pending flag of every entry its selection matches, and count, last cycle and last
severity with the counts option; it answers how many flags it cleared. -/
def Obligations.CondClearClearsItsSelection : Prop :=
  ∀ (s : State) (tag code i : Byte) (counts : Bool) (sel : Option Scope), Ready s →
    (i = 3 ∧ sel = none ∨ ∃ sc, sel = some sc ∧ i = sc.code) →
    (28 < code.toNat →
      exec (.condClear tag [code, i, flagByte counts]) s = .next (replied tag .badArgument [] s)) ∧
    (code.toNat ≤ 28 → ∃ t, exec (.condClear tag [code, i, flagByte counts]) s = .next t ∧
      { t with cdu := s.cdu, link := s.link } = s ∧
      { t.link with heldReply := s.link.heldReply } = s.link ∧
      t.cdu.first = s.cdu.first ∧ t.cdu.nextSet = s.cdu.nextSet ∧
      t.cdu.nextCount = s.cdu.nextCount ∧ t.cdu.severity = s.cdu.severity ∧
      (∀ c sc, scopeFits c sc = true →
        t.cdu.entry c sc =
          if (code = 0 ∨ c.code = code.toNat) ∧ (sel = none ∨ sel = some sc) then
            (if counts then { pending := false, count := 0, lastCycle := none, lastSeverity := none }
              else { s.cdu.entry c sc with pending := false })
          else s.cdu.entry c sc) ∧
      t.link.heldReply = some { tag := tag, status := .ok, payload :=
        [BitVec.ofNat 8 (condKeys.filter fun q =>
          decide ((code = 0 ∨ q.1.code = code.toNat) ∧ (sel = none ∨ sel = some q.2)) &&
            (s.cdu.entry q.1 q.2).pending).length] }) ∧
    ∀ j : Byte, 3 < j.toNat →
      exec (.condClear tag [code, j, flagByte counts]) s = .next (replied tag .badArgument [] s)

/-- FIRST_READ shows the record, with every field absent while it is free (its byte layout is assumption 20),
FIRST_RELEASE frees it; SEVERITY_WRITE at or above the minimum is read back by SEVERITY_READ, and below it is
BAD_ARGUMENT. -/
def Obligations.FirstRecordAndSeveritiesAreServed : Prop :=
  (∀ (s : State) (tag : Byte), Ready s →
    exec (.firstRelease tag []) s = .next (replied tag .ok []
      { s with cdu := { s.cdu with first := none, nextSet := 0, nextCount := 0 } }) ∧
    (s.cdu.first = none → exec (.firstRead tag []) s = .next (replied tag .ok
      [0, 255, 255, 255, 255, 0, 0, 0, 0, 0, 0, 0, 0, 0, 0, 255, 0, 0, 0, 0, 0] s)) ∧
    (∀ r, s.cdu.first = some r →
      exec (.firstRead tag []) s = .next (replied tag .ok
        (1 :: BitVec.ofNat 8 r.code.code ::
          (match r.station with | some .a => 0 | some .b => 1 | none => 255) ::
          (match r.state with | some n => n.code | none => 255) ::
          (match r.index with | some k => BitVec.ofNat 8 k | none => 255) ::
          ((match r.x with | some v => 1 :: int32Bytes v | none => [0, 0, 0, 0, 0]) ++
          (1 :: be32 r.cycle) ++ [BitVec.ofNat 8 r.severity.code] ++ be32 s.cdu.nextSet ++
          [BitVec.ofNat 8 s.cdu.nextCount])) s))) ∧
  (∀ (s : State) (tag tag' : Byte) (c : Cond) (v : Severity), Ready s →
    exec (.severityRead tag [BitVec.ofNat 8 c.code]) s = .next (replied tag .ok
      [BitVec.ofNat 8 (s.cdu.setSeverity c).code, BitVec.ofNat 8 c.defaultSeverity.code,
        BitVec.ofNat 8 c.minimumSeverity.code] s) ∧
    (v.code < c.minimumSeverity.code →
      exec (.severityWrite tag [BitVec.ofNat 8 c.code, BitVec.ofNat 8 v.code]) s =
        .next (replied tag .badArgument [] s)) ∧
    (c.minimumSeverity.code ≤ v.code →
      ∃ t, exec (.severityWrite tag [BitVec.ofNat 8 c.code, BitVec.ofNat 8 v.code]) s = .next t ∧
        { t with cdu := s.cdu, link := s.link } = s ∧
        t.link = { s.link with heldReply := some { tag := tag, status := .ok, payload := [] } } ∧
        { t.cdu with severity := s.cdu.severity } = s.cdu ∧
        (∀ d, t.cdu.setSeverity d = if d = c then v else s.cdu.setSeverity d) ∧
        exec (.severityRead tag' [BitVec.ofNat 8 c.code]) t = .next (replied tag' .ok
          [BitVec.ofNat 8 v.code, BitVec.ofNat 8 c.defaultSeverity.code,
            BitVec.ofNat 8 c.minimumSeverity.code] t))) ∧
  (∀ (s : State) (tag b v : Byte), Ready s → b = 0 ∨ 28 < b.toNat →
    exec (.severityRead tag [b]) s = .next (replied tag .badArgument [] s) ∧
    exec (.severityWrite tag [b, v]) s = .next (replied tag .badArgument [] s))

/-- RESULT_READ, RESULT_SEGMENT_READ and RETAINED_READ answer with the record they name, field by field in the byte
layout of assumption 20, and change nothing but the held reply. An open segment entry shows the cycles since its
entry as its duration; a number that does not fit its field is sent as a free value (assumption 11). -/
def Obligations.ResultReadsReturnTheRecords : Prop :=
  ∀ (s : State) (tag k : Byte) (x : StationId), Ready s →
    ((s.st x).result = none →
      exec (.resultRead tag [stationCode x]) s = .next (replied tag .notFound [] s) ∧
      exec (.resultSegmentRead tag [stationCode x, k]) s = .next (replied tag .notFound [] s)) ∧
    (∀ r, (s.st x).result = some r →
      exec (.resultRead tag [stationCode x]) s = .next (replied tag .ok
        (r.outcome.code :: (match r.cause with | some c => BitVec.ofNat 8 c.code | none => 255) ::
          BitVec.ofNat 8 r.profile.val :: (be16 (BitVec.ofNat 16 r.revision) ++ int32Bytes r.datum ++
          be32 r.startCycle ++
          (match r.endCycle with | some c => 1 :: be32 c | none => [0, 0, 0, 0, 0]) ++
          [flagByte r.disturbed,
            (match r.highest with | some i => BitVec.ofNat 8 i | none => 255),
            BitVec.ofNat 8 r.entries.length])) s) ∧
      (r.entries.length ≤ k.toNat →
        exec (.resultSegmentRead tag [stationCode x, k]) s = .next (replied tag .badArgument [] s)) ∧
      (∀ e d, r.entries[k.toNat]? = some e →
        ((∃ a, (s.st x).pcu.account = some a ∧ a.index = e.index ∧ e.verdict = none ∧
            d = s.link.count - a.entryCycle) ∨
          ((∀ a, (s.st x).pcu.account = some a → a.index ≠ e.index ∨ e.verdict ≠ none) ∧
            d = e.duration)) →
        exec (.resultSegmentRead tag [stationCode x, k]) s = .next (replied tag .ok
          (BitVec.ofNat 8 e.index ::
            ((match e.expected with | some v => 1 :: nat32Bytes v | none => [0, 0, 0, 0, 0]) ++
            nat32Bytes e.measured ++ nat32Bytes e.missing ++
            (match e.tempMin with | some v => 1 :: be16 (BitVec.ofNat 16 v) | none => [0, 0, 0]) ++
            (match e.tempMax with | some v => 1 :: be16 (BitVec.ofNat 16 v) | none => [0, 0, 0]) ++
            (match e.lateness with | some v => 1 :: nat32Bytes v | none => [0, 0, 0, 0, 0]) ++
            be32 d ++ [match e.verdict with | some v => v.code | none => 255])) s))) ∧
    (exec (.retainedRead tag [stationCode x]) s = .next (replied tag .ok
      (match s.rtb.records.get x with
        | some r => 1 :: BitVec.ofNat 8 r.profile.val :: 1 ::
            (be16 (BitVec.ofNat 16 r.revision) ++ (1 :: int32Bytes r.datum) ++
            [match r.index with | some i => BitVec.ofNat 8 i | none => 255] ++
            (match r.position with | some v => 1 :: int32Bytes v | none => [0, 0, 0, 0, 0]) ++
            (1 :: be32 r.cycle) ++ [r.state.code])
        | none => [0, 255, 0, 0, 0, 0, 0, 0, 0, 0, 255, 0, 0, 0, 0, 0, 0, 0, 0, 0, 0, 255]) s)) ∧
    (∀ b : Byte, 1 < b.toNat →
      exec (.resultRead tag [b]) s = .next (replied tag .badArgument [] s) ∧
      exec (.resultSegmentRead tag [b, k]) s = .next (replied tag .badArgument [] s) ∧
      exec (.retainedRead tag [b]) s = .next (replied tag .badArgument [] s))

/-! ## What every step keeps -/

/-- The state after reset has every law of the part. -/
def Obligations.ResetStateHasEveryLaw : Prop :=
  Sound State.reset ∧ (∀ x, Settled (State.reset.st x)) ∧ SeverityLaw State.reset ∧
    CondLaw State.reset ∧ ProtectLaw State.reset ∧ InUseLaw State.reset ∧ MapLaw State.reset ∧
    ScanLaw State.reset ∧ ReserveLaw State.reset

/-- Every step keeps the laws of the stations: power only in SCANNING and DWELLING with PERMIT on, travel only
where R72 allows it, the quench queue bounded, its end marker last and only its head waiting, a station at rest
without quench, in SHARE mode the flow within SUPPLY_FLOW. -/
def Obligations.EveryStepKeepsTheStationLaws : Prop :=
  ∀ s t : State, step s = .next t → Sound s → Sound t

/-- Law 3 and Law 4: every step keeps the bases of each quench queue strictly ordered in the scan direction, each at
the start of a segment entered or at the profile end; every set issued and queued one of the profile's; every VALID
profile past validation; and in RESERVE mode each station's granted flow within its reservation, and the two
reservations together within SUPPLY_FLOW. -/
def Obligations.EveryStepKeepsTheScanLaws : Prop :=
  ∀ s t : State, step s = .next t → Sound s → InUseLaw s → ScanLaw s → ScanLaw t ∧ ReserveLaw t

/-- Every step keeps Law 1 alone (a nonzero setpoint or a run request only in SCANNING or DWELLING with PERMIT on and
no retune) and Law 2 alone (MOVE only in APPROACH, SCANNING, and TAIL before the end marker). -/
def Obligations.EveryStepKeepsThePowerAndTravelLaws : Prop :=
  (∀ s t : State, step s = .next t → (∀ x, PowerLaw (s.st x)) → ∀ x, PowerLaw (t.st x)) ∧
  (∀ s t : State, step s = .next t → (∀ x, TravelLaw (s.st x)) → ∀ x, TravelLaw (t.st x))

/-- Every step leaves the stations settled: no handling open, no halt request waiting, no end owed. -/
def Obligations.EveryStepSettles : Prop :=
  ∀ s t : State, step s = .next t → (∀ x, Settled (s.st x)) → ∀ x, Settled (t.st x)

/-- Every step keeps the tables: no severity below its minimum, a severity beside every pending flag, no slot id or
signal bound twice, no commit or erase under way on a write-protected profile (Law 7). -/
def Obligations.EveryStepKeepsTheTables : Prop :=
  ∀ s t : State, step s = .next t →
    (SeverityLaw s → SeverityLaw t) ∧ (CondLaw s → CondLaw t) ∧ (MapLaw s → MapLaw t) ∧
      (ProtectLaw s → ProtectLaw t)

/-- Law 6: every step keeps an active station's profile referenced, VALID and free of long operations, and
where a station is active with a profile before and after, neither that profile's directory entry nor its stored
content has changed. -/
def Obligations.ReferencedProfileStaysAsItIs : Prop :=
  ∀ s t : State, step s = .next t → InUseLaw s →
    InUseLaw t ∧ ∀ x p, s.active x = true → (s.st x).seq.profile = some p →
      t.active x = true → (t.st x).seq.profile = some p →
      t.store.directory.get p.number = s.store.directory.get p.number ∧
        t.store.profiles.get p.number = s.store.profiles.get p.number

/-- Law 7: a write-protected profile keeps its content and its protections, write and read, through every command but
the completion of a STORE_CLEAR that runs; a STORE_CLEAR cut off counts as one. -/
def Obligations.WriteProtectedProfileKeepsItsContent : Prop :=
  ∀ (s t : State) (c : Instr) (n : Fin 16), exec c s = .next t → ProtectLaw s →
    (s.store.running = some .clear → mayClear c = false) →
    (s.store.directory.get n).writeProtected = true →
    t.store.profiles.get n = s.store.profiles.get n ∧
      (t.store.directory.get n).writeProtected = true ∧
      ((s.store.directory.get n).readProtected = true → (t.store.directory.get n).readProtected = true)

/-- Law 9: a held first-condition record stays as it is through every command but a FIRST_RELEASE and a power-on
reset. -/
def Obligations.HeldFirstRecordStays : Prop :=
  ∀ (s t : State) (c : Instr), exec c s = .next t → mayRelease c = false →
    ∀ r, s.cdu.first = some r → t.cdu.first = some r

/-- Law 8: no station's segment index falls or becomes absent, but by a START or CLEAR of that station, given by
itself or in the usable CONTROL slot of a frame, or by a restart. -/
def Obligations.SegmentIndexNeverFalls : Prop :=
  ∀ (s t : State) (c : Instr) (x : StationId), exec c s = .next t → mayRestart s c x = false →
    ∀ i, (s.st x).seq.index = some i → ∃ j, (t.st x).seq.index = some j ∧ i ≤ j

end Statements
end

