-- ==== Sys2Proof/Laws/State.lean ====
section
/-! SUPPORT. One lemma per field per update: what each named update of the state leaves alone, and what
it writes. All hold by unfolding; tagged for simp, so that no proof unfolds a record update. -/

namespace Sys2Proof.Machine

section Station

variable (x y : StationId) (s : State)

@[simp] theorem modSt_same (f : Station → Station) : (modSt x f s).st x = f (s.st x) := by
  cases x <;> rfl
@[simp] theorem modSt_other (f : Station → Station) (h : y ≠ x) : (modSt x f s).st y = s.st y := by
  cases x <;> cases y <;> first | rfl | exact absurd rfl h
@[simp] theorem modSt_pending (f : Station → Station) : (modSt x f s).pending = s.pending := rfl
@[simp] theorem modSt_draws (f : Station → Station) : (modSt x f s).draws = s.draws := rfl
@[simp] theorem modSt_vdd (f : Station → Station) : (modSt x f s).vdd = s.vdd := rfl
@[simp] theorem modSt_params (f : Station → Station) : (modSt x f s).params = s.params := rfl
@[simp] theorem modSt_stops (f : Station → Station) : (modSt x f s).stops = s.stops := rfl
@[simp] theorem modSt_store (f : Station → Station) : (modSt x f s).store = s.store := rfl
@[simp] theorem modSt_link (f : Station → Station) : (modSt x f s).link = s.link := rfl
@[simp] theorem modSt_cdu (f : Station → Station) : (modSt x f s).cdu = s.cdu := rfl
@[simp] theorem modSt_rtb (f : Station → Station) : (modSt x f s).rtb = s.rtb := rfl

section
variable (f : Sequencer → Sequencer)
@[simp] theorem modSeq_par : ((modSeq x f s).st y).par = (s.st y).par := by cases x <;> cases y <;> rfl
@[simp] theorem modSeq_trk : ((modSeq x f s).st y).trk = (s.st y).trk := by cases x <;> cases y <;> rfl
@[simp] theorem modSeq_result : ((modSeq x f s).st y).result = (s.st y).result := by cases x <;> cases y <;> rfl
@[simp] theorem modSeq_pcu : ((modSeq x f s).st y).pcu = (s.st y).pcu := by cases x <;> cases y <;> rfl
@[simp] theorem modSeq_qsc : ((modSeq x f s).st y).qsc = (s.st y).qsc := by cases x <;> cases y <;> rfl
@[simp] theorem modSeq_sar : ((modSeq x f s).st y).sar = (s.st y).sar := by cases x <;> cases y <;> rfl
@[simp] theorem modSeq_eng : ((modSeq x f s).st y).eng = (s.st y).eng := by cases x <;> cases y <;> rfl
@[simp] theorem modSeq_same : ((modSeq x f s).st x).seq = f (s.st x).seq := by cases x <;> rfl
@[simp] theorem modSeq_other (h : y ≠ x) : ((modSeq x f s).st y).seq = (s.st y).seq := by
  cases x <;> cases y <;> first | rfl | exact absurd rfl h
@[simp] theorem modSeq_pending : (modSeq x f s).pending = s.pending := rfl
@[simp] theorem modSeq_draws : (modSeq x f s).draws = s.draws := rfl
@[simp] theorem modSeq_vdd : (modSeq x f s).vdd = s.vdd := rfl
@[simp] theorem modSeq_params : (modSeq x f s).params = s.params := rfl
@[simp] theorem modSeq_stops : (modSeq x f s).stops = s.stops := rfl
@[simp] theorem modSeq_store : (modSeq x f s).store = s.store := rfl
@[simp] theorem modSeq_link : (modSeq x f s).link = s.link := rfl
@[simp] theorem modSeq_cdu : (modSeq x f s).cdu = s.cdu := rfl
@[simp] theorem modSeq_rtb : (modSeq x f s).rtb = s.rtb := rfl
end

section
variable (f : Tracker → Tracker)
@[simp] theorem modTrk_par : ((modTrk x f s).st y).par = (s.st y).par := by cases x <;> cases y <;> rfl
@[simp] theorem modTrk_seq : ((modTrk x f s).st y).seq = (s.st y).seq := by cases x <;> cases y <;> rfl
@[simp] theorem modTrk_result : ((modTrk x f s).st y).result = (s.st y).result := by cases x <;> cases y <;> rfl
@[simp] theorem modTrk_pcu : ((modTrk x f s).st y).pcu = (s.st y).pcu := by cases x <;> cases y <;> rfl
@[simp] theorem modTrk_qsc : ((modTrk x f s).st y).qsc = (s.st y).qsc := by cases x <;> cases y <;> rfl
@[simp] theorem modTrk_sar : ((modTrk x f s).st y).sar = (s.st y).sar := by cases x <;> cases y <;> rfl
@[simp] theorem modTrk_eng : ((modTrk x f s).st y).eng = (s.st y).eng := by cases x <;> cases y <;> rfl
@[simp] theorem modTrk_same : ((modTrk x f s).st x).trk = f (s.st x).trk := by cases x <;> rfl
@[simp] theorem modTrk_other (h : y ≠ x) : ((modTrk x f s).st y).trk = (s.st y).trk := by
  cases x <;> cases y <;> first | rfl | exact absurd rfl h
@[simp] theorem modTrk_pending : (modTrk x f s).pending = s.pending := rfl
@[simp] theorem modTrk_draws : (modTrk x f s).draws = s.draws := rfl
@[simp] theorem modTrk_vdd : (modTrk x f s).vdd = s.vdd := rfl
@[simp] theorem modTrk_params : (modTrk x f s).params = s.params := rfl
@[simp] theorem modTrk_stops : (modTrk x f s).stops = s.stops := rfl
@[simp] theorem modTrk_store : (modTrk x f s).store = s.store := rfl
@[simp] theorem modTrk_link : (modTrk x f s).link = s.link := rfl
@[simp] theorem modTrk_cdu : (modTrk x f s).cdu = s.cdu := rfl
@[simp] theorem modTrk_rtb : (modTrk x f s).rtb = s.rtb := rfl
end

section
variable (f : Power → Power)
@[simp] theorem modPcu_par : ((modPcu x f s).st y).par = (s.st y).par := by cases x <;> cases y <;> rfl
@[simp] theorem modPcu_trk : ((modPcu x f s).st y).trk = (s.st y).trk := by cases x <;> cases y <;> rfl
@[simp] theorem modPcu_seq : ((modPcu x f s).st y).seq = (s.st y).seq := by cases x <;> cases y <;> rfl
@[simp] theorem modPcu_result : ((modPcu x f s).st y).result = (s.st y).result := by cases x <;> cases y <;> rfl
@[simp] theorem modPcu_qsc : ((modPcu x f s).st y).qsc = (s.st y).qsc := by cases x <;> cases y <;> rfl
@[simp] theorem modPcu_sar : ((modPcu x f s).st y).sar = (s.st y).sar := by cases x <;> cases y <;> rfl
@[simp] theorem modPcu_eng : ((modPcu x f s).st y).eng = (s.st y).eng := by cases x <;> cases y <;> rfl
@[simp] theorem modPcu_same : ((modPcu x f s).st x).pcu = f (s.st x).pcu := by cases x <;> rfl
@[simp] theorem modPcu_other (h : y ≠ x) : ((modPcu x f s).st y).pcu = (s.st y).pcu := by
  cases x <;> cases y <;> first | rfl | exact absurd rfl h
@[simp] theorem modPcu_pending : (modPcu x f s).pending = s.pending := rfl
@[simp] theorem modPcu_draws : (modPcu x f s).draws = s.draws := rfl
@[simp] theorem modPcu_vdd : (modPcu x f s).vdd = s.vdd := rfl
@[simp] theorem modPcu_params : (modPcu x f s).params = s.params := rfl
@[simp] theorem modPcu_stops : (modPcu x f s).stops = s.stops := rfl
@[simp] theorem modPcu_store : (modPcu x f s).store = s.store := rfl
@[simp] theorem modPcu_link : (modPcu x f s).link = s.link := rfl
@[simp] theorem modPcu_cdu : (modPcu x f s).cdu = s.cdu := rfl
@[simp] theorem modPcu_rtb : (modPcu x f s).rtb = s.rtb := rfl
end

section
variable (f : Quench → Quench)
@[simp] theorem modQsc_par : ((modQsc x f s).st y).par = (s.st y).par := by cases x <;> cases y <;> rfl
@[simp] theorem modQsc_trk : ((modQsc x f s).st y).trk = (s.st y).trk := by cases x <;> cases y <;> rfl
@[simp] theorem modQsc_seq : ((modQsc x f s).st y).seq = (s.st y).seq := by cases x <;> cases y <;> rfl
@[simp] theorem modQsc_result : ((modQsc x f s).st y).result = (s.st y).result := by cases x <;> cases y <;> rfl
@[simp] theorem modQsc_pcu : ((modQsc x f s).st y).pcu = (s.st y).pcu := by cases x <;> cases y <;> rfl
@[simp] theorem modQsc_sar : ((modQsc x f s).st y).sar = (s.st y).sar := by cases x <;> cases y <;> rfl
@[simp] theorem modQsc_eng : ((modQsc x f s).st y).eng = (s.st y).eng := by cases x <;> cases y <;> rfl
@[simp] theorem modQsc_same : ((modQsc x f s).st x).qsc = f (s.st x).qsc := by cases x <;> rfl
@[simp] theorem modQsc_other (h : y ≠ x) : ((modQsc x f s).st y).qsc = (s.st y).qsc := by
  cases x <;> cases y <;> first | rfl | exact absurd rfl h
@[simp] theorem modQsc_pending : (modQsc x f s).pending = s.pending := rfl
@[simp] theorem modQsc_draws : (modQsc x f s).draws = s.draws := rfl
@[simp] theorem modQsc_vdd : (modQsc x f s).vdd = s.vdd := rfl
@[simp] theorem modQsc_params : (modQsc x f s).params = s.params := rfl
@[simp] theorem modQsc_stops : (modQsc x f s).stops = s.stops := rfl
@[simp] theorem modQsc_store : (modQsc x f s).store = s.store := rfl
@[simp] theorem modQsc_link : (modQsc x f s).link = s.link := rfl
@[simp] theorem modQsc_cdu : (modQsc x f s).cdu = s.cdu := rfl
@[simp] theorem modQsc_rtb : (modQsc x f s).rtb = s.rtb := rfl
end

section
variable (f : Supply → Supply)
@[simp] theorem modSar_par : ((modSar x f s).st y).par = (s.st y).par := by cases x <;> cases y <;> rfl
@[simp] theorem modSar_trk : ((modSar x f s).st y).trk = (s.st y).trk := by cases x <;> cases y <;> rfl
@[simp] theorem modSar_seq : ((modSar x f s).st y).seq = (s.st y).seq := by cases x <;> cases y <;> rfl
@[simp] theorem modSar_result : ((modSar x f s).st y).result = (s.st y).result := by cases x <;> cases y <;> rfl
@[simp] theorem modSar_pcu : ((modSar x f s).st y).pcu = (s.st y).pcu := by cases x <;> cases y <;> rfl
@[simp] theorem modSar_qsc : ((modSar x f s).st y).qsc = (s.st y).qsc := by cases x <;> cases y <;> rfl
@[simp] theorem modSar_eng : ((modSar x f s).st y).eng = (s.st y).eng := by cases x <;> cases y <;> rfl
@[simp] theorem modSar_same : ((modSar x f s).st x).sar = f (s.st x).sar := by cases x <;> rfl
@[simp] theorem modSar_other (h : y ≠ x) : ((modSar x f s).st y).sar = (s.st y).sar := by
  cases x <;> cases y <;> first | rfl | exact absurd rfl h
@[simp] theorem modSar_pending : (modSar x f s).pending = s.pending := rfl
@[simp] theorem modSar_draws : (modSar x f s).draws = s.draws := rfl
@[simp] theorem modSar_vdd : (modSar x f s).vdd = s.vdd := rfl
@[simp] theorem modSar_params : (modSar x f s).params = s.params := rfl
@[simp] theorem modSar_stops : (modSar x f s).stops = s.stops := rfl
@[simp] theorem modSar_store : (modSar x f s).store = s.store := rfl
@[simp] theorem modSar_link : (modSar x f s).link = s.link := rfl
@[simp] theorem modSar_cdu : (modSar x f s).cdu = s.cdu := rfl
@[simp] theorem modSar_rtb : (modSar x f s).rtb = s.rtb := rfl
end

section
variable (f : Engine → Engine)
@[simp] theorem modEng_par : ((modEng x f s).st y).par = (s.st y).par := by cases x <;> cases y <;> rfl
@[simp] theorem modEng_trk : ((modEng x f s).st y).trk = (s.st y).trk := by cases x <;> cases y <;> rfl
@[simp] theorem modEng_seq : ((modEng x f s).st y).seq = (s.st y).seq := by cases x <;> cases y <;> rfl
@[simp] theorem modEng_result : ((modEng x f s).st y).result = (s.st y).result := by cases x <;> cases y <;> rfl
@[simp] theorem modEng_pcu : ((modEng x f s).st y).pcu = (s.st y).pcu := by cases x <;> cases y <;> rfl
@[simp] theorem modEng_qsc : ((modEng x f s).st y).qsc = (s.st y).qsc := by cases x <;> cases y <;> rfl
@[simp] theorem modEng_sar : ((modEng x f s).st y).sar = (s.st y).sar := by cases x <;> cases y <;> rfl
@[simp] theorem modEng_same : ((modEng x f s).st x).eng = f (s.st x).eng := by cases x <;> rfl
@[simp] theorem modEng_other (h : y ≠ x) : ((modEng x f s).st y).eng = (s.st y).eng := by
  cases x <;> cases y <;> first | rfl | exact absurd rfl h
@[simp] theorem modEng_pending : (modEng x f s).pending = s.pending := rfl
@[simp] theorem modEng_draws : (modEng x f s).draws = s.draws := rfl
@[simp] theorem modEng_vdd : (modEng x f s).vdd = s.vdd := rfl
@[simp] theorem modEng_params : (modEng x f s).params = s.params := rfl
@[simp] theorem modEng_stops : (modEng x f s).stops = s.stops := rfl
@[simp] theorem modEng_store : (modEng x f s).store = s.store := rfl
@[simp] theorem modEng_link : (modEng x f s).link = s.link := rfl
@[simp] theorem modEng_cdu : (modEng x f s).cdu = s.cdu := rfl
@[simp] theorem modEng_rtb : (modEng x f s).rtb = s.rtb := rfl
end

section
variable (f : Option ScanResult → Option ScanResult)
@[simp] theorem modResult_par : ((modResult x f s).st y).par = (s.st y).par := by cases x <;> cases y <;> rfl
@[simp] theorem modResult_trk : ((modResult x f s).st y).trk = (s.st y).trk := by cases x <;> cases y <;> rfl
@[simp] theorem modResult_seq : ((modResult x f s).st y).seq = (s.st y).seq := by cases x <;> cases y <;> rfl
@[simp] theorem modResult_pcu : ((modResult x f s).st y).pcu = (s.st y).pcu := by cases x <;> cases y <;> rfl
@[simp] theorem modResult_qsc : ((modResult x f s).st y).qsc = (s.st y).qsc := by cases x <;> cases y <;> rfl
@[simp] theorem modResult_sar : ((modResult x f s).st y).sar = (s.st y).sar := by cases x <;> cases y <;> rfl
@[simp] theorem modResult_eng : ((modResult x f s).st y).eng = (s.st y).eng := by cases x <;> cases y <;> rfl
@[simp] theorem modResult_same : ((modResult x f s).st x).result = f (s.st x).result := by cases x <;> rfl
@[simp] theorem modResult_other (h : y ≠ x) : ((modResult x f s).st y).result = (s.st y).result := by
  cases x <;> cases y <;> first | rfl | exact absurd rfl h
@[simp] theorem modResult_pending : (modResult x f s).pending = s.pending := rfl
@[simp] theorem modResult_draws : (modResult x f s).draws = s.draws := rfl
@[simp] theorem modResult_vdd : (modResult x f s).vdd = s.vdd := rfl
@[simp] theorem modResult_params : (modResult x f s).params = s.params := rfl
@[simp] theorem modResult_stops : (modResult x f s).stops = s.stops := rfl
@[simp] theorem modResult_store : (modResult x f s).store = s.store := rfl
@[simp] theorem modResult_link : (modResult x f s).link = s.link := rfl
@[simp] theorem modResult_cdu : (modResult x f s).cdu = s.cdu := rfl
@[simp] theorem modResult_rtb : (modResult x f s).rtb = s.rtb := rfl
end

end Station

section
variable (f : Link → Link) (s : State)
@[simp] theorem modLink_link : (modLink f s).link = f s.link := rfl
@[simp] theorem modLink_st (x : StationId) : (modLink f s).st x = s.st x := rfl
@[simp] theorem modLink_stations : (modLink f s).stations = s.stations := rfl
@[simp] theorem modLink_pending : (modLink f s).pending = s.pending := rfl
@[simp] theorem modLink_draws : (modLink f s).draws = s.draws := rfl
@[simp] theorem modLink_vdd : (modLink f s).vdd = s.vdd := rfl
@[simp] theorem modLink_params : (modLink f s).params = s.params := rfl
@[simp] theorem modLink_stops : (modLink f s).stops = s.stops := rfl
@[simp] theorem modLink_store : (modLink f s).store = s.store := rfl
@[simp] theorem modLink_cdu : (modLink f s).cdu = s.cdu := rfl
@[simp] theorem modLink_rtb : (modLink f s).rtb = s.rtb := rfl
end

section
variable (f : Store → Store) (s : State)
@[simp] theorem modStore_store : (modStore f s).store = f s.store := rfl
@[simp] theorem modStore_st (x : StationId) : (modStore f s).st x = s.st x := rfl
@[simp] theorem modStore_stations : (modStore f s).stations = s.stations := rfl
@[simp] theorem modStore_pending : (modStore f s).pending = s.pending := rfl
@[simp] theorem modStore_draws : (modStore f s).draws = s.draws := rfl
@[simp] theorem modStore_vdd : (modStore f s).vdd = s.vdd := rfl
@[simp] theorem modStore_params : (modStore f s).params = s.params := rfl
@[simp] theorem modStore_stops : (modStore f s).stops = s.stops := rfl
@[simp] theorem modStore_link : (modStore f s).link = s.link := rfl
@[simp] theorem modStore_cdu : (modStore f s).cdu = s.cdu := rfl
@[simp] theorem modStore_rtb : (modStore f s).rtb = s.rtb := rfl
end

section
variable (f : Conditions → Conditions) (s : State)
@[simp] theorem modCdu_cdu : (modCdu f s).cdu = f s.cdu := rfl
@[simp] theorem modCdu_st (x : StationId) : (modCdu f s).st x = s.st x := rfl
@[simp] theorem modCdu_stations : (modCdu f s).stations = s.stations := rfl
@[simp] theorem modCdu_pending : (modCdu f s).pending = s.pending := rfl
@[simp] theorem modCdu_draws : (modCdu f s).draws = s.draws := rfl
@[simp] theorem modCdu_vdd : (modCdu f s).vdd = s.vdd := rfl
@[simp] theorem modCdu_params : (modCdu f s).params = s.params := rfl
@[simp] theorem modCdu_stops : (modCdu f s).stops = s.stops := rfl
@[simp] theorem modCdu_store : (modCdu f s).store = s.store := rfl
@[simp] theorem modCdu_link : (modCdu f s).link = s.link := rfl
@[simp] theorem modCdu_rtb : (modCdu f s).rtb = s.rtb := rfl
end

section
variable (s : State)
@[simp] theorem bump_st (x : StationId) : (bump s).st x = s.st x := rfl
@[simp] theorem bump_stations : (bump s).stations = s.stations := rfl
@[simp] theorem bump_draws : (bump s).draws = s.draws + 1 := rfl
@[simp] theorem bump_pending : (bump s).pending = s.pending := rfl
@[simp] theorem bump_vdd : (bump s).vdd = s.vdd := rfl
@[simp] theorem bump_params : (bump s).params = s.params := rfl
@[simp] theorem bump_stops : (bump s).stops = s.stops := rfl
@[simp] theorem bump_store : (bump s).store = s.store := rfl
@[simp] theorem bump_link : (bump s).link = s.link := rfl
@[simp] theorem bump_cdu : (bump s).cdu = s.cdu := rfl
@[simp] theorem bump_rtb : (bump s).rtb = s.rtb := rfl
end

section
variable (x : StationId) (r : Option Retained) (s : State)
@[simp] theorem putRetained_st (y : StationId) : (putRetained x r s).st y = s.st y := rfl
@[simp] theorem putRetained_stations : (putRetained x r s).stations = s.stations := rfl
@[simp] theorem putRetained_records : (putRetained x r s).rtb.records = s.rtb.records.set x r := rfl
@[simp] theorem putRetained_valid : (putRetained x r s).rtb.valid = s.rtb.valid := rfl
@[simp] theorem putRetained_pending : (putRetained x r s).pending = s.pending := rfl
@[simp] theorem putRetained_draws : (putRetained x r s).draws = s.draws := rfl
@[simp] theorem putRetained_vdd : (putRetained x r s).vdd = s.vdd := rfl
@[simp] theorem putRetained_params : (putRetained x r s).params = s.params := rfl
@[simp] theorem putRetained_stops : (putRetained x r s).stops = s.stops := rfl
@[simp] theorem putRetained_store : (putRetained x r s).store = s.store := rfl
@[simp] theorem putRetained_link : (putRetained x r s).link = s.link := rfl
@[simp] theorem putRetained_cdu : (putRetained x r s).cdu = s.cdu := rfl
end

@[simp] theorem pair_get_set {α : Type} (p : Pair α) (x : StationId) (v : α) :
    (p.set x v).get x = v := by cases x <;> rfl
@[simp] theorem pair_get_set_other {α : Type} (p : Pair α) (x y : StationId) (v : α) (h : y ≠ x) :
    (p.set x v).get y = p.get y := by
  cases x <;> cases y <;> first | rfl | exact absurd rfl h
@[simp] theorem pair_get_both {α : Type} (v : α) (x : StationId) : (Pair.both v).get x = v := by
  cases x <;> rfl
@[simp] theorem other_ne (x : StationId) : x.other ≠ x := by cases x <;> decide
@[simp] theorem other_other (x : StationId) : x.other.other = x := by cases x <;> rfl
/-- A station is `x` or the other one. -/
theorem eq_or_other (x y : StationId) : y = x ∨ y = x.other := by cases x <;> cases y <;> simp [StationId.other]

end Sys2Proof.Machine
end

