-- ==== Sys2Proof/Laws/Frame.lean ====
section
/-! SUPPORT. Relations between the state before and after an operation, with their reflexivity and
transitivity: what the work inside the stations leaves alone, and the laws it keeps. -/

namespace Sys2Proof.Machine

/-- A station that is active afterwards was active before and still holds its profile and in-use mark. -/
def HeldKept (s t : State) : Prop :=
  ∀ x, t.active x = true → s.active x = true ∧ (t.st x).seq.profile = (s.st x).seq.profile ∧
    t.store.inUse.get x = s.store.inUse.get x

/-- What all work inside the stations keeps. -/
structure Inner (s t : State) : Prop where
  blocks : BlocksKept s t
  rises : IndexRises s t
  held : HeldKept s t
  cond : CondLaw s → CondLaw t
  power : (∀ y, PowerLaw (s.st y)) → ∀ y, PowerLaw (t.st y)
  travel : (∀ y, TravelLaw (s.st y)) → ∀ y, TravelLaw (t.st y)

/-- Station `y` is where it was: its state, index, profile, handling, engine. -/
structure Still (y : StationId) (s t : State) : Prop where
  state : (t.st y).seq.state = (s.st y).seq.state
  index : (t.st y).seq.index = (s.st y).seq.index
  profile : (t.st y).seq.profile = (s.st y).seq.profile
  handling : (t.st y).seq.handling = (s.st y).seq.handling
  pendingState : (t.st y).seq.pendingState = (s.st y).seq.pendingState
  heldState : (t.st y).seq.heldState = (s.st y).seq.heldState

theorem BlocksKept.refl (s : State) : BlocksKept s s :=
  ⟨rfl, rfl, rfl, rfl, rfl, rfl, rfl, fun _ h => h, fun _ => rfl, fun _ => rfl, rfl⟩

theorem BlocksKept.trans {s t u : State} (h : BlocksKept s t) (k : BlocksKept t u) :
    BlocksKept s u where
  pending := k.pending.trans h.pending
  vdd := k.vdd.trans h.vdd
  params := k.params.trans h.params
  stops := k.stops.trans h.stops
  link := k.link.trans h.link
  store := by
    have h1 := h.store
    have h2 := k.store
    rw [← h1, ← h2]
  severity := k.severity.trans h.severity
  first := fun r hr => k.first r (h.first r hr)
  par := fun x => (k.par x).trans (h.par x)
  table := fun x => (k.table x).trans (h.table x)
  valid := k.valid.trans h.valid

theorem IndexRises.refl (s : State) : IndexRises s s := fun _ i h => ⟨i, h, Nat.le_refl i⟩

theorem IndexRises.trans {s t u : State} (h : IndexRises s t) (k : IndexRises t u) :
    IndexRises s u := by
  intro x i hi
  obtain ⟨j, hj, hij⟩ := h x i hi
  obtain ⟨m, hm, hjm⟩ := k x j hj
  exact ⟨m, hm, Nat.le_trans hij hjm⟩

theorem HeldKept.refl (s : State) : HeldKept s s := fun _ h => ⟨h, rfl, rfl⟩

theorem HeldKept.trans {s t u : State} (h : HeldKept s t) (k : HeldKept t u) : HeldKept s u := by
  intro x hx
  obtain ⟨a, b, c⟩ := k x hx
  obtain ⟨a', b', c'⟩ := h x a
  exact ⟨a', b.trans b', c.trans c'⟩

theorem Inner.refl (s : State) : Inner s s :=
  ⟨.refl s, .refl s, .refl s, id, id, id⟩

theorem Inner.trans {s t u : State} (h : Inner s t) (k : Inner t u) : Inner s u :=
  ⟨h.blocks.trans k.blocks, h.rises.trans k.rises, h.held.trans k.held, k.cond ∘ h.cond,
    k.power ∘ h.power, k.travel ∘ h.travel⟩

theorem Still.refl (y : StationId) (s : State) : Still y s s := ⟨rfl, rfl, rfl, rfl, rfl, rfl⟩

theorem Still.trans {y : StationId} {s t u : State} (h : Still y s t) (k : Still y t u) :
    Still y s u :=
  ⟨k.state.trans h.state, k.index.trans h.index, k.profile.trans h.profile,
    k.handling.trans h.handling, k.pendingState.trans h.pendingState,
    k.heldState.trans h.heldState⟩

theorem Still.active {y : StationId} {s t : State} (h : Still y s t) :
    t.active y = s.active y := by
  unfold State.active
  rw [h.state]

/-! ## Work inside one station's copy -/

/-- Only the copy of station `x` differs. -/
def Own (x : StationId) (s t : State) : Prop := t = { s with stations := s.stations.set x (t.st x) }

theorem Own.refl (x : StationId) (s : State) : Own x s s := by cases x <;> rfl

theorem Own.trans {x : StationId} {s t u : State} (h : Own x s t) (k : Own x t u) : Own x s u := by
  unfold Own at *
  generalize t.st x = v at h
  generalize u.st x = w at k ⊢
  subst h k
  cases x <;> rfl

theorem own_modSt (x : StationId) (f : Station → Station) (s : State) : Own x s (modSt x f s) := by
  cases x <;> rfl

theorem own_modSeq (x : StationId) (f : Sequencer → Sequencer) (s : State) :
    Own x s (modSeq x f s) := own_modSt x _ s
theorem own_modTrk (x : StationId) (f : Tracker → Tracker) (s : State) : Own x s (modTrk x f s) :=
  own_modSt x _ s
theorem own_modPcu (x : StationId) (f : Power → Power) (s : State) : Own x s (modPcu x f s) :=
  own_modSt x _ s
theorem own_modQsc (x : StationId) (f : Quench → Quench) (s : State) : Own x s (modQsc x f s) :=
  own_modSt x _ s
theorem own_modSar (x : StationId) (f : Supply → Supply) (s : State) : Own x s (modSar x f s) :=
  own_modSt x _ s
theorem own_modEng (x : StationId) (f : Engine → Engine) (s : State) : Own x s (modEng x f s) :=
  own_modSt x _ s
theorem own_modResult (x : StationId) (f : Option ScanResult → Option ScanResult) (s : State) :
    Own x s (modResult x f s) := own_modSt x _ s

section
variable {x : StationId} {s t : State} (h : Own x s t)
include h
theorem Own.pending : t.pending = s.pending := by unfold Own at h; rw [h]
theorem Own.draws : t.draws = s.draws := by unfold Own at h; rw [h]
theorem Own.vdd : t.vdd = s.vdd := by unfold Own at h; rw [h]
theorem Own.params : t.params = s.params := by unfold Own at h; rw [h]
theorem Own.stops : t.stops = s.stops := by unfold Own at h; rw [h]
theorem Own.store : t.store = s.store := by unfold Own at h; rw [h]
theorem Own.link : t.link = s.link := by unfold Own at h; rw [h]
theorem Own.cdu : t.cdu = s.cdu := by unfold Own at h; rw [h]
theorem Own.rtb : t.rtb = s.rtb := by unfold Own at h; rw [h]
theorem Own.other {y : StationId} (hy : y ≠ x) : t.st y = s.st y := by
  unfold Own at h
  rw [h]
  exact pair_get_set_other _ _ _ _ hy

/-- Work inside one copy keeps what the copy keeps. -/
theorem Own.inner (par : (t.st x).par = (s.st x).par)
    (table : (t.st x).eng.table = (s.st x).eng.table)
    (rises : ∀ i, (s.st x).seq.index = some i → ∃ j, (t.st x).seq.index = some j ∧ i ≤ j)
    (held : (t.st x).seq.state.active = true →
      (s.st x).seq.state.active = true ∧ (t.st x).seq.profile = (s.st x).seq.profile)
    (power : PowerLaw (s.st x) → PowerLaw (t.st x))
    (travel : TravelLaw (s.st x) → TravelLaw (t.st x)) : Inner s t where
  blocks :=
    { pending := h.pending, vdd := h.vdd, params := h.params, stops := h.stops, link := h.link,
      store := by rw [h.store], severity := by rw [h.cdu],
      first := fun r hr => by rw [h.cdu]; exact hr,
      par := fun y => by
        rcases eq_or_other x y with rfl | rfl
        · exact par
        · rw [h.other (other_ne x)]
      table := fun y => by
        rcases eq_or_other x y with rfl | rfl
        · exact table
        · rw [h.other (other_ne x)]
      valid := by rw [h.rtb] }
  rises := fun y i hi => by
    rcases eq_or_other x y with rfl | rfl
    · exact rises i hi
    · rw [h.other (other_ne x)]
      exact ⟨i, hi, Nat.le_refl i⟩
  held := fun y hy => by
    rw [h.store]
    rcases eq_or_other x y with rfl | rfl
    · exact ⟨(held hy).1, (held hy).2, rfl⟩
    · unfold State.active at *
      rw [h.other (other_ne x)] at *
      exact ⟨hy, rfl, rfl⟩
  cond := fun k => by
    unfold CondLaw at *
    rw [h.cdu]
    exact k
  power := fun k y => by
    rcases eq_or_other x y with rfl | rfl
    · exact power (k _)
    · rw [h.other (other_ne x)]
      exact k _
  travel := fun k y => by
    rcases eq_or_other x y with rfl | rfl
    · exact travel (k _)
    · rw [h.other (other_ne x)]
      exact k _

/-- A copy whose sequencer stays, with its power and travel, keeps everything. -/
theorem Own.inner_of_seq (par : (t.st x).par = (s.st x).par)
    (table : (t.st x).eng.table = (s.st x).eng.table) (seq : (t.st x).seq = (s.st x).seq)
    (power : PowerLaw (s.st x) → PowerLaw (t.st x)) : Inner s t :=
  h.inner par table (fun i hi => ⟨i, by rw [seq]; exact hi, Nat.le_refl i⟩)
    (fun k => by rw [seq] at *; exact ⟨k, rfl⟩) power (fun k => by
      unfold TravelLaw at *
      rw [seq]
      exact k)
end

end Sys2Proof.Machine
end

