-- ==== Sys2Proof/Laws/Station.lean ====
section
/-! SUPPORT. What the operations of a station's change of state do: recomputing power, setting travel,
entering a state, setting index and phase, writing the retained record. -/

namespace Sys2Proof.Machine

section

variable (x y : StationId) (s : State) (n : StationState) (i : Option Nat) (ph : Option TailPhase)

/-! ## Power and travel -/

theorem pcuRecompute_own : Own x s (pcuRecompute x s) := own_modPcu x _ s

@[simp] theorem pcuRecompute_par : ((pcuRecompute x s).st y).par = (s.st y).par := by cases x <;> cases y <;> rfl
@[simp] theorem pcuRecompute_trk : ((pcuRecompute x s).st y).trk = (s.st y).trk := by cases x <;> cases y <;> rfl
@[simp] theorem pcuRecompute_seq : ((pcuRecompute x s).st y).seq = (s.st y).seq := by cases x <;> cases y <;> rfl
@[simp] theorem pcuRecompute_result : ((pcuRecompute x s).st y).result = (s.st y).result := by cases x <;> cases y <;> rfl
@[simp] theorem pcuRecompute_qsc : ((pcuRecompute x s).st y).qsc = (s.st y).qsc := by cases x <;> cases y <;> rfl
@[simp] theorem pcuRecompute_sar : ((pcuRecompute x s).st y).sar = (s.st y).sar := by cases x <;> cases y <;> rfl
@[simp] theorem pcuRecompute_eng : ((pcuRecompute x s).st y).eng = (s.st y).eng := by cases x <;> cases y <;> rfl
@[simp] theorem pcuRecompute_pcu_lastSent : ((pcuRecompute x s).st y).pcu.lastSent = (s.st y).pcu.lastSent := by cases x <;> cases y <;> rfl
@[simp] theorem pcuRecompute_pcu_history : ((pcuRecompute x s).st y).pcu.history = (s.st y).pcu.history := by cases x <;> cases y <;> rfl
@[simp] theorem pcuRecompute_pcu_channel : ((pcuRecompute x s).st y).pcu.channel = (s.st y).pcu.channel := by cases x <;> cases y <;> rfl
@[simp] theorem pcuRecompute_pcu_retune : ((pcuRecompute x s).st y).pcu.retune = (s.st y).pcu.retune := by cases x <;> cases y <;> rfl
@[simp] theorem pcuRecompute_pcu_retuneChannel : ((pcuRecompute x s).st y).pcu.retuneChannel = (s.st y).pcu.retuneChannel := by cases x <;> cases y <;> rfl
@[simp] theorem pcuRecompute_pcu_retuneTimer : ((pcuRecompute x s).st y).pcu.retuneTimer = (s.st y).pcu.retuneTimer := by cases x <;> cases y <;> rfl
@[simp] theorem pcuRecompute_pcu_devCount : ((pcuRecompute x s).st y).pcu.devCount = (s.st y).pcu.devCount := by cases x <;> cases y <;> rfl
@[simp] theorem pcuRecompute_pcu_devRun : ((pcuRecompute x s).st y).pcu.devRun = (s.st y).pcu.devRun := by cases x <;> cases y <;> rfl
@[simp] theorem pcuRecompute_pcu_faultRun : ((pcuRecompute x s).st y).pcu.faultRun = (s.st y).pcu.faultRun := by cases x <;> cases y <;> rfl
@[simp] theorem pcuRecompute_pcu_account : ((pcuRecompute x s).st y).pcu.account = (s.st y).pcu.account := by cases x <;> cases y <;> rfl

/-- R79: a recomputed value obeys the power law. -/
theorem pcuRecompute_power : PowerLaw ((pcuRecompute x s).st x) := by
  have hheld : ((pcuRecompute x s).st x).pcu.held = powerSetOf s x := by cases x <;> rfl
  unfold PowerLaw
  rw [hheld, pcuRecompute_seq, pcuRecompute_eng, pcuRecompute_pcu_retune]
  unfold powerSetOf
  intro h
  by_cases hz : forcedZero s x = true
  · simp [hz] at h
  · simp only [forcedZero, Bool.or_eq_true, Bool.not_eq_true', decide_eq_true_eq, not_or,
      Bool.not_eq_false, not_not] at hz
    exact ⟨hz.1.1, hz.1.2, hz.2⟩

theorem pcuRecompute_inner : Inner s (pcuRecompute x s) :=
  (pcuRecompute_own x s).inner_of_seq (by simp) (by simp) (by simp) fun _ => pcuRecompute_power x s

theorem syncTravel_own : Own x s (syncTravel x s) :=
  (own_modSeq x _ s).trans (own_modTrk x _ _)

@[simp] theorem syncTravel_par : ((syncTravel x s).st y).par = (s.st y).par := by cases x <;> cases y <;> rfl
@[simp] theorem syncTravel_result : ((syncTravel x s).st y).result = (s.st y).result := by cases x <;> cases y <;> rfl
@[simp] theorem syncTravel_pcu : ((syncTravel x s).st y).pcu = (s.st y).pcu := by cases x <;> cases y <;> rfl
@[simp] theorem syncTravel_qsc : ((syncTravel x s).st y).qsc = (s.st y).qsc := by cases x <;> cases y <;> rfl
@[simp] theorem syncTravel_sar : ((syncTravel x s).st y).sar = (s.st y).sar := by cases x <;> cases y <;> rfl
@[simp] theorem syncTravel_eng : ((syncTravel x s).st y).eng = (s.st y).eng := by cases x <;> cases y <;> rfl
@[simp] theorem syncTravel_seq_state : ((syncTravel x s).st y).seq.state = (s.st y).seq.state := by cases x <;> cases y <;> rfl
@[simp] theorem syncTravel_seq_profile : ((syncTravel x s).st y).seq.profile = (s.st y).seq.profile := by cases x <;> cases y <;> rfl
@[simp] theorem syncTravel_seq_datum : ((syncTravel x s).st y).seq.datum = (s.st y).seq.datum := by cases x <;> cases y <;> rfl
@[simp] theorem syncTravel_seq_index : ((syncTravel x s).st y).seq.index = (s.st y).seq.index := by cases x <;> cases y <;> rfl
@[simp] theorem syncTravel_seq_pendingState : ((syncTravel x s).st y).seq.pendingState = (s.st y).seq.pendingState := by cases x <;> cases y <;> rfl
@[simp] theorem syncTravel_seq_heldState : ((syncTravel x s).st y).seq.heldState = (s.st y).seq.heldState := by cases x <;> cases y <;> rfl
@[simp] theorem syncTravel_seq_phase : ((syncTravel x s).st y).seq.phase = (s.st y).seq.phase := by cases x <;> cases y <;> rfl
@[simp] theorem syncTravel_seq_haltCause : ((syncTravel x s).st y).seq.haltCause = (s.st y).seq.haltCause := by cases x <;> cases y <;> rfl
@[simp] theorem syncTravel_seq_degraded : ((syncTravel x s).st y).seq.degraded = (s.st y).seq.degraded := by cases x <;> cases y <;> rfl
@[simp] theorem syncTravel_seq_disturbed : ((syncTravel x s).st y).seq.disturbed = (s.st y).seq.disturbed := by cases x <;> cases y <;> rfl
@[simp] theorem syncTravel_seq_armTimer : ((syncTravel x s).st y).seq.armTimer = (s.st y).seq.armTimer := by cases x <;> cases y <;> rfl
@[simp] theorem syncTravel_seq_dwellTimer : ((syncTravel x s).st y).seq.dwellTimer = (s.st y).seq.dwellTimer := by cases x <;> cases y <;> rfl
@[simp] theorem syncTravel_seq_holdTimer : ((syncTravel x s).st y).seq.holdTimer = (s.st y).seq.holdTimer := by cases x <;> cases y <;> rfl
@[simp] theorem syncTravel_seq_tailTimer : ((syncTravel x s).st y).seq.tailTimer = (s.st y).seq.tailTimer := by cases x <;> cases y <;> rfl
@[simp] theorem syncTravel_seq_nibble : ((syncTravel x s).st y).seq.nibble = (s.st y).seq.nibble := by cases x <;> cases y <;> rfl
@[simp] theorem syncTravel_seq_commandResult : ((syncTravel x s).st y).seq.commandResult = (s.st y).seq.commandResult := by cases x <;> cases y <;> rfl
@[simp] theorem syncTravel_seq_resultReady : ((syncTravel x s).st y).seq.resultReady = (s.st y).seq.resultReady := by cases x <;> cases y <;> rfl
@[simp] theorem syncTravel_seq_handling : ((syncTravel x s).st y).seq.handling = (s.st y).seq.handling := by cases x <;> cases y <;> rfl
@[simp] theorem syncTravel_seq_haltWaiting : ((syncTravel x s).st y).seq.haltWaiting = (s.st y).seq.haltWaiting := by cases x <;> cases y <;> rfl
@[simp] theorem syncTravel_travel : ((syncTravel x s).st x).seq.travel = travelOf s x := by
  cases x <;> rfl
@[simp] theorem syncTravel_travelSet : ((syncTravel x s).st x).seq.travelSet = travelOf s x := by
  cases x <;> rfl

/-- R72: a travel request that has been set obeys the travel law. -/
theorem syncTravel_law : TravelLaw ((syncTravel x s).st x) := by
  unfold TravelLaw
  rw [syncTravel_travel, syncTravel_travelSet, syncTravel_seq_state, syncTravel_seq_phase]
  refine ⟨rfl, fun h => ?_⟩
  unfold travelOf at h
  cases hs : (s.st x).seq.state <;> simp_all
  by_contra hp
  simp [hp] at h

theorem syncTravel_inner : Inner s (syncTravel x s) :=
  (syncTravel_own x s).inner (by simp) (by simp) (fun i hi => ⟨i, by simpa using hi, Nat.le_refl i⟩)
    (fun h => ⟨by simpa using h, by simp⟩)
    (fun h => by unfold PowerLaw at *; simpa using h) (fun _ => syncTravel_law x s)

/-! ## Entering a state -/

theorem recomputeQuench_own : Own x s (recomputeQuench x s) := own_modQsc x _ s

theorem leaveScan_own : Own x s (leaveScan x s) :=
  ((own_modTrk x _ s).trans (own_modQsc x _ _)).trans (recomputeQuench_own x _)

/-- The state the station is in while the blocks react to its new state. -/
def entering (x : StationId) (n : StationState) (s : State) : State :=
  if n.active then modPcu x (stateCounts n) (modSeq x (fun q => { q with state := n }) s)
  else leaveScan x (modPcu x (stateCounts n) (modSeq x (fun q => { q with state := n }) s))

theorem enterState_eq : enterState x n s = syncTravel x (pcuRecompute x (entering x n s)) := by
  unfold enterState entering
  rfl

theorem entering_own : Own x s (entering x n s) := by
  unfold entering
  split
  · exact (own_modSeq x _ s).trans (own_modPcu x _ _)
  · exact ((own_modSeq x _ s).trans (own_modPcu x _ _)).trans (leaveScan_own x _)

theorem enterState_own : Own x s (enterState x n s) := by
  rw [enterState_eq]
  exact ((entering_own x s n).trans (pcuRecompute_own x _)).trans (syncTravel_own x _)

@[simp] theorem entering_par : ((entering x n s).st y).par = (s.st y).par := by
  unfold entering; cases x <;> cases y <;> cases n <;> rfl
@[simp] theorem entering_result : ((entering x n s).st y).result = (s.st y).result := by
  unfold entering; cases x <;> cases y <;> cases n <;> rfl
@[simp] theorem entering_sar : ((entering x n s).st y).sar = (s.st y).sar := by
  unfold entering; cases x <;> cases y <;> cases n <;> rfl
@[simp] theorem entering_eng : ((entering x n s).st y).eng = (s.st y).eng := by
  unfold entering; cases x <;> cases y <;> cases n <;> rfl
@[simp] theorem entering_seq_profile : ((entering x n s).st y).seq.profile = (s.st y).seq.profile := by
  unfold entering; cases x <;> cases y <;> cases n <;> rfl
@[simp] theorem entering_seq_datum : ((entering x n s).st y).seq.datum = (s.st y).seq.datum := by
  unfold entering; cases x <;> cases y <;> cases n <;> rfl
@[simp] theorem entering_seq_index : ((entering x n s).st y).seq.index = (s.st y).seq.index := by
  unfold entering; cases x <;> cases y <;> cases n <;> rfl
@[simp] theorem entering_seq_pendingState : ((entering x n s).st y).seq.pendingState = (s.st y).seq.pendingState := by
  unfold entering; cases x <;> cases y <;> cases n <;> rfl
@[simp] theorem entering_seq_heldState : ((entering x n s).st y).seq.heldState = (s.st y).seq.heldState := by
  unfold entering; cases x <;> cases y <;> cases n <;> rfl
@[simp] theorem entering_seq_phase : ((entering x n s).st y).seq.phase = (s.st y).seq.phase := by
  unfold entering; cases x <;> cases y <;> cases n <;> rfl
@[simp] theorem entering_seq_haltCause : ((entering x n s).st y).seq.haltCause = (s.st y).seq.haltCause := by
  unfold entering; cases x <;> cases y <;> cases n <;> rfl
@[simp] theorem entering_seq_degraded : ((entering x n s).st y).seq.degraded = (s.st y).seq.degraded := by
  unfold entering; cases x <;> cases y <;> cases n <;> rfl
@[simp] theorem entering_seq_disturbed : ((entering x n s).st y).seq.disturbed = (s.st y).seq.disturbed := by
  unfold entering; cases x <;> cases y <;> cases n <;> rfl
@[simp] theorem entering_seq_armTimer : ((entering x n s).st y).seq.armTimer = (s.st y).seq.armTimer := by
  unfold entering; cases x <;> cases y <;> cases n <;> rfl
@[simp] theorem entering_seq_dwellTimer : ((entering x n s).st y).seq.dwellTimer = (s.st y).seq.dwellTimer := by
  unfold entering; cases x <;> cases y <;> cases n <;> rfl
@[simp] theorem entering_seq_holdTimer : ((entering x n s).st y).seq.holdTimer = (s.st y).seq.holdTimer := by
  unfold entering; cases x <;> cases y <;> cases n <;> rfl
@[simp] theorem entering_seq_tailTimer : ((entering x n s).st y).seq.tailTimer = (s.st y).seq.tailTimer := by
  unfold entering; cases x <;> cases y <;> cases n <;> rfl
@[simp] theorem entering_seq_travel : ((entering x n s).st y).seq.travel = (s.st y).seq.travel := by
  unfold entering; cases x <;> cases y <;> cases n <;> rfl
@[simp] theorem entering_seq_travelSet : ((entering x n s).st y).seq.travelSet = (s.st y).seq.travelSet := by
  unfold entering; cases x <;> cases y <;> cases n <;> rfl
@[simp] theorem entering_seq_travelStale : ((entering x n s).st y).seq.travelStale = (s.st y).seq.travelStale := by
  unfold entering; cases x <;> cases y <;> cases n <;> rfl
@[simp] theorem entering_seq_nibble : ((entering x n s).st y).seq.nibble = (s.st y).seq.nibble := by
  unfold entering; cases x <;> cases y <;> cases n <;> rfl
@[simp] theorem entering_seq_commandResult : ((entering x n s).st y).seq.commandResult = (s.st y).seq.commandResult := by
  unfold entering; cases x <;> cases y <;> cases n <;> rfl
@[simp] theorem entering_seq_resultReady : ((entering x n s).st y).seq.resultReady = (s.st y).seq.resultReady := by
  unfold entering; cases x <;> cases y <;> cases n <;> rfl
@[simp] theorem entering_seq_handling : ((entering x n s).st y).seq.handling = (s.st y).seq.handling := by
  unfold entering; cases x <;> cases y <;> cases n <;> rfl
@[simp] theorem entering_seq_haltWaiting : ((entering x n s).st y).seq.haltWaiting = (s.st y).seq.haltWaiting := by
  unfold entering; cases x <;> cases y <;> cases n <;> rfl
@[simp] theorem entering_pcu_held : ((entering x n s).st y).pcu.held = (s.st y).pcu.held := by
  unfold entering; cases x <;> cases y <;> cases n <;> rfl
@[simp] theorem entering_pcu_lastSent : ((entering x n s).st y).pcu.lastSent = (s.st y).pcu.lastSent := by
  unfold entering; cases x <;> cases y <;> cases n <;> rfl
@[simp] theorem entering_pcu_history : ((entering x n s).st y).pcu.history = (s.st y).pcu.history := by
  unfold entering; cases x <;> cases y <;> cases n <;> rfl
@[simp] theorem entering_pcu_channel : ((entering x n s).st y).pcu.channel = (s.st y).pcu.channel := by
  unfold entering; cases x <;> cases y <;> cases n <;> rfl
@[simp] theorem entering_pcu_retune : ((entering x n s).st y).pcu.retune = (s.st y).pcu.retune := by
  unfold entering; cases x <;> cases y <;> cases n <;> rfl
@[simp] theorem entering_pcu_retuneChannel : ((entering x n s).st y).pcu.retuneChannel = (s.st y).pcu.retuneChannel := by
  unfold entering; cases x <;> cases y <;> cases n <;> rfl
@[simp] theorem entering_pcu_retuneTimer : ((entering x n s).st y).pcu.retuneTimer = (s.st y).pcu.retuneTimer := by
  unfold entering; cases x <;> cases y <;> cases n <;> rfl
@[simp] theorem entering_pcu_account : ((entering x n s).st y).pcu.account = (s.st y).pcu.account := by
  unfold entering; cases x <;> cases y <;> cases n <;> rfl
@[simp] theorem entering_qsc_queue : ((entering x n s).st y).qsc.queue = (s.st y).qsc.queue := by
  unfold entering; cases x <;> cases y <;> cases n <;> rfl
@[simp] theorem entering_qsc_lastIssued : ((entering x n s).st y).qsc.lastIssued = (s.st y).qsc.lastIssued := by
  unfold entering; cases x <;> cases y <;> cases n <;> rfl
@[simp] theorem entering_qsc_closing : ((entering x n s).st y).qsc.closing = (s.st y).qsc.closing := by
  unfold entering; cases x <;> cases y <;> cases n <;> rfl
@[simp] theorem entering_state : ((entering x n s).st x).seq.state = n := by
  unfold entering; cases x <;> cases n <;> rfl

@[simp] theorem enterState_par : ((enterState x n s).st y).par = (s.st y).par := by
  rw [enterState_eq]; simp
@[simp] theorem enterState_result : ((enterState x n s).st y).result = (s.st y).result := by
  rw [enterState_eq]; simp
@[simp] theorem enterState_sar : ((enterState x n s).st y).sar = (s.st y).sar := by
  rw [enterState_eq]; simp
@[simp] theorem enterState_eng : ((enterState x n s).st y).eng = (s.st y).eng := by
  rw [enterState_eq]; simp
@[simp] theorem enterState_seq_profile : ((enterState x n s).st y).seq.profile = (s.st y).seq.profile := by
  rw [enterState_eq]; simp
@[simp] theorem enterState_seq_datum : ((enterState x n s).st y).seq.datum = (s.st y).seq.datum := by
  rw [enterState_eq]; simp
@[simp] theorem enterState_seq_index : ((enterState x n s).st y).seq.index = (s.st y).seq.index := by
  rw [enterState_eq]; simp
@[simp] theorem enterState_seq_pendingState : ((enterState x n s).st y).seq.pendingState = (s.st y).seq.pendingState := by
  rw [enterState_eq]; simp
@[simp] theorem enterState_seq_heldState : ((enterState x n s).st y).seq.heldState = (s.st y).seq.heldState := by
  rw [enterState_eq]; simp
@[simp] theorem enterState_seq_phase : ((enterState x n s).st y).seq.phase = (s.st y).seq.phase := by
  rw [enterState_eq]; simp
@[simp] theorem enterState_seq_haltCause : ((enterState x n s).st y).seq.haltCause = (s.st y).seq.haltCause := by
  rw [enterState_eq]; simp
@[simp] theorem enterState_seq_degraded : ((enterState x n s).st y).seq.degraded = (s.st y).seq.degraded := by
  rw [enterState_eq]; simp
@[simp] theorem enterState_seq_disturbed : ((enterState x n s).st y).seq.disturbed = (s.st y).seq.disturbed := by
  rw [enterState_eq]; simp
@[simp] theorem enterState_seq_armTimer : ((enterState x n s).st y).seq.armTimer = (s.st y).seq.armTimer := by
  rw [enterState_eq]; simp
@[simp] theorem enterState_seq_dwellTimer : ((enterState x n s).st y).seq.dwellTimer = (s.st y).seq.dwellTimer := by
  rw [enterState_eq]; simp
@[simp] theorem enterState_seq_holdTimer : ((enterState x n s).st y).seq.holdTimer = (s.st y).seq.holdTimer := by
  rw [enterState_eq]; simp
@[simp] theorem enterState_seq_tailTimer : ((enterState x n s).st y).seq.tailTimer = (s.st y).seq.tailTimer := by
  rw [enterState_eq]; simp
@[simp] theorem enterState_seq_nibble : ((enterState x n s).st y).seq.nibble = (s.st y).seq.nibble := by
  rw [enterState_eq]; simp
@[simp] theorem enterState_seq_commandResult : ((enterState x n s).st y).seq.commandResult = (s.st y).seq.commandResult := by
  rw [enterState_eq]; simp
@[simp] theorem enterState_seq_resultReady : ((enterState x n s).st y).seq.resultReady = (s.st y).seq.resultReady := by
  rw [enterState_eq]; simp
@[simp] theorem enterState_seq_handling : ((enterState x n s).st y).seq.handling = (s.st y).seq.handling := by
  rw [enterState_eq]; simp
@[simp] theorem enterState_seq_haltWaiting : ((enterState x n s).st y).seq.haltWaiting = (s.st y).seq.haltWaiting := by
  rw [enterState_eq]; simp
@[simp] theorem enterState_pcu_lastSent : ((enterState x n s).st y).pcu.lastSent = (s.st y).pcu.lastSent := by
  rw [enterState_eq]; simp
@[simp] theorem enterState_pcu_history : ((enterState x n s).st y).pcu.history = (s.st y).pcu.history := by
  rw [enterState_eq]; simp
@[simp] theorem enterState_pcu_channel : ((enterState x n s).st y).pcu.channel = (s.st y).pcu.channel := by
  rw [enterState_eq]; simp
@[simp] theorem enterState_pcu_retune : ((enterState x n s).st y).pcu.retune = (s.st y).pcu.retune := by
  rw [enterState_eq]; simp
@[simp] theorem enterState_pcu_retuneChannel : ((enterState x n s).st y).pcu.retuneChannel = (s.st y).pcu.retuneChannel := by
  rw [enterState_eq]; simp
@[simp] theorem enterState_pcu_retuneTimer : ((enterState x n s).st y).pcu.retuneTimer = (s.st y).pcu.retuneTimer := by
  rw [enterState_eq]; simp
@[simp] theorem enterState_pcu_account : ((enterState x n s).st y).pcu.account = (s.st y).pcu.account := by
  rw [enterState_eq]; simp
@[simp] theorem enterState_qsc_queue : ((enterState x n s).st y).qsc.queue = (s.st y).qsc.queue := by
  rw [enterState_eq]; simp
@[simp] theorem enterState_qsc_lastIssued : ((enterState x n s).st y).qsc.lastIssued = (s.st y).qsc.lastIssued := by
  rw [enterState_eq]; simp
@[simp] theorem enterState_qsc_closing : ((enterState x n s).st y).qsc.closing = (s.st y).qsc.closing := by
  rw [enterState_eq]; simp
@[simp] theorem enterState_state : ((enterState x n s).st x).seq.state = n := by
  rw [enterState_eq]; simp

theorem enterState_power : PowerLaw ((enterState x n s).st x) := by
  have h := pcuRecompute_power x (entering x n s)
  rw [enterState_eq]
  unfold PowerLaw at *
  simpa using h

theorem enterState_travel : TravelLaw ((enterState x n s).st x) := by
  rw [enterState_eq]
  exact syncTravel_law x _

/-- A station enters an active state only from one. -/
theorem enterState_inner (h : n.active = true → s.active x = true) : Inner s (enterState x n s) :=
  (enterState_own x s n).inner (by simp) (by simp)
    (fun i hi => ⟨i, by simpa using hi, Nat.le_refl i⟩)
    (fun k => ⟨h (by simpa using k), by simp⟩) (fun _ => enterState_power x s n)
    fun _ => enterState_travel x s n

/-- A state at rest leaves the scheduler with its checks stopped (R117). -/
theorem enterState_rest (h : n.active = false) :
    ((enterState x n s).st x).qsc.valve = .stopped ∧
      ((enterState x n s).st x).qsc.flowCheck = .disarmed := by
  rw [enterState_eq]
  simp only [syncTravel_qsc, pcuRecompute_qsc]
  unfold entering
  cases x <;> cases n <;> first | exact ⟨rfl, rfl⟩ | exact absurd h (by decide)

/-- An active state leaves the scheduler alone. -/
theorem enterState_qsc (h : n.active = true) : ((enterState x n s).st y).qsc = (s.st y).qsc := by
  rw [enterState_eq]
  simp only [syncTravel_qsc, pcuRecompute_qsc]
  unfold entering
  rw [if_pos h]
  simp

/-! ## Index and phase -/

theorem setIndex_own : Own x s (setIndex x i s) :=
  (((own_modSeq x _ s).trans (own_modPcu x _ _)).trans (pcuRecompute_own x _)).trans
    (syncTravel_own x _)

@[simp] theorem setIndex_par : ((setIndex x i s).st y).par = (s.st y).par := by
  unfold setIndex; cases x <;> cases y <;> rfl
@[simp] theorem setIndex_result : ((setIndex x i s).st y).result = (s.st y).result := by
  unfold setIndex; cases x <;> cases y <;> rfl
@[simp] theorem setIndex_qsc : ((setIndex x i s).st y).qsc = (s.st y).qsc := by
  unfold setIndex; cases x <;> cases y <;> rfl
@[simp] theorem setIndex_sar : ((setIndex x i s).st y).sar = (s.st y).sar := by
  unfold setIndex; cases x <;> cases y <;> rfl
@[simp] theorem setIndex_eng : ((setIndex x i s).st y).eng = (s.st y).eng := by
  unfold setIndex; cases x <;> cases y <;> rfl
@[simp] theorem setIndex_seq_state : ((setIndex x i s).st y).seq.state = (s.st y).seq.state := by
  unfold setIndex; cases x <;> cases y <;> rfl
@[simp] theorem setIndex_seq_profile : ((setIndex x i s).st y).seq.profile = (s.st y).seq.profile := by
  unfold setIndex; cases x <;> cases y <;> rfl
@[simp] theorem setIndex_seq_datum : ((setIndex x i s).st y).seq.datum = (s.st y).seq.datum := by
  unfold setIndex; cases x <;> cases y <;> rfl
@[simp] theorem setIndex_seq_pendingState : ((setIndex x i s).st y).seq.pendingState = (s.st y).seq.pendingState := by
  unfold setIndex; cases x <;> cases y <;> rfl
@[simp] theorem setIndex_seq_heldState : ((setIndex x i s).st y).seq.heldState = (s.st y).seq.heldState := by
  unfold setIndex; cases x <;> cases y <;> rfl
@[simp] theorem setIndex_seq_phase : ((setIndex x i s).st y).seq.phase = (s.st y).seq.phase := by
  unfold setIndex; cases x <;> cases y <;> rfl
@[simp] theorem setIndex_seq_haltCause : ((setIndex x i s).st y).seq.haltCause = (s.st y).seq.haltCause := by
  unfold setIndex; cases x <;> cases y <;> rfl
@[simp] theorem setIndex_seq_degraded : ((setIndex x i s).st y).seq.degraded = (s.st y).seq.degraded := by
  unfold setIndex; cases x <;> cases y <;> rfl
@[simp] theorem setIndex_seq_disturbed : ((setIndex x i s).st y).seq.disturbed = (s.st y).seq.disturbed := by
  unfold setIndex; cases x <;> cases y <;> rfl
@[simp] theorem setIndex_seq_armTimer : ((setIndex x i s).st y).seq.armTimer = (s.st y).seq.armTimer := by
  unfold setIndex; cases x <;> cases y <;> rfl
@[simp] theorem setIndex_seq_dwellTimer : ((setIndex x i s).st y).seq.dwellTimer = (s.st y).seq.dwellTimer := by
  unfold setIndex; cases x <;> cases y <;> rfl
@[simp] theorem setIndex_seq_holdTimer : ((setIndex x i s).st y).seq.holdTimer = (s.st y).seq.holdTimer := by
  unfold setIndex; cases x <;> cases y <;> rfl
@[simp] theorem setIndex_seq_tailTimer : ((setIndex x i s).st y).seq.tailTimer = (s.st y).seq.tailTimer := by
  unfold setIndex; cases x <;> cases y <;> rfl
@[simp] theorem setIndex_seq_nibble : ((setIndex x i s).st y).seq.nibble = (s.st y).seq.nibble := by
  unfold setIndex; cases x <;> cases y <;> rfl
@[simp] theorem setIndex_seq_commandResult : ((setIndex x i s).st y).seq.commandResult = (s.st y).seq.commandResult := by
  unfold setIndex; cases x <;> cases y <;> rfl
@[simp] theorem setIndex_seq_resultReady : ((setIndex x i s).st y).seq.resultReady = (s.st y).seq.resultReady := by
  unfold setIndex; cases x <;> cases y <;> rfl
@[simp] theorem setIndex_seq_handling : ((setIndex x i s).st y).seq.handling = (s.st y).seq.handling := by
  unfold setIndex; cases x <;> cases y <;> rfl
@[simp] theorem setIndex_seq_haltWaiting : ((setIndex x i s).st y).seq.haltWaiting = (s.st y).seq.haltWaiting := by
  unfold setIndex; cases x <;> cases y <;> rfl
@[simp] theorem setIndex_pcu_lastSent : ((setIndex x i s).st y).pcu.lastSent = (s.st y).pcu.lastSent := by
  unfold setIndex; cases x <;> cases y <;> rfl
@[simp] theorem setIndex_pcu_history : ((setIndex x i s).st y).pcu.history = (s.st y).pcu.history := by
  unfold setIndex; cases x <;> cases y <;> rfl
@[simp] theorem setIndex_pcu_channel : ((setIndex x i s).st y).pcu.channel = (s.st y).pcu.channel := by
  unfold setIndex; cases x <;> cases y <;> rfl
@[simp] theorem setIndex_pcu_retune : ((setIndex x i s).st y).pcu.retune = (s.st y).pcu.retune := by
  unfold setIndex; cases x <;> cases y <;> rfl
@[simp] theorem setIndex_pcu_retuneChannel : ((setIndex x i s).st y).pcu.retuneChannel = (s.st y).pcu.retuneChannel := by
  unfold setIndex; cases x <;> cases y <;> rfl
@[simp] theorem setIndex_pcu_retuneTimer : ((setIndex x i s).st y).pcu.retuneTimer = (s.st y).pcu.retuneTimer := by
  unfold setIndex; cases x <;> cases y <;> rfl
@[simp] theorem setIndex_pcu_account : ((setIndex x i s).st y).pcu.account = (s.st y).pcu.account := by
  unfold setIndex; cases x <;> cases y <;> rfl
@[simp] theorem setIndex_index : ((setIndex x i s).st x).seq.index = i := by
  unfold setIndex; cases x <;> rfl

theorem setIndex_power : PowerLaw ((setIndex x i s).st x) := by
  have h := pcuRecompute_power x
    (modPcu x (fun p => { p with rampValue := none }) (modSeq x (fun q => { q with index := i }) s))
  unfold setIndex
  unfold PowerLaw at *
  simpa using h

theorem setIndex_travel : TravelLaw ((setIndex x i s).st x) := syncTravel_law x _

/-- An index that does not fall. -/
theorem setIndex_inner (h : ∀ k, (s.st x).seq.index = some k → ∃ j, i = some j ∧ k ≤ j) :
    Inner s (setIndex x i s) :=
  (setIndex_own x s i).inner (by simp) (by simp) (fun k hk => by simpa using h k hk)
    (fun k => ⟨by simpa using k, by simp⟩) (fun _ => setIndex_power x s i)
    fun _ => setIndex_travel x s i

theorem setPhase_own : Own x s (setPhase x ph s) := (own_modSeq x _ s).trans (syncTravel_own x _)

@[simp] theorem setPhase_par : ((setPhase x ph s).st y).par = (s.st y).par := by
  unfold setPhase; cases x <;> cases y <;> rfl
@[simp] theorem setPhase_result : ((setPhase x ph s).st y).result = (s.st y).result := by
  unfold setPhase; cases x <;> cases y <;> rfl
@[simp] theorem setPhase_pcu : ((setPhase x ph s).st y).pcu = (s.st y).pcu := by
  unfold setPhase; cases x <;> cases y <;> rfl
@[simp] theorem setPhase_qsc : ((setPhase x ph s).st y).qsc = (s.st y).qsc := by
  unfold setPhase; cases x <;> cases y <;> rfl
@[simp] theorem setPhase_sar : ((setPhase x ph s).st y).sar = (s.st y).sar := by
  unfold setPhase; cases x <;> cases y <;> rfl
@[simp] theorem setPhase_eng : ((setPhase x ph s).st y).eng = (s.st y).eng := by
  unfold setPhase; cases x <;> cases y <;> rfl
@[simp] theorem setPhase_seq_state : ((setPhase x ph s).st y).seq.state = (s.st y).seq.state := by
  unfold setPhase; cases x <;> cases y <;> rfl
@[simp] theorem setPhase_seq_profile : ((setPhase x ph s).st y).seq.profile = (s.st y).seq.profile := by
  unfold setPhase; cases x <;> cases y <;> rfl
@[simp] theorem setPhase_seq_datum : ((setPhase x ph s).st y).seq.datum = (s.st y).seq.datum := by
  unfold setPhase; cases x <;> cases y <;> rfl
@[simp] theorem setPhase_seq_index : ((setPhase x ph s).st y).seq.index = (s.st y).seq.index := by
  unfold setPhase; cases x <;> cases y <;> rfl
@[simp] theorem setPhase_seq_pendingState : ((setPhase x ph s).st y).seq.pendingState = (s.st y).seq.pendingState := by
  unfold setPhase; cases x <;> cases y <;> rfl
@[simp] theorem setPhase_seq_heldState : ((setPhase x ph s).st y).seq.heldState = (s.st y).seq.heldState := by
  unfold setPhase; cases x <;> cases y <;> rfl
@[simp] theorem setPhase_seq_haltCause : ((setPhase x ph s).st y).seq.haltCause = (s.st y).seq.haltCause := by
  unfold setPhase; cases x <;> cases y <;> rfl
@[simp] theorem setPhase_seq_degraded : ((setPhase x ph s).st y).seq.degraded = (s.st y).seq.degraded := by
  unfold setPhase; cases x <;> cases y <;> rfl
@[simp] theorem setPhase_seq_disturbed : ((setPhase x ph s).st y).seq.disturbed = (s.st y).seq.disturbed := by
  unfold setPhase; cases x <;> cases y <;> rfl
@[simp] theorem setPhase_seq_armTimer : ((setPhase x ph s).st y).seq.armTimer = (s.st y).seq.armTimer := by
  unfold setPhase; cases x <;> cases y <;> rfl
@[simp] theorem setPhase_seq_dwellTimer : ((setPhase x ph s).st y).seq.dwellTimer = (s.st y).seq.dwellTimer := by
  unfold setPhase; cases x <;> cases y <;> rfl
@[simp] theorem setPhase_seq_holdTimer : ((setPhase x ph s).st y).seq.holdTimer = (s.st y).seq.holdTimer := by
  unfold setPhase; cases x <;> cases y <;> rfl
@[simp] theorem setPhase_seq_tailTimer : ((setPhase x ph s).st y).seq.tailTimer = (s.st y).seq.tailTimer := by
  unfold setPhase; cases x <;> cases y <;> rfl
@[simp] theorem setPhase_seq_nibble : ((setPhase x ph s).st y).seq.nibble = (s.st y).seq.nibble := by
  unfold setPhase; cases x <;> cases y <;> rfl
@[simp] theorem setPhase_seq_commandResult : ((setPhase x ph s).st y).seq.commandResult = (s.st y).seq.commandResult := by
  unfold setPhase; cases x <;> cases y <;> rfl
@[simp] theorem setPhase_seq_resultReady : ((setPhase x ph s).st y).seq.resultReady = (s.st y).seq.resultReady := by
  unfold setPhase; cases x <;> cases y <;> rfl
@[simp] theorem setPhase_seq_handling : ((setPhase x ph s).st y).seq.handling = (s.st y).seq.handling := by
  unfold setPhase; cases x <;> cases y <;> rfl
@[simp] theorem setPhase_seq_haltWaiting : ((setPhase x ph s).st y).seq.haltWaiting = (s.st y).seq.haltWaiting := by
  unfold setPhase; cases x <;> cases y <;> rfl
@[simp] theorem setPhase_phase : ((setPhase x ph s).st x).seq.phase = ph := by
  unfold setPhase; cases x <;> rfl

theorem setPhase_inner : Inner s (setPhase x ph s) :=
  (setPhase_own x s ph).inner (by simp) (by simp)
    (fun k hk => ⟨k, by simpa using hk, Nat.le_refl k⟩) (fun k => ⟨by simpa using k, by simp⟩)
    (fun h => by unfold PowerLaw at *; simpa using h) fun _ => syncTravel_law x _

/-! ## The retained record -/

variable (r : Option Retained) (c : Cycle)

theorem putRetained_inner : Inner s (putRetained x r s) where
  blocks := ⟨rfl, rfl, rfl, rfl, rfl, rfl, rfl, fun _ h => h, fun _ => rfl, fun _ => rfl, rfl⟩
  rises := fun _ i h => ⟨i, h, Nat.le_refl i⟩
  held := fun _ h => ⟨h, rfl, rfl⟩
  cond := id
  power := id
  travel := id

@[simp] theorem writeRetained_st : (writeRetained x n c s).st y = s.st y := by
  unfold writeRetained; split <;> rfl
@[simp] theorem writeRetained_store : (writeRetained x n c s).store = s.store := by
  unfold writeRetained; split <;> rfl
@[simp] theorem writeRetained_params : (writeRetained x n c s).params = s.params := by
  unfold writeRetained; split <;> rfl
@[simp] theorem writeRetained_link : (writeRetained x n c s).link = s.link := by
  unfold writeRetained; split <;> rfl
@[simp] theorem writeRetained_cdu : (writeRetained x n c s).cdu = s.cdu := by
  unfold writeRetained; split <;> rfl
@[simp] theorem writeRetainedNow_st : (writeRetainedNow x s).st y = s.st y := writeRetained_st x y s _ _
@[simp] theorem writeRetainedNow_store : (writeRetainedNow x s).store = s.store :=
  writeRetained_store x s _ _
@[simp] theorem writeRetainedNow_params : (writeRetainedNow x s).params = s.params :=
  writeRetained_params x s _ _
@[simp] theorem writeRetainedNow_link : (writeRetainedNow x s).link = s.link :=
  writeRetained_link x s _ _
@[simp] theorem writeRetainedNow_cdu : (writeRetainedNow x s).cdu = s.cdu :=
  writeRetained_cdu x s _ _

theorem writeRetained_inner : Inner s (writeRetained x n c s) := by
  unfold writeRetained
  split
  · exact putRetained_inner x s _
  · exact .refl s

theorem writeRetainedNow_inner : Inner s (writeRetainedNow x s) := writeRetained_inner x s _ _

theorem bump_inner : Inner s (bump s) where
  blocks := ⟨rfl, rfl, rfl, rfl, rfl, rfl, rfl, fun _ h => h, fun _ => rfl, fun _ => rfl, rfl⟩
  rises := fun _ i h => ⟨i, h, Nat.le_refl i⟩
  held := fun _ h => ⟨h, rfl, rfl⟩
  cond := id
  power := id
  travel := id

end

/-! ## The recomputation leaves nothing to recompute (R77) -/

section

variable {x : StationId} {s : State}

/-- Two changes of a unit are one. -/
theorem modPcu_modPcu (f g : Power → Power) : modPcu x f (modPcu x g s) = modPcu x (fun p => f (g p)) s := by
  cases x <;> rfl

/-- The kept ramp value is what a second recomputation finds. -/
theorem rampNow_recompute (i : Nat) (g : Segment) (h : rampKept s x = some (rampNow s x i g)) :
    rampNow (pcuRecompute x s) x i g = rampNow s x i g := by
  unfold rampNow
  have e1 : (pcuRecompute x s).segments x = s.segments x := by cases x <;> rfl
  have e2 : (pcuRecompute x s).direction x = s.direction x := by cases x <;> rfl
  have e3 : (pcuRecompute x s).segLength x i = s.segLength x i := by cases x <;> rfl
  have e4 : ((pcuRecompute x s).st x).pcu.rampValue = rampKept s x := by cases x <;> rfl
  simp only [e1, e2, e3, e4, pcuRecompute_trk]
  cases hr : (s.st x).trk.report.bind Report.lookAhead with
  | some p => rfl
  | none =>
    rw [h]
    simp only [rampNow, hr, Option.getD_some]

/-- A recomputed unit is up to date. -/
theorem pcuRecompute_idem : pcuRecompute x (pcuRecompute x s) = pcuRecompute x s := by
  have seq : ((pcuRecompute x s).st x).seq = (s.st x).seq := pcuRecompute_seq ..
  have force : (pcuRecompute x s).segInForce x = s.segInForce x := by cases x <;> rfl
  have target : targetOf (pcuRecompute x s) x = targetOf s x := by
    unfold targetOf
    rw [seq, force]
    split
    · rename_i hot
      split
      · rename_i i g hi hg
        split <;> try rfl
        rename_i hk hs
        apply rampNow_recompute
        unfold rampKept
        simp [hi, hg, hot, hk, hs]
      · rfl
    · rfl
  have kept : rampKept (pcuRecompute x s) x = rampKept s x := by
    have e4 : ((pcuRecompute x s).st x).pcu.rampValue = rampKept s x := by cases x <;> rfl
    rw [rampKept, seq, force, e4]
    split
    · rename_i i g hi hg
      split
      · rename_i c
        have h : rampKept s x = some (rampNow s x i g) := by
          unfold rampKept
          simp only [hi, hg, c, if_true]
        rw [rampNow_recompute i g h, h]
      · rfl
    · rfl
  have power : powerSetOf (pcuRecompute x s) x = powerSetOf s x := by
    have e : forcedZero (pcuRecompute x s) x = forcedZero s x := by cases x <;> rfl
    have e2 : poweredSegment (pcuRecompute x s) x = poweredSegment s x := by cases x <;> rfl
    have e3 : rampStep (pcuRecompute x s) x = rampStep s x := by cases x <;> rfl
    have e4 : channelRequest ((pcuRecompute x s).st x).pcu = channelRequest (s.st x).pcu := by cases x <;> rfl
    unfold powerSetOf
    rw [e, e2, e3, e4, target, pcuRecompute_trk, pcuRecompute_pcu_lastSent]
  conv_lhs => rw [pcuRecompute, target, kept, power]
  simp only [pcuRecompute, modPcu_modPcu]

end

end Sys2Proof.Machine
end

