-- ==== Sys2Proof/Laws/Quench.lean ====
section
/-! SUPPORT. What the tasks of Quench Scheduler and Supply Arbiter can do: what they leave alone, and that they
keep the laws of queue, request and flow. -/

namespace Sys2Proof.Machine

/-! ## What the tasks leave alone -/

/-- What every task leaves alone. -/
structure Calm (s t : State) : Prop where
  inner : Inner s t
  cdu : t.cdu = s.cdu
  store : t.store = s.store
  seq : ∀ y, { (t.st y).seq with
      phase := (s.st y).seq.phase, tailTimer := (s.st y).seq.tailTimer,
      travel := (s.st y).seq.travel, travelSet := (s.st y).seq.travelSet,
      travelStale := (s.st y).seq.travelStale } = (s.st y).seq
  trk : ∀ y, { (t.st y).trk with
      settle := (s.st y).trk.settle, settled := (s.st y).trk.settled,
      followingRun := (s.st y).trk.followingRun } = (s.st y).trk
  pcu : ∀ y, (t.st y).pcu = (s.st y).pcu
  eng : ∀ y, (t.st y).eng = (s.st y).eng

/-- A station without queue and request is not touched at all. -/
def IdleKept (s t : State) : Prop :=
  ∀ y, (s.st y).qsc.queue = [] → (s.st y).sar.waiting = none → t.st y = s.st y

theorem IdleKept.refl (s : State) : IdleKept s s := fun _ _ _ => rfl

theorem IdleKept.trans {s t u : State} (h : IdleKept s t) (k : IdleKept t u) : IdleKept s u := by
  intro y hq hw
  have h1 := h y hq hw
  rw [k y (by rw [h1]; exact hq) (by rw [h1]; exact hw), h1]

theorem Calm.refl (s : State) : Calm s s :=
  ⟨.refl s, rfl, rfl, fun _ => rfl, fun _ => rfl, fun _ => rfl, fun _ => rfl⟩

theorem Calm.trans {s t u : State} (h : Calm s t) (k : Calm t u) : Calm s u where
  inner := h.inner.trans k.inner
  cdu := k.cdu.trans h.cdu
  store := k.store.trans h.store
  seq y := by
    have h1 := h.seq y
    have h2 := k.seq y
    rw [← h1, ← h2]
  trk y := by
    have h1 := h.trk y
    have h2 := k.trk y
    rw [← h1, ← h2]
  pcu y := (k.pcu y).trans (h.pcu y)
  eng y := (k.eng y).trans (h.eng y)

theorem Calm.still {s t : State} (h : Calm s t) (y : StationId) : Still y s t := by
  have k := h.seq y
  have k1 := congrArg Sequencer.state k
  have k2 := congrArg Sequencer.index k
  have k3 := congrArg Sequencer.profile k
  have k4 := congrArg Sequencer.handling k
  have k5 := congrArg Sequencer.pendingState k
  have k6 := congrArg Sequencer.heldState k
  exact ⟨k1, k2, k3, k4, k5, k6⟩

/-- Work inside one copy that only schedules. -/
theorem Own.calm {x : StationId} {s t : State} (h : Own x s t)
    (par : (t.st x).par = (s.st x).par) (seq : (t.st x).seq = (s.st x).seq)
    (trk : (t.st x).trk = (s.st x).trk) (pcu : (t.st x).pcu = (s.st x).pcu)
    (eng : (t.st x).eng = (s.st x).eng) : Calm s t where
  inner := h.inner_of_seq par (by rw [eng]) seq (fun k => by
    unfold PowerLaw at *
    rw [seq, pcu, eng]
    exact k)
  cdu := h.cdu
  store := h.store
  seq y := by
    rcases eq_or_other x y with rfl | rfl
    · rw [seq]
    · rw [h.other (other_ne x)]
  trk y := by
    rcases eq_or_other x y with rfl | rfl
    · rw [trk]
    · rw [h.other (other_ne x)]
  pcu y := by
    rcases eq_or_other x y with rfl | rfl
    · exact pcu
    · rw [h.other (other_ne x)]
  eng y := by
    rcases eq_or_other x y with rfl | rfl
    · exact eng
    · rw [h.other (other_ne x)]

/-! ## What an issue does, piece by piece -/

section

variable (x y : StationId) (s : State) (z : ZoneSet) (e : QEntry)

theorem issueSet_own : Own x s (issueSet x z s) :=
  ((own_modQsc x _ s).trans (recomputeQuench_own x _)).trans (own_modSar x _ _)
@[simp] theorem issueSet_par : ((issueSet x z s).st y).par = (s.st y).par := by
  cases x <;> cases y <;> rfl
@[simp] theorem issueSet_seq : ((issueSet x z s).st y).seq = (s.st y).seq := by
  cases x <;> cases y <;> rfl
@[simp] theorem issueSet_trk : ((issueSet x z s).st y).trk = (s.st y).trk := by
  cases x <;> cases y <;> rfl
@[simp] theorem issueSet_pcu : ((issueSet x z s).st y).pcu = (s.st y).pcu := by
  cases x <;> cases y <;> rfl
@[simp] theorem issueSet_eng : ((issueSet x z s).st y).eng = (s.st y).eng := by
  cases x <;> cases y <;> rfl
@[simp] theorem issueSet_result : ((issueSet x z s).st y).result = (s.st y).result := by
  cases x <;> cases y <;> rfl
@[simp] theorem issueSet_params : (issueSet x z s).params = s.params := rfl
@[simp] theorem issueSet_qsc : ((issueSet x z s).st x).qsc =
    { (s.st x).qsc with lastIssued := z, held := z, stale := (s.st x).trk.extrapolating } := by
  cases x <;> rfl
@[simp] theorem issueSet_sar : ((issueSet x z s).st x).sar =
    { (s.st x).sar with granted := flowOf (s.st x).par z } := by
  cases x <;> rfl

@[simp] theorem issueSet_link : (issueSet x z s).link = s.link := rfl
theorem startValve_own : Own x s (startValve x z s) := own_modQsc x _ s
theorem recordLateness_own (o : Origin) (l : Nat) : Own x s (recordLateness x o l s) :=
  own_modResult x _ s

/-- What an issue changes in a station's copy before the tail reacts. -/
def issued (x : StationId) (e : QEntry) (s : State) : State :=
  startValve x e.zones
    (modQsc x (fun q => { q with queue := q.queue.drop 1 })
      (recordLateness x e.origin (latenessOf s x e) (issueSet x e.zones s)))

theorem issueHead_eq : issueHead x e s =
    match e.origin with
    | .endMarker =>
      ((endMarkerIssued x (issued x e s)).1,
        fallTasks (issueFalls s x e.zones) ++ (endMarkerIssued x (issued x e s)).2 ++ [.test x])
    | .segment _ => (issued x e s, fallTasks (issueFalls s x e.zones) ++ [.test x]) := rfl

theorem issued_own : Own x s (issued x e s) :=
  (((issueSet_own x s _).trans (recordLateness_own x _ _ _)).trans (own_modQsc x _ _)).trans
    (startValve_own x _ _)
@[simp] theorem issued_par : ((issued x e s).st y).par = (s.st y).par := by
  simp [issued, startValve, recordLateness, modEntry]
@[simp] theorem issued_seq : ((issued x e s).st y).seq = (s.st y).seq := by
  simp [issued, startValve, recordLateness, modEntry]
@[simp] theorem issued_trk : ((issued x e s).st y).trk = (s.st y).trk := by
  simp [issued, startValve, recordLateness, modEntry]
@[simp] theorem issued_pcu : ((issued x e s).st y).pcu = (s.st y).pcu := by
  simp [issued, startValve, recordLateness, modEntry]
@[simp] theorem issued_eng : ((issued x e s).st y).eng = (s.st y).eng := by
  simp [issued, startValve, recordLateness, modEntry]
@[simp] theorem issued_params : (issued x e s).params = s.params := rfl
@[simp] theorem issued_sar : ((issued x e s).st x).sar =
    { (s.st x).sar with granted := flowOf (s.st x).par e.zones } := by
  simp [issued, startValve, recordLateness, modEntry]
@[simp] theorem issued_qsc : ((issued x e s).st x).qsc =
    { (s.st x).qsc with
      queue := (s.st x).qsc.queue.drop 1, lastIssued := e.zones, held := e.zones,
      stale := (s.st x).trk.extrapolating, flowCheck := .disarmed,
      valve := .running e.zones s.link.count ((s.st x).par.valveLag + (s.st x).par.valveCheck) } := by
  simp [issued, startValve, recordLateness, modEntry, State.cycle]

/-! ## The tail's reaction -/

@[simp] theorem openTail_st (h : y ≠ x) : (openTail x s).st y = s.st y := by
  unfold openTail
  rw [writeRetainedNow_st, (setPhase_own x _ _).other h, (own_modSeq x _ s).other h]
@[simp] theorem openTail_qsc : ((openTail x s).st y).qsc = (s.st y).qsc := by simp [openTail]
@[simp] theorem openTail_sar : ((openTail x s).st y).sar = (s.st y).sar := by simp [openTail]
@[simp] theorem openTail_par : ((openTail x s).st y).par = (s.st y).par := by simp [openTail]
@[simp] theorem openTail_pcu : ((openTail x s).st y).pcu = (s.st y).pcu := by simp [openTail]
@[simp] theorem openTail_eng : ((openTail x s).st y).eng = (s.st y).eng := by simp [openTail]
@[simp] theorem openTail_params : (openTail x s).params = s.params := by
  simp only [openTail, writeRetainedNow_params]; exact ((own_modSeq x _ s).trans (setPhase_own x _ _)).params
@[simp] theorem openTail_phase : ((openTail x s).st x).seq.phase = some .openZones := by
  simp [openTail]
theorem openTail_seq : { ((openTail x s).st x).seq with
      phase := (s.st x).seq.phase, tailTimer := (s.st x).seq.tailTimer,
      travel := (s.st x).seq.travel, travelSet := (s.st x).seq.travelSet,
      travelStale := (s.st x).seq.travelStale } = (s.st x).seq := by
  simp only [openTail, writeRetainedNow_st]
  cases x <;> rfl
theorem openTail_trk : { ((openTail x s).st x).trk with
      settle := (s.st x).trk.settle, settled := (s.st x).trk.settled,
      followingRun := (s.st x).trk.followingRun } = (s.st x).trk := by
  simp only [openTail, writeRetainedNow_st, setPhase, syncTravel, noteTravel, modTrk_same, modSeq_trk]
  split <;> rfl

theorem openTail_inner : Inner s (openTail x s) := by
  unfold openTail
  refine Inner.trans ?_ (writeRetainedNow_inner x _)
  have o := (own_modSeq x (fun q => { q with tailTimer := .running (s.tailTime x) }) s).trans
    (setPhase_own x _ (some .openZones))
  refine o.inner (by simp) (by simp) (fun k hk => ⟨k, by simpa using hk, Nat.le_refl k⟩)
    (fun k => ⟨by simpa using k, by simp⟩)
    (fun h => by unfold PowerLaw at *; simpa using h) fun _ => syncTravel_law x _

/-- The closing of a quench before its record is written. -/
def closingPhase (x : StationId) (s : State) : State :=
  setPhase x (some .closing) (modSeq x (fun q => { q with tailTimer := .stopped }) s)

theorem closingPhase_own : Own x s (closingPhase x s) :=
  (own_modSeq x _ s).trans (setPhase_own x _ _)

theorem closingPhase_inner : Inner s (closingPhase x s) := by
  refine (closingPhase_own x s).inner ?_ ?_ ?_ ?_ ?_ fun _ => syncTravel_law x _
  · simp [closingPhase]
  · simp [closingPhase]
  · exact fun k hk => ⟨k, by simpa [closingPhase] using hk, Nat.le_refl k⟩
  · exact fun k => ⟨by simpa [closingPhase] using k, by simp [closingPhase]⟩
  · intro h
    unfold PowerLaw at *
    simpa [closingPhase] using h

theorem closeQuench_eq : closeQuench x s =
    startValve x 0 (issueSet x 0 (modQsc x (fun q => { q with closing := true })
      (writeRetainedNow x (closingPhase x s)))) := rfl

/-- The three changes of a closing that follow its record. -/
theorem closeQuench_own : Own x (writeRetainedNow x (closingPhase x s)) (closeQuench x s) :=
  ((own_modQsc x _ _).trans (issueSet_own x _ _)).trans (startValve_own x _ _)

@[simp] theorem closeQuench_st (h : y ≠ x) : (closeQuench x s).st y = s.st y := by
  rw [(closeQuench_own x s).other h, writeRetainedNow_st, (closingPhase_own x s).other h]
@[simp] theorem closeQuench_par : ((closeQuench x s).st y).par = (s.st y).par := by
  simp [closeQuench_eq, startValve, closingPhase]
@[simp] theorem closeQuench_pcu : ((closeQuench x s).st y).pcu = (s.st y).pcu := by
  simp [closeQuench_eq, startValve, closingPhase]
@[simp] theorem closeQuench_eng : ((closeQuench x s).st y).eng = (s.st y).eng := by
  simp [closeQuench_eq, startValve, closingPhase]
@[simp] theorem closeQuench_params : (closeQuench x s).params = s.params := by
  rw [(closeQuench_own x s).params, writeRetainedNow_params, (closingPhase_own x s).params]
@[simp] theorem closeQuench_phase : ((closeQuench x s).st x).seq.phase = some .closing := by
  simp [closeQuench_eq, startValve, closingPhase]
theorem closeQuench_seq : { ((closeQuench x s).st x).seq with
      phase := (s.st x).seq.phase, tailTimer := (s.st x).seq.tailTimer,
      travel := (s.st x).seq.travel, travelSet := (s.st x).seq.travelSet,
      travelStale := (s.st x).seq.travelStale } = (s.st x).seq := by
  simp only [closeQuench_eq, startValve, modQsc_seq, issueSet_seq, writeRetainedNow_st, closingPhase]
  cases x <;> rfl
theorem closeQuench_trk : { ((closeQuench x s).st x).trk with
      settle := (s.st x).trk.settle, settled := (s.st x).trk.settled,
      followingRun := (s.st x).trk.followingRun } = (s.st x).trk := by
  simp only [closeQuench_eq, startValve, modQsc_trk, issueSet_trk, writeRetainedNow_st, closingPhase,
    setPhase, syncTravel, noteTravel, modTrk_same, modSeq_trk]
  split <;> rfl
@[simp] theorem closeQuench_sar : ((closeQuench x s).st x).sar =
    { (s.st x).sar with granted := flowOf (s.st x).par 0 } := by
  simp [closeQuench_eq, startValve, closingPhase]
@[simp] theorem closeQuench_qsc : ((closeQuench x s).st x).qsc =
    { (s.st x).qsc with
      closing := true, lastIssued := 0, held := 0, stale := (s.st x).trk.extrapolating,
      flowCheck := .disarmed,
      valve := .running 0 s.link.count ((s.st x).par.valveLag + (s.st x).par.valveCheck) } := by
  have ht : ((closingPhase x s).st x).trk.extrapolating = (s.st x).trk.extrapolating := by
    simp only [closingPhase, setPhase, syncTravel, noteTravel, modTrk_same, modSeq_trk]
    split <;> rfl
  have hl : (closingPhase x s).link = s.link := (closingPhase_own x s).link
  have hp : ((closingPhase x s).st x).par = (s.st x).par := by simp [closingPhase]
  have hq : ((closingPhase x s).st x).qsc = (s.st x).qsc := by simp [closingPhase]
  simp [closeQuench_eq, startValve, State.cycle, hl, ht, hp, hq]

theorem closeQuench_inner : Inner s (closeQuench x s) := by
  refine Inner.trans ((closingPhase_inner x s).trans (writeRetainedNow_inner x _)) ?_
  refine (closeQuench_own x s).inner_of_seq ?_ ?_ ?_ ?_
  · simp [closingPhase]
  · simp [closingPhase]
  · simp [closeQuench_eq, startValve]
  · intro h
    unfold PowerLaw at *
    simpa [closeQuench_eq, startValve] using h

@[simp] theorem flowOf_empty (par : StationParams) : flowOf par 0#8 = 0 := by simp [flowOf]

end

end Sys2Proof.Machine
end

