-- ==== Sys2Proof/Laws/Tasks.lean ====
section
/-! SUPPORT. The tasks themselves: each is calm, and each keeps the laws of queue, request and flow. -/

namespace Sys2Proof.Machine

/-- The laws of queues, requests and flows while an event is under way. `E y` says that station `y` is
in TAIL or entering it. -/
structure QuenchInv (E : StationId → Prop) (s : State) : Prop where
  core : ∀ y, QuenchCore (s.st y)
  ends : ∀ y, HoldsEnd (s.st y) → E y
  phases : ∀ y, (s.st y).seq.phase ≠ none → E y
  check : ∀ y, CheckLaw (s.st y)
  supply : SupplyLaw s

/-! ## What is calm -/

section

variable (x : StationId) (s : State) (e : QEntry) (z : ZoneSet)

theorem openTail_calm : Calm s (openTail x s) where
  inner := openTail_inner x s
  cdu := by simp only [openTail, writeRetainedNow_cdu]; rfl
  store := by simp only [openTail, writeRetainedNow_store]; rfl
  seq y := by
    rcases eq_or_other x y with rfl | rfl
    · exact openTail_seq _ s
    · rw [openTail_st _ _ _ (other_ne x)]
  trk y := by
    rcases eq_or_other x y with rfl | rfl
    · exact openTail_trk _ s
    · rw [openTail_st _ _ _ (other_ne x)]
  pcu y := by simp
  eng y := by simp

theorem closeQuench_calm : Calm s (closeQuench x s) where
  inner := closeQuench_inner x s
  cdu := by
    rw [(closeQuench_own x s).cdu, writeRetainedNow_cdu, (closingPhase_own x s).cdu]
  store := by
    rw [(closeQuench_own x s).store, writeRetainedNow_store, (closingPhase_own x s).store]
  seq y := by
    rcases eq_or_other x y with rfl | rfl
    · exact closeQuench_seq _ s
    · rw [closeQuench_st _ _ _ (other_ne x)]
  trk y := by
    rcases eq_or_other x y with rfl | rfl
    · exact closeQuench_trk _ s
    · rw [closeQuench_st _ _ _ (other_ne x)]
  pcu y := by simp
  eng y := by simp

theorem endMarkerIssued_calm : Calm s (endMarkerIssued x s).1 := by
  unfold endMarkerIssued
  split
  · exact (openTail_calm x s).trans (closeQuench_calm x _)
  · exact openTail_calm x s

theorem endMarkerIssued_st {y : StationId} (h : y ≠ x) :
    (endMarkerIssued x s).1.st y = s.st y := by
  unfold endMarkerIssued
  split <;> simp [h]

theorem issued_calm : Calm s (issued x e s) :=
  (issued_own x s e).calm (by simp) (by simp) (by simp) (by simp) (by simp)

theorem issueHead_calm : Calm s (issueHead x e s).1 := by
  rw [issueHead_eq]
  split
  · exact (issued_calm x s e).trans (endMarkerIssued_calm x _)
  · exact issued_calm x s e

theorem issueHead_st {y : StationId} (h : y ≠ x) : (issueHead x e s).1.st y = s.st y := by
  rw [issueHead_eq]
  split
  · simp only [endMarkerIssued_st x _ h, (issued_own x s e).other h]
  · exact (issued_own x s e).other h

theorem grant_own (f : Nat) : Own x s (grant x f s) := own_modSar x _ s
theorem grant_calm (f : Nat) : Calm s (grant x f s) :=
  (grant_own x s f).calm (by simp [grant]) (by simp [grant]) (by simp [grant]) (by simp [grant])
    (by simp [grant])
theorem markHead_own (f : QEntry → QEntry) : Own x s (markHead x f s) := own_modQsc x _ s
theorem markHead_calm (f : QEntry → QEntry) : Calm s (markHead x f s) :=
  (markHead_own x s f).calm (by simp [markHead]) (by simp [markHead]) (by simp [markHead])
    (by simp [markHead]) (by simp [markHead])
theorem holdRequest_own (d : Due) : Own x s (holdRequest x e d s) :=
  (own_modSar x _ s).trans (markHead_own x _ _)
theorem holdRequest_calm (d : Due) : Calm s (holdRequest x e d s) :=
  (holdRequest_own x s e d).calm (by simp [holdRequest, markHead]) (by simp [holdRequest, markHead])
    (by simp [holdRequest, markHead]) (by simp [holdRequest, markHead])
    (by simp [holdRequest, markHead])

theorem presentHead_calm (d : Due) : Calm s (presentHead x e d s).1 := by
  unfold presentHead
  simp only
  split
  · exact issueHead_calm x s e
  · split
    · exact (grant_calm x s _).trans (issueHead_calm x _ e)
    · exact holdRequest_calm x s e d

theorem presentHead_st (d : Due) {y : StationId} (h : y ≠ x) :
    (presentHead x e d s).1.st y = s.st y := by
  unfold presentHead
  simp only
  split
  · exact issueHead_st x s e h
  · split
    · rw [issueHead_st x _ e h, (grant_own x s _).other h]
    · exact (holdRequest_own x s e d).other h

theorem testHead_calm : Calm s (testHead x s).1 := by
  unfold testHead
  repeat' split
  all_goals first
    | exact .refl s
    | exact (markHead_calm x s _).trans (presentHead_calm x _ _ _)

theorem testHead_idle : IdleKept s (testHead x s).1 := by
  intro y hq hw
  rcases eq_or_other x y with rfl | rfl
  · unfold testHead
    simp [hq]
  · unfold testHead
    repeat' split
    all_goals first
      | rfl
      | rw [presentHead_st _ _ _ _ (other_ne x), (markHead_own x s _).other (other_ne x)]

theorem examineOne_calm : Calm s (examineOne x s).1 := by
  unfold examineOne
  split
  · exact .refl s
  · split
    · simp only
      split
      · exact (grant_calm x s _).trans (markHead_calm x _ _)
      · exact ((grant_calm x s _).trans (markHead_calm x _ _)).trans (issueHead_calm x _ _)
    · exact .refl s

theorem examineOne_idle : IdleKept s (examineOne x s).1 := by
  intro y hq hw
  rcases eq_or_other x y with rfl | rfl
  · unfold examineOne
    simp [hw]
  · unfold examineOne
    split
    · rfl
    · split
      · simp only
        split
        · simp only [(markHead_own x _ _).other (other_ne x), (grant_own x s _).other (other_ne x)]
        · simp only [issueHead_st _ _ _ (other_ne x), (markHead_own x _ _).other (other_ne x),
            (grant_own x s _).other (other_ne x)]
      · rfl

end

theorem examineAll_calm (s : State) : Calm s (examineAll s).1 :=
  (examineOne_calm _ s).trans (examineOne_calm _ _)

theorem examineAll_idle (s : State) : IdleKept s (examineAll s).1 :=
  (examineOne_idle _ s).trans (examineOne_idle _ _)

theorem runTask_calm (t : QTask) (s : State) : Calm s (runTask t s).1 := by
  cases t
  · exact testHead_calm _ s
  · exact examineAll_calm s

theorem runTask_idle (t : QTask) (s : State) : IdleKept s (runTask t s).1 := by
  cases t
  · exact testHead_idle _ s
  · exact examineAll_idle s

theorem runTasks_calm (n : Nat) (ts : List QTask) (s : State) : Calm s (runTasks n ts s) := by
  induction n generalizing ts s with
  | zero => cases ts <;> exact .refl s
  | succ n ih =>
    cases ts with
    | nil => exact .refl s
    | cons t rest => exact (runTask_calm t s).trans (ih _ _)

theorem runTasks_idle (n : Nat) (ts : List QTask) (s : State) : IdleKept s (runTasks n ts s) := by
  induction n generalizing ts s with
  | zero => cases ts <;> exact .refl s
  | succ n ih =>
    cases ts with
    | nil => exact .refl s
    | cons t rest => exact (runTask_idle t s).trans (ih _ _)

/-- Settling tasks is calm. -/
theorem settleTasks_calm (ts : List QTask) (s : State) : Calm s (settleTasks ts s) :=
  runTasks_calm _ ts s

/-- Settling tasks leaves a station without queue and request untouched. -/
theorem settleTasks_idle (ts : List QTask) (s : State) : IdleKept s (settleTasks ts s) :=
  runTasks_idle _ ts s

/-! ## What keeps the laws of queue, request and flow -/

section

variable {E : StationId → Prop} {x : StationId} {s t : State} {e : QEntry}

/-- A change of one copy keeps the laws when the copy has them. -/
theorem QuenchInv.change (h : QuenchInv E s) (other : ∀ y, y ≠ x → t.st y = s.st y)
    (core : QuenchCore (t.st x)) (ends : HoldsEnd (t.st x) → E x)
    (phase : (t.st x).seq.phase ≠ none → E x) (check : CheckLaw (t.st x)) (supply : SupplyLaw t) :
    QuenchInv E t where
  core y := by
    rcases eq_or_other x y with rfl | rfl
    · exact core
    · rw [other _ (other_ne x)]
      exact h.core _
  ends y := by
    rcases eq_or_other x y with rfl | rfl
    · exact ends
    · rw [other _ (other_ne x)]
      exact h.ends _
  phases y := by
    rcases eq_or_other x y with rfl | rfl
    · exact phase
    · rw [other _ (other_ne x)]
      exact h.phases _
  check y := by
    rcases eq_or_other x y with rfl | rfl
    · exact check
    · rw [other _ (other_ne x)]
      exact h.check _
  supply := supply

/-- The shared flow, station by station. -/
theorem supplyLaw_iff (s : State) (x : StationId) :
    SupplyLaw s ↔ (s.params.supplyFlow ≠ 0 → s.params.supplyMode = .share →
      (s.st x).sar.granted + (s.st x.other).sar.granted ≤ s.params.supplyFlow) := by
  unfold SupplyLaw
  cases x
  · rfl
  · simp only [StationId.other, Nat.add_comm]

/-- A flow that falls, or stays, keeps within the shared flow. -/
theorem SupplyLaw.fall (h : SupplyLaw s) (params : t.params = s.params)
    (other : t.st x.other = s.st x.other) (le : (t.st x).sar.granted ≤ (s.st x).sar.granted) :
    SupplyLaw t := by
  rw [supplyLaw_iff _ x] at *
  rw [params, other]
  exact fun a b => Nat.le_trans (Nat.add_le_add_right le _) (h a b)

/-- A request that is granted at once keeps within the shared flow. -/
theorem SupplyLaw.grants {n : Nat} (params : t.params = s.params)
    (other : t.st x.other = s.st x.other) (new : (t.st x).sar.granted = n)
    (ok : grantsNow s x n = true) : SupplyLaw t := by
  rw [supplyLaw_iff _ x, params, other, new]
  intro a b
  simp only [grantsNow, fits, Bool.or_eq_true, decide_eq_true_eq, a, b, reduceCtorEq, false_or] at ok
  rw [Nat.add_comm]
  exact ok

/-- What must hold for the head of a queue to be issued. -/
structure Issuing (E : StationId → Prop) (x : StationId) (e : QEntry) (s : State) : Prop where
  queue : ∃ e0 rest, (s.st x).qsc.queue = e0 :: rest ∧ e0.origin = e.origin ∧
    rest.length < Config.queueCapacity ∧ (∀ k ∈ (e0 :: rest).dropLast, k.origin ≠ .endMarker) ∧
    ∀ k ∈ rest, k.waiting = false
  waiting : (s.st x).sar.waiting = none
  phase : (s.st x).seq.phase ≠ some .openZones ∧ (s.st x).seq.phase ≠ some .closing ∧
    (s.st x).seq.phase ≠ some .finishing
  need : flowOf (s.st x).par e.zones ≤ (s.st x).sar.granted
  core : QuenchCore (s.st x.other)
  ends : ∀ y, HoldsEnd (s.st y) → E y
  phases : ∀ y, (s.st y).seq.phase ≠ none → E y
  check : CheckLaw (s.st x.other)
  supply : SupplyLaw s

theorem Issuing.inv (h : Issuing E x e s) (other : t.st x.other = s.st x.other)
    (core : QuenchCore (t.st x)) (ends : HoldsEnd (t.st x) → E x)
    (phase : (t.st x).seq.phase ≠ none → E x) (check : CheckLaw (t.st x)) (supply : SupplyLaw t) :
    QuenchInv E t where
  core y := by
    rcases eq_or_other x y with rfl | rfl
    · exact core
    · rw [other]
      exact h.core
  ends y := by
    rcases eq_or_other x y with rfl | rfl
    · exact ends
    · rw [other]
      exact h.ends _
  phases y := by
    rcases eq_or_other x y with rfl | rfl
    · exact phase
    · rw [other]
      exact h.phases _
  check y := by
    rcases eq_or_other x y with rfl | rfl
    · exact check
    · rw [other]
      exact h.check
  supply := supply

/-- The laws after the issue, before the tail reacts. -/
theorem issued_inv (h : Issuing E x e s) : QuenchInv E (issued x e s) := by
  obtain ⟨e0, rest, hq, -, hl, hd, hw⟩ := h.queue
  have hrest : ((issued x e s).st x).qsc.queue = rest := by simp [hq]
  refine h.inv ((issued_own x s e).other (other_ne x)) ?_ ?_ ?_ ?_ ?_
  · refine ⟨?_, ?_, ?_, ?_, ?_, ?_, ?_⟩
    · rw [hrest]
      exact Nat.le_of_lt hl
    · rw [hrest]
      intro k hk
      cases rest with
      | nil => simp at hk
      | cons r rs => exact hd k (by simp [List.dropLast, hk])
    · rw [hrest]
      exact fun k hk => hw k (List.mem_of_mem_tail hk)
    · intro w hwt
      rw [issued_sar] at hwt
      rw [h.waiting] at hwt
      cases hwt
    · rw [issued_sar, issued_qsc, issued_par]
    · rw [issued_seq]
      exact fun k => absurd k h.phase.1
    · rw [issued_seq]
      exact fun k => k.elim (fun k => absurd k h.phase.2.1) fun k => absurd k h.phase.2.2
  · rintro ⟨k, hk, ho⟩
    rw [hrest] at hk
    exact h.ends x ⟨k, by rw [hq]; exact List.mem_cons_of_mem _ hk, ho⟩
  · rw [issued_seq]
    exact h.phases x
  · intro z c d _
    simp
  · exact h.supply.fall rfl ((issued_own x s e).other (other_ne x)) (by simpa using h.need)

/-- The tail's reaction to the end marker keeps the laws: the queue is empty by then. -/
theorem endMarkerIssued_inv (h : QuenchInv E s) (hq : (s.st x).qsc.queue = [])
    (hw : (s.st x).sar.waiting = none) (hE : E x) : QuenchInv E (endMarkerIssued x s).1 := by
  have hopen : QuenchInv E (openTail x s) := by
    refine h.change (x := x) (fun y hy => openTail_st x y s hy) ?_ ?_ (fun _ => hE) ?_ ?_
    · have c := h.core x
      refine ⟨?_, ?_, ?_, ?_, ?_, ?_, ?_⟩
      · simpa using c.bounded
      · simpa using c.endLast
      · simpa using c.headWaits
      · intro w hwt
        simp [hw] at hwt
      · simpa using c.flow
      · exact fun _ => ⟨by simpa using hq, by simpa using hw⟩
      · simp
    · rintro ⟨k, hk, -⟩
      simp [hq] at hk
    · have c := h.check x
      unfold CheckLaw at *
      simpa using c
    · exact h.supply.fall (openTail_params x s) (openTail_st x _ s (other_ne x)) (by simp)
  unfold endMarkerIssued
  split
  · refine hopen.change (x := x) (fun y hy => closeQuench_st x y _ hy) ?_ ?_ (fun _ => hE) ?_ ?_
    · have c := hopen.core x
      have idle : QuenchIdle ((closeQuench x (openTail x s)).st x) := by
        simp [QuenchIdle, hq, hw]
      refine ⟨?_, ?_, ?_, ?_, ?_, ?_, fun _ => idle⟩
      · simp [hq]
      · simp [hq]
      · simp [hq]
      · intro w hwt
        simp [hw] at hwt
      · simp
      · simp
    · rintro ⟨k, hk, -⟩
      simp [hq] at hk
    · intro z c d _
      simp
    · exact hopen.supply.fall (closeQuench_params x _) (closeQuench_st x _ _ (other_ne x)) (by simp)
  · exact hopen

theorem issueHead_inv (h : Issuing E x e s) : QuenchInv E (issueHead x e s).1 := by
  have hi := issued_inv h
  rw [issueHead_eq]
  split
  · rename_i ho
    obtain ⟨e0, rest, hq, heq, -, hd, -⟩ := h.queue
    have hrest : rest = [] := by
      cases rest with
      | nil => rfl
      | cons r rs => exact absurd (heq.trans ho) (hd e0 (by simp [List.dropLast]))
    exact endMarkerIssued_inv hi (by simp [hq, hrest]) (by simp [h.waiting])
      (h.ends x ⟨e0, by simp [hq], heq.trans ho⟩)
  · exact hi

/-- The laws where the head is about to be issued: it stands in the queue and does not wait. -/
theorem QuenchInv.phase_of_queue (h : QuenchInv E s) (hq : (s.st x).qsc.queue ≠ []) :
    (s.st x).seq.phase ≠ some .openZones ∧ (s.st x).seq.phase ≠ some .closing ∧
      (s.st x).seq.phase ≠ some .finishing :=
  ⟨fun k => hq ((h.core x).opened k).1, fun k => hq ((h.core x).closed (.inl k)).1,
    fun k => hq ((h.core x).closed (.inr k)).1⟩

/-- Marking the head leaves queue and request in their laws, if it leaves zones, origin and wait. -/
theorem markHead_due_inv (h : QuenchInv E s) (d : Due) :
    QuenchInv E (markHead x (fun k => { k with due := some d }) s) := by
  have o := markHead_own x s (fun k => { k with due := some d })
  have hst : (markHead x (fun k => { k with due := some d }) s).st x =
      { s.st x with qsc := { (s.st x).qsc with
        queue := (s.st x).qsc.queue.modify 0 (fun k => { k with due := some d }) } } := by
    cases x <;> rfl
  have c := h.core x
  refine h.change (x := x) (fun y hy => o.other hy) ?_ ?_ ?_ ?_ ?_
  · rw [hst]
    cases hq : (s.st x).qsc.queue with
    | nil =>
      refine ⟨by simp, by simp, by simp, ?_, c.flow, fun k => ⟨by simp, (c.opened k).2⟩, fun k => ?_⟩
      · intro w hw
        obtain ⟨⟨k, hk, -⟩, -⟩ := c.head w hw
        simp [hq] at hk
      · obtain ⟨-, k2, k3, k4⟩ := c.closed k
        exact ⟨by simp, k2, k3, k4⟩
    | cons k ks =>
      have b := c.bounded
      have el := c.endLast
      have hw := c.headWaits
      rw [hq] at b el hw
      refine ⟨by simpa using b, ?_, by simpa using hw, ?_, c.flow, ?_, ?_⟩
      · intro j hj
        cases ks with
        | nil => simp at hj
        | cons l ls =>
          simp only [List.modify_zero_cons, List.dropLast, List.mem_cons] at hj el
          rcases hj with rfl | hj
          · exact el k (.inl rfl)
          · exact el j (.inr hj)
      · intro w hwt
        obtain ⟨⟨m, hm, m1, m2⟩, m3⟩ := c.head w hwt
        rw [hq] at hm
        simp only [List.head?_cons, Option.some.injEq] at hm
        subst hm
        exact ⟨⟨{ k with due := some d }, rfl, m1, m2⟩, m3⟩
      · intro kk
        have := (c.opened kk).1
        simp [hq] at this
      · intro kk
        have := (c.closed kk).1
        simp [hq] at this
  · rintro ⟨k, hk, ho⟩
    rw [hst] at hk
    cases hq : (s.st x).qsc.queue with
    | nil => simp [hq] at hk
    | cons j js =>
      simp only [hq, List.modify_zero_cons, List.mem_cons] at hk
      rcases hk with rfl | hk
      · exact h.ends x ⟨j, by simp [hq], ho⟩
      · exact h.ends x ⟨k, by simp [hq, hk], ho⟩
  · rw [hst]
    exact h.phases x
  · have k := h.check x
    rw [hst]
    exact k
  · refine h.supply.fall o.params (o.other (other_ne x)) ?_
    rw [hst]

/-- No request waits for a head that is not marked waiting. -/
theorem QuenchInv.notWaiting (h : QuenchInv E s) {e0 : QEntry} {rest : List QEntry}
    (hq : (s.st x).qsc.queue = e0 :: rest) (hw : e0.waiting = false) :
    (s.st x).sar.waiting = none := by
  cases hc : (s.st x).sar.waiting with
  | none => rfl
  | some w =>
    obtain ⟨⟨k, hk, k1, -⟩, -⟩ := (h.core x).head w hc
    rw [hq] at hk
    simp only [List.head?_cons, Option.some.injEq] at hk
    subst hk
    rw [hw] at k1
    cases k1

/-- A head that does not wait can be issued once its flow is granted. -/
theorem QuenchInv.issuing (h : QuenchInv E s) {e0 : QEntry} {rest : List QEntry} {n : Nat}
    (hq : (s.st x).qsc.queue = e0 :: rest) (ho : e0.origin = e.origin) (need : flowOf (s.st x).par e.zones ≤ n)
    (supply : SupplyLaw (modSar x (fun a => { a with granted := n, waiting := none }) s)) :
    Issuing E x e (modSar x (fun a => { a with granted := n, waiting := none }) s) := by
  have c := h.core x
  have hb := c.bounded
  have hd := c.endLast
  have ht := c.headWaits
  rw [hq] at hb hd ht
  have hne : (s.st x).qsc.queue ≠ [] := by rw [hq]; exact List.cons_ne_nil _ _
  refine ⟨⟨e0, rest, by simpa using hq, ho, by simpa using hb, hd, by simpa using ht⟩, by simp, ?_,
    by simpa using need, ?_, ?_, ?_, ?_, supply⟩
  · simpa using h.phase_of_queue hne
  · have k := h.core x.other
    rw [(own_modSar x _ s).other (other_ne x)]
    exact k
  · rintro y ⟨k, hk, k1⟩
    exact h.ends y ⟨k, by simpa using hk, k1⟩
  · intro y hy
    exact h.phases y (by simpa using hy)
  · have k := h.check x.other
    rw [(own_modSar x _ s).other (other_ne x)]
    exact k

/-- Writing back what stands there changes nothing. -/
theorem modSar_noop (hw : (s.st x).sar.waiting = none) :
    modSar x (fun a => { a with granted := (s.st x).sar.granted, waiting := none }) s = s := by
  have hst : (modSar x (fun a => { a with granted := (s.st x).sar.granted, waiting := none }) s).st x =
      s.st x := by
    have : (s.st x).sar = { (s.st x).sar with granted := (s.st x).sar.granted, waiting := none } := by
      rw [← hw]
    cases x <;> simp only [modSar, modSt, State.st, Pair.get, Pair.set] at * <;> rw [← this]
  have o := own_modSar x (fun a => { a with granted := (s.st x).sar.granted, waiting := none }) s
  rw [o, hst]
  exact (Own.refl x s).symm

theorem presentHead_inv (h : QuenchInv E s) {rest : List QEntry} (d : Due)
    (hq : (s.st x).qsc.queue = e :: rest) (hw : e.waiting = false) :
    QuenchInv E (presentHead x e d s).1 := by
  have hn := h.notWaiting hq hw
  have hne : (s.st x).qsc.queue ≠ [] := by rw [hq]; exact List.cons_ne_nil _ _
  unfold presentHead
  simp only
  split
  · rename_i hneed
    have k := h.issuing hq rfl hneed (by rw [modSar_noop hn]; exact h.supply)
    rw [modSar_noop hn] at k
    exact issueHead_inv k
  · split
    · rename_i hg
      refine issueHead_inv (h.issuing hq rfl (Nat.le_refl _) ?_)
      exact SupplyLaw.grants (x := x) (s := s) rfl ((own_modSar x _ s).other (other_ne x)) (by simp) hg
    · have o := holdRequest_own x s e d
      have hst : (holdRequest x e d s).st x =
          { s.st x with
            qsc := { (s.st x).qsc with queue := { e with waiting := true } :: rest },
            sar := { (s.st x).sar with
              waiting := some
                { zones := e.zones, flow := flowOf (s.st x).par e.zones, waitStart := d.cycle,
                  duePosition := d.position, timer := .running (s.st x).par.quenchWaitMax,
                  late := false } } } := by
        cases x <;>
          simp only [holdRequest, markHead, modQsc, modSar, modSt, State.st, Pair.get, Pair.set] at hq ⊢ <;>
          rw [hq] <;> rfl
      have c := h.core x
      have b := c.bounded
      have el := c.endLast
      have hh := c.headWaits
      rw [hq] at b el hh
      refine h.change (x := x) (fun y hy => o.other hy) ?_ ?_ ?_ ?_ ?_
      · rw [hst]
        refine ⟨by simpa using b, ?_, by simpa using hh, ?_, c.flow, ?_, ?_⟩
        · intro j hj
          cases rest with
          | nil => simp at hj
          | cons l ls =>
            simp only [List.dropLast, List.mem_cons] at hj el
            rcases hj with rfl | hj
            · exact el e (.inl rfl)
            · exact el j (.inr hj)
        · intro w hwt
          simp only [Option.some.injEq] at hwt
          subst hwt
          exact ⟨⟨_, rfl, rfl, rfl⟩, rfl⟩
        · exact fun k => absurd (c.opened k).1 hne
        · exact fun k => absurd (c.closed k).1 hne
      · rintro ⟨k, hk, ho⟩
        rw [hst] at hk
        simp only [List.mem_cons] at hk
        rcases hk with rfl | hk
        · exact h.ends x ⟨e, by simp [hq], ho⟩
        · exact h.ends x ⟨k, by simp [hq, hk], ho⟩
      · rw [hst]
        exact h.phases x
      · have k := h.check x
        rw [hst]
        exact k
      · refine h.supply.fall o.params (o.other (other_ne x)) ?_
        rw [hst]

theorem testHead_inv (h : QuenchInv E s) : QuenchInv E (testHead x s).1 := by
  unfold testHead
  split
  · exact h
  · rename_i e he
    split
    · exact h
    · rename_i hw
      split
      · exact h
      · rename_i d _
        cases hq : (s.st x).qsc.queue with
        | nil => simp [hq] at he
        | cons k ks =>
          simp only [hq, List.head?_cons, Option.some.injEq] at he
          subst he
          refine presentHead_inv (markHead_due_inv h d) (rest := ks) d ?_ (by simpa using hw)
          simp [markHead, hq]

theorem examineOne_inv (h : QuenchInv E s) : QuenchInv E (examineOne x s).1 := by
  unfold examineOne
  split
  · exact h
  · rename_i w hw
    split
    · rename_i hf
      obtain ⟨⟨e, he, e1, e2⟩, e3⟩ := (h.core x).head w hw
      cases hq : (s.st x).qsc.queue with
      | nil => simp [hq] at he
      | cons k ks =>
        simp only [hq, List.head?_cons, Option.some.injEq] at he
        subst he
        have hq2 : ((markHead x (fun j => { j with waiting := false }) (grant x w.flow s)).st x).qsc.queue
            = { k with waiting := false } :: ks := by simp [markHead, grant, hq]
        simp only [hq2, List.head?_cons]
        apply issueHead_inv
        have o := (grant_own x s w.flow).trans (markHead_own x (grant x w.flow s) (fun j => { j with waiting := false }))
        have c := h.core x
        have b := c.bounded
        have el := c.endLast
        have hh := c.headWaits
        have hne : (s.st x).qsc.queue ≠ [] := by rw [hq]; exact List.cons_ne_nil _ _
        rw [hq] at b el hh
        refine ⟨⟨_, ks, hq2, rfl, by simpa using b, ?_, by simpa using hh⟩, by simp [markHead, grant],
          ?_, ?_, ?_, ?_, ?_, ?_, ?_⟩
        · intro j hj
          cases ks with
          | nil => simp at hj
          | cons l ls =>
            simp only [List.dropLast, List.mem_cons] at hj el
            rcases hj with rfl | hj
            · exact el k (.inl rfl)
            · exact el j (.inr hj)
        · simpa [markHead, grant] using h.phase_of_queue hne
        · simp [markHead, grant, e2, e3]
        · rw [o.other (other_ne x)]
          exact h.core _
        · rintro y ⟨j, hj, ho⟩
          rcases eq_or_other x y with rfl | rfl
          · rw [hq2] at hj
            simp only [List.mem_cons] at hj
            rcases hj with rfl | hj
            · exact h.ends _ ⟨k, by simp [hq], ho⟩
            · exact h.ends _ ⟨j, by simp [hq, hj], ho⟩
          · rw [o.other (other_ne x)] at hj
            exact h.ends _ ⟨j, hj, ho⟩
        · intro y hy
          rcases eq_or_other x y with rfl | rfl
          · exact h.phases _ (by simpa [markHead, grant] using hy)
          · rw [o.other (other_ne x)] at hy
            exact h.phases _ hy
        · rw [o.other (other_ne x)]
          exact h.check _
        · exact SupplyLaw.grants (x := x) (s := s) (n := w.flow) o.params (o.other (other_ne x))
            (by simp [markHead, grant]) (by simp [grantsNow, hf])
    · exact h

theorem runTask_inv (k : QTask) (h : QuenchInv E s) : QuenchInv E (runTask k s).1 := by
  cases k
  · exact testHead_inv h
  · exact examineOne_inv (examineOne_inv h)

theorem runTasks_inv (n : Nat) (ts : List QTask) (h : QuenchInv E s) :
    QuenchInv E (runTasks n ts s) := by
  induction n generalizing ts s with
  | zero => cases ts <;> exact h
  | succ n ih =>
    cases ts with
    | nil => exact h
    | cons k rest => exact ih _ (runTask_inv k h)

/-- Settling tasks keeps the laws of queue, request and flow. -/
theorem settleTasks_inv (ts : List QTask) (h : QuenchInv E s) : QuenchInv E (settleTasks ts s) :=
  runTasks_inv _ ts h

/-! ## Issues outside the queue -/

/-- The scheduler's and arbiter's own work at a halt, before the other station is served. -/
def quenchStopped (x : StationId) (s : State) : State :=
  modQsc x (fun q => { q with valve := .stopped, closing := false, flowCheck := .disarmed, flowRun := false })
    (issueSet x 0 (modQsc x (fun q => { q with queue := [] }) (withdraw x s)))

theorem quenchHalt_eq (x : StationId) (s : State) : quenchHalt x s =
    settleTasks
      (fallTasks (issueFalls (modQsc x (fun q => { q with queue := [] }) (withdraw x s)) x 0))
      (quenchStopped x s) := rfl

theorem quenchStopped_own (x : StationId) (s : State) : Own x s (quenchStopped x s) :=
  (((own_modSar x _ s).trans (own_modQsc x _ _)).trans (issueSet_own x _ _)).trans (own_modQsc x _ _)

theorem quenchStopped_calm (x : StationId) (s : State) : Calm s (quenchStopped x s) :=
  (quenchStopped_own x s).calm (by simp [quenchStopped, withdraw]) (by simp [quenchStopped, withdraw])
    (by simp [quenchStopped, withdraw]) (by simp [quenchStopped, withdraw])
    (by simp [quenchStopped, withdraw])

theorem quenchStopped_idle (x : StationId) (s : State) : QuenchIdle ((quenchStopped x s).st x) := by
  simp [QuenchIdle, quenchStopped, withdraw]

/-- The scheduler's part of a halt is calm. -/
theorem quenchHalt_calm (x : StationId) (s : State) : Calm s (quenchHalt x s) :=
  (quenchStopped_calm x s).trans (settleTasks_calm _ _)

theorem quenchHalt_st (x : StationId) (s : State) : (quenchHalt x s).st x = (quenchStopped x s).st x :=
  have h := quenchStopped_idle x s
  settleTasks_idle _ _ x h.1 h.2.1

/-- The station that halts has its quench at rest (R116, R128). -/
theorem quenchHalt_idle (x : StationId) (s : State) : QuenchIdle ((quenchHalt x s).st x) := by
  rw [quenchHalt_st]
  exact quenchStopped_idle x s

theorem quenchIdle_core {v : Station} (h : QuenchIdle v) : QuenchCore v := by
  obtain ⟨h1, h2, h3, h4⟩ := h
  refine ⟨by simp [h1], by simp [h1], by simp [h1], ?_, by rw [h3, h4]; exact (flowOf_empty _).symm,
    fun _ => ⟨h1, h2⟩, fun _ => ⟨h1, h2, h3, h4⟩⟩
  intro w hw
  rw [h2] at hw
  cases hw

/-- A halt of `x` keeps the laws of queue, request and flow, whatever `x` itself had. -/
theorem quenchHalt_inv (core : QuenchCore (s.st x.other)) (ends : HoldsEnd (s.st x.other) → E x.other)
    (phases : ∀ y, (s.st y).seq.phase ≠ none → E y) (check : CheckLaw (s.st x.other))
    (supply : SupplyLaw s) : QuenchInv E (quenchHalt x s) := by
  have o := quenchStopped_own x s
  have idle := quenchStopped_idle x s
  have hst := o.other (other_ne x)
  rw [quenchHalt_eq]
  refine settleTasks_inv _ ⟨fun y => ?_, fun y hy => ?_, fun y hy => ?_, fun y => ?_, ?_⟩
  · rcases eq_or_other x y with rfl | rfl
    · exact quenchIdle_core idle
    · rw [hst]
      exact core
  · rcases eq_or_other x y with rfl | rfl
    · obtain ⟨k, hk, -⟩ := hy
      rw [idle.1] at hk
      cases hk
    · rw [hst] at hy
      exact ends hy
  · rcases eq_or_other x y with rfl | rfl
    · exact phases _ (by simpa [quenchStopped, withdraw] using hy)
    · rw [hst] at hy
      exact phases _ hy
  · rcases eq_or_other x y with rfl | rfl
    · intro z c d hz
      simp [quenchStopped] at hz
    · rw [hst]
      exact check
  · exact supply.fall o.params hst (by rw [idle.2.2.1]; exact Nat.zero_le _)

/-- The expiry of the tail timer in OPEN keeps the laws, and leaves the quench at rest (R64, R115). -/
theorem tailExpired_inv (h : QuenchInv E s) (hp : (s.st x).seq.phase = some .openZones) :
    QuenchInv E (tailExpired x s) ∧ QuenchIdle ((tailExpired x s).st x) := by
  obtain ⟨hq, hw⟩ := (h.core x).opened hp
  have idle : QuenchIdle ((closeQuench x s).st x) := by simp [QuenchIdle, hq, hw]
  constructor
  · refine settleTasks_inv _ (h.change (x := x) (fun y hy => closeQuench_st x y s hy)
      (quenchIdle_core idle) ?_ (fun _ => h.phases x (by rw [hp]; simp)) ?_ ?_)
    · rintro ⟨k, hk, -⟩
      rw [idle.1] at hk
      cases hk
    · intro z c d _
      simp
    · exact h.supply.fall (closeQuench_params x s) (closeQuench_st x _ s (other_ne x)) (by simp)
  · have k := settleTasks_idle (fallTasks (issueFalls s x 0)) (closeQuench x s) x idle.1 idle.2.1
    unfold tailExpired
    rw [k]
    exact idle

theorem tailExpired_calm (x : StationId) (s : State) : Calm s (tailExpired x s) :=
  (closeQuench_calm x s).trans (settleTasks_calm _ _)

end

end Sys2Proof.Machine
end

