-- ==== Sys2Proof/Laws/Lines.lean ====
section
/-! SUPPORT. What the program engine, a retune and the energy account do to a station's copy, and the laws of
a station that are not its power and travel. -/

namespace Sys2Proof.Machine

/-! ## The program engine (R132 to R134) -/

/-- What the work of the engine of `x` leaves alone: all but lines, engine and the power that follows PERMIT. -/
structure Lined (x : StationId) (s t : State) : Prop where
  own : Own x s t
  par : (t.st x).par = (s.st x).par
  trk : (t.st x).trk = (s.st x).trk
  seq : (t.st x).seq = (s.st x).seq
  result : (t.st x).result = (s.st x).result
  qsc : (t.st x).qsc = (s.st x).qsc
  sar : (t.st x).sar = (s.st x).sar
  table : (t.st x).eng.table = (s.st x).eng.table
  account : (t.st x).pcu.account = (s.st x).pcu.account
  retune : (t.st x).pcu.retune = (s.st x).pcu.retune
  channel : (t.st x).pcu.channel = (s.st x).pcu.channel
  power : PowerLaw (s.st x) → PowerLaw (t.st x)

theorem Lined.refl (x : StationId) (s : State) : Lined x s s :=
  ⟨.refl x s, rfl, rfl, rfl, rfl, rfl, rfl, rfl, rfl, rfl, rfl, id⟩

theorem Lined.trans {x : StationId} {s t u : State} (h : Lined x s t) (k : Lined x t u) :
    Lined x s u :=
  ⟨h.own.trans k.own, k.par.trans h.par, k.trk.trans h.trk, k.seq.trans h.seq,
    k.result.trans h.result, k.qsc.trans h.qsc, k.sar.trans h.sar, k.table.trans h.table,
    k.account.trans h.account, k.retune.trans h.retune, k.channel.trans h.channel, k.power ∘ h.power⟩

/-- Of the station's copy only engine and power unit are not as they were. -/
theorem Lined.keeps {x : StationId} {s t : State} (h : Lined x s t) :
    t.st x = { s.st x with eng := (t.st x).eng, pcu := (t.st x).pcu } := by
  simp only [← h.par, ← h.trk, ← h.seq, ← h.result, ← h.qsc, ← h.sar]

theorem Lined.inner {x : StationId} {s t : State} (h : Lined x s t) : Inner s t :=
  h.own.inner_of_seq h.par h.table h.seq h.power

section

variable (x : StationId) (s : State)

/-- An engine that keeps table and PERMIT. -/
theorem lined_modEng (f : Engine → Engine) (table : (f (s.st x).eng).table = (s.st x).eng.table)
    (permit : (f (s.st x).eng).permit = (s.st x).eng.permit) : Lined x s (modEng x f s) where
  own := own_modEng x f s
  par := by simp
  trk := by simp
  seq := by simp
  result := by simp
  qsc := by simp
  sar := by simp
  table := by simpa using table
  account := by simp
  retune := by simp
  channel := by simp
  power h := by
    unfold PowerLaw at *
    simpa [permit] using h

theorem endProgram_lined (p : Program) : Lined x s (endProgram x p s) :=
  lined_modEng x s _ rfl rfl

theorem actStep_lined (g : ProgStep) : Lined x s (actStep x g s) := by
  unfold actStep
  simp only
  split
  · rename_i hp
    exact lined_modEng x s _ rfl (by simpa using hp)
  · have o := (own_modEng x (fun e => { e with permit := g.permit.apply e.permit, qforce := g.qforce.apply e.qforce, spin := g.spin.apply e.spin }) s).trans (pcuRecompute_own x _)
    exact ⟨o, by simp, by simp, by simp, by simp, by simp, by simp, by simp, by simp, by simp, by simp,
      fun _ => pcuRecompute_power x _⟩

theorem runFrom_lined (n : Nat) (p : Program) (i : Nat) : Lined x s (runFrom n x p i s) := by
  induction n generalizing i s with
  | zero => exact endProgram_lined x s p
  | succ n ih =>
    unfold runFrom
    have h1 : Lined x s (modEng x (fun e => { e with running := some p, step := some i }) s) :=
      lined_modEng x s _ rfl rfl
    simp only
    split
    · split
      · exact (h1.trans (actStep_lined x _ _)).trans (endProgram_lined x _ p)
      · exact (h1.trans (actStep_lined x _ _)).trans (ih _ _)
    · exact h1.trans (lined_modEng x _ _ rfl rfl)

/-- A request for a program works inside the engine. -/
theorem requestProgram_lined (p : Program) : Lined x s (requestProgram x p s) := by
  unfold requestProgram
  split
  · exact .refl x s
  · unfold beginProgram
    exact (lined_modEng x s _ rfl rfl).trans (runFrom_lined x _ _ _ _)

/-- The expiry of the step timer works inside the engine. -/
theorem stepExpires_lined : Lined x s (stepExpires x s) := by
  unfold stepExpires
  split
  · simp only
    split
    · exact ((lined_modEng x s _ rfl rfl).trans (actStep_lined x _ _)).trans (endProgram_lined x _ _)
    · exact ((lined_modEng x s _ rfl rfl).trans (actStep_lined x _ _)).trans (runFrom_lined x _ _ _ _)
  · exact .refl x s

/-! ## Retune and account (R93, R95) -/

theorem modResult_inner (f : Option ScanResult → Option ScanResult) : Inner s (modResult x f s) :=
  (own_modResult x f s).inner_of_seq (by simp) (by simp) (by simp)
    fun h => by unfold PowerLaw at *; simpa using h

/-- A power command unit that keeps held value and retune. -/
theorem modPcu_inner (f : Power → Power) (held : (f (s.st x).pcu).held = (s.st x).pcu.held)
    (retune : (f (s.st x).pcu).retune = (s.st x).pcu.retune) : Inner s (modPcu x f s) :=
  (own_modPcu x f s).inner_of_seq (by simp) (by simp) (by simp)
    fun h => by unfold PowerLaw at *; simpa [held, retune] using h

theorem modTrk_inner (f : Tracker → Tracker) : Inner s (modTrk x f s) :=
  (own_modTrk x f s).inner_of_seq (by simp) (by simp) (by simp)
    fun h => by unfold PowerLaw at *; simpa using h

theorem modQsc_inner (f : Quench → Quench) : Inner s (modQsc x f s) :=
  (own_modQsc x f s).inner_of_seq (by simp) (by simp) (by simp)
    fun h => by unfold PowerLaw at *; simpa using h

theorem modSar_inner (f : Supply → Supply) : Inner s (modSar x f s) :=
  (own_modSar x f s).inner_of_seq (by simp) (by simp) (by simp)
    fun h => by unfold PowerLaw at *; simpa using h

/-- A sequencer that keeps state, index, profile, phase and travel. -/
theorem modSeq_inner (f : Sequencer → Sequencer)
    (state : (f (s.st x).seq).state = (s.st x).seq.state)
    (index : (f (s.st x).seq).index = (s.st x).seq.index)
    (profile : (f (s.st x).seq).profile = (s.st x).seq.profile)
    (phase : (f (s.st x).seq).phase = (s.st x).seq.phase)
    (travel : (f (s.st x).seq).travel = (s.st x).seq.travel)
    (travelSet : (f (s.st x).seq).travelSet = (s.st x).seq.travelSet) :
    Inner s (modSeq x f s) :=
  (own_modSeq x f s).inner (by simp) (by simp)
    (fun i hi => ⟨i, by simpa [index] using hi, Nat.le_refl i⟩)
    (fun h => ⟨by simpa [state] using h, by simp [profile]⟩)
    (fun h => by unfold PowerLaw at *; simpa [state] using h)
    (fun h => by unfold TravelLaw at *; simpa [state, phase, travel, travelSet] using h)

theorem startRetune_own (c : Channel) : Own x s (startRetune x c s) :=
  (own_modPcu x _ s).trans (pcuRecompute_own x _)

theorem startRetune_inner (c : Channel) : Inner s (startRetune x c s) :=
  (startRetune_own x s c).inner_of_seq (by simp [startRetune]) (by simp [startRetune])
    (by simp [startRetune]) fun _ => pcuRecompute_power x _

theorem abandonRetune_own : Own x s (abandonRetune x s) := by
  unfold abandonRetune
  split
  · exact .refl x s
  · exact (own_modPcu x _ s).trans (pcuRecompute_own x _)

theorem abandonRetune_inner : Inner s (abandonRetune x s) := by
  unfold abandonRetune
  split
  · exact .refl s
  · exact ((own_modPcu x _ s).trans (pcuRecompute_own x _)).inner_of_seq (by simp) (by simp) (by simp)
      fun _ => pcuRecompute_power x _

theorem abandonRetune_seq (y : StationId) :
    ((abandonRetune x s).st y).seq = (s.st y).seq := by
  unfold abandonRetune; split <;> simp
theorem abandonRetune_par (y : StationId) : ((abandonRetune x s).st y).par = (s.st y).par := by
  unfold abandonRetune; split <;> simp
theorem abandonRetune_qsc (y : StationId) : ((abandonRetune x s).st y).qsc = (s.st y).qsc := by
  unfold abandonRetune; split <;> simp
theorem abandonRetune_sar (y : StationId) : ((abandonRetune x s).st y).sar = (s.st y).sar := by
  unfold abandonRetune; split <;> simp
theorem abandonRetune_eng (y : StationId) : ((abandonRetune x s).st y).eng = (s.st y).eng := by
  unfold abandonRetune; split <;> simp

/-- What the closing of an account leaves alone: all but result and account. -/
theorem closeAccount_own (c : Cycle) (b : Bool) : Own x s (closeAccount x c b s) := by
  unfold closeAccount
  split
  · exact .refl x s
  · exact (own_modResult x _ s).trans (own_modPcu x _ _)

theorem closeAccount_inner (c : Cycle) (b : Bool) : Inner s (closeAccount x c b s) := by
  unfold closeAccount
  split
  · exact .refl s
  · exact (modResult_inner x s _).trans (modPcu_inner x _ _ rfl rfl)

@[simp] theorem closeAccount_seq (c : Cycle) (b : Bool) (y : StationId) :
    ((closeAccount x c b s).st y).seq = (s.st y).seq := by
  unfold closeAccount; split <;> simp [modEntry]
@[simp] theorem closeAccount_par (c : Cycle) (b : Bool) (y : StationId) :
    ((closeAccount x c b s).st y).par = (s.st y).par := by
  unfold closeAccount; split <;> simp [modEntry]
@[simp] theorem closeAccount_trk (c : Cycle) (b : Bool) (y : StationId) :
    ((closeAccount x c b s).st y).trk = (s.st y).trk := by
  unfold closeAccount; split <;> simp [modEntry]
@[simp] theorem closeAccount_qsc (c : Cycle) (b : Bool) (y : StationId) :
    ((closeAccount x c b s).st y).qsc = (s.st y).qsc := by
  unfold closeAccount; split <;> simp [modEntry]
@[simp] theorem closeAccount_sar (c : Cycle) (b : Bool) (y : StationId) :
    ((closeAccount x c b s).st y).sar = (s.st y).sar := by
  unfold closeAccount; split <;> simp [modEntry]
@[simp] theorem closeAccount_eng (c : Cycle) (b : Bool) (y : StationId) :
    ((closeAccount x c b s).st y).eng = (s.st y).eng := by
  unfold closeAccount; split <;> simp [modEntry]
@[simp] theorem closeAccount_account (c : Cycle) (b : Bool) :
    ((closeAccount x c b s).st x).pcu.account = none := by
  unfold closeAccount; split
  · assumption
  · simp

theorem powerHalt_own : Own x s (powerHalt x s) :=
  ((pcuRecompute_own x s).trans (abandonRetune_own x _)).trans (closeAccount_own x _ _ _)
theorem powerHalt_inner : Inner s (powerHalt x s) :=
  ((pcuRecompute_inner x s).trans (abandonRetune_inner x _)).trans (closeAccount_inner x _ _ _)
@[simp] theorem powerHalt_seq (y : StationId) : ((powerHalt x s).st y).seq = (s.st y).seq := by
  simp [powerHalt, abandonRetune_seq]
@[simp] theorem powerHalt_par (y : StationId) : ((powerHalt x s).st y).par = (s.st y).par := by
  simp [powerHalt, abandonRetune_par]
@[simp] theorem powerHalt_qsc (y : StationId) : ((powerHalt x s).st y).qsc = (s.st y).qsc := by
  simp [powerHalt, abandonRetune_qsc]
@[simp] theorem powerHalt_sar (y : StationId) : ((powerHalt x s).st y).sar = (s.st y).sar := by
  simp [powerHalt, abandonRetune_sar]
@[simp] theorem powerHalt_eng (y : StationId) : ((powerHalt x s).st y).eng = (s.st y).eng := by
  simp [powerHalt, abandonRetune_eng]
@[simp] theorem powerHalt_account : ((powerHalt x s).st x).pcu.account = none := by
  simp [powerHalt]

end

/-! ## A station's laws of quench, pending and held state -/

/-- The laws of one station that are not its power and travel. -/
structure LiveAt (v : Station) : Prop where
  quench : QuenchLaw v
  pending : PendingLaw v
  held : HeldLaw v
  check : CheckLaw v

/-- The laws of both, with the shared flow. -/
structure Live (s : State) : Prop where
  at_ : ∀ y, LiveAt (s.st y)
  supply : SupplyLaw s

theorem sound_iff (s : State) : Sound s ↔
    Live s ∧ (∀ y, PowerLaw (s.st y)) ∧ ∀ y, TravelLaw (s.st y) := by
  constructor
  · intro h
    exact ⟨⟨fun y => ⟨(h.station y).quench, (h.station y).pending, (h.station y).held,
      (h.station y).check⟩, h.supply⟩, fun y => (h.station y).power, fun y => (h.station y).travel⟩
  · rintro ⟨h, p, t⟩
    exact ⟨fun y => ⟨p y, t y, (h.at_ y).quench, (h.at_ y).pending, (h.at_ y).held, (h.at_ y).check⟩,
      h.supply⟩

/-- What the laws of quench, pending and held state read of a station. -/
structure Alike (v w : Station) : Prop where
  par : w.par = v.par
  queue : w.qsc.queue = v.qsc.queue
  issued : w.qsc.lastIssued = v.qsc.lastIssued
  valve : w.qsc.valve = v.qsc.valve
  flowCheck : w.qsc.flowCheck = v.qsc.flowCheck
  sar : w.sar = v.sar
  state : w.seq.state = v.seq.state
  phase : w.seq.phase = v.seq.phase
  pending : w.seq.pendingState = v.seq.pendingState
  held : w.seq.heldState = v.seq.heldState

theorem Alike.refl (v : Station) : Alike v v := ⟨rfl, rfl, rfl, rfl, rfl, rfl, rfl, rfl, rfl, rfl⟩

theorem Alike.trans {u v w : Station} (h : Alike u v) (k : Alike v w) : Alike u w :=
  ⟨k.par.trans h.par, k.queue.trans h.queue, k.issued.trans h.issued, k.valve.trans h.valve,
    k.flowCheck.trans h.flowCheck, k.sar.trans h.sar, k.state.trans h.state, k.phase.trans h.phase, k.pending.trans h.pending, k.held.trans h.held⟩

theorem QuenchCore.congr {v w : Station} (h : QuenchCore v) (par : w.par = v.par)
    (queue : w.qsc.queue = v.qsc.queue) (issued : w.qsc.lastIssued = v.qsc.lastIssued)
    (sar : w.sar = v.sar) (phase : w.seq.phase = v.seq.phase) : QuenchCore w := by
  have c := h
  refine ⟨by rw [queue]; exact c.bounded, by rw [queue]; exact c.endLast,
    by rw [queue]; exact c.headWaits, ?_, by rw [par, issued, sar]; exact c.flow, ?_, ?_⟩
  · intro w' hw'
    rw [sar] at hw'
    rw [par, queue]
    exact c.head w' hw'
  · rw [phase, queue, sar]
    exact c.opened
  · unfold QuenchIdle
    rw [phase, queue, issued, sar]
    exact c.closed

theorem LiveAt.congr {v w : Station} (h : LiveAt v) (k : Alike v w) : LiveAt w where
  quench := by
    have c := h.quench
    refine ⟨c.core.congr k.par k.queue k.issued k.sar k.phase, ?_, ?_, ?_⟩
    · unfold QuenchIdle
      rw [k.state, k.queue, k.issued, k.sar]
      exact c.idle
    · unfold HoldsEnd
      rw [k.state, k.queue]
      exact c.endTail
    · rw [k.state, k.phase]
      exact c.phaseTail
  pending := by
    unfold PendingLaw
    rw [k.pending]
    exact h.pending
  held := by
    unfold HeldLaw
    rw [k.held]
    exact h.held
  check := by
    unfold CheckLaw
    rw [k.valve, k.flowCheck]
    exact h.check

/-- A change of one copy. -/
theorem Live.change {x : StationId} {s t : State} (h : Live s) (other : t.st x.other = s.st x.other)
    (at_ : LiveAt (t.st x)) (supply : SupplyLaw t) : Live t where
  at_ y := by
    rcases eq_or_other x y with rfl | rfl
    · exact at_
    · rw [other]
      exact h.at_ _
  supply := supply

/-- A change that these laws do not read. -/
theorem Live.alike {s t : State} (h : Live s) (params : t.params = s.params)
    (k : ∀ y, Alike (s.st y) (t.st y)) : Live t where
  at_ y := (h.at_ y).congr (k y)
  supply := by
    unfold SupplyLaw at *
    rw [params, (k .a).sar, (k .b).sar]
    exact h.supply

theorem Own.live {x : StationId} {s t : State} (o : Own x s t) (h : Live s)
    (k : Alike (s.st x) (t.st x)) : Live t :=
  h.alike o.params fun y => by
    rcases eq_or_other x y with rfl | rfl
    · exact k
    · rw [o.other (other_ne x)]
      exact .refl _

/-- `y` is in TAIL. -/
abbrev inTail (s : State) (y : StationId) : Prop := (s.st y).seq.state = .tail

theorem Live.inv {s : State} (h : Live s) : QuenchInv (inTail s) s :=
  ⟨fun y => (h.at_ y).quench.core, fun y => (h.at_ y).quench.endTail,
    fun y => (h.at_ y).quench.phaseTail, fun y => (h.at_ y).check, h.supply⟩

/-- Work that is calm, keeps the laws of queue, request and flow and does not touch an idle station. -/
theorem Calm.live {s t : State} (k : Calm s t) (i : IdleKept s t) (h : Live s)
    (inv : QuenchInv (inTail s) t) : Live t where
  at_ y := by
    have st := k.still y
    refine ⟨⟨inv.core y, ?_, ?_, ?_⟩, ?_, ?_, inv.check y⟩
    · intro hy
      rw [st.state] at hy
      have idle := (h.at_ y).quench.idle hy
      rw [i y idle.1 idle.2.1]
      exact idle
    · intro hy
      rw [st.state]
      exact inv.ends y hy
    · intro hy
      rw [st.state]
      exact inv.phases y hy
    · unfold PendingLaw
      rw [st.pendingState]
      exact (h.at_ y).pending
    · unfold HeldLaw
      rw [st.heldState]
      exact (h.at_ y).held
  supply := inv.supply

/-- Settling tasks keeps a station's laws. -/
theorem settleTasks_live (ts : List QTask) {s : State} (h : Live s) : Live (settleTasks ts s) :=
  (settleTasks_calm ts s).live (settleTasks_idle ts s) h (settleTasks_inv ts h.inv)

end Sys2Proof.Machine
end

