-- ==== Sys2Proof/Laws/Halt.lean ====
section
/-! SUPPORT. How a scan ends and how a condition is raised: what halt, ends of programs and raise leave alone,
what they do to the station, and the laws they keep. -/

namespace Sys2Proof.Machine

section

variable (x : StationId) (s : State)

/-! ## The end of a scan -/

theorem modStore_inUse_inner (n : Option (Fin 16)) (h : s.active x = false) :
    Inner s (modStore (fun t => { t with inUse := t.inUse.set x n }) s) where
  blocks := ⟨rfl, rfl, rfl, rfl, rfl, rfl, rfl, fun _ h => h, fun _ => rfl, fun _ => rfl, rfl⟩
  rises := fun _ i h => ⟨i, h, Nat.le_refl i⟩
  held := fun y hy => by
    rcases eq_or_other x y with rfl | rfl
    · exact absurd (show s.active _ = true from hy) (by rw [h]; simp)
    · exact ⟨hy, rfl, pair_get_set_other _ _ _ _ (other_ne x)⟩
  cond := id
  power := id
  travel := id

/-- A station at rest gives back what it held for the scan. -/
theorem releaseScan_inner (h : s.active x = false) : Inner s (releaseScan x s) := by
  unfold releaseScan
  refine ((putRetained_inner x s none).trans (modStore_inUse_inner x _ none ?_)).trans (modSar_inner x _ _)
  exact h

@[simp] theorem releaseScan_st_other (y : StationId) (h : y ≠ x) :
    (releaseScan x s).st y = s.st y := by
  simp only [releaseScan, (own_modSar x _ _).other h]; rfl
@[simp] theorem releaseScan_seq (y : StationId) : ((releaseScan x s).st y).seq = (s.st y).seq := by
  simp [releaseScan]
@[simp] theorem releaseScan_par (y : StationId) : ((releaseScan x s).st y).par = (s.st y).par := by
  simp [releaseScan]
@[simp] theorem releaseScan_qsc (y : StationId) : ((releaseScan x s).st y).qsc = (s.st y).qsc := by
  simp [releaseScan]
@[simp] theorem releaseScan_pcu (y : StationId) : ((releaseScan x s).st y).pcu = (s.st y).pcu := by
  simp [releaseScan]
@[simp] theorem releaseScan_eng (y : StationId) : ((releaseScan x s).st y).eng = (s.st y).eng := by
  simp [releaseScan]
@[simp] theorem releaseScan_result (y : StationId) :
    ((releaseScan x s).st y).result = (s.st y).result := by
  simp [releaseScan]
@[simp] theorem releaseScan_params : (releaseScan x s).params = s.params := rfl
@[simp] theorem releaseScan_sar :
    ((releaseScan x s).st x).sar = { (s.st x).sar with reservation := none } := by
  simp [releaseScan]

/-- A station that enters a state at rest, its result closed and its timers stopped. -/
def ending (x : StationId) (n : StationState) (f : ScanOutcome → ScanOutcome)
    (g : Sequencer → Sequencer) (s : State) : State :=
  enterState x n (modSeq x g (closeResult x f s))

theorem completeScan_eq : completeScan x s =
    releaseScan x (ending x .complete
      (fun _ => if (s.st x).seq.degraded || (s.st x).seq.disturbed then .degraded else .good)
      (fun q => { stopTimers q with phase := none, resultReady := true }) s) := rfl

theorem endHalt_eq : endHalt x s =
    releaseScan x (ending x (stateAfterHalt (s.st x).seq.haltCause) (fun o => o)
      (fun q => { stopTimers q with resultReady := true }) s) := rfl

theorem stateAfterHalt_rest (c : Option Cause) :
    (stateAfterHalt c).active = false ∧ (stateAfterHalt c = .idle ∨ stateAfterHalt c = .faulted) := by
  cases c with
  | none => exact ⟨rfl, .inr rfl⟩
  | some c => cases c <;> simp [stateAfterHalt, StationState.active]

section
variable {n : StationState} {f : ScanOutcome → ScanOutcome} {g : Sequencer → Sequencer}

theorem ending_own : Own x s (ending x n f g s) :=
  ((own_modResult x _ s).trans (own_modSeq x _ _)).trans (enterState_own x _ _)

theorem ending_inner (hn : n.active = false) (hi : ∀ q : Sequencer, (g q).index = q.index) :
    Inner s (ending x n f g s) := by
  refine (ending_own x s).inner (by simp [ending, closeResult]) (by simp [ending, closeResult]) ?_ ?_
    (fun _ => enterState_power x _ _) fun _ => enterState_travel x _ _
  · exact fun i h => ⟨i, by simpa [ending, hi, closeResult] using h, Nat.le_refl i⟩
  · intro k
    simp [ending, hn] at k

theorem ended_inner (hn : n.active = false) (hi : ∀ q : Sequencer, (g q).index = q.index) :
    Inner s (releaseScan x (ending x n f g s)) :=
  (ending_inner x s hn hi).trans (releaseScan_inner x _ (by simp [State.active, ending, hn]))

/-- A station at rest, with its quench at rest and no phase, has its laws. -/
theorem restAt {v : Station} (idle : QuenchIdle v) (phase : v.seq.phase = none)
    (pending : PendingLaw v) (held : HeldLaw v) (check : CheckLaw v) : LiveAt v := by
  refine ⟨⟨quenchIdle_core idle, fun _ => idle, ?_, ?_⟩, pending, held, check⟩
  · rintro ⟨k, hk, -⟩
    rw [idle.1] at hk
    cases hk
  · intro h
    exact absurd phase h

theorem ended_live (h : Live s) (hn : n.active = false) (idle : QuenchIdle (s.st x))
    (hp : (g (s.st x).seq).phase = none)
    (hpe : (g (s.st x).seq).pendingState = (s.st x).seq.pendingState)
    (hhe : (g (s.st x).seq).heldState = (s.st x).seq.heldState) :
    Live (releaseScan x (ending x n f g s)) := by
  have o := ending_own x s (n := n) (f := f) (g := g)
  have hc := enterState_rest x (modSeq x g (closeResult x f s)) n hn
  refine h.change (x := x) ?_ ?_ ?_
  · rw [releaseScan_st_other _ _ _ (other_ne x), o.other (other_ne x)]
  · refine restAt ?_ ?_ ?_ ?_ ?_
    · unfold QuenchIdle at *
      simpa [ending, closeResult] using idle
    · simpa [ending, closeResult] using hp
    · have := (h.at_ x).pending
      unfold PendingLaw at *
      simpa [ending, closeResult, hpe] using this
    · have := (h.at_ x).held
      unfold HeldLaw at *
      simpa [ending, closeResult, hhe] using this
    · intro z c d hz
      rw [releaseScan_qsc] at hz
      rw [show ((ending x n f g s).st x).qsc.valve = .stopped from hc.1] at hz
      cases hz
  · refine h.supply.fall (x := x) ?_ ?_ ?_
    · rw [releaseScan_params, o.params]
    · rw [releaseScan_st_other _ _ _ (other_ne x), o.other (other_ne x)]
    · simp [ending, closeResult]
end

theorem completeScan_inner : Inner s (completeScan x s) := by
  rw [completeScan_eq]; exact ended_inner x s rfl fun _ => rfl

theorem completeScan_live (h : Live s) (hp : (s.st x).seq.phase = some .finishing) :
    Live (completeScan x s) := by
  rw [completeScan_eq]
  exact ended_live x s h rfl ((h.at_ x).quench.core.closed (.inr hp)) rfl rfl rfl

theorem endHalt_inner : Inner s (endHalt x s) := by
  rw [endHalt_eq]; exact ended_inner x s (stateAfterHalt_rest _).1 fun _ => rfl

theorem endHalt_live (h : Live s) (hs : (s.st x).seq.state = .halting) : Live (endHalt x s) := by
  rw [endHalt_eq]
  refine ended_live x s h (stateAfterHalt_rest _).1 ((h.at_ x).quench.idle (.inr hs)) ?_ rfl rfl
  by_contra hp
  have := (h.at_ x).quench.phaseTail hp
  rw [hs] at this
  cases this

/-! ## The arm check and the ends of programs -/

theorem armCheck_arming (h : armCheck s x = true) : (s.st x).seq.state = .arming := by
  unfold armCheck at h
  simp only at h
  split at h
  · cases h
  · simp only [Bool.and_eq_true, decide_eq_true_eq] at h
    exact h.1.1.1.1.1.1.1.1

/-- The entry into APPROACH before the record is written, on the station's copy. -/
theorem enterApproach_inner (h : (s.st x).seq.state = .arming) : Inner s (enterApproach x s) := by
  unfold enterApproach
  refine ((modSeq_inner x s _ rfl rfl rfl rfl rfl rfl).trans (writeRetained_inner x _ _ _)).trans
    (enterState_inner x _ _ fun _ => ?_)
  simp [State.active, h, StationState.active]

theorem enterApproach_other (y : StationId) (h : y ≠ x) :
    (enterApproach x s).st y = s.st y := by
  unfold enterApproach
  rw [(enterState_own x _ _).other h, writeRetained_st, (own_modSeq x _ s).other h]

@[simp] theorem enterApproach_eng (y : StationId) :
    ((enterApproach x s).st y).eng = (s.st y).eng := by simp [enterApproach]

theorem enterApproach_live (h : Live s) (hs : (s.st x).seq.state = .arming) :
    Live (enterApproach x s) := by
  have hphase : (s.st x).seq.phase = none := by
    by_contra hp
    have := (h.at_ x).quench.phaseTail hp
    rw [hs] at this
    cases this
  have hq : ((enterApproach x s).st x).qsc = (s.st x).qsc := by
    unfold enterApproach
    rw [enterState_qsc _ _ _ _ rfl]
    simp
  have c := (h.at_ x).quench
  refine h.change (x := x) (enterApproach_other x s _ (other_ne x)) ⟨⟨?_, ?_, ?_, ?_⟩, ?_, ?_, ?_⟩ ?_
  · exact c.core.congr (by simp [enterApproach]) (by rw [hq]) (by rw [hq]) (by simp [enterApproach]) (by simp [enterApproach])
  · intro k
    simp [enterApproach, StationState.active] at k
  · rintro ⟨e, he, ho⟩
    rw [hq] at he
    have := c.endTail ⟨e, he, ho⟩
    rw [hs] at this
    cases this
  · intro k
    simp [enterApproach, hphase] at k
  · have := (h.at_ x).pending
    unfold PendingLaw at *
    simpa [enterApproach] using this
  · have := (h.at_ x).held
    unfold HeldLaw at *
    simpa [enterApproach] using this
  · have := (h.at_ x).check
    unfold CheckLaw at *
    rw [hq]
    exact this
  · refine h.supply.fall (x := x) ?_ (enterApproach_other x s _ (other_ne x)) (by simp [enterApproach])
    unfold enterApproach
    rw [(enterState_own x _ _).params, writeRetained_params]
    rfl

/-- The delivery of a program's end. -/
theorem deliverEnd_inner : Inner s (deliverEnd x s) := by
  unfold deliverEnd
  split
  · exact .refl s
  · have h1 := (lined_modEng x s (fun e => { e with endOwed := none }) rfl rfl).inner
    refine h1.trans ?_
    simp only
    split
    · split
      · rename_i hc
        exact enterApproach_inner x _ (armCheck_arming x _ hc)
      · exact .refl _
    · split
      · exact completeScan_inner x _
      · exact .refl _
    · split
      · exact endHalt_inner x _
      · exact .refl _

theorem deliverEnd_live (h : Live s) : Live (deliverEnd x s) := by
  unfold deliverEnd
  split
  · exact h
  · have h1 : Live (modEng x (fun e => { e with endOwed := none }) s) :=
      (own_modEng x _ s).live h ⟨by simp, by simp, by simp, by simp, by simp, by simp, by simp, by simp,
        by simp, by simp⟩
    simp only
    split
    · split
      · rename_i hc
        exact enterApproach_live x _ h1 (armCheck_arming x _ hc)
      · exact h1
    · split
      · rename_i hc
        exact completeScan_live x _ h1 hc.2
      · exact h1
    · split
      · rename_i hc
        exact endHalt_live x _ h1 hc
      · exact h1

theorem deliverEnd_other (y : StationId) (h : y ≠ x) : (deliverEnd x s).st y = s.st y := by
  unfold deliverEnd
  split
  · rfl
  · have h1 : (modEng x (fun e => { e with endOwed := none }) s).st y = s.st y :=
      (own_modEng x _ s).other h
    simp only
    split
    · split
      · rw [enterApproach_other _ _ _ h, h1]
      · exact h1
    · split
      · rw [completeScan_eq, releaseScan_st_other _ _ _ h, (ending_own x _).other h, h1]
      · exact h1
    · split
      · rw [endHalt_eq, releaseScan_st_other _ _ _ h, (ending_own x _).other h, h1]
      · exact h1

/-- A station that ends its scan leaves the condition unit alone. -/
theorem ended_cdu {n : StationState} {f : ScanOutcome → ScanOutcome} {g : Sequencer → Sequencer} :
    (releaseScan x (ending x n f g s)).cdu = s.cdu := by
  rw [← (ending_own x s (n := n) (f := f) (g := g)).cdu]
  simp [releaseScan, modStore]

/-- The delivery of a program's end leaves the condition unit alone. -/
@[simp] theorem deliverEnd_cdu : (deliverEnd x s).cdu = s.cdu := by
  unfold deliverEnd
  split
  · rfl
  · simp only
    split <;> split <;>
      simp [enterApproach, (enterState_own _ _ _).cdu, completeScan_eq, endHalt_eq, ended_cdu]

/-- No end is owed once it has been delivered (R133). -/
theorem deliverEnd_owed : ((deliverEnd x s).st x).eng.endOwed = none := by
  unfold deliverEnd
  split
  · assumption
  · simp only
    split <;> split <;> simp [completeScan_eq, endHalt_eq, ending, closeResult]

theorem deliverEnd_handling :
    ((deliverEnd x s).st x).seq.handling = (s.st x).seq.handling ∧
      ((deliverEnd x s).st x).seq.haltWaiting = (s.st x).seq.haltWaiting := by
  unfold deliverEnd
  split
  · exact ⟨rfl, rfl⟩
  · simp only
    split <;> split <;> simp [enterApproach, completeScan_eq, endHalt_eq, ending, closeResult, stopTimers]

end

end Sys2Proof.Machine
end

