-- ==== Sys2Proof/Laws/Raise.lean ====
section
/-! SUPPORT. The halt, the halt request, the end of a handling and the raise of a condition: what they leave
alone, what they do, and the laws they keep. -/

namespace Sys2Proof.Machine

section

variable (x : StationId) (c : Cause) (s : State)

/-! ## The halt (R67) -/

/-- The sequencer's part of a halt, before the other units are told. -/
def haltHead (x : StationId) (c : Cause) (s : State) : State :=
  syncTravel x
    (modSeq x
      (fun q => { stopTimers q with heldState := none, pendingState := none, phase := none })
      (enterState x .halting (modSeq x (fun q => { q with haltCause := some c }) s)))

/-- A halt without its record. -/
def haltBody (x : StationId) (c : Cause) (s : State) : State :=
  modResult x (Option.map fun r => { r with outcome := .aborted, cause := some c })
    (requestProgram x .halt (quenchHalt x (powerHalt x (haltHead x c s))))

theorem halt_eq : halt x c s = writeRetainedNow x (haltBody x c s) := rfl

theorem haltHead_own : Own x s (haltHead x c s) :=
  (((own_modSeq x _ s).trans (enterState_own x _ _)).trans (own_modSeq x _ _)).trans
    (syncTravel_own x _)

theorem haltHead_power : PowerLaw ((haltHead x c s).st x) := by
  have h := enterState_power x (modSeq x (fun q => { q with haltCause := some c }) s) .halting
  unfold haltHead PowerLaw at *
  simpa [stopTimers] using h

theorem haltHead_inner (h : s.active x = true) : Inner s (haltHead x c s) := by
  refine (haltHead_own x c s).inner (by simp [haltHead]) (by simp [haltHead]) ?_ ?_
    (fun _ => haltHead_power x c s) fun _ => syncTravel_law x _
  · exact fun i hi => ⟨i, by simpa [haltHead, stopTimers] using hi, Nat.le_refl i⟩
  · exact fun _ => ⟨h, by simp [haltHead, stopTimers]⟩

theorem haltHead_seq : ((haltHead x c s).st x).seq =
    { stopTimers (s.st x).seq with
      state := .halting, heldState := none, pendingState := none, phase := none, haltCause := some c,
      travel := ((haltHead x c s).st x).seq.travel, travelSet := ((haltHead x c s).st x).seq.travel,
      travelStale := ((haltHead x c s).st x).seq.travelStale } := by
  unfold haltHead
  cases x <;> rfl

theorem haltHead_travel : ((haltHead x c s).st x).seq.travel.mode = .stop := by
  unfold haltHead
  simp [travelOf, stopTimers]

theorem haltBody_seq : ((haltBody x c s).st x).seq = ((haltHead x c s).st x).seq := by
  unfold haltBody
  rw [modResult_seq, (requestProgram_lined x _ _).seq, quenchHalt_st]
  simp [quenchStopped, withdraw]

/-- What a halt does to the sequencer. -/
theorem halt_seq : ((halt x c s).st x).seq =
    { stopTimers (s.st x).seq with
      state := .halting, heldState := none, pendingState := none, phase := none, haltCause := some c,
      travel := ((halt x c s).st x).seq.travel, travelSet := ((halt x c s).st x).seq.travel,
      travelStale := ((halt x c s).st x).seq.travelStale } := by
  rw [halt_eq, writeRetainedNow_st, haltBody_seq]
  exact haltHead_seq x c s

theorem halt_travel : ((halt x c s).st x).seq.travel.mode = .stop := by
  rw [halt_eq, writeRetainedNow_st, haltBody_seq]
  exact haltHead_travel x c s

@[simp] theorem halt_state : ((halt x c s).st x).seq.state = .halting := by rw [halt_seq]
@[simp] theorem halt_handling : ((halt x c s).st x).seq.handling = (s.st x).seq.handling := by
  rw [halt_seq]; rfl
@[simp] theorem halt_haltWaiting :
    ((halt x c s).st x).seq.haltWaiting = (s.st x).seq.haltWaiting := by rw [halt_seq]; rfl
@[simp] theorem halt_index : ((halt x c s).st x).seq.index = (s.st x).seq.index := by
  rw [halt_seq]; rfl

theorem halt_idle : QuenchIdle ((halt x c s).st x) := by
  have h := quenchHalt_idle x (powerHalt x (haltHead x c s))
  have k := requestProgram_lined x (quenchHalt x (powerHalt x (haltHead x c s))) .halt
  unfold QuenchIdle at *
  rw [halt_eq, writeRetainedNow_st, haltBody, modResult_qsc, modResult_sar, k.qsc, k.sar]
  exact h

theorem haltBody_inner (h : s.active x = true) : Inner s (haltBody x c s) :=
  ((((haltHead_inner x c s h).trans (powerHalt_inner x _)).trans (quenchHalt_calm x _).inner).trans
    (requestProgram_lined x _ _).inner).trans (modResult_inner x _ _)

theorem halt_inner (h : s.active x = true) : Inner s (halt x c s) :=
  (haltBody_inner x c s h).trans (writeRetainedNow_inner x _)

/-- A halt leaves the condition unit alone. -/
@[simp] theorem halt_cdu : (halt x c s).cdu = s.cdu := by
  rw [halt_eq, writeRetainedNow_cdu, haltBody, modResult_cdu, (requestProgram_lined x _ _).own.cdu,
    (quenchHalt_calm x _).cdu, (powerHalt_own x _).cdu, (haltHead_own x c s).cdu]

/-- A halt leaves the other station where it is. -/
theorem halt_other {y : StationId} (h : y ≠ x) : Still y s (halt x c s) ∧
    ((halt x c s).st y).eng = (s.st y).eng ∧
    ((halt x c s).st y).seq.haltWaiting = (s.st y).seq.haltWaiting := by
  have o := (haltHead_own x c s).trans (powerHalt_own x _)
  have k := quenchHalt_calm x (powerHalt x (haltHead x c s))
  have hst : (halt x c s).st y = (quenchHalt x (powerHalt x (haltHead x c s))).st y := by
    rw [halt_eq, writeRetainedNow_st, haltBody, (own_modResult x _ _).other h,
      (requestProgram_lined x _ _).own.other h]
  have w : ((quenchHalt x (powerHalt x (haltHead x c s))).st y).seq.haltWaiting =
      ((powerHalt x (haltHead x c s)).st y).seq.haltWaiting := by
    have := congrArg Sequencer.haltWaiting (k.seq y)
    exact this
  have still := k.still y
  have e := k.eng y
  rw [o.other h] at w e
  have st : Still y s (quenchHalt x (powerHalt x (haltHead x c s))) := by
    obtain ⟨h1, h2, h3, h4, h5, h6⟩ := still
    rw [o.other h] at h1 h2 h3 h4 h5 h6
    exact ⟨h1, h2, h3, h4, h5, h6⟩
  obtain ⟨h1, h2, h3, h4, h5, h6⟩ := st
  exact ⟨⟨by rw [hst]; exact h1, by rw [hst]; exact h2, by rw [hst]; exact h3,
    by rw [hst]; exact h4, by rw [hst]; exact h5, by rw [hst]; exact h6⟩, by rw [hst]; exact e,
    by rw [hst]; exact w⟩

theorem halt_live (h : Live s) : Live (halt x c s) := by
  have o := (haltHead_own x c s).trans (powerHalt_own x _)
  have hother := o.other (other_ne x)
  have hseq : ((powerHalt x (haltHead x c s)).st x).seq = ((haltHead x c s).st x).seq := by simp
  have inv : QuenchInv (inTail s) (quenchHalt x (powerHalt x (haltHead x c s))) := by
    refine quenchHalt_inv ?_ ?_ ?_ ?_ ?_
    · rw [hother]; exact (h.at_ _).quench.core
    · rw [hother]; exact (h.at_ _).quench.endTail
    · intro y hy
      rcases eq_or_other x y with rfl | rfl
      · rw [hseq, haltHead_seq] at hy
        exact absurd rfl hy
      · rw [hother] at hy
        exact (h.at_ _).quench.phaseTail hy
    · rw [hother]; exact (h.at_ _).check
    · exact h.supply.fall o.params hother (by simp [haltHead])
  have k := quenchHalt_calm x (powerHalt x (haltHead x c s))
  have hq : Live (quenchHalt x (powerHalt x (haltHead x c s))) := by
    refine ⟨fun y => ?_, inv.supply⟩
    rcases eq_or_other x y with rfl | rfl
    · have hs : ((quenchHalt y (powerHalt y (haltHead y c s))).st y).seq =
          ((haltHead y c s).st y).seq := by
        rw [quenchHalt_st]
        simp [quenchStopped, withdraw]
      refine restAt (quenchHalt_idle _ _) ?_ ?_ ?_ ?_
      · rw [hs, haltHead_seq]
      · unfold PendingLaw
        rw [hs, haltHead_seq]
        simp
      · unfold HeldLaw
        rw [hs, haltHead_seq]
        simp
      · intro z d e hz
        rw [quenchHalt_st] at hz
        simp [quenchStopped] at hz
    · have st := k.still x.other
      have hl := h.at_ x.other
      have idle : ∀ y, y = x.other → QuenchIdle (s.st y) →
          QuenchIdle ((quenchHalt x (powerHalt x (haltHead x c s))).st y) := by
        rintro y rfl hy
        have e1 : (quenchStopped x (powerHalt x (haltHead x c s))).st x.other = s.st x.other := by
          rw [(quenchStopped_own x _).other (other_ne x), hother]
        have e2 := settleTasks_idle
          (fallTasks (issueFalls (modQsc x (fun q => { q with queue := [] })
            (withdraw x (powerHalt x (haltHead x c s)))) x 0))
          (quenchStopped x (powerHalt x (haltHead x c s))) x.other
          (by rw [e1]; exact hy.1) (by rw [e1]; exact hy.2.1)
        rw [quenchHalt_eq, e2, e1]
        exact hy
      have hstate : ((quenchHalt x (powerHalt x (haltHead x c s))).st x.other).seq.state =
          (s.st x.other).seq.state := by rw [st.state, hother]
      refine ⟨⟨inv.core _, ?_, ?_, ?_⟩, ?_, ?_, inv.check _⟩
      · intro hy
        rw [hstate] at hy
        exact idle _ rfl (hl.quench.idle hy)
      · intro hy
        rw [hstate]
        exact inv.ends _ hy
      · intro hy
        rw [hstate]
        exact inv.phases _ hy
      · unfold PendingLaw
        rw [st.pendingState, hother]
        exact hl.pending
      · unfold HeldLaw
        rw [st.heldState, hother]
        exact hl.held
  have kp := requestProgram_lined x (quenchHalt x (powerHalt x (haltHead x c s))) .halt
  have hp : Live (requestProgram x .halt (quenchHalt x (powerHalt x (haltHead x c s)))) :=
    kp.own.live hq ⟨kp.par, by rw [kp.qsc], by rw [kp.qsc], by rw [kp.qsc], by rw [kp.qsc], kp.sar, by rw [kp.seq], by rw [kp.seq], by rw [kp.seq],
      by rw [kp.seq]⟩
  have hr : Live (haltBody x c s) :=
    (own_modResult x _ _).live hp ⟨by simp, by simp, by simp, by simp, by simp, by simp, by simp, by simp,
        by simp, by simp⟩
  rw [halt_eq]
  exact hr.alike (writeRetainedNow_params x _) fun y => by rw [writeRetainedNow_st]; exact .refl _

/-! ## Halt requests and the end of a handling -/

/-- Between events no halt request waits and no end is owed but in a station that is handling one. -/
def Tidy (s : State) : Prop :=
  ∀ y, (s.st y).seq.handling = false →
    (s.st y).seq.haltWaiting = none ∧ (s.st y).eng.endOwed = none

theorem haltable_active {n : StationState} (h : n.haltable = true) : n.active = true := by
  cases n <;> simp_all [StationState.haltable, StationState.active]

/-- A halt request, as the event sees it. -/
theorem haltRequest_inner : Inner s (haltRequest x c s) := by
  unfold haltRequest
  split
  · rename_i h
    split
    · exact modSeq_inner x s _ rfl rfl rfl rfl rfl rfl
    · exact (halt_inner x c s (haltable_active h)).trans (deliverEnd_inner x _)
  · exact .refl s

/-- A halt request leaves the condition unit alone. -/
@[simp] theorem haltRequest_cdu : (haltRequest x c s).cdu = s.cdu := by
  unfold haltRequest
  split
  · split <;> simp
  · rfl

theorem haltRequest_live (h : Live s) : Live (haltRequest x c s) := by
  unfold haltRequest
  split
  · split
    · exact (own_modSeq x _ s).live h
        ⟨by simp, by simp, by simp, by simp, by simp, by simp, by simp, by simp,
        by simp, by simp⟩
    · exact deliverEnd_live x _ (halt_live x c s h)
  · exact h

theorem haltRequest_handling (y : StationId) :
    ((haltRequest x c s).st y).seq.handling = (s.st y).seq.handling := by
  unfold haltRequest
  split
  · split
    · rcases eq_or_other x y with rfl | rfl
      · simp
      · rw [(own_modSeq x _ s).other (other_ne x)]
    · rcases eq_or_other x y with rfl | rfl
      · rw [(deliverEnd_handling _ _).1, halt_handling]
      · rw [deliverEnd_other _ _ _ (other_ne x), (halt_other x c s (other_ne x)).1.handling]
  · rfl

theorem haltRequest_tidy (h : Tidy s) : Tidy (haltRequest x c s) := by
  intro y hy
  rw [haltRequest_handling] at hy
  obtain ⟨h1, h2⟩ := h y hy
  unfold haltRequest
  split
  · split
    · rename_i _ hh
      rcases eq_or_other x y with rfl | rfl
      · rw [hy] at hh
        cases hh
      · rw [(own_modSeq x _ s).other (other_ne x)]
        exact ⟨h1, h2⟩
    · rcases eq_or_other x y with rfl | rfl
      · refine ⟨?_, deliverEnd_owed _ _⟩
        rw [(deliverEnd_handling _ _).2, halt_haltWaiting, h1]
      · rw [deliverEnd_other _ _ _ (other_ne x)]
        obtain ⟨-, k1, k2⟩ := halt_other x c s (other_ne x)
        rw [k1, k2]
        exact ⟨h1, h2⟩
  · exact ⟨h1, h2⟩

/-- A station that is handling an event stays where it is through every halt request. -/
theorem haltRequest_still {y : StationId} (hy : (s.st y).seq.handling = true) :
    Still y s (haltRequest x c s) := by
  unfold haltRequest
  split
  · split
    · rcases eq_or_other x y with rfl | rfl
      · exact ⟨by simp, by simp, by simp, by simp, by simp, by simp⟩
      · have o := (own_modSeq x (fun q => { q with haltWaiting := some (q.haltWaiting.getD c) }) s).other (other_ne x)
        exact ⟨by rw [o], by rw [o], by rw [o], by rw [o], by rw [o], by rw [o]⟩
    · rename_i _ hh
      rcases eq_or_other x y with rfl | rfl
      · exact absurd hy hh
      · have o := deliverEnd_other x (halt x c s) x.other (other_ne x)
        have k := (halt_other x c s (other_ne x)).1
        exact ⟨by rw [o]; exact k.state, by rw [o]; exact k.index, by rw [o]; exact k.profile,
          by rw [o]; exact k.handling, by rw [o]; exact k.pendingState, by rw [o]; exact k.heldState⟩
  · exact .refl _ _

theorem endHandling_inner : Inner s (endHandling x s) := by
  have h1 : Inner s (modSeq x (fun q => { q with handling := false, haltWaiting := none }) s) :=
    modSeq_inner x s _ rfl rfl rfl rfl rfl rfl
  unfold endHandling
  simp only
  split
  · exact (h1.trans (haltRequest_inner x _ _)).trans (deliverEnd_inner x _)
  · exact h1.trans (deliverEnd_inner x _)

theorem endHandling_live (h : Live s) : Live (endHandling x s) := by
  have h1 : Live (modSeq x (fun q => { q with handling := false, haltWaiting := none }) s) :=
    (own_modSeq x _ s).live h ⟨by simp, by simp, by simp, by simp, by simp, by simp, by simp, by simp,
        by simp, by simp⟩
  unfold endHandling
  simp only
  split
  · exact deliverEnd_live x _ (haltRequest_live x _ _ h1)
  · exact deliverEnd_live x _ h1

/-- The end of a handling leaves nothing waiting in the station it ends for. -/
theorem endHandling_tidy
    (h : ∀ y, y ≠ x → (s.st y).seq.handling = false →
      (s.st y).seq.haltWaiting = none ∧ (s.st y).eng.endOwed = none) :
    Tidy (endHandling x s) ∧ ((endHandling x s).st x).seq.handling = false ∧
      ∀ y, y ≠ x → ((endHandling x s).st y).seq.handling = (s.st y).seq.handling := by
  have o := own_modSeq x (fun q => { q with handling := false, haltWaiting := none }) s
  unfold endHandling
  simp only
  split
  · rename_i c _
    have a : ∀ y, y ≠ x → ((haltRequest x c (modSeq x (fun q => { q with handling := false, haltWaiting := none }) s)).st y).seq.handling = (s.st y).seq.handling := by
      intro y hy
      rw [haltRequest_handling, o.other hy]
    have ax : ((haltRequest x c (modSeq x (fun q => { q with handling := false, haltWaiting := none }) s)).st x).seq.handling = false := by
      rw [haltRequest_handling]
      simp
    have w : ((haltRequest x c (modSeq x (fun q => { q with handling := false, haltWaiting := none }) s)).st x).seq.haltWaiting = none := by
      unfold haltRequest
      split
      · split
        · rename_i k
          simp at k
        · rw [(deliverEnd_handling _ _).2, halt_haltWaiting]
          simp
      · simp
    have b : ∀ y, y ≠ x → (s.st y).seq.handling = false →
        ((haltRequest x c (modSeq x (fun q => { q with handling := false, haltWaiting := none }) s)).st y).seq.haltWaiting = none ∧
        ((haltRequest x c (modSeq x (fun q => { q with handling := false, haltWaiting := none }) s)).st y).eng.endOwed = none := by
      intro y hy hh
      have h2 := h y hy hh
      unfold haltRequest
      split
      · split
        · rename_i k
          simp at k
        · rw [deliverEnd_other _ _ _ hy]
          obtain ⟨-, k1, k2⟩ := halt_other x c (modSeq x (fun q => { q with handling := false, haltWaiting := none }) s) hy
          rw [k1, k2, o.other hy]
          exact h2
      · rw [o.other hy]
        exact h2
    refine ⟨?_, ?_, ?_⟩
    · intro y hy
      rcases eq_or_other x y with rfl | rfl
      · exact ⟨by rw [(deliverEnd_handling _ _).2]; exact w, deliverEnd_owed _ _⟩
      · rw [deliverEnd_other _ _ _ (other_ne x)] at hy ⊢
        rw [a _ (other_ne x)] at hy
        exact b _ (other_ne x) hy
    · rw [(deliverEnd_handling _ _).1]
      exact ax
    · intro y hy
      rw [deliverEnd_other _ _ _ hy]
      exact a y hy
  · refine ⟨?_, ?_, ?_⟩
    · intro y hy
      rcases eq_or_other x y with rfl | rfl
      · exact ⟨by rw [(deliverEnd_handling _ _).2]; simp, deliverEnd_owed _ _⟩
      · rw [deliverEnd_other _ _ _ (other_ne x), o.other (other_ne x)] at hy ⊢
        exact h _ (other_ne x) hy
    · rw [(deliverEnd_handling _ _).1]
      simp
    · intro y hy
      rw [deliverEnd_other _ _ _ hy, o.other hy]

end

/-! ## The condition table (R163) -/

theorem condSlot_lt (c : Cond) (sc : Scope) : condSlot c sc < 48 := by
  cases c <;> cases sc <;> (try rename_i x; cases x) <;> decide

/-- The key that stands at an entry's place. -/
theorem condKeys_slot (c : Cond) (sc : Scope) (h : scopeFits c sc = true) :
    condKeys[condSlot c sc]? = some (c, sc) := by
  revert h
  cases c <;> cases sc <;> (try rename_i x; cases x) <;> decide

/-- No two entries stand at one place. -/
theorem condSlot_injective {c d : Cond} {sc sd : Scope} (h : scopeFits c sc = true)
    (k : scopeFits d sd = true) (e : condSlot c sc = condSlot d sd) : (c, sc) = (d, sd) := by
  have h1 := condKeys_slot c sc h
  rw [e, condKeys_slot d sd k] at h1
  exact (Option.some.inj h1).symm

theorem entry_putEntry (u : Conditions) (c : Cond) (sc : Scope) (e : CondEntry) :
    (u.putEntry c sc e).entry c sc = e := by
  simp [Conditions.entry, Conditions.putEntry, condSlot_lt]

theorem entry_putEntry_slot (u : Conditions) (c d : Cond) (sc sd : Scope) (e : CondEntry)
    (h : condSlot c sc ≠ condSlot d sd) : (u.putEntry c sc e).entry d sd = u.entry d sd := by
  simp only [Conditions.entry, Conditions.putEntry, Vector.getElem?_setIfInBounds, if_neg h]

/-- Writing one entry leaves the others. -/
theorem entry_putEntry_other (u : Conditions) (c d : Cond) (sc sd : Scope) (e : CondEntry)
    (h : scopeFits c sc = true) (k : scopeFits d sd = true) (ne : (d, sd) ≠ (c, sc)) :
    (u.putEntry c sc e).entry d sd = u.entry d sd :=
  entry_putEntry_slot u c d sc sd e fun he => ne (condSlot_injective h k he).symm

theorem entry_putEntry_or (u : Conditions) (c d : Cond) (sc sd : Scope) (e : CondEntry) :
    (u.putEntry c sc e).entry d sd = e ∨ (u.putEntry c sc e).entry d sd = u.entry d sd := by
  by_cases h : condSlot c sc = condSlot d sd
  · left
    have k := entry_putEntry u c sc e
    unfold Conditions.entry at k ⊢
    rw [← h]
    exact k
  · exact .inr (entry_putEntry_slot u c d sc sd e h)

/-! ## Raising a condition (R164, R165) -/

section

variable (c : Cond) (sc : Scope) (v : Severity) (s : State)

theorem logRaise_table (d : Cond) (sd : Scope) : ((logRaise c sc v s).cdu).entry d sd =
    (s.cdu.putEntry c sc (raisedEntry (s.cdu.entry c sc) s.cycle v)).entry d sd := by
  unfold logRaise
  simp only [modCdu_cdu]
  split <;> rfl

/-- A raise logs its condition. -/
theorem logRaise_logged : Logged c sc v s (logRaise c sc v s) := by
  unfold Logged
  rw [logRaise_table, entry_putEntry]
  rfl

@[simp] theorem logRaise_st (y : StationId) : (logRaise c sc v s).st y = s.st y := rfl
@[simp] theorem logRaise_params : (logRaise c sc v s).params = s.params := rfl
@[simp] theorem logRaise_store : (logRaise c sc v s).store = s.store := rfl
@[simp] theorem logRaise_link : (logRaise c sc v s).link = s.link := rfl

theorem logRaise_severity : (logRaise c sc v s).cdu.severity = s.cdu.severity := by
  unfold logRaise
  simp only [modCdu_cdu]
  split <;> rfl

theorem logRaise_inner : Inner s (logRaise c sc v s) where
  blocks :=
    { pending := rfl, vdd := rfl, params := rfl, stops := rfl, link := rfl, store := rfl,
      severity := logRaise_severity c sc v s,
      first := fun r hr => by
        unfold logRaise
        simp only [modCdu_cdu]
        have : (s.cdu.putEntry c sc (raisedEntry (s.cdu.entry c sc) s.cycle v)).first = some r := hr
        rw [this]
      par := fun _ => rfl, table := fun _ => rfl, valid := rfl }
  rises := fun _ i h => ⟨i, h, Nat.le_refl i⟩
  held := fun _ h => ⟨h, rfl, rfl⟩
  cond := fun h d sd hp => by
    rw [logRaise_table] at hp ⊢
    rcases entry_putEntry_or s.cdu c d sc sd (raisedEntry (s.cdu.entry c sc) s.cycle v) with k | k
    · rw [k]
      simp [raisedEntry]
    · rw [k] at hp ⊢
      exact h d sd hp
  power := id
  travel := id

section
variable (x : StationId)

theorem applyTo_inner : Inner s (applyTo c sc v x s) := by
  unfold applyTo
  split
  · cases v
    · exact .refl s
    · exact modSeq_inner x s _ rfl rfl rfl rfl rfl rfl
    · exact haltRequest_inner x _ s
    · exact haltRequest_inner x _ s
  · exact .refl s

@[simp] theorem applyTo_cdu : (applyTo c sc v x s).cdu = s.cdu := by
  unfold applyTo
  split
  · cases v <;> simp
  · rfl

theorem applyTo_live (h : Live s) : Live (applyTo c sc v x s) := by
  unfold applyTo
  split
  · cases v
    · exact h
    · exact (own_modSeq x _ s).live h
        ⟨by simp, by simp, by simp, by simp, by simp, by simp, by simp, by simp,
        by simp, by simp⟩
    · exact haltRequest_live x _ s h
    · exact haltRequest_live x _ s h
  · exact h

theorem modSeq_degraded_st (y : StationId) :
    ((modSeq x (fun q => { q with degraded := true }) s).st y).seq =
      { (s.st y).seq with
        degraded := ((modSeq x (fun q => { q with degraded := true }) s).st y).seq.degraded } := by
  cases x <;> cases y <;> rfl

theorem applyTo_handling (y : StationId) :
    ((applyTo c sc v x s).st y).seq.handling = (s.st y).seq.handling := by
  unfold applyTo
  split
  · cases v
    · rfl
    · simp only; rw [modSeq_degraded_st]
    · exact haltRequest_handling x _ s y
    · exact haltRequest_handling x _ s y
  · rfl

theorem applyTo_tidy (h : Tidy s) : Tidy (applyTo c sc v x s) := by
  unfold applyTo
  split
  · cases v
    · exact h
    · intro y hy
      simp only at *
      rw [modSeq_degraded_st] at hy
      rw [modSeq_degraded_st, modSeq_eng]
      exact h y hy
    · exact haltRequest_tidy x _ s h
    · exact haltRequest_tidy x _ s h
  · exact h

theorem applyTo_still {y : StationId} (hy : (s.st y).seq.handling = true) :
    Still y s (applyTo c sc v x s) := by
  unfold applyTo
  split
  · cases v
    · exact .refl y s
    · simp only
      exact ⟨by rw [modSeq_degraded_st], by rw [modSeq_degraded_st], by rw [modSeq_degraded_st],
        by rw [modSeq_degraded_st], by rw [modSeq_degraded_st], by rw [modSeq_degraded_st]⟩
    · exact haltRequest_still x _ s hy
    · exact haltRequest_still x _ s hy
  · exact .refl y s

end

variable (f : Option Severity)

/-- A raise, as the event sees it. -/
theorem raise_inner : Inner s (raise c sc f s) :=
  ((logRaise_inner c sc _ s).trans (applyTo_inner c sc _ _ .a)).trans (applyTo_inner c sc _ _ .b)

/-- All that a raise does to the condition unit is to log its condition (R164, R165). -/
theorem raise_cdu : (raise c sc f s).cdu = (logRaise c sc (appliedSeverity s c f) s).cdu := by
  unfold raise
  simp only [applyTo_cdu]

theorem raise_live (h : Live s) : Live (raise c sc f s) :=
  applyTo_live c sc _ _ .b (applyTo_live c sc _ _ .a (h.alike rfl fun _ => .refl _))

theorem raise_handling (y : StationId) :
    ((raise c sc f s).st y).seq.handling = (s.st y).seq.handling := by
  unfold raise
  simp only
  rw [applyTo_handling, applyTo_handling, logRaise_st]

theorem raise_tidy (h : Tidy s) : Tidy (raise c sc f s) :=
  applyTo_tidy c sc _ _ .b (applyTo_tidy c sc _ _ .a h)

/-- A station that is handling an event stays where it is through a raise. -/
theorem raise_still {y : StationId} (hy : (s.st y).seq.handling = true) :
    Still y s (raise c sc f s) := by
  have h1 : Still y s (logRaise c sc (appliedSeverity s c f) s) := ⟨rfl, rfl, rfl, rfl, rfl, rfl⟩
  have h2 := applyTo_still c sc (appliedSeverity s c f) (logRaise c sc (appliedSeverity s c f) s) .a
    (y := y) (by rw [logRaise_st]; exact hy)
  have h3 := applyTo_still c sc (appliedSeverity s c f)
    (applyTo c sc (appliedSeverity s c f) .a (logRaise c sc (appliedSeverity s c f) s)) .b
    (y := y) (by rw [applyTo_handling, logRaise_st]; exact hy)
  exact (h1.trans h2).trans h3

end

end Sys2Proof.Machine
end

