-- ==== Sys2Proof/Laws/Event.lean ====
section
/-! SUPPORT. Work that keeps everything an event keeps: the frame of the stations' work, the laws of the stations,
and that nothing waits. Offers to a quench queue are among it. -/

namespace Sys2Proof.Machine

/-- What every finished piece of work inside the stations keeps. -/
structure Event (s t : State) : Prop where
  inner : Inner s t
  live : Live s → Live t
  tidy : Tidy s → Tidy t
  handling : ∀ y, (t.st y).seq.handling = (s.st y).seq.handling

theorem Event.refl (s : State) : Event s s := ⟨.refl s, id, id, fun _ => rfl⟩

theorem Event.trans {s t u : State} (h : Event s t) (k : Event t u) : Event s u :=
  ⟨h.inner.trans k.inner, k.live ∘ h.live, k.tidy ∘ h.tidy,
    fun y => (k.handling y).trans (h.handling y)⟩

/-- What a copy must keep for work inside it to be an event's. -/
structure Kept (v w : Station) : Prop extends Alike v w where
  handling : w.seq.handling = v.seq.handling
  haltWaiting : w.seq.haltWaiting = v.seq.haltWaiting
  endOwed : w.eng.endOwed = v.eng.endOwed

theorem Tidy.congr {s t : State} (h : Tidy s)
    (k : ∀ y, (t.st y).seq.handling = (s.st y).seq.handling ∧
      (t.st y).seq.haltWaiting = (s.st y).seq.haltWaiting ∧
      (t.st y).eng.endOwed = (s.st y).eng.endOwed) : Tidy t := by
  intro y hy
  obtain ⟨k1, k2, k3⟩ := k y
  rw [k1] at hy
  rw [k2, k3]
  exact h y hy

theorem Inner.event {s t : State} (i : Inner s t) (k : ∀ y, Kept (s.st y) (t.st y)) : Event s t where
  inner := i
  live h := h.alike i.blocks.params fun y => (k y).toAlike
  tidy h := h.congr fun y => ⟨(k y).handling, (k y).haltWaiting, (k y).endOwed⟩
  handling y := (k y).handling

theorem Own.event {x : StationId} {s t : State} (o : Own x s t) (i : Inner s t)
    (k : Kept (s.st x) (t.st x)) : Event s t :=
  i.event fun y => by
    rcases eq_or_other x y with rfl | rfl
    · exact k
    · rw [o.other (other_ne x)]
      exact ⟨.refl _, rfl, rfl, rfl⟩

/-- Calm work changes neither handling nor what waits. -/
theorem Calm.tidy {s t : State} (k : Calm s t) (h : Tidy s) : Tidy t :=
  h.congr fun y => ⟨(k.still y).handling, by
    have := congrArg Sequencer.haltWaiting (k.seq y)
    exact this, by rw [k.eng y]⟩

theorem Calm.event {s t : State} (k : Calm s t) (live : Live s → Live t) : Event s t :=
  ⟨k.inner, live, k.tidy, fun y => (k.still y).handling⟩

theorem settleTasks_event (ts : List QTask) (s : State) : Event s (settleTasks ts s) :=
  (settleTasks_calm ts s).event (settleTasks_live ts)

theorem raise_event (c : Cond) (sc : Scope) (f : Option Severity) (s : State) :
    Event s (raise c sc f s) :=
  ⟨raise_inner c sc s f, raise_live c sc s f, raise_tidy c sc s f, raise_handling c sc s f⟩

theorem haltRequest_event (x : StationId) (c : Cause) (s : State) : Event s (haltRequest x c s) :=
  ⟨haltRequest_inner x c s, haltRequest_live x c s, haltRequest_tidy x c s, haltRequest_handling x c s⟩

theorem deliverEnd_tidy (x : StationId) (s : State)
    (h : ∀ y, (s.st y).seq.handling = false → (s.st y).seq.haltWaiting = none ∧
      (y ≠ x → (s.st y).eng.endOwed = none)) : Tidy (deliverEnd x s) := by
  intro y hy
  rcases eq_or_other x y with rfl | rfl
  · rw [(deliverEnd_handling _ _).1] at hy
    exact ⟨by rw [(deliverEnd_handling _ _).2]; exact (h _ hy).1, deliverEnd_owed _ _⟩
  · rw [deliverEnd_other _ _ _ (other_ne x)] at hy ⊢
    exact ⟨(h _ hy).1, (h _ hy).2 (other_ne x)⟩

theorem deliverEnd_handling_all (x y : StationId) (s : State) :
    ((deliverEnd x s).st y).seq.handling = (s.st y).seq.handling := by
  rcases eq_or_other x y with rfl | rfl
  · exact (deliverEnd_handling _ _).1
  · rw [deliverEnd_other _ _ _ (other_ne x)]

theorem deliverEnd_event (x : StationId) (s : State) : Event s (deliverEnd x s) :=
  ⟨deliverEnd_inner x s, deliverEnd_live x s,
    fun h => deliverEnd_tidy x s fun y hy => ⟨(h y hy).1, fun _ => (h y hy).2⟩,
    fun y => deliverEnd_handling_all x y s⟩

/-- A sequencer that keeps what the laws and the frame read. -/
theorem modSeq_event (x : StationId) (s : State) (f : Sequencer → Sequencer)
    (state : (f (s.st x).seq).state = (s.st x).seq.state)
    (index : (f (s.st x).seq).index = (s.st x).seq.index)
    (profile : (f (s.st x).seq).profile = (s.st x).seq.profile)
    (phase : (f (s.st x).seq).phase = (s.st x).seq.phase)
    (travel : (f (s.st x).seq).travel = (s.st x).seq.travel)
    (travelSet : (f (s.st x).seq).travelSet = (s.st x).seq.travelSet)
    (pending : (f (s.st x).seq).pendingState = (s.st x).seq.pendingState)
    (held : (f (s.st x).seq).heldState = (s.st x).seq.heldState)
    (handling : (f (s.st x).seq).handling = (s.st x).seq.handling)
    (waiting : (f (s.st x).seq).haltWaiting = (s.st x).seq.haltWaiting) : Event s (modSeq x f s) :=
  (own_modSeq x f s).event (modSeq_inner x s f state index profile phase travel travelSet)
    ⟨⟨by simp, by simp, by simp, by simp, by simp, by simp, by simpa using state,
      by simpa using phase, by simpa using pending, by simpa using held⟩, by simpa using handling,
      by simpa using waiting, by simp⟩

theorem modTrk_event (x : StationId) (s : State) (f : Tracker → Tracker) : Event s (modTrk x f s) :=
  (own_modTrk x f s).event (modTrk_inner x s f)
    ⟨⟨by simp, by simp, by simp, by simp, by simp, by simp, by simp, by simp,
        by simp, by simp⟩, by simp, by simp, by simp⟩

theorem modResult_event (x : StationId) (s : State) (f : Option ScanResult → Option ScanResult) :
    Event s (modResult x f s) :=
  (own_modResult x f s).event (modResult_inner x s f)
    ⟨⟨by simp, by simp, by simp, by simp, by simp, by simp, by simp, by simp,
        by simp, by simp⟩, by simp, by simp, by simp⟩

theorem modPcu_event (x : StationId) (s : State) (f : Power → Power)
    (held : (f (s.st x).pcu).held = (s.st x).pcu.held)
    (retune : (f (s.st x).pcu).retune = (s.st x).pcu.retune) : Event s (modPcu x f s) :=
  (own_modPcu x f s).event (modPcu_inner x s f held retune)
    ⟨⟨by simp, by simp, by simp, by simp, by simp, by simp, by simp, by simp,
        by simp, by simp⟩, by simp, by simp, by simp⟩

theorem pcuRecompute_event (x : StationId) (s : State) : Event s (pcuRecompute x s) :=
  (pcuRecompute_own x s).event (pcuRecompute_inner x s)
    ⟨⟨by simp, by simp, by simp, by simp, by simp, by simp, by simp, by simp,
        by simp, by simp⟩, by simp, by simp, by simp⟩

theorem syncTravel_event (x : StationId) (s : State) : Event s (syncTravel x s) :=
  (syncTravel_own x s).event (syncTravel_inner x s)
    ⟨⟨by simp, by simp, by simp, by simp, by simp, by simp, by simp, by simp,
        by simp, by simp⟩, by simp, by simp, by simp⟩

theorem setIndex_event (x : StationId) (i : Option Nat) (s : State)
    (h : ∀ k, (s.st x).seq.index = some k → ∃ j, i = some j ∧ k ≤ j) : Event s (setIndex x i s) :=
  (setIndex_own x s i).event (setIndex_inner x s i h)
    ⟨⟨by simp, by simp, by simp, by simp, by simp, by simp, by simp, by simp,
        by simp, by simp⟩, by simp, by simp, by simp⟩

theorem closeAccount_event (x : StationId) (c : Cycle) (b : Bool) (s : State) :
    Event s (closeAccount x c b s) :=
  (closeAccount_own x s c b).event (closeAccount_inner x s c b)
    ⟨⟨by simp, by simp, by simp, by simp, by simp, by simp, by simp, by simp,
        by simp, by simp⟩, by simp, by simp, by simp⟩

theorem startRetune_event (x : StationId) (c : Channel) (s : State) : Event s (startRetune x c s) :=
  (startRetune_own x s c).event (startRetune_inner x s c)
    ⟨⟨by simp [startRetune], by simp [startRetune], by simp [startRetune], by simp [startRetune],
      by simp [startRetune], by simp [startRetune], by simp [startRetune], by simp [startRetune],
      by simp [startRetune], by simp [startRetune]⟩, by simp [startRetune], by simp [startRetune],
      by simp [startRetune]⟩

theorem putRetained_event (x : StationId) (r : Option Retained) (s : State) :
    Event s (putRetained x r s) :=
  (putRetained_inner x s r).event fun _ => ⟨.refl _, rfl, rfl, rfl⟩

theorem writeRetained_event (x : StationId) (n : StationState) (c : Cycle) (s : State) :
    Event s (writeRetained x n c s) :=
  (writeRetained_inner x s n c).event fun y => by
    rw [writeRetained_st]
    exact ⟨.refl _, rfl, rfl, rfl⟩

theorem writeRetainedNow_event (x : StationId) (s : State) : Event s (writeRetainedNow x s) :=
  writeRetained_event x _ _ s

theorem bump_event (s : State) : Event s (bump s) :=
  (bump_inner s).event fun _ => ⟨.refl _, rfl, rfl, rfl⟩

/-- A scheduler that keeps queue, issued set and checks. -/
theorem modQsc_event (x : StationId) (s : State) (f : Quench → Quench)
    (queue : (f (s.st x).qsc).queue = (s.st x).qsc.queue)
    (issued : (f (s.st x).qsc).lastIssued = (s.st x).qsc.lastIssued)
    (valve : (f (s.st x).qsc).valve = (s.st x).qsc.valve)
    (flowCheck : (f (s.st x).qsc).flowCheck = (s.st x).qsc.flowCheck) : Event s (modQsc x f s) :=
  (own_modQsc x f s).event (modQsc_inner x s f)
    ⟨⟨by simp, by simpa using queue, by simpa using issued, by simpa using valve,
      by simpa using flowCheck, by simp, by simp, by simp, by simp, by simp⟩, by simp, by simp, by simp⟩

theorem recomputeQuench_event (x : StationId) (s : State) : Event s (recomputeQuench x s) :=
  modQsc_event x s _ rfl rfl rfl rfl

end Sys2Proof.Machine
end

