-- ==== Sys2Proof/Laws/Offers.lean ====
section
/-! SUPPORT. Offers to a quench queue: what they leave alone and the laws they keep. -/

namespace Sys2Proof.Machine

section

variable {E : StationId → Prop} {x : StationId} {s : State}

/-- A change of the queue of `x` alone. -/
theorem queue_calm (x : StationId) (s : State) (f : Quench → Quench) : Calm s (modQsc x f s) :=
  (own_modQsc x f s).calm (by simp) (by simp) (by simp) (by simp) (by simp)

theorem appendEntry_calm (base : Int) (z : ZoneSet) (o : Origin) : Calm s (appendEntry x base z o s) := by
  unfold appendEntry
  simp only
  split
  · exact (queue_calm x s _).trans (settleTasks_calm _ _)
  · exact queue_calm x s _

theorem withdraw_calm (x : StationId) (s : State) : Calm s (withdraw x s) :=
  (own_modSar x _ s).calm (by simp) (by simp) (by simp) (by simp) (by simp)

theorem replaceTail_calm (t : QEntry) (z : ZoneSet) (o : Origin) : Calm s (replaceTail x t z o s) := by
  unfold replaceTail
  simp only
  split
  · refine Calm.trans ?_ ((examineOne_calm x _).trans (settleTasks_calm _ _))
    exact (queue_calm x s _).trans
      ((own_modSar x _ _).calm (by simp) (by simp) (by simp) (by simp) (by simp))
  · exact queue_calm x s _

theorem removeTail_calm (t : QEntry) : Calm s (removeTail x t s) := by
  unfold removeTail
  simp only
  split
  · exact ((queue_calm x s _).trans (withdraw_calm x _)).trans (settleTasks_calm _ _)
  · exact queue_calm x s _

/-- A new entry keeps the laws, if the queue is not full, holds no end marker and the tail has no phase. -/
theorem appendEntry_inv (h : QuenchInv E s) (base : Int) (z : ZoneSet) (o : Origin)
    (room : (s.st x).qsc.queue.length < Config.queueCapacity) (ends : ¬HoldsEnd (s.st x))
    (phase : (s.st x).seq.phase = none) (ho : o = .endMarker → E x) :
    QuenchInv E (appendEntry x base z o s) := by
  have o1 := own_modQsc x (fun q => { q with queue := q.queue ++ [{ base := base, zones := z, origin := o, due := none, waiting := false }] }) s
  have c := h.core x
  have inv : QuenchInv E (modQsc x (fun q => { q with queue := q.queue ++ [{ base := base, zones := z, origin := o, due := none, waiting := false }] }) s) := by
    refine h.change (x := x) (fun y hy => o1.other hy) ?_ ?_ ?_ ?_ ?_
    · refine ⟨by simpa using room, ?_, ?_, ?_, by simpa using c.flow, ?_, ?_⟩
      · intro e he
        simp only [modQsc_same, List.dropLast_concat] at he
        exact fun k => ends ⟨e, he, k⟩
      · intro e he
        simp only [modQsc_same] at he
        cases hq : (s.st x).qsc.queue with
        | nil => simp [hq] at he
        | cons k ks =>
          have hw := c.headWaits
          rw [hq] at hw
          simp only [hq, List.cons_append, List.tail_cons, List.mem_append, List.mem_singleton] at he
          rcases he with he | rfl
          · exact hw e (by simpa using he)
          · rfl
      · intro w hw
        rw [modQsc_sar] at hw
        obtain ⟨⟨e, he, e1, e2⟩, e3⟩ := c.head w hw
        refine ⟨⟨e, ?_, e1, e2⟩, by simpa using e3⟩
        cases hq : (s.st x).qsc.queue with
        | nil => simp [hq] at he
        | cons k ks => simpa [hq] using he
      · intro k
        simp [phase] at k
      · intro k
        simp [phase] at k
    · rintro ⟨e, he, ek⟩
      simp only [modQsc_same, List.mem_append, List.mem_singleton] at he
      rcases he with he | rfl
      · exact absurd ⟨e, he, ek⟩ ends
      · exact ho ek
    · intro k
      simp [phase] at k
    · have := h.check x
      unfold CheckLaw at *
      simpa using this
    · exact h.supply.fall o1.params (o1.other (other_ne x)) (by simp)
  unfold appendEntry
  simp only
  split
  · exact settleTasks_inv _ inv
  · exact inv

/-- In a lawful queue an entry that is marked waiting is alone when it is the tail. -/
theorem tail_waits {v : Station} (c : QuenchCore v) {t : QEntry} (ht : v.qsc.queue.getLast? = some t)
    (hw : t.waiting = true) : v.qsc.queue = [t] := by
  cases hq : v.qsc.queue with
  | nil => simp [hq] at ht
  | cons k ks =>
    have hh := c.headWaits
    rw [hq] at hh ht
    cases ks with
    | nil =>
      simp only [List.getLast?_singleton, Option.some.injEq] at ht
      rw [ht]
    | cons l ls =>
      have := hh t (List.mem_of_getLast? (by rwa [List.getLast?_cons_cons] at ht))
      rw [hw] at this
      cases this

theorem modTail_cons (f : QEntry → QEntry) (k l : QEntry) (ls : List QEntry) :
    modTail f (k :: l :: ls) = k :: modTail f (l :: ls) := by
  simp [modTail]

theorem modTail_eq (f : QEntry → QEntry) (q : List QEntry) (t : QEntry) (h : q.getLast? = some t) :
    modTail f q = q.dropLast ++ [f t] := by
  induction q with
  | nil => simp at h
  | cons k ks ih =>
    cases ks with
    | nil =>
      simp only [List.getLast?_singleton, Option.some.injEq] at h
      subst h
      rfl
    | cons l ls =>
      rw [modTail_cons, ih (by rwa [List.getLast?_cons_cons] at h)]
      rfl

/-- A tail entry that takes a new set and origin keeps the laws. -/
theorem replaceTail_inv (h : QuenchInv E s) (t : QEntry) (z : ZoneSet) (o : Origin)
    (ht : (s.st x).qsc.queue.getLast? = some t) (ho : o = .endMarker → E x) :
    QuenchInv E (replaceTail x t z o s) := by
  have c := h.core x
  have hne : (s.st x).qsc.queue ≠ [] := by
    intro k
    simp [k] at ht
  have hm := modTail_eq (fun e => { e with zones := z, origin := o }) _ t ht
  have hsplit := List.dropLast_append_getLast? t (by rw [ht]; rfl)
  have hlen : ((s.st x).qsc.queue.dropLast ++ [{ t with zones := z, origin := o }]).length =
      (s.st x).qsc.queue.length := by
    have := congrArg List.length hsplit
    simpa using this
  unfold replaceTail
  simp only
  split
  · rename_i hw
    have hq := tail_waits c ht hw
    have hm1 : modTail (fun e => { e with zones := z, origin := o }) (s.st x).qsc.queue =
        [{ t with zones := z, origin := o }] := by rw [hm, hq]; rfl
    refine settleTasks_inv _ (examineOne_inv ?_)
    have o1 := (own_modQsc x (fun q => { q with queue := modTail (fun e => { e with zones := z, origin := o }) q.queue }) s).trans
      (own_modSar x (fun a => { a with waiting := a.waiting.map fun w => { w with zones := z, flow := flowOf (s.st x).par z } }) _)
    refine h.change (x := x) (fun y hy => o1.other hy) ?_ ?_ ?_ ?_ ?_
    · refine ⟨?_, ?_, ?_, ?_, by simpa using c.flow, ?_, ?_⟩
      · simp [hm1, Config.queueCapacity]
      · simp [hm1]
      · simp [hm1]
      · intro w hwt
        simp only [modSar_same, modQsc_sar, Option.map_eq_some_iff] at hwt
        obtain ⟨w0, h0, rfl⟩ := hwt
        exact ⟨⟨{ t with zones := z, origin := o }, by simp [hm1], hw, rfl⟩, by simp⟩
      · intro k
        exact absurd (c.opened (by simpa using k)).1 hne
      · intro k
        exact absurd (c.closed (by simpa using k)).1 hne
    · rintro ⟨e, he, ek⟩
      simp only [modSar_qsc, modQsc_same, hm1, List.mem_singleton] at he
      subst he
      exact ho ek
    · intro k
      exact h.phases x (by simpa using k)
    · have := h.check x
      unfold CheckLaw at *
      simpa using this
    · exact h.supply.fall o1.params (o1.other (other_ne x)) (by simp)
  · rename_i hw
    have o1 := own_modQsc x (fun q => { q with queue := modTail (fun e => { e with zones := z, origin := o }) q.queue }) s
    refine h.change (x := x) (fun y hy => o1.other hy) ?_ ?_ ?_ ?_ ?_
    · refine ⟨?_, ?_, ?_, ?_, by simpa using c.flow, ?_, ?_⟩
      · rw [modQsc_same]
        simp only [hm, hlen]
        exact c.bounded
      · intro e he
        simp only [modQsc_same, hm, List.dropLast_concat] at he
        exact c.endLast e he
      · intro e he
        simp only [modQsc_same, hm] at he
        cases hd : (s.st x).qsc.queue.dropLast with
        | nil => simp [hd] at he
        | cons k ks =>
          simp only [hd, List.cons_append, List.tail_cons, List.mem_append, List.mem_singleton] at he
          have hq : (s.st x).qsc.queue = k :: (ks ++ [t]) := by rw [← hsplit, hd]; rfl
          have hh := c.headWaits
          rw [hq] at hh
          rcases he with he | rfl
          · exact hh e (by simp [he])
          · simpa using hw
      · intro w hwt
        rw [modQsc_sar] at hwt
        obtain ⟨⟨e, he, e1, e2⟩, e3⟩ := c.head w hwt
        refine ⟨⟨e, ?_, e1, e2⟩, by simpa using e3⟩
        simp only [modQsc_same, hm]
        cases hd : (s.st x).qsc.queue.dropLast with
        | nil =>
          have hq : (s.st x).qsc.queue = [t] := by rw [← hsplit, hd]; rfl
          rw [hq] at he
          simp only [List.head?_cons, Option.some.injEq] at he
          subst he
          exact absurd e1 hw
        | cons k ks =>
          have hq : (s.st x).qsc.queue = k :: (ks ++ [t]) := by rw [← hsplit, hd]; rfl
          rw [hq] at he
          simpa using he
      · intro k
        exact absurd (c.opened (by simpa using k)).1 hne
      · intro k
        exact absurd (c.closed (by simpa using k)).1 hne
    · rintro ⟨e, he, ek⟩
      simp only [modQsc_same, hm, List.mem_append, List.mem_singleton] at he
      rcases he with he | rfl
      · exact absurd ek (c.endLast e he)
      · exact ho ek
    · intro k
      exact h.phases x (by simpa using k)
    · have := h.check x
      unfold CheckLaw at *
      simpa using this
    · exact h.supply.fall o1.params (o1.other (other_ne x)) (by simp)

/-- A tail entry that is removed keeps the laws. -/
theorem removeTail_inv (h : QuenchInv E s) (t : QEntry) (ht : (s.st x).qsc.queue.getLast? = some t) :
    QuenchInv E (removeTail x t s) := by
  have c := h.core x
  have hne : (s.st x).qsc.queue ≠ [] := by
    intro k
    simp [k] at ht
  have hsplit := List.dropLast_append_getLast? t (by rw [ht]; rfl)
  have hlen : (s.st x).qsc.queue.dropLast.length ≤ Config.queueCapacity := by
    rw [List.length_dropLast]
    exact Nat.le_trans (Nat.sub_le _ _) c.bounded
  have hdrop : ∀ e ∈ (s.st x).qsc.queue.dropLast.dropLast, e.origin ≠ .endMarker :=
    fun e he => c.endLast e (List.dropLast_subset _ he)
  have htail : ∀ e ∈ (s.st x).qsc.queue.dropLast.tail, e.waiting = false := fun e he => by
    have hh := c.headWaits e
    cases hq : (s.st x).qsc.queue with
    | nil => simp [hq] at he
    | cons k ks =>
      rw [hq] at hh he
      cases ks with
      | nil => simp at he
      | cons l ls => exact hh (List.dropLast_subset _ he)
  have hends : ∀ e ∈ (s.st x).qsc.queue.dropLast, e.origin = .endMarker → E x :=
    fun e he k => h.ends x ⟨e, List.dropLast_subset _ he, k⟩
  have hcheck := h.check x
  unfold removeTail
  simp only
  split
  · have o1 := (own_modQsc x (fun q => { q with queue := q.queue.dropLast }) s).trans
      (own_modSar x (fun a => { a with waiting := none }) _)
    refine settleTasks_inv _ (h.change (x := x) (fun y hy => o1.other hy) ?_ ?_ ?_ ?_ ?_)
    · refine ⟨by simpa [withdraw] using hlen, by simpa [withdraw] using hdrop,
        by simpa [withdraw] using htail, ?_, by simpa [withdraw] using c.flow, ?_, ?_⟩
      · intro w hw
        simp [withdraw] at hw
      · intro k
        exact absurd (c.opened (by simpa [withdraw] using k)).1 hne
      · intro k
        exact absurd (c.closed (by simpa [withdraw] using k)).1 hne
    · rintro ⟨e, he, ek⟩
      exact hends e (by simpa [withdraw] using he) ek
    · intro k
      exact h.phases x (by simpa [withdraw] using k)
    · unfold CheckLaw at *
      simpa [withdraw] using hcheck
    · exact h.supply.fall o1.params (o1.other (other_ne x)) (by simp [withdraw])
  · rename_i hw
    have o1 := own_modQsc x (fun q => { q with queue := q.queue.dropLast }) s
    refine h.change (x := x) (fun y hy => o1.other hy) ?_ ?_ ?_ ?_ ?_
    · refine ⟨by simpa using hlen, by simpa using hdrop, by simpa using htail, ?_,
        by simpa using c.flow, ?_, ?_⟩
      · intro w hwt
        rw [modQsc_sar] at hwt
        obtain ⟨⟨e, he, e1, e2⟩, e3⟩ := c.head w hwt
        refine ⟨⟨e, ?_, e1, e2⟩, by simpa using e3⟩
        cases hd : (s.st x).qsc.queue.dropLast with
        | nil =>
          have hq : (s.st x).qsc.queue = [t] := by rw [← hsplit, hd]; rfl
          rw [hq] at he
          simp only [List.head?_cons, Option.some.injEq] at he
          subst he
          exact absurd e1 hw
        | cons k ks =>
          have hq : (s.st x).qsc.queue = k :: (ks ++ [t]) := by rw [← hsplit, hd]; rfl
          rw [hq] at he
          simpa [hd] using he
      · intro k
        exact absurd (c.opened (by simpa using k)).1 hne
      · intro k
        exact absurd (c.closed (by simpa using k)).1 hne
    · rintro ⟨e, he, ek⟩
      exact hends e (by simpa using he) ek
    · intro k
      exact h.phases x (by simpa using k)
    · unfold CheckLaw at *
      simpa using hcheck
    · exact h.supply.fall o1.params (o1.other (other_ne x)) (by simp)

/-! ## The offers themselves -/

/-- What an offer leaves of a station that stays where it is. -/
structure Offered (x : StationId) (s t : State) : Prop where
  inner : Inner s t
  tidy : Tidy s → Tidy t
  handling : ∀ y, (t.st y).seq.handling = (s.st y).seq.handling
  still : Still x s t

theorem Calm.offered {s t : State} (k : Calm s t) : Offered x s t :=
  ⟨k.inner, k.tidy, fun y => (k.still y).handling, k.still x⟩

theorem tailAt_getLast {base : Int} {t : QEntry} (h : tailAt s x base = some t) :
    (s.st x).qsc.queue.getLast? = some t := by
  unfold tailAt at h
  split at h
  · rename_i k hk
    split at h
    · cases h
      exact hk
    · cases h
  · cases h

/-- A raise for a full queue while the station is handling an event. -/
theorem dropOffer_offered (hh : (s.st x).seq.handling = true) : Offered x s (dropOffer x s).1 :=
  have e := raise_event .quenchQueueFull (.station x) none s
  ⟨e.inner, e.tidy, e.handling, raise_still _ _ s none hh⟩

theorem offerSegment_offered (hh : (s.st x).seq.handling = true) (base : Int) (z : ZoneSet) (i : Nat) :
    Offered x s (offerSegment x base z i s).1 := by
  unfold offerSegment mergeOffer
  split
  · split
    · exact (removeTail_calm _).offered
    · split
      · exact (replaceTail_calm _ _ _).offered
      · exact (Calm.refl s).offered
  · split
    · exact (Calm.refl s).offered
    · split
      · exact dropOffer_offered hh
      · exact (appendEntry_calm _ _ _).offered

theorem offerEnd_offered (hh : (s.st x).seq.handling = true) (base : Int) (z : ZoneSet) :
    Offered x s (offerEnd x base z s).1 := by
  unfold offerEnd
  split
  · exact (replaceTail_calm _ _ _).offered
  · split
    · exact dropOffer_offered hh
    · exact (appendEntry_calm _ _ _).offered

/-- Calm work on the queue of a station that is active keeps the laws, if the other station when idle is
not touched. -/
theorem Calm.live_active {s t : State} (k : Calm s t) (h : Live s) (inv : QuenchInv (inTail s) t)
    (active : (s.st x).seq.state.active = true) (halting : (s.st x).seq.state ≠ .halting)
    (idle : QuenchIdle (s.st x.other) → t.st x.other = s.st x.other) : Live t where
  at_ y := by
    have st := k.still y
    refine ⟨⟨inv.core y, ?_, ?_, ?_⟩, ?_, ?_, inv.check y⟩
    · intro hy
      rw [st.state] at hy
      rcases eq_or_other x y with rfl | rfl
      · rcases hy with hy | hy
        · rw [active] at hy
          cases hy
        · exact absurd hy halting
      · have hi := (h.at_ x.other).quench.idle hy
        rw [idle hi]
        exact hi
    · intro hy
      rw [st.state]
      exact inv.ends y hy
    · intro hy
      rw [st.state]
      exact inv.phases y hy
    · unfold PendingLaw
      rw [st.pendingState]
      exact (h.at_ y).pending
    · unfold HeldLaw
      rw [st.heldState]
      exact (h.at_ y).held
  supply := inv.supply

theorem settleTasks_idle_other {t : State} (ts : List QTask) (o : Own x s t)
    (h : QuenchIdle (s.st x.other)) : (settleTasks ts t).st x.other = s.st x.other := by
  have e := o.other (other_ne x)
  rw [settleTasks_idle ts t x.other (by rw [e]; exact h.1) (by rw [e]; exact h.2.1), e]

theorem appendEntry_idle (base : Int) (z : ZoneSet) (o : Origin) (h : QuenchIdle (s.st x.other)) :
    (appendEntry x base z o s).st x.other = s.st x.other := by
  unfold appendEntry
  simp only
  split
  · exact settleTasks_idle_other _ (own_modQsc x _ s) h
  · exact (own_modQsc x _ s).other (other_ne x)

theorem removeTail_idle (t : QEntry) (h : QuenchIdle (s.st x.other)) :
    (removeTail x t s).st x.other = s.st x.other := by
  unfold removeTail
  simp only
  split
  · exact settleTasks_idle_other _ ((own_modQsc x _ s).trans (own_modSar x _ _)) h
  · exact (own_modQsc x _ s).other (other_ne x)

theorem replaceTail_idle (t : QEntry) (z : ZoneSet) (o : Origin) (h : QuenchIdle (s.st x.other)) :
    (replaceTail x t z o s).st x.other = s.st x.other := by
  unfold replaceTail
  simp only
  split
  · have o1 := (own_modQsc x (fun q => { q with queue := modTail (fun e => { e with zones := z, origin := o }) q.queue }) s).trans
      (own_modSar x (fun a => { a with waiting := a.waiting.map fun w => { w with zones := z, flow := flowOf (s.st x).par z } }) _)
    have e := o1.other (other_ne x)
    have e1 := examineOne_idle x (modSar x (fun a => { a with waiting := a.waiting.map fun w => { w with zones := z, flow := flowOf (s.st x).par z } })
      (modQsc x (fun q => { q with queue := modTail (fun e => { e with zones := z, origin := o }) q.queue }) s)) x.other
      (by rw [e]; exact h.1) (by rw [e]; exact h.2.1)
    rw [e] at e1
    rw [settleTasks_idle _ _ x.other (by rw [e1]; exact h.1) (by rw [e1]; exact h.2.1), e1]
  · exact (own_modQsc x _ s).other (other_ne x)

/-- A segment's offer keeps the laws in a state that is not TAIL. -/
theorem offerSegment_live (h : Live s) (active : (s.st x).seq.state.active = true)
    (halting : (s.st x).seq.state ≠ .halting) (tail : (s.st x).seq.state ≠ .tail)
    (base : Int) (z : ZoneSet) (i : Nat) : Live (offerSegment x base z i s).1 := by
  have ends : ¬HoldsEnd (s.st x) := fun k => tail ((h.at_ x).quench.endTail k)
  have phase : (s.st x).seq.phase = none := by
    by_contra k
    exact tail ((h.at_ x).quench.phaseTail k)
  unfold offerSegment mergeOffer
  split
  · rename_i t ht
    have hl := tailAt_getLast ht
    split
    · exact (removeTail_calm t).live_active (x := x) h (removeTail_inv h.inv t hl) active halting
        (removeTail_idle t)
    · split
      · exact (replaceTail_calm t z _).live_active (x := x) h
          (replaceTail_inv h.inv t z _ hl fun k => by cases k) active halting (replaceTail_idle t z _)
      · exact h
  · split
    · exact h
    · split
      · exact raise_live _ _ s none h
      · rename_i hf
        refine (appendEntry_calm base z _).live_active (x := x) h
          (appendEntry_inv h.inv base z _ ?_ ends phase fun k => by cases k) active halting
          (appendEntry_idle base z _)
        simpa [queueFull] using hf

/-- The laws while `x` enters TAIL: an end marker may stand in its queue, or be issued, already. -/
structure Entering (x : StationId) (s : State) : Prop where
  other : LiveAt (s.st x.other)
  core : QuenchCore (s.st x)
  pending : PendingLaw (s.st x)
  held : HeldLaw (s.st x)
  check : CheckLaw (s.st x)
  supply : SupplyLaw s

theorem Live.entering (h : Live s) : Entering x s :=
  ⟨h.at_ _, (h.at_ x).quench.core, (h.at_ x).pending, (h.at_ x).held, (h.at_ x).check, h.supply⟩

theorem Calm.entering {s t : State} (k : Calm s t) (h : Live s)
    (inv : QuenchInv (fun y => inTail s y ∨ y = x) t)
    (idle : QuenchIdle (s.st x.other) → t.st x.other = s.st x.other) : Entering x t where
  other := by
    have st := k.still x.other
    have ne : x.other ≠ x := other_ne x
    refine ⟨⟨inv.core _, ?_, ?_, ?_⟩, ?_, ?_, inv.check _⟩
    · intro hy
      rw [st.state] at hy
      have hi := (h.at_ x.other).quench.idle hy
      rw [idle hi]
      exact hi
    · intro hy
      rw [st.state]
      exact (inv.ends _ hy).resolve_right ne
    · intro hy
      rw [st.state]
      exact (inv.phases _ hy).resolve_right ne
    · unfold PendingLaw
      rw [st.pendingState]
      exact (h.at_ _).pending
    · unfold HeldLaw
      rw [st.heldState]
      exact (h.at_ _).held
  core := inv.core x
  pending := by
    unfold PendingLaw
    rw [(k.still x).pendingState]
    exact (h.at_ x).pending
  held := by
    unfold HeldLaw
    rw [(k.still x).heldState]
    exact (h.at_ x).held
  check := inv.check x
  supply := inv.supply

/-- The end marker's offer keeps the laws of a station that enters TAIL. -/
theorem offerEnd_entering (h : Live s) (tail : (s.st x).seq.state ≠ .tail) (base : Int) (z : ZoneSet) :
    Entering x (offerEnd x base z s).1 := by
  have ends : ¬HoldsEnd (s.st x) := fun k => tail ((h.at_ x).quench.endTail k)
  have phase : (s.st x).seq.phase = none := by
    by_contra k
    exact tail ((h.at_ x).quench.phaseTail k)
  have inv : QuenchInv (fun y => inTail s y ∨ y = x) s :=
    ⟨h.inv.core, fun y k => .inl (h.inv.ends y k), fun y k => .inl (h.inv.phases y k), h.inv.check,
      h.inv.supply⟩
  unfold offerEnd
  split
  · rename_i t ht
    exact (replaceTail_calm t z _).entering h
      (replaceTail_inv inv t z _ (tailAt_getLast ht) fun _ => .inr rfl) (replaceTail_idle t z _)
  · split
    · exact (raise_live _ _ s none h).entering
    · rename_i hf
      exact (appendEntry_calm base z _).entering h
        (appendEntry_inv inv base z _ (by simpa [queueFull] using hf) ends phase fun _ => .inr rfl)
        (appendEntry_idle base z _)

/-- A station that is in TAIL at last has all its laws. -/
theorem Entering.live {t : State} (h : Entering x s) (params : t.params = s.params)
    (other : t.st x.other = s.st x.other) (par : (t.st x).par = (s.st x).par)
    (qsc : (t.st x).qsc = (s.st x).qsc) (sar : (t.st x).sar = (s.st x).sar)
    (phase : (t.st x).seq.phase = (s.st x).seq.phase ∨ (t.st x).seq.phase = some .runout)
    (state : (t.st x).seq.state = .tail)
    (pending : (t.st x).seq.pendingState = (s.st x).seq.pendingState)
    (held : (t.st x).seq.heldState = (s.st x).seq.heldState) : Live t where
  at_ y := by
    rcases eq_or_other x y with rfl | rfl
    · refine ⟨⟨?_, ?_, fun _ => state, fun _ => state⟩, ?_, ?_, ?_⟩
      · rcases phase with hp | hp
        · exact h.core.congr par (by rw [qsc]) (by rw [qsc]) sar hp
        · have c := h.core
          refine ⟨by rw [qsc]; exact c.bounded, by rw [qsc]; exact c.endLast,
            by rw [qsc]; exact c.headWaits, ?_, by rw [qsc, sar, par]; exact c.flow, ?_, ?_⟩
          · intro w hw
            rw [sar] at hw
            rw [qsc, par]
            exact c.head w hw
          · intro k
            rw [hp] at k
            cases k
          · intro k
            rw [hp] at k
            rcases k with k | k <;> cases k
      · intro k
        rw [state] at k
        rcases k with k | k <;> cases k
      · unfold PendingLaw
        rw [pending]
        exact h.pending
      · unfold HeldLaw
        rw [held]
        exact h.held
      · unfold CheckLaw
        rw [qsc]
        exact h.check
    · rw [other]
      exact h.other
  supply := h.supply.fall params other (by rw [sar])

end

end Sys2Proof.Machine
end

