-- ==== Sys2Proof/Laws/Sequence.lean ====
section
/-! SUPPORT. The sequencer's and scheduler's handling of reports and timers: what it leaves alone and the laws
it keeps. -/

namespace Sys2Proof.Machine

section

variable {x : StationId} {s : State}

/-! ## Entries -/

theorem closeAccount_still (c : Cycle) (b : Bool) (y : StationId) :
    Still y s (closeAccount x c b s) :=
  ⟨by simp, by simp, by simp, by simp, by simp, by simp⟩

theorem closeAndRaise_event (c : Cycle) : Event s (closeAndRaise x c s) := by
  unfold closeAndRaise
  simp only
  split
  · exact (closeAccount_event x c false s).trans (raise_event _ _ _ _)
  · exact closeAccount_event x c false s

theorem closeAndRaise_still (hh : (s.st x).seq.handling = true) (c : Cycle) :
    Still x s (closeAndRaise x c s) := by
  unfold closeAndRaise
  simp only
  split
  · exact (closeAccount_still c false x).trans (raise_still _ _ _ none (by simpa using hh))
  · exact closeAccount_still c false x

theorem modEntry_event (i : Nat) (f : SegEntry → SegEntry) : Event s (modEntry x i f s) :=
  modResult_event x s _

theorem modEntry_still (i : Nat) (f : SegEntry → SegEntry) (y : StationId) :
    Still y s (modEntry x i f s) := by
  unfold modEntry
  exact ⟨by simp, by simp, by simp, by simp, by simp, by simp⟩

theorem recordAnswer_event (o : Origin) (r : State × OfferAnswer) : Event r.1 (recordAnswer x o r) := by
  unfold recordAnswer
  split
  · exact modEntry_event _ _
  · exact modEntry_event _ _
  · exact .refl _
  · exact .refl _

theorem recordAnswer_still (o : Origin) (r : State × OfferAnswer) (y : StationId) :
    Still y r.1 (recordAnswer x o r) := by
  unfold recordAnswer
  split
  · exact modEntry_still _ _ y
  · exact modEntry_still _ _ y
  · exact .refl _ _
  · exact .refl _ _

theorem openAccount_event (i : Nat) (c : Cycle) : Event s (openAccount x i c s) := by
  unfold openAccount
  exact (modPcu_event x s _ rfl rfl).trans (modEntry_event _ _)

theorem openAccount_still (i : Nat) (c : Cycle) (y : StationId) : Still y s (openAccount x i c s) := by
  unfold openAccount
  exact Still.trans ⟨by simp, by simp, by simp, by simp, by simp, by simp⟩ (modEntry_still _ _ y)

/-- A station that is active enters an active state other than HALTING, by a rule that is not TAIL's. -/
theorem enterState_event (n : StationState) (hn : n.active = true) (hh : n ≠ .halting)
    (active : (s.st x).seq.state.active = true) (tail : (s.st x).seq.state ≠ .tail) :
    Event s (enterState x n s) where
  inner := enterState_inner x s n fun _ => active
  live h := by
    have o := enterState_own x s n
    have hq := enterState_qsc x x s n hn
    have a := h.at_ x
    have phase : (s.st x).seq.phase = none := by
      by_contra k
      exact tail (a.quench.phaseTail k)
    refine h.change (x := x) (o.other (other_ne x)) ⟨⟨?_, ?_, ?_, ?_⟩, ?_, ?_, ?_⟩
      (h.supply.fall o.params (o.other (other_ne x)) (by simp))
    · exact a.quench.core.congr (by simp) (by rw [hq]) (by rw [hq]) (by simp) (by simp)
    · intro k
      rw [enterState_state] at k
      rcases k with k | k
      · rw [hn] at k
        cases k
      · exact absurd k hh
    · rintro ⟨e, he, ho⟩
      rw [hq] at he
      exact absurd (a.quench.endTail ⟨e, he, ho⟩) tail
    · intro k
      simp [phase] at k
    · have := a.pending
      unfold PendingLaw at *
      simpa using this
    · have := a.held
      unfold HeldLaw at *
      simpa using this
    · have := a.check
      unfold CheckLaw at *
      rw [hq]
      exact this
  tidy h := h.congr fun y => ⟨by simp, by simp, by simp⟩
  handling y := by simp

/-- A sequencer that takes a lawful pending and held state. -/
theorem modSeq_event' (f : Sequencer → Sequencer)
    (state : (f (s.st x).seq).state = (s.st x).seq.state)
    (index : (f (s.st x).seq).index = (s.st x).seq.index)
    (profile : (f (s.st x).seq).profile = (s.st x).seq.profile)
    (phase : (f (s.st x).seq).phase = (s.st x).seq.phase)
    (travel : (f (s.st x).seq).travel = (s.st x).seq.travel)
    (travelSet : (f (s.st x).seq).travelSet = (s.st x).seq.travelSet)
    (pending : PendingLaw (s.st x) → ∀ n, (f (s.st x).seq).pendingState = some n → n = .scanning ∨ n = .dwelling)
    (held : PendingLaw (s.st x) → HeldLaw (s.st x) →
      ∀ n, (f (s.st x).seq).heldState = some n → n.holdable = true)
    (handling : (f (s.st x).seq).handling = (s.st x).seq.handling)
    (waiting : (f (s.st x).seq).haltWaiting = (s.st x).seq.haltWaiting) :
    Event s (modSeq x f s) where
  inner := modSeq_inner x s f state index profile phase travel travelSet
  live h := by
    have o := own_modSeq x f s
    have a := h.at_ x
    refine h.change (x := x) (o.other (other_ne x)) ⟨⟨?_, ?_, ?_, ?_⟩, ?_, ?_, ?_⟩
      (h.supply.fall o.params (o.other (other_ne x)) (by simp))
    · exact a.quench.core.congr (by simp) (by simp) (by simp) (by simp) (by simpa using phase)
    · have := a.quench.idle
      unfold QuenchIdle at *
      simpa [state] using this
    · have := a.quench.endTail
      unfold HoldsEnd at *
      simpa [state] using this
    · have := a.quench.phaseTail
      simpa [state, phase] using this
    · unfold PendingLaw at *
      simpa using pending a.pending
    · unfold HeldLaw at *
      simpa using held a.pending a.held
    · have := a.check
      unfold CheckLaw at *
      simpa using this
  tidy h := h.congr fun y => by
    rcases eq_or_other x y with rfl | rfl
    · exact ⟨by simpa using handling, by simpa using waiting, by simp⟩
    · rw [(own_modSeq x f s).other (other_ne x)]
      exact ⟨rfl, rfl, rfl⟩
  handling y := by
    rcases eq_or_other x y with rfl | rfl
    · simpa using handling
    · rw [(own_modSeq x f s).other (other_ne x)]

theorem stateOfKind_heats (k : Kind) : stateOfKind k = .scanning ∨ stateOfKind k = .dwelling := by
  cases k <;> simp [stateOfKind]

/-- The states in which the sequencer enters a segment or the tail. -/
def Advancing (n : StationState) : Prop := n = .approach ∨ n = .scanning ∨ n = .dwelling

theorem Advancing.facts {n : StationState} (h : Advancing n) :
    n.active = true ∧ n ≠ .tail ∧ n ≠ .halting := by
  rcases h with rfl | rfl | rfl <;> exact ⟨rfl, by decide, by decide⟩

theorem enterSegmentState_event (g : Segment) (h : Advancing (s.st x).seq.state) :
    Event s (enterSegmentState x g s) := by
  obtain ⟨ha, ht, -⟩ := h.facts
  unfold enterSegmentState
  split
  · rcases stateOfKind_heats g.kind with hk | hk <;> rw [hk]
    · exact enterState_event _ rfl (by decide) ha ht
    · exact enterState_event _ rfl (by decide) ha ht
  · refine ((modSeq_event' (x := x) (s := s)
      (fun q => { q with pendingState := some (stateOfKind g.kind) }) rfl rfl rfl rfl rfl rfl ?_
      (fun _ h => h) rfl rfl).trans
      (enterState_event _ rfl (by decide) ?_ ?_)).trans (startRetune_event x _ _)
    · intro _ n hn
      simp only [Option.some.injEq] at hn
      rw [← hn]
      exact stateOfKind_heats g.kind
    · simpa using ha
    · simpa using ht

/-- The entry of a segment whose index does not fall, while the station is handling an event. -/
theorem segmentEntry_event (hh : (s.st x).seq.handling = true) (ha : Advancing (s.st x).seq.state)
    (i : Nat) (c : Cycle) (hi : ∀ k, (s.st x).seq.index = some k → k ≤ i) :
    Event s (segmentEntry x i c s) := by
  unfold segmentEntry
  split
  · exact .refl s
  · rename_i g _
    simp only
    have e1 := closeAndRaise_event (s := s) (x := x) c
    have st1 := closeAndRaise_still hh c
    have e2 : Event (closeAndRaise x c s) (setIndex x (some i) (closeAndRaise x c s)) :=
      setIndex_event x (some i) _ fun k hk => ⟨i, rfl, hi k (by rw [← st1.index]; exact hk)⟩
    have e3 : Event (setIndex x (some i) (closeAndRaise x c s))
        (openAccount x i c (appendResult x i (setIndex x (some i) (closeAndRaise x c s)))) :=
      (modResult_event x _ _).trans (openAccount_event i c)
    generalize hu : openAccount x i c (appendResult x i (setIndex x (some i) (closeAndRaise x c s))) = u at e3
    have hst : (u.st x).seq.state = (s.st x).seq.state ∧ (u.st x).seq.handling = true := by
      subst hu
      have k := openAccount_still (s := appendResult x i (setIndex x (some i) (closeAndRaise x c s))) (x := x) i c x
      rw [k.state, k.handling]
      simp only [appendResult, modResult_seq, setIndex_seq_state, setIndex_seq_handling]
      rw [st1.state, st1.handling]
      exact ⟨rfl, hh⟩
    have hadv : Advancing (u.st x).seq.state := by rw [hst.1]; exact ha
    obtain ⟨f1, f2, f3⟩ := hadv.facts
    have of := offerSegment_offered hst.2 g.start.toInt g.zones i
    have e4 : Event u (offerSegment x g.start.toInt g.zones i u).1 :=
      ⟨of.inner, fun h => offerSegment_live h f1 f3 f2 _ _ _, of.tidy, of.handling⟩
    have e5 := recordAnswer_event (x := x) (.segment i) (offerSegment x g.start.toInt g.zones i u)
    have hadv5 : Advancing ((recordAnswer x (.segment i) (offerSegment x g.start.toInt g.zones i u)).st x).seq.state := by
      rw [(recordAnswer_still (x := x) _ _ x).state, of.still.state]
      exact hadv
    exact (((((e1.trans e2).trans e3).trans e4).trans e5).trans (enterSegmentState_event g hadv5)).trans
      (writeRetained_event x _ c _)

/-- The entry of TAIL, while the station is handling an event. -/
theorem tailEntry_event (hh : (s.st x).seq.handling = true) (ha : Advancing (s.st x).seq.state)
    (c : Cycle) : Event s (tailEntry x c s) := by
  unfold tailEntry
  split
  · exact .refl s
  · rename_i p _
    simp only
    have e1 := closeAndRaise_event (s := s) (x := x) c
    have st1 := closeAndRaise_still hh c
    generalize closeAndRaise x c s = u at e1 st1
    have hh1 : (u.st x).seq.handling = true := by rw [st1.handling]; exact hh
    have hadv : Advancing (u.st x).seq.state := by rw [st1.state]; exact ha
    obtain ⟨f1, f2, f3⟩ := hadv.facts
    have of := offerEnd_offered hh1 p.header.finish.toInt p.header.tailZones
    have en := fun h => offerEnd_entering (x := x) h f2 p.header.finish.toInt p.header.tailZones
    have e2 := recordAnswer_event (x := x) .endMarker
      (offerEnd x p.header.finish.toInt p.header.tailZones u)
    have st2 := recordAnswer_still (x := x) .endMarker
      (offerEnd x p.header.finish.toInt p.header.tailZones u) x
    have own2 : Own x (offerEnd x p.header.finish.toInt p.header.tailZones u).1
        (recordAnswer x .endMarker (offerEnd x p.header.finish.toInt p.header.tailZones u)) ∧
        ∀ y, Alike ((offerEnd x p.header.finish.toInt p.header.tailZones u).1.st y)
          ((recordAnswer x .endMarker (offerEnd x p.header.finish.toInt p.header.tailZones u)).st y) ∧
          ((recordAnswer x .endMarker (offerEnd x p.header.finish.toInt p.header.tailZones u)).st y).qsc =
          ((offerEnd x p.header.finish.toInt p.header.tailZones u).1.st y).qsc := by
      unfold recordAnswer modEntry
      split
      all_goals first
        | exact ⟨own_modResult x _ _, fun y => ⟨⟨by simp, by simp, by simp, by simp, by simp, by simp, by simp, by simp, by simp, by simp⟩, by simp⟩⟩
        | exact ⟨.refl _ _, fun y => ⟨.refl _, rfl⟩⟩
    generalize (offerEnd x p.header.finish.toInt p.header.tailZones u).1 = v at of en e2 st2 own2
    generalize recordAnswer x .endMarker (offerEnd x p.header.finish.toInt p.header.tailZones u) = w at e2 st2 own2
    have hw : (w.st x).seq.state = (s.st x).seq.state ∧ (w.st x).seq.handling = true := by
      rw [st2.state, st2.handling, of.still.state, of.still.handling, st1.state]
      exact ⟨rfl, hh1⟩
    have hact : w.active x = true := by
      unfold State.active
      rw [hw.1]
      exact ha.facts.1
    have i3 : Inner w (if (w.st x).seq.phase = none then setPhase x (some .runout) w else w) := by
      split
      · exact setPhase_inner x w _
      · exact .refl w
    have o3 : Own x w (if (w.st x).seq.phase = none then setPhase x (some .runout) w else w) := by
      split
      · exact setPhase_own x w _
      · exact .refl x w
    have f3 : ∀ y, (((if (w.st x).seq.phase = none then setPhase x (some .runout) w else w).st y).par = (w.st y).par) ∧
        ((if (w.st x).seq.phase = none then setPhase x (some .runout) w else w).st y).qsc = (w.st y).qsc ∧
        ((if (w.st x).seq.phase = none then setPhase x (some .runout) w else w).st y).sar = (w.st y).sar ∧
        ((if (w.st x).seq.phase = none then setPhase x (some .runout) w else w).st y).eng = (w.st y).eng ∧
        ((if (w.st x).seq.phase = none then setPhase x (some .runout) w else w).st y).seq.state = (w.st y).seq.state ∧
        ((if (w.st x).seq.phase = none then setPhase x (some .runout) w else w).st y).seq.handling = (w.st y).seq.handling ∧
        ((if (w.st x).seq.phase = none then setPhase x (some .runout) w else w).st y).seq.haltWaiting = (w.st y).seq.haltWaiting ∧
        ((if (w.st x).seq.phase = none then setPhase x (some .runout) w else w).st y).seq.pendingState = (w.st y).seq.pendingState ∧
        ((if (w.st x).seq.phase = none then setPhase x (some .runout) w else w).st y).seq.heldState = (w.st y).seq.heldState := by
      intro y
      split <;> simp
    have p3 : ((if (w.st x).seq.phase = none then setPhase x (some .runout) w else w).st x).seq.phase = (w.st x).seq.phase ∨
        ((if (w.st x).seq.phase = none then setPhase x (some .runout) w else w).st x).seq.phase = some .runout := by
      split
      · exact .inr (by simp)
      · exact .inl rfl
    generalize (if (w.st x).seq.phase = none then setPhase x (some .runout) w else w) = z at i3 o3 f3 p3
    have hz : z.active x = true := by
      unfold State.active
      rw [(f3 x).2.2.2.2.1]
      exact hact
    have o4 := enterState_own x z .tail
    have q4 := enterState_qsc x x z .tail rfl
    refine Event.trans e1 (Event.trans ?_ (writeRetained_event x _ c _))
    refine ⟨((of.inner.trans e2.inner).trans i3).trans (enterState_inner x z .tail fun _ => hz), ?_, ?_, ?_⟩
    · intro h
      have k := en h
      obtain ⟨g1, g2, g3, -, g5, -, -, g8, g9⟩ := f3 x
      refine k.live (x := x) ?_ ?_ ?_ ?_ ?_ ?_ (by simp) ?_ ?_
      · rw [o4.params, o3.params, own2.1.params]
      · rw [o4.other (other_ne x), o3.other (other_ne x), own2.1.other (other_ne x)]
      · rw [enterState_par, g1, (own2.2 x).1.par]
      · rw [q4, g2, (own2.2 x).2]
      · rw [enterState_sar, g3, (own2.2 x).1.sar]
      · rw [enterState_seq_phase, ← (own2.2 x).1.phase]
        exact p3
      · rw [enterState_seq_pendingState, g8, (own2.2 x).1.pending]
      · rw [enterState_seq_heldState, g9, (own2.2 x).1.held]
    · intro h
      refine (e2.tidy (of.tidy h)).congr fun y => ?_
      obtain ⟨-, -, -, g4, -, g6, g7, -, -⟩ := f3 y
      simp [g4, g6, g7]
    · intro y
      rw [enterState_seq_handling, (f3 y).2.2.2.2.2.1, e2.handling, of.handling]

/-! ## Stepping -/

theorem nextBoundary_index {p : Int} {i : Nat} (h : nextBoundary s x = some (p, some i)) :
    ∀ k, (s.st x).seq.index = some k → k ≤ i := by
  intro k hk
  unfold nextBoundary at h
  rw [Option.map_eq_some_iff] at h
  obtain ⟨_, _, h⟩ := h
  rw [hk] at h
  simp only at h
  split at h
  · have := (Prod.mk.inj h).2
    simp only [Option.some.injEq] at this
    omega
  · have := (Prod.mk.inj h).2
    cases this

theorem reachedBoundary_some {p : Int} {b : Option Nat} (h : reachedBoundary s x p = some b) :
    Advancing (s.st x).seq.state ∧ ∀ i, b = some i → ∀ k, (s.st x).seq.index = some k → k ≤ i := by
  unfold reachedBoundary at h
  split at h
  · rename_i hs
    split at h
    · rename_i q hq
      split at h
      · simp only [Option.some.injEq] at h
        subst h
        refine ⟨?_, ?_⟩
        · cases hst : (s.st x).seq.state <;> simp_all [StationState.stepping, Advancing]
        · intro i hi
          obtain ⟨q1, q2⟩ := q
          simp only at hi
          subst hi
          exact nextBoundary_index hq
      · cases h
    · cases h
  · cases h

/-- Stepping through boundaries, while the station is handling an event. -/
theorem stepOn_event (n : Nat) (p : Int) (c : Cycle) (hh : (s.st x).seq.handling = true) :
    Event s (stepOn n x p c s) := by
  induction n generalizing s with
  | zero => exact .refl s
  | succ n ih =>
    unfold stepOn
    split
    · exact .refl s
    · rename_i hb
      exact tailEntry_event hh (reachedBoundary_some hb).1 c
    · rename_i i hb
      have e := segmentEntry_event hh (reachedBoundary_some hb).1 i c ((reachedBoundary_some hb).2 i rfl)
      exact e.trans (ih (by rw [e.handling]; exact hh))

theorem enterApproach_event (h : (s.st x).seq.state = .arming) : Event s (enterApproach x s) where
  inner := enterApproach_inner x s h
  live k := enterApproach_live x s k h
  tidy k := k.congr fun y => by
    rcases eq_or_other x y with rfl | rfl
    · simp [enterApproach]
    · rw [enterApproach_other _ _ _ (other_ne x)]
      exact ⟨rfl, rfl, rfl⟩
  handling y := by
    rcases eq_or_other x y with rfl | rfl
    · simp [enterApproach]
    · rw [enterApproach_other _ _ _ (other_ne x)]

theorem armStage_event : Event s (armStage x s) := by
  unfold armStage
  split
  · rename_i h
    exact enterApproach_event (armCheck_arming x s h)
  · exact .refl s

theorem startDwell_event : Event s (startDwell x s) := by
  unfold startDwell
  split
  · exact modSeq_event x s _ rfl rfl rfl rfl rfl rfl rfl rfl rfl rfl
  · exact .refl s

theorem stepStage_event (r : Report) (hh : (s.st x).seq.handling = true) :
    Event s (stepStage x r s) := by
  unfold stepStage
  split
  · exact startDwell_event
  · split
    · exact stepOn_event _ _ _ hh
    · exact .refl s

/-! ## Whole handlings -/

/-- Nothing is being handled, nothing waits, nothing is owed. -/
def Rest (s : State) : Prop := ∀ y, Settled (s.st y)

theorem rest_iff (s : State) : Rest s ↔ Tidy s ∧ ∀ y, (s.st y).seq.handling = false := by
  constructor
  · intro h
    exact ⟨fun y _ => ⟨(h y).2.1, (h y).2.2⟩, fun y => (h y).1⟩
  · rintro ⟨h, k⟩ y
    exact ⟨k y, (h y (k y)).1, (h y (k y)).2⟩

/-- What a whole event inside the stations keeps. -/
structure Whole (s t : State) : Prop where
  inner : Inner s t
  live : Live s → Live t
  rest : Rest s → Rest t

theorem Whole.refl (s : State) : Whole s s := ⟨.refl s, id, id⟩

theorem Whole.trans {s t u : State} (h : Whole s t) (k : Whole t u) : Whole s u :=
  ⟨h.inner.trans k.inner, k.live ∘ h.live, k.rest ∘ h.rest⟩

theorem Event.whole {s t : State} (h : Event s t) : Whole s t :=
  ⟨h.inner, h.live, fun k => by
    rw [rest_iff] at *
    exact ⟨h.tidy k.1, fun y => by rw [h.handling]; exact k.2 y⟩⟩

/-- An event that a sequencer handles from beginning to end. -/
theorem handled_whole (f : State → State)
    (h : ∀ s : State, (s.st x).seq.handling = true → Event s (f s)) :
    Whole s (endHandling x (f (beginHandling x s))) := by
  have o := own_modSeq x (fun q => { q with handling := true, haltWaiting := none }) s
  have hb : ((beginHandling x s).st x).seq.handling = true := by simp [beginHandling]
  have e := h (beginHandling x s) hb
  have i1 : Inner s (beginHandling x s) := modSeq_inner x s _ rfl rfl rfl rfl rfl rfl
  refine ⟨(i1.trans e.inner).trans (endHandling_inner x _), fun k => ?_, fun k => ?_⟩
  · refine endHandling_live x _ (e.live ?_)
    exact o.live k ⟨by simp, by simp, by simp, by simp, by simp, by simp, by simp, by simp, by simp, by simp⟩
  · rw [rest_iff] at *
    have t1 : Tidy (beginHandling x s) := by
      intro y hy
      rcases eq_or_other x y with rfl | rfl
      · rw [hb] at hy
        cases hy
      · have ho : (beginHandling x s).st x.other = s.st x.other := o.other (other_ne x)
        rw [ho] at hy ⊢
        exact k.1 _ hy
    have t2 := endHandling_tidy x (f (beginHandling x s)) fun y _ hy => e.tidy t1 y hy
    refine ⟨t2.1, fun y => ?_⟩
    rcases eq_or_other x y with rfl | rfl
    · exact t2.2.1
    · have ho : (beginHandling x s).st x.other = s.st x.other := o.other (other_ne x)
      rw [t2.2.2 _ (other_ne x), e.handling, ho]
      exact k.2 _

theorem seqReport_whole (r : Report) : Whole s (seqReport x r s) := by
  unfold seqReport
  refine handled_whole (fun u => syncTravel x (stepStage x r (armStage x u))) fun u hu => ?_
  have e := armStage_event (s := u) (x := x)
  exact (e.trans (stepStage_event r (by rw [e.handling]; exact hu))).trans (syncTravel_event x _)

theorem dwellExpires_whole (hs : (s.st x).seq.state = .dwelling) : Whole s (dwellExpires x s) := by
  unfold dwellExpires
  split
  · exact .refl s
  · rename_i i hi
    have key : ∀ u : State, (u.st x).seq.handling = true → (u.st x).seq.state = .dwelling →
        (u.st x).seq.index = some i →
        Event u (segmentEntry x (i + 1) s.cycle (modSeq x (fun q => { q with dwellTimer := .stopped }) u)) := by
      intro u hu hd hx
      have e := modSeq_event x u (fun q => { q with dwellTimer := .stopped }) rfl rfl rfl rfl rfl rfl rfl rfl rfl rfl
      refine e.trans (segmentEntry_event (by simpa using hu) (.inr (.inr (by simpa using hd))) _ _ ?_)
      intro k hk
      simp only [modSeq_same] at hk
      rw [hx] at hk
      cases hk
      omega
    have hb : ((beginHandling x s).st x).seq.handling = true ∧
        ((beginHandling x s).st x).seq.state = .dwelling ∧
        ((beginHandling x s).st x).seq.index = some i := by
      simp [beginHandling, hs, hi]
    have w := handled_whole (x := x) (s := s)
      (fun u => if (u.st x).seq.state = .dwelling ∧ (u.st x).seq.index = some i then
        segmentEntry x (i + 1) s.cycle (modSeq x (fun q => { q with dwellTimer := .stopped }) u) else u)
      fun u hu => by
        split
        · rename_i k
          exact key u hu k.1 k.2
        · exact .refl u
    simp only [hb.2.1, hb.2.2, and_self, if_true] at w
    exact w

/-! ## The scheduler's handling of a report -/

theorem keepReport_event (r : Report) : Event s (keepReport x r s) :=
  (modQsc_event x s _ rfl rfl rfl rfl).trans (recomputeQuench_event x _)

/-- A waiting request that keeps its set and flow. -/
theorem modSar_event (f : Supply → Supply) (granted : (f (s.st x).sar).granted = (s.st x).sar.granted)
    (waiting : ∀ w, (f (s.st x).sar).waiting = some w →
      ∃ w0, (s.st x).sar.waiting = some w0 ∧ w.zones = w0.zones ∧ w.flow = w0.flow)
    (none_ : (s.st x).sar.waiting = none → (f (s.st x).sar).waiting = none) :
    Event s (modSar x f s) where
  inner := modSar_inner x s f
  live h := by
    have o := own_modSar x f s
    have a := h.at_ x
    have c := a.quench.core
    have idle : QuenchIdle (s.st x) → QuenchIdle ((modSar x f s).st x) := by
      rintro ⟨h1, h2, h3, h4⟩
      exact ⟨by simpa using h1, by simpa using none_ h2, by simpa [granted] using h3, by simpa using h4⟩
    refine h.change (x := x) (o.other (other_ne x)) ⟨⟨⟨by simpa using c.bounded, by simpa using c.endLast, by simpa using c.headWaits, ?_, by simpa [granted] using c.flow, ?_, ?_⟩, ?_, ?_, ?_⟩, ?_, ?_, ?_⟩
      (h.supply.fall o.params (o.other (other_ne x)) (by simp [granted]))
    · intro w hw
      simp only [modSar_same] at hw
      obtain ⟨w0, h0, hz, hf⟩ := waiting w hw
      obtain ⟨⟨e, he, e1, e2⟩, e3⟩ := c.head w0 h0
      exact ⟨⟨e, by simpa using he, e1, by rw [e2, hz]⟩, by rw [hf, hz, e3]; simp⟩
    · intro k
      obtain ⟨k1, k2⟩ := c.opened (by simpa using k)
      exact ⟨by simpa using k1, by simpa using none_ k2⟩
    · intro k
      exact idle (c.closed (by simpa using k))
    · intro k
      exact idle (a.quench.idle (by simpa using k))
    · rintro ⟨e, he, ho⟩
      simpa using a.quench.endTail ⟨e, by simpa using he, ho⟩
    · intro k
      simpa using a.quench.phaseTail (by simpa using k)
    · have := a.pending
      unfold PendingLaw at *
      simpa using this
    · have := a.held
      unfold HeldLaw at *
      simpa using this
    · have := a.check
      unfold CheckLaw at *
      simpa using this
  tidy h := h.congr fun y => ⟨by simp, by simp, by simp⟩
  handling y := by simp

theorem lateByDistance_event (r : Report) : Event s (lateByDistance x r s) := by
  unfold lateByDistance
  split
  · split
    · refine (modSar_event _ rfl ?_ ?_).trans (raise_event _ _ _ _)
      · intro w hw
        simp only [Option.map_eq_some_iff] at hw
        obtain ⟨w0, h0, rfl⟩ := hw
        exact ⟨w0, h0, rfl, rfl⟩
      · intro h
        simp [h]
    · exact .refl s
  · exact .refl s

theorem qscReport_event (r : Report) : Event s (qscReport x r s) := by
  unfold qscReport
  split
  · exact ((keepReport_event r).trans (lateByDistance_event r)).trans (settleTasks_event _ _)
  · split
    · exact keepReport_event r
    · split
      · exact recomputeQuench_event x s
      · exact .refl s

/-- One position report, whichever of sequencer and scheduler takes it first. -/
theorem reportStage_whole : Whole s (reportStage x s) := by
  unfold reportStage
  split
  · exact .refl s
  · simp only
    refine Whole.trans (bump_event s).whole (Whole.trans ?_ (pcuRecompute_event x _).whole)
    split
    · exact (qscReport_event _).whole.trans (seqReport_whole _)
    · exact (seqReport_whole _).trans (qscReport_event _).whole

theorem raiseAsks_event (asks : List Ask) : Event s (raiseAsks x asks s) := by
  unfold raiseAsks
  induction asks generalizing s with
  | nil => exact .refl s
  | cons a as ih => exact (raise_event _ _ _ _).trans ih

theorem trackerStage_event (sample : PositionSample) : Event s (trackerStage x sample s) := by
  unfold trackerStage
  simp only
  exact ((modTrk_event x s _).trans (raiseAsks_event _)).trans (modTrk_event x _ _)

/-- A POSITION sample that is handed to a station. -/
theorem positionHanded_whole (sample : PositionSample) : Whole s (positionHanded x sample s) :=
  (trackerStage_event sample).whole.trans reportStage_whole

/-! ## Retune and closing -/

theorem retuneDone_event : Event s (retuneDone x s) := by
  unfold retuneDone
  split
  · rename_i n hs hp
    refine Event.trans (t := modSeq x (fun q => { q with pendingState := none }) (enterState x n s)) ?_
      (writeRetainedNow_event x _)
    by_cases hn : n = .scanning ∨ n = .dwelling
    · refine (enterState_event n ?_ ?_ (by rw [hs]; rfl) (by rw [hs]; decide)).trans
        (modSeq_event' _ rfl rfl rfl rfl rfl rfl ?_ (fun _ h => h) rfl rfl)
      · rcases hn with rfl | rfl <;> rfl
      · rcases hn with rfl | rfl <;> decide
      · intro _ m hm
        cases hm
    · refine ⟨?_, fun h => absurd ((h.at_ x).pending n hp) hn, ?_, ?_⟩
      · exact (enterState_inner x s n fun _ => by
          unfold State.active
          rw [hs]
          rfl).trans (modSeq_inner x _ _ rfl rfl rfl rfl rfl rfl)
      · intro h
        refine h.congr fun y => ?_
        rcases eq_or_other x y with rfl | rfl
        · simp
        · rw [(own_modSeq x _ _).other (other_ne x)]
          simp
      · intro y
        rcases eq_or_other x y with rfl | rfl
        · simp
        · rw [(own_modSeq x _ _).other (other_ne x)]
          simp
  · rename_i n hs hp
    split
    · refine modSeq_event' _ rfl rfl rfl rfl rfl rfl ?_ ?_ rfl rfl
      · intro _ m hm
        cases hm
      · intro hpl _ m hm
        simp only [Option.some.injEq] at hm
        subst hm
        rcases hpl _ hp with h | h <;> rw [h] <;> rfl
    · exact .refl s
  · exact .refl s

theorem setPhase_finishing_live (h : Live s) (hp : (s.st x).seq.phase = some .closing) :
    Live (setPhase x (some .finishing) s) := by
  have o := setPhase_own x s (some .finishing)
  have a := h.at_ x
  have idle : QuenchIdle ((setPhase x (some .finishing) s).st x) := by
    have := a.quench.core.closed (.inl hp)
    unfold QuenchIdle at *
    simpa using this
  have tail : (s.st x).seq.state = .tail := a.quench.phaseTail (by rw [hp]; simp)
  refine h.change (x := x) (o.other (other_ne x)) ⟨⟨quenchIdle_core idle, fun _ => idle, ?_, ?_⟩, ?_, ?_, ?_⟩
    (h.supply.fall o.params (o.other (other_ne x)) (by simp))
  · intro _
    simpa using tail
  · intro _
    simpa using tail
  · have := a.pending
    unfold PendingLaw at *
    simpa using this
  · have := a.held
    unfold HeldLaw at *
    simpa using this
  · have := a.check
    unfold CheckLaw at *
    simpa using this

/-- The scheduler's report that the quench is closed. -/
theorem quenchClosed_event : Event s (quenchClosed x s) := by
  unfold quenchClosed
  split
  · rename_i hs
    have l := requestProgram_lined x s .finish
    have k : Live s → Live (requestProgram x .finish s) := fun h =>
      l.own.live h ⟨l.par, by rw [l.qsc], by rw [l.qsc], by rw [l.qsc], by rw [l.qsc], l.sar,
        by rw [l.seq], by rw [l.seq], by rw [l.seq], by rw [l.seq]⟩
    have hseq : ∀ y, ((requestProgram x .finish s).st y).seq = (s.st y).seq := by
      intro y
      rcases eq_or_other x y with rfl | rfl
      · exact l.seq
      · rw [l.own.other (other_ne x)]
    refine ⟨(((l.inner.trans (setPhase_inner x _ _)).trans (writeRetainedNow_inner x _)).trans
      (deliverEnd_inner x _)), fun h => ?_, fun h => ?_, fun y => ?_⟩
    · refine deliverEnd_live x _ ((writeRetainedNow_event x _).live ?_)
      exact setPhase_finishing_live (k h) (by rw [hseq]; exact hs.2)
    · refine deliverEnd_tidy x _ fun y hy => ?_
      simp only [writeRetainedNow_st, setPhase_seq_handling, hseq] at hy
      simp only [writeRetainedNow_st, setPhase_seq_haltWaiting, hseq]
      refine ⟨(h y hy).1, fun hne => ?_⟩
      simp only [setPhase_eng]
      rw [l.own.other hne]
      exact (h y hy).2
    · rw [deliverEnd_handling_all]
      simp [hseq]
  · exact .refl s

theorem answerClosing_event : Event s (answerClosing x s) := by
  unfold answerClosing
  split
  · exact (modQsc_event x s _ rfl rfl rfl rfl).trans quenchClosed_event
  · exact .refl s

end

end Sys2Proof.Machine
end

