-- ==== Sys2Proof/Laws/Samples.lean ====
section
/-! SUPPORT. The handling of POWER_ACTUAL, TEMPERATURE and QUENCH_ACTUAL samples is an event's work. -/

namespace Sys2Proof.Machine

section

variable {x : StationId} {s : State}

/-- A scheduler that keeps queue and issued set, and whose checks stay lawful. -/
theorem modQsc_event' (f : Quench → Quench)
    (queue : (f (s.st x).qsc).queue = (s.st x).qsc.queue)
    (issued : (f (s.st x).qsc).lastIssued = (s.st x).qsc.lastIssued)
    (check : CheckLaw (s.st x) → ∀ z c d, (f (s.st x).qsc).valve = .running z c d →
      (f (s.st x).qsc).flowCheck = .disarmed) : Event s (modQsc x f s) where
  inner := modQsc_inner x s f
  live h := by
    have o := own_modQsc x f s
    have a := h.at_ x
    have c := a.quench
    refine h.change (x := x) (o.other (other_ne x)) ⟨⟨?_, ?_, ?_, ?_⟩, ?_, ?_, ?_⟩
      (h.supply.fall o.params (o.other (other_ne x)) (by simp))
    · exact c.core.congr (by simp) (by simpa using queue) (by simpa using issued) (by simp) (by simp)
    · have := c.idle
      unfold QuenchIdle at *
      simpa [queue, issued] using this
    · have := c.endTail
      unfold HoldsEnd at *
      simpa [queue] using this
    · simpa using c.phaseTail
    · have := a.pending
      unfold PendingLaw at *
      simpa using this
    · have := a.held
      unfold HeldLaw at *
      simpa using this
    · have := check a.check
      unfold CheckLaw
      simpa using this
  tidy h := h.congr fun y => by simp
  handling y := by simp

/-- A power command unit whose held value stays lawful. -/
theorem modPcu_event' (f : Power → Power)
    (power : PowerLaw (s.st x) → PowerLaw ((modPcu x f s).st x)) : Event s (modPcu x f s) :=
  (own_modPcu x f s).event
    ((own_modPcu x f s).inner_of_seq (by simp) (by simp) (by simp) power)
    ⟨⟨by simp, by simp, by simp, by simp, by simp, by simp, by simp, by simp, by simp, by simp⟩,
      by simp, by simp, by simp⟩

/-! ## Power -/

theorem showAccount_event : Event s (showAccount x s) := by
  unfold showAccount
  split
  · exact modEntry_event _ _
  · exact .refl s

theorem creditPower_event (b : PowerBody) : Event s (creditPower x b s) :=
  (modPcu_event x s _ rfl rfl).trans showAccount_event

theorem toSwitch_event : Event s (toSwitch x s) := by
  unfold toSwitch
  have o := (own_modPcu x (fun p => { p with retune := .switch }) s).trans (pcuRecompute_own x _)
  exact o.event (o.inner_of_seq (by simp) (by simp) (by simp) fun _ => pcuRecompute_power x _)
    ⟨⟨by simp, by simp, by simp, by simp, by simp, by simp, by simp, by simp, by simp, by simp⟩,
      by simp, by simp, by simp⟩

theorem restore_event : Event s (restore x s) := by
  unfold restore
  refine Event.trans ?_ (pcuRecompute_event x _)
  refine Event.trans (modPcu_event' _ fun h => ?_) retuneDone_event
  unfold PowerLaw at *
  simp only [modPcu_same, modPcu_seq, modPcu_eng]
  exact fun k => ⟨(h k).1, (h k).2.1, trivial⟩

theorem retuneSample_event (r : Bool) (b : PowerBody) : Event s (retuneSample x r b s) := by
  unfold retuneSample
  split
  · exact toSwitch_event
  · split
    · exact restore_event
    · exact .refl s

theorem deviationCheck_event (sample : PowerSample) : Event s (deviationCheck x sample s) := by
  unfold deviationCheck
  split
  · split
    · simp only
      split
      · exact (modPcu_event x s _ rfl rfl).trans (raise_event _ _ _ _)
      · exact modPcu_event x s _ rfl rfl
    · exact modPcu_event x s _ rfl rfl
  · exact .refl s

theorem inverterCheck_event (b : PowerBody) : Event s (inverterCheck x b s) := by
  unfold inverterCheck
  split
  · exact .refl s
  · split
    · split
      · split
        · exact .refl s
        · exact (modPcu_event x s _ rfl rfl).trans (raise_event _ _ _ _)
      · exact modPcu_event x s _ rfl rfl
    · exact .refl s

/-- A POWER_ACTUAL sample that is credited and examined for the retune. -/
theorem powerTaken_event (r : Bool) (b : PowerBody) : Event s (powerTaken x r b s) :=
  (creditPower_event _).trans (retuneSample_event r _)

/-- A POWER_ACTUAL sample that is judged. -/
theorem powerJudged_event (sample : PowerSample) : Event s (powerJudged x sample s) :=
  (deviationCheck_event sample).trans (inverterCheck_event _)

/-- A POWER_ACTUAL sample that is handed to a station. -/
theorem powerHanded_event (r : Bool) (sample : PowerSample) : Event s (powerHanded x r sample s) :=
  (powerTaken_event r _).trans (powerJudged_event sample)

/-! ## Temperature -/

/-- A TEMPERATURE sample that is handed to a station. -/
theorem temperatureHanded_event (sample : TemperatureSample) :
    Event s (temperatureHanded x sample s) := by
  unfold temperatureHanded
  split
  · simp only
    split
    · exact ((modPcu_event x s _ rfl rfl).trans showAccount_event).trans (raise_event _ _ _ _)
    · exact (modPcu_event x s _ rfl rfl).trans showAccount_event
  · exact .refl s

/-! ## The manifold -/

theorem passValve_event (c : Cycle) : Event s (passValve x c s) :=
  (modQsc_event' _ rfl rfl fun _ z d e h => by cases h).trans answerClosing_event

theorem valveStage_event (sample : QuenchSample) : Event s (valveStage x sample s) := by
  unfold valveStage
  split
  · exact passValve_event _
  · exact .refl s

theorem manifoldStage_event (b : QuenchBody) : Event s (manifoldStage x b s) := by
  unfold manifoldStage
  split
  · exact .refl s
  · split
    · split
      · split
        · exact .refl s
        · exact (modQsc_event x s _ rfl rfl rfl rfl).trans (raise_event _ _ _ _)
      · exact modQsc_event x s _ rfl rfl rfl rfl
    · exact .refl s

/-- The flow that is compared is of an armed flow check. -/
theorem flowCompared_armed {sample : QuenchSample} {n f : Nat} {c : Cycle}
    (h : flowCompared s x sample = some (n, c, f)) : (s.st x).qsc.flowCheck = .armed n c := by
  unfold flowCompared at h
  split at h
  · rename_i hf _
    split at h
    · simp only [Option.some.injEq, Prod.mk.injEq] at h
      rw [hf, h.1, h.2.1]
    · cases h
  · cases h

theorem flowStage_event (sample : QuenchSample) : Event s (flowStage x sample s) := by
  unfold flowStage
  split
  · rename_i hc
    have ha := flowCompared_armed hc
    have armed : CheckLaw (s.st x) → ∀ z c d, (s.st x).qsc.valve ≠ .running z c d := by
      intro h z c d k
      have := h z c d k
      rw [ha] at this
      cases this
    split
    · simp only
      split
      · exact (modQsc_event' _ rfl rfl fun h z d e k => absurd k (armed h z d e)).trans (raise_event _ _ _ _)
      · exact modQsc_event' _ rfl rfl fun h z d e k => absurd k (armed h z d e)
    · exact modQsc_event' _ rfl rfl fun h z d e k => absurd k (armed h z d e)
  · exact .refl s

/-- A QUENCH_ACTUAL sample that is handed to a station. -/
theorem quenchHanded_event (sample : QuenchSample) : Event s (quenchHanded x sample s) := by
  unfold quenchHanded
  split
  · exact ((valveStage_event sample).trans (manifoldStage_event _)).trans (flowStage_event sample)
  · exact .refl s

theorem valveExpires_event : Event s (valveExpires x s) :=
  ((modQsc_event' _ rfl rfl fun _ z d e h => by cases h).trans (raise_event _ _ _ _)).trans
    answerClosing_event

end

end Sys2Proof.Machine
end

