-- ==== Sys2Proof/Laws/Commands.lean ====
section
/-! SUPPORT. The run commands: what they leave alone and the laws they keep; a START and a CLEAR are the two that
lower an index, and a START the one that makes a station active. -/

namespace Sys2Proof.Machine

section

variable {x : StationId} {s t : State}

/-! ## What a run command keeps -/

theorem HeldKept.inUse (h : HeldKept s t) (b : BlocksKept s t) (k : InUseLaw s) : InUseLaw t := by
  intro y hy
  obtain ⟨h1, h2, h3⟩ := h y hy
  obtain ⟨p, k1, k2, k3, k4, k5⟩ := k y h1
  have hs := b.store
  have d : t.store.directory = s.store.directory := by
    have := congrArg Store.directory hs
    exact this
  have r : t.store.register = s.store.register := by
    have := congrArg Store.register hs
    exact this
  refine ⟨p, by rw [h2]; exact k1, by rw [h3]; exact k2, by rw [d]; exact k3, ?_, ?_⟩
  · unfold Store.busyOn Store.running at *
    rw [r]
    exact k4
  · unfold Store.wholeBusy Store.running at *
    rw [r]
    exact k5

/-- What every run command keeps. -/
structure Carried (x : StationId) (s t : State) : Prop where
  blocks : BlocksKept s t
  inUse : InUseLaw s → InUseLaw t
  cond : CondLaw s → CondLaw t
  power : (∀ y, PowerLaw (s.st y)) → ∀ y, PowerLaw (t.st y)
  travel : (∀ y, TravelLaw (s.st y)) → ∀ y, TravelLaw (t.st y)
  live : Live s → Live t
  owed : Tidy s → ∀ y, (t.st y).seq.handling = false → (t.st y).seq.haltWaiting = none ∧
    (y ≠ x → (t.st y).eng.endOwed = none)
  handling : ∀ y, (t.st y).seq.handling = (s.st y).seq.handling

theorem Event.carried (h : Event s t) : Carried x s t :=
  ⟨h.inner.blocks, h.inner.held.inUse h.inner.blocks, h.inner.cond, h.inner.power, h.inner.travel, h.live,
    fun k y hy => ⟨(h.tidy k y hy).1, fun _ => (h.tidy k y hy).2⟩, h.handling⟩

theorem Event.thenCarried {u : State} (h : Event s t) (k : Carried x t u) : Carried x s u :=
  ⟨h.inner.blocks.trans k.blocks, fun i => k.inUse (h.inner.held.inUse h.inner.blocks i),
    k.cond ∘ h.inner.cond, k.power ∘ h.inner.power, k.travel ∘ h.inner.travel, k.live ∘ h.live,
    fun i => k.owed (h.tidy i), fun y => (k.handling y).trans (h.handling y)⟩

theorem Carried.thenEvent {u : State} (h : Carried x s t) (k : Event t u)
    (hw : ∀ y, (u.st y).seq.haltWaiting = (t.st y).seq.haltWaiting)
    (ho : ∀ y, (u.st y).eng.endOwed = (t.st y).eng.endOwed) : Carried x s u :=
  ⟨h.blocks.trans k.inner.blocks, fun i => k.inner.held.inUse k.inner.blocks (h.inUse i),
    k.inner.cond ∘ h.cond, k.inner.power ∘ h.power, k.inner.travel ∘ h.travel, k.live ∘ h.live,
    fun i y hy => by
      rw [k.handling] at hy
      rw [hw, ho]
      exact h.owed i y hy, fun y => (k.handling y).trans (h.handling y)⟩

/-! ## HOLD, RESUME, ABORT -/

theorem holdable_facts {n : StationState} (h : n.holdable = true) :
    n.active = true ∧ n ≠ .tail ∧ n ≠ .halting := by
  cases n <;> simp_all [StationState.holdable, StationState.active]

theorem freezeDwell_event : Event s (freezeDwell x s) := by
  unfold freezeDwell
  split
  · exact (modSeq_event x s _ rfl rfl rfl rfl rfl rfl rfl rfl rfl rfl).trans (bump_event _)
  all_goals exact .refl s

@[simp] theorem freezeDwell_state (y : StationId) :
    ((freezeDwell x s).st y).seq.state = (s.st y).seq.state := by
  unfold freezeDwell
  split
  · rcases eq_or_other x y with rfl | rfl
    · simp
    · rw [bump_st, (own_modSeq x _ s).other (other_ne x)]
  all_goals rfl

theorem hold_event (h : (s.st x).seq.state.holdable = true) : Event s (hold x s) := by
  obtain ⟨h1, h2, h3⟩ := holdable_facts h
  unfold hold
  simp only
  have e1 : Event s (modSeq x (fun q => { q with heldState := some q.state, disturbed := true }) s) :=
    modSeq_event' _ rfl rfl rfl rfl rfl rfl (fun k => k)
      (fun _ _ n hn => by
        simp only [Option.some.injEq] at hn
        rw [← hn]
        exact h) rfl rfl
  have e2 := (e1.trans (modResult_event x _ (Option.map fun r => { r with disturbed := true }))).trans
    (freezeDwell_event (x := x))
  have e3 := e2.trans (modSeq_event x _ (fun q => { q with holdTimer := .running (s.st x).par.holdLimit })
    rfl rfl rfl rfl rfl rfl rfl rfl rfl rfl)
  refine (e3.trans (enterState_event _ rfl (by decide) ?_ ?_)).trans (writeRetainedNow_event x _)
  · simpa using h1
  · simpa using h2

theorem resume_event (hs : (s.st x).seq.state = .holding) :
    Event s (resume x ((s.st x).seq.heldState.getD .holding) s) := by
  unfold resume
  simp only
  refine Event.trans ?_ (writeRetainedNow_event x _)
  have e1 := modSeq_event x s (fun q => { q with holdTimer := .stopped }) rfl rfl rfl rfl rfl rfl rfl rfl rfl rfl
  have hs1 : ((modSeq x (fun q => { q with holdTimer := .stopped }) s).st x).seq.state = .holding := by
    simpa using hs
  have hh1 : ((modSeq x (fun q => { q with holdTimer := .stopped }) s).st x).seq.heldState =
    (s.st x).seq.heldState := by simp
  refine e1.trans ?_
  generalize modSeq x (fun q => { q with holdTimer := .stopped }) s = u at hs1 hh1
  rw [← hh1]
  have act : (u.st x).seq.state.active = true := by rw [hs1]; rfl
  have e3 : ∀ w : State, Event w (modSeq x (fun q => { q with heldState := none, dwellTimer := q.dwellTimer.resumed }) w) :=
    fun w => modSeq_event' _ rfl rfl rfl rfl rfl rfl (fun k => k) (fun _ _ n hn => by cases hn) rfl rfl
  refine Event.trans ?_ (e3 _)
  refine ⟨enterState_inner x u _ fun _ => act, fun h => ?_, fun h => h.congr fun y => by simp, fun y => by simp⟩
  have hn : ((u.st x).seq.heldState.getD .holding).active = true ∧
      (u.st x).seq.heldState.getD .holding ≠ .halting := by
    cases hc : (u.st x).seq.heldState with
    | none => exact ⟨rfl, by decide⟩
    | some n =>
      obtain ⟨a, -, c⟩ := holdable_facts ((h.at_ x).held n hc)
      exact ⟨a, c⟩
  exact (enterState_event _ hn.1 hn.2 act (by rw [hs1]; decide)).live h

theorem halt_carried (c : Cause) (h : (s.st x).seq.state.haltable = true) :
    Carried x s (halt x c s) where
  blocks := (halt_inner x c s (haltable_active h)).blocks
  inUse := (halt_inner x c s (haltable_active h)).held.inUse (halt_inner x c s (haltable_active h)).blocks
  cond := (halt_inner x c s (haltable_active h)).cond
  power := (halt_inner x c s (haltable_active h)).power
  travel := (halt_inner x c s (haltable_active h)).travel
  live := halt_live x c s
  owed k y hy := by
    rcases eq_or_other x y with rfl | rfl
    · rw [halt_handling] at hy
      exact ⟨by rw [halt_haltWaiting]; exact (k _ hy).1, fun ne => absurd rfl ne⟩
    · obtain ⟨k1, k2, k3⟩ := halt_other x c s (other_ne x)
      rw [k1.handling] at hy
      rw [k2, k3]
      exact ⟨(k _ hy).1, fun _ => (k _ hy).2⟩
  handling y := by
    rcases eq_or_other x y with rfl | rfl
    · simp
    · exact (halt_other x c s (other_ne x)).1.handling

/-! ## CLEAR -/

theorem clearStation_own : Own x s (clearStation x s) :=
  ((own_modSeq x _ s).trans (setIndex_own x _ _)).trans (enterState_own x _ _)

theorem clearStation_carried (h : (s.st x).seq.state.active = false) : Carried x s (clearStation x s) := by
  have o := clearStation_own (x := x) (s := s)
  have hst : ((clearStation x s).st x).seq.state = .idle := by simp [clearStation]
  have hr := enterState_rest x (setIndex x none (modSeq x (fun q => { q with profile := none, resultReady := false }) s)) .idle rfl
  have blocks : BlocksKept s (clearStation x s) :=
    { pending := o.pending, vdd := o.vdd, params := o.params, stops := o.stops, link := o.link,
      store := by rw [o.store], severity := by rw [o.cdu],
      first := fun r hr => by rw [o.cdu]; exact hr,
      par := fun y => by simp [clearStation], table := fun y => by simp [clearStation],
      valid := by rw [o.rtb] }
  refine ⟨blocks, ?_, ?_, ?_, ?_, ?_, ?_, ?_⟩
  · refine HeldKept.inUse (fun y hy => ?_) blocks
    rcases eq_or_other x y with rfl | rfl
    · unfold State.active at hy
      rw [hst] at hy
      cases hy
    · unfold State.active at *
      rw [o.other (other_ne x)] at *
      exact ⟨hy, rfl, by rw [o.store]⟩
  · intro k
    unfold CondLaw at *
    rw [o.cdu]
    exact k
  · intro k y
    rcases eq_or_other x y with rfl | rfl
    · exact enterState_power _ _ _
    · rw [o.other (other_ne x)]
      exact k _
  · intro k y
    rcases eq_or_other x y with rfl | rfl
    · exact enterState_travel _ _ _
    · rw [o.other (other_ne x)]
      exact k _
  · intro k
    have a := k.at_ x
    refine k.change (x := x) (o.other (other_ne x)) (restAt ?_ ?_ ?_ ?_ ?_)
      (k.supply.fall o.params (o.other (other_ne x)) (by simp [clearStation]))
    · have := a.quench.idle (.inl h)
      unfold QuenchIdle at *
      simpa [clearStation] using this
    · have : (s.st x).seq.phase = none := by
        by_contra hp
        have hp' := a.quench.phaseTail hp
        rw [hp'] at h
        cases h
      simpa [clearStation] using this
    · have := a.pending
      unfold PendingLaw at *
      simpa [clearStation] using this
    · have := a.held
      unfold HeldLaw at *
      simpa [clearStation] using this
    · intro z c d hz
      rw [show ((clearStation x s).st x).qsc.valve = .stopped from hr.1] at hz
      cases hz
  · intro k y hy
    rcases eq_or_other x y with rfl | rfl
    · have : (s.st y).seq.handling = false := by simpa [clearStation] using hy
      exact ⟨by simpa [clearStation] using (k _ this).1, fun ne => absurd rfl ne⟩
    · rw [o.other (other_ne x)] at hy ⊢
      exact ⟨(k _ hy).1, fun _ => (k _ hy).2⟩
  · intro y
    rcases eq_or_other x y with rfl | rfl
    · simp [clearStation]
    · rw [o.other (other_ne x)]

/-! ## START -/

/-- An acceptance up to the request for the START program, on the copy alone: the store's mark and the record
are written beside it. -/
structure Accepting (x : StationId) (p : HeldProfile) (s t : State) : Prop where
  other : t.st x.other = s.st x.other
  store : t.store = { s.store with inUse := s.store.inUse.set x (some p.number) }
  pending : t.pending = s.pending
  vdd : t.vdd = s.vdd
  params : t.params = s.params
  stops : t.stops = s.stops
  link : t.link = s.link
  cdu : t.cdu = s.cdu
  valid : t.rtb.valid = s.rtb.valid
  par : (t.st x).par = (s.st x).par
  table : (t.st x).eng.table = (s.st x).eng.table
  state : (t.st x).seq.state = .arming
  profile : (t.st x).seq.profile = some p
  index : (t.st x).seq.index = none
  phase : (t.st x).seq.phase = none
  pendingState : (t.st x).seq.pendingState = none
  heldState : (t.st x).seq.heldState = none
  handling : (t.st x).seq.handling = (s.st x).seq.handling
  haltWaiting : (t.st x).seq.haltWaiting = (s.st x).seq.haltWaiting
  queue : (t.st x).qsc.queue = []
  issued : (t.st x).qsc.lastIssued = (s.st x).qsc.lastIssued
  valve : (t.st x).qsc.valve = .stopped
  granted : (t.st x).sar.granted = (s.st x).sar.granted
  waiting : (t.st x).sar.waiting = (s.st x).sar.waiting
  power : PowerLaw (t.st x)
  travel : TravelLaw (t.st x)

theorem book_sar (p : HeldProfile) : ∃ r, ((book x p s).st x).sar = { (s.st x).sar with reservation := r } := by
  unfold book
  split
  · exact ⟨some (peakFlow (s.st x).par p), by simp⟩
  · exact ⟨(s.st x).sar.reservation, rfl⟩

theorem book_own (p : HeldProfile) : Own x s (book x p s) := by
  unfold book
  split
  · exact own_modSar x _ s
  · exact .refl x s

theorem book_rest (p : HeldProfile) : ((book x p s).st x).par = (s.st x).par ∧
    ((book x p s).st x).seq = (s.st x).seq ∧ ((book x p s).st x).qsc = (s.st x).qsc ∧
    ((book x p s).st x).eng = (s.st x).eng ∧ ((book x p s).st x).pcu = (s.st x).pcu := by
  unfold book
  split <;> simp

/-- The copy's part of the first steps of an acceptance. -/
def acceptCopy (x : StationId) (p : HeldProfile) (adjust : BitVec 16) (s : State) : State :=
  setIndex x none
    (modSeq x
      (fun q => { q with pendingState := none, heldState := none, phase := none, haltCause := none,
                         degraded := false, disturbed := false })
      (quenchStart x (clearTracker x
        (modSeq x (fun q => { q with resultReady := false, datum := startDatum (s.st x).par adjust })
          (modResult x (fun _ => some (openedResult p (startDatum (s.st x).par adjust) s.cycle))
            (modStore (fun t => { t with inUse := t.inUse.set x (some p.number) })
              (modSeq x (fun q => { q with profile := some p }) s)))))))

theorem acceptHead_eq (p : HeldProfile) (adjust : BitVec 16) :
    acceptHead x p adjust s = acceptCopy x p adjust s := rfl

theorem firstChannel_event (c : Channel) : Event s (firstChannel x c s) := by
  unfold firstChannel
  split
  · exact .refl s
  · exact startRetune_event x c s

theorem firstChannel_own (c : Channel) : Own x s (firstChannel x c s) := by
  unfold firstChannel
  split
  · exact .refl x s
  · exact startRetune_own x s c

theorem firstChannel_rest (c : Channel) : ((firstChannel x c s).st x).par = (s.st x).par ∧
    ((firstChannel x c s).st x).seq = (s.st x).seq ∧ ((firstChannel x c s).st x).qsc = (s.st x).qsc ∧
    ((firstChannel x c s).st x).eng = (s.st x).eng ∧ ((firstChannel x c s).st x).sar = (s.st x).sar := by
  unfold firstChannel
  split
  · simp
  · simp [startRetune]

theorem clearTracker_own : Own x s (clearTracker x s) := own_modTrk x _ s

theorem quenchStart_own : Own x s (quenchStart x s) := own_modQsc x _ s

/-- The part of the copy that follows the in-use mark touches the station alone. -/
theorem acceptCopy_own (p : HeldProfile) (adjust : BitVec 16) :
    Own x (modStore (fun t => { t with inUse := t.inUse.set x (some p.number) })
      (modSeq x (fun q => { q with profile := some p }) s)) (acceptCopy x p adjust s) := by
  unfold acceptCopy
  exact ((((own_modResult x _ _).trans (own_modSeq x _ _)).trans clearTracker_own).trans
    quenchStart_own).trans ((own_modSeq x _ _).trans (setIndex_own x _ _))

theorem acceptCopy_par (p : HeldProfile) (adjust : BitVec 16) :
    ((acceptCopy x p adjust s).st x).par = (s.st x).par := by
  simp only [acceptCopy, setIndex_par, modSeq_par, quenchStart, modQsc_par, clearTracker, modTrk_par,
    modResult_par, modStore_st]

theorem acceptCopy_eng (p : HeldProfile) (adjust : BitVec 16) :
    ((acceptCopy x p adjust s).st x).eng = (s.st x).eng := by
  simp only [acceptCopy, setIndex_eng, modSeq_eng, quenchStart, modQsc_eng, clearTracker, modTrk_eng,
    modResult_eng, modStore_st]

theorem acceptCopy_sar (p : HeldProfile) (adjust : BitVec 16) :
    ((acceptCopy x p adjust s).st x).sar = (s.st x).sar := by
  simp only [acceptCopy, setIndex_sar, modSeq_sar, quenchStart, modQsc_sar, clearTracker, modTrk_sar,
    modResult_sar, modStore_st]

theorem acceptCopy_qsc (p : HeldProfile) (adjust : BitVec 16) :
    ((acceptCopy x p adjust s).st x).qsc =
      { (s.st x).qsc with queue := [], report := none, valve := .stopped, flowCheck := .disarmed,
                          closing := false } := by
  simp only [acceptCopy, setIndex_qsc, modSeq_qsc, quenchStart, modQsc_same, clearTracker, modTrk_qsc,
    modResult_qsc, modStore_st]

/-- The copy's sequencer: the profile is held, the index and the pending values are absent, the handling is as it
was. -/
theorem acceptCopy_seq (p : HeldProfile) (adjust : BitVec 16) :
    ((acceptCopy x p adjust s).st x).seq.profile = some p ∧
    ((acceptCopy x p adjust s).st x).seq.index = none ∧
    ((acceptCopy x p adjust s).st x).seq.phase = none ∧
    ((acceptCopy x p adjust s).st x).seq.pendingState = none ∧
    ((acceptCopy x p adjust s).st x).seq.heldState = none ∧
    ((acceptCopy x p adjust s).st x).seq.handling = (s.st x).seq.handling ∧
    ((acceptCopy x p adjust s).st x).seq.haltWaiting = (s.st x).seq.haltWaiting := by
  simp only [acceptCopy, setIndex_seq_profile, setIndex_index, setIndex_seq_phase,
    setIndex_seq_pendingState, setIndex_seq_heldState, setIndex_seq_handling, setIndex_seq_haltWaiting,
    modSeq_same, quenchStart, modQsc_seq, clearTracker, modTrk_seq, modResult_seq, modStore_st, and_self]

theorem acceptStart_accepting (p : HeldProfile) (adjust : BitVec 16) :
    Accepting x p s (acceptStart x p adjust s) := by
  unfold acceptStart
  have b1 := book_own (x := x) (s := s) p
  obtain ⟨r, b2⟩ := book_sar (x := x) (s := s) p
  obtain ⟨b3, b4, b5, b6, b7⟩ := book_rest (x := x) (s := s) p
  generalize book x p s = u at b1 b2 b3 b4 b5 b6 b7
  rw [acceptHead_eq]
  have o := acceptCopy_own (x := x) (s := u) p adjust
  have hother : (acceptCopy x p adjust u).st x.other = u.st x.other := by
    rw [o.other (other_ne x), modStore_st, (own_modSeq x _ _).other (other_ne x)]
  have hstore : (acceptCopy x p adjust u).store =
      { u.store with inUse := u.store.inUse.set x (some p.number) } := o.store
  have hpending : (acceptCopy x p adjust u).pending = u.pending := o.pending
  have hvdd : (acceptCopy x p adjust u).vdd = u.vdd := o.vdd
  have hparams : (acceptCopy x p adjust u).params = u.params := o.params
  have hstops : (acceptCopy x p adjust u).stops = u.stops := o.stops
  have hlink : (acceptCopy x p adjust u).link = u.link := o.link
  have hcdu : (acceptCopy x p adjust u).cdu = u.cdu := o.cdu
  have hrtb : (acceptCopy x p adjust u).rtb = u.rtb := o.rtb
  have hpar := acceptCopy_par (x := x) (s := u) p adjust
  have heng := acceptCopy_eng (x := x) (s := u) p adjust
  have hsar := acceptCopy_sar (x := x) (s := u) p adjust
  have hqsc := acceptCopy_qsc (x := x) (s := u) p adjust
  obtain ⟨h1, h2, h3, h4, h5, h6, h7⟩ := acceptCopy_seq (x := x) (s := u) p adjust
  clear o
  generalize acceptCopy x p adjust u = w at *
  unfold acceptTail
  have c1 := firstChannel_own (x := x) (s := w) p.firstChannel
  obtain ⟨c2, c3, c4, c5, c6⟩ := firstChannel_rest (x := x) (s := w) p.firstChannel
  generalize firstChannel x p.firstChannel w = v at *
  simp only
  have hvalid : (writeRetained x .arming w.cycle v).rtb.valid = v.rtb.valid :=
    (writeRetained_inner x v _ _).blocks.valid
  have hwr := writeRetained_inner x v .arming w.cycle
  have hst := fun y => writeRetained_st x y v .arming w.cycle
  have hsto := writeRetained_store x v .arming w.cycle
  have hcd := writeRetained_cdu x v .arming w.cycle
  generalize writeRetained x .arming w.cycle v = z at *
  have l := requestProgram_lined x z .start
  have o := (l.own.trans (own_modSeq x (fun q => { q with armTimer := .running (w.st x).par.armTimeout }) _)).trans
    (enterState_own x _ .arming)
  have q4 := enterState_qsc x x (modSeq x (fun q => { q with armTimer := .running (w.st x).par.armTimeout }) (requestProgram x .start z)) .arming rfl
  refine
    { other := ?_, store := ?_, pending := ?_, vdd := ?_, params := ?_, stops := ?_, link := ?_,
      cdu := ?_, valid := ?_, par := ?_, table := ?_, state := by simp, profile := ?_, index := ?_,
      phase := ?_, pendingState := ?_, heldState := ?_, handling := ?_, haltWaiting := ?_,
      queue := ?_, issued := ?_, valve := ?_, granted := ?_, waiting := ?_,
      power := enterState_power x _ _, travel := enterState_travel x _ _ }
  · rw [o.other (other_ne x), hst, c1.other (other_ne x), hother, b1.other (other_ne x)]
  · rw [o.store, hsto, c1.store, hstore, b1.store]
  · rw [o.pending, hwr.blocks.pending, c1.pending, hpending, b1.pending]
  · rw [o.vdd, hwr.blocks.vdd, c1.vdd, hvdd, b1.vdd]
  · rw [o.params, hwr.blocks.params, c1.params, hparams, b1.params]
  · rw [o.stops, hwr.blocks.stops, c1.stops, hstops, b1.stops]
  · rw [o.link, hwr.blocks.link, c1.link, hlink, b1.link]
  · rw [o.cdu, hcd, c1.cdu, hcdu, b1.cdu]
  · rw [o.rtb, hvalid, c1.rtb, hrtb, b1.rtb]
  · rw [enterState_par, modSeq_par, l.par, hst, c2, hpar, b3]
  · rw [enterState_eng, modSeq_eng, l.table, hst, c5, heng, b6]
  · rw [enterState_seq_profile, modSeq_same, l.seq, hst, c3, h1]
  · rw [enterState_seq_index, modSeq_same, l.seq, hst, c3, h2]
  · rw [enterState_seq_phase, modSeq_same, l.seq, hst, c3, h3]
  · rw [enterState_seq_pendingState, modSeq_same, l.seq, hst, c3, h4]
  · rw [enterState_seq_heldState, modSeq_same, l.seq, hst, c3, h5]
  · rw [enterState_seq_handling, modSeq_same, l.seq, hst, c3, h6, b4]
  · rw [enterState_seq_haltWaiting, modSeq_same, l.seq, hst, c3, h7, b4]
  · rw [q4, modSeq_qsc, l.qsc, hst, c4, hqsc]
  · rw [q4, modSeq_qsc, l.qsc, hst, c4, hqsc, b5]
  · rw [q4, modSeq_qsc, l.qsc, hst, c4, hqsc]
  · rw [enterState_sar, modSeq_sar, l.sar, hst, c6, hsar, b2]
  · rw [enterState_sar, modSeq_sar, l.sar, hst, c6, hsar, b2]

/-- What the store answers for a START is a profile that is VALID and free of long operations. -/
theorem storeAnswer_ok {t : Store} {b : Byte} {p : HeldProfile} (h : storeAnswer t x b = .ok p) :
    (t.directory.get p.number).state = .valid ∧ t.busyOn p.number = false ∧ t.wholeBusy = false := by
  unfold storeAnswer at h
  split at h
  · cases h
  · rename_i hw
    split at h
    · cases h
    · rename_i n _
      simp only at h
      split at h
      · cases h
      · rename_i hb
        split at h
        · cases h
        · rename_i hv
          have : heldProfile n (t.directory.get n) (t.profiles.get n) = p := by
            injection h
          subst this
          refine ⟨?_, by simpa [heldProfile] using hb, by simpa using hw⟩
          by_contra k
          exact hv (.inl k)

theorem startChecks_ok {b : Byte} {p : HeldProfile} (h : startChecks s x b = .ok p) :
    storeAnswer s.store x b = .ok p := by
  unfold startChecks at h
  split at h
  · cases h
  · split at h
    · cases h
    · split at h
      · cases h
      · rename_i hq _
        rw [hq]
        injection h with h
        rw [h]

theorem acceptStart_carried (p : HeldProfile) (adjust : BitVec 16) (b : Byte)
    (h : (s.st x).seq.state.active = false) (hp : storeAnswer s.store x b = .ok p) :
    Carried x s (acceptStart x p adjust s) := by
  have a := acceptStart_accepting (x := x) (s := s) p adjust
  obtain ⟨p1, p2, p3⟩ := storeAnswer_ok hp
  generalize acceptStart x p adjust s = t at a
  refine ⟨⟨a.pending, a.vdd, a.params, a.stops, a.link, ?_, by rw [a.cdu], fun r hr => by rw [a.cdu]; exact hr,
    fun y => ?_, fun y => ?_, a.valid⟩, ?_, ?_, ?_, ?_, ?_, ?_, ?_⟩
  · rw [a.store]
  · rcases eq_or_other x y with rfl | rfl
    · exact a.par
    · rw [a.other]
  · rcases eq_or_other x y with rfl | rfl
    · exact a.table
    · rw [a.other]
  · intro k y hy
    rcases eq_or_other x y with rfl | rfl
    · refine ⟨p, a.profile, ?_, ?_, ?_, ?_⟩
      · rw [a.store]
        exact pair_get_set _ _ _
      · rw [a.store]
        exact p1
      · rw [a.store]
        exact p2
      · rw [a.store]
        exact p3
    · unfold State.active at hy
      rw [a.other] at hy
      obtain ⟨q, k1, k2, k3, k4, k5⟩ := k _ hy
      refine ⟨q, by rw [a.other]; exact k1, ?_, ?_, ?_, ?_⟩
      · rw [a.store, ← k2]
        exact pair_get_set_other _ _ _ _ (other_ne x)
      · rw [a.store]
        exact k3
      · rw [a.store]
        exact k4
      · rw [a.store]
        exact k5
  · intro k
    unfold CondLaw at *
    rw [a.cdu]
    exact k
  · intro k y
    rcases eq_or_other x y with rfl | rfl
    · exact a.power
    · rw [a.other]
      exact k _
  · intro k y
    rcases eq_or_other x y with rfl | rfl
    · exact a.travel
    · rw [a.other]
      exact k _
  · intro k
    obtain ⟨i1, i2, i3, i4⟩ := (k.at_ x).quench.idle (.inl h)
    have idle : QuenchIdle (t.st x) :=
      ⟨a.queue, by rw [a.waiting]; exact i2, by rw [a.granted]; exact i3, by rw [a.issued]; exact i4⟩
    refine k.change (x := x) a.other (restAt idle a.phase ?_ ?_ ?_)
      (k.supply.fall a.params a.other (by rw [a.granted]))
    · intro n hn
      rw [a.pendingState] at hn
      cases hn
    · intro n hn
      rw [a.heldState] at hn
      cases hn
    · intro z c d hz
      rw [a.valve] at hz
      cases hz
  · intro k y hy
    rcases eq_or_other x y with rfl | rfl
    · rw [a.handling] at hy
      rw [a.haltWaiting]
      exact ⟨(k _ hy).1, fun ne => absurd rfl ne⟩
    · rw [a.other] at hy ⊢
      exact ⟨(k _ hy).1, fun _ => (k _ hy).2⟩
  · intro y
    rcases eq_or_other x y with rfl | rfl
    · exact a.handling
    · rw [a.other]

/-! ## Taking a command -/

/-- What taking a command keeps. -/
structure Taken (s t : State) : Prop where
  blocks : BlocksKept s t
  inUse : InUseLaw s → InUseLaw t
  cond : CondLaw s → CondLaw t
  power : (∀ y, PowerLaw (s.st y)) → ∀ y, PowerLaw (t.st y)
  travel : (∀ y, TravelLaw (s.st y)) → ∀ y, TravelLaw (t.st y)
  live : Live s → Live t
  rest : Rest s → Rest t

theorem Taken.refl (s : State) : Taken s s := ⟨.refl s, id, id, id, id, id, id⟩

theorem Taken.trans {u : State} (h : Taken s t) (k : Taken t u) : Taken s u :=
  ⟨h.blocks.trans k.blocks, k.inUse ∘ h.inUse, k.cond ∘ h.cond, k.power ∘ h.power,
    k.travel ∘ h.travel, k.live ∘ h.live, k.rest ∘ h.rest⟩

theorem Whole.taken (h : Whole s t) : Taken s t :=
  ⟨h.inner.blocks, h.inner.held.inUse h.inner.blocks, h.inner.cond, h.inner.power, h.inner.travel,
    h.live, h.rest⟩

theorem doStart_carried (b : Byte) (adjust : BitVec 16) : Carried x s (doStart x b adjust s).1 := by
  unfold doStart
  split
  · rename_i hs
    split
    · exact (Event.refl s).carried
    · rename_i p hp
      refine acceptStart_carried p adjust b ?_ (startChecks_ok hp)
      cases hst : (s.st x).seq.state <;> simp_all [StationState.startable, StationState.active]
  · exact (Event.refl s).carried

theorem doHold_event : Event s (doHold x s).1 := by
  unfold doHold
  split
  · rename_i h
    exact hold_event h
  · exact .refl s

theorem doResume_event : Event s (doResume x s).1 := by
  unfold doResume
  split
  · rename_i h
    exact resume_event h
  · exact .refl s

theorem doAbort_carried : Carried x s (doAbort x s).1 := by
  unfold doAbort
  split
  · rename_i h
    exact halt_carried _ h
  · exact (Event.refl s).carried

theorem doClear_carried : Carried x s (doClear x s).1 := by
  unfold doClear
  split
  · rename_i h
    split
    · exact (Event.refl s).carried
    · exact clearStation_carried (by rw [h]; rfl)
  · rename_i h
    exact (clearStation_carried (by rw [h]; rfl)).thenEvent (putRetained_event x none _)
      (fun y => by rw [putRetained_st]) fun y => by rw [putRetained_st]
  · rename_i h
    exact clearStation_carried (by rw [h]; rfl)
  all_goals exact (Event.refl s).carried

/-- Taking a command, whatever it carries out. -/
theorem takeCommand_taken (nibble : BitVec 4) (carry : State → State × CommandResult)
    (h : ∀ u : State, Carried x u (carry u).1) : Taken s (takeCommand x nibble carry s) := by
  unfold takeCommand
  split
  · exact .refl s
  · simp only
    have e0 := modSeq_event x s (fun q => { q with nibble := nibble }) rfl rfl rfl rfl rfl rfl rfl rfl rfl rfl
    have c1 := e0.thenCarried (h (modSeq x (fun q => { q with nibble := nibble }) s))
    generalize carry (modSeq x (fun q => { q with nibble := nibble }) s) = r at c1
    have e2 := modSeq_event x r.1 (fun q => { q with commandResult := r.2 }) rfl rfl rfl rfl rfl rfl rfl rfl rfl rfl
    have c2 := c1.thenEvent e2
      (fun y => by
        rcases eq_or_other x y with rfl | rfl
        · simp
        · rw [(own_modSeq x _ _).other (other_ne x)]) (fun y => by simp)
    generalize modSeq x (fun q => { q with commandResult := r.2 }) r.1 = u at c2
    have d := deliverEnd_inner x u
    refine ⟨c2.blocks.trans d.blocks, fun k => d.held.inUse d.blocks (c2.inUse k), d.cond ∘ c2.cond,
      d.power ∘ c2.power, d.travel ∘ c2.travel, fun k => deliverEnd_live x u (c2.live k), fun k => ?_⟩
    rw [rest_iff] at *
    exact ⟨deliverEnd_tidy x u (c2.owed k.1), fun y => by
      rw [deliverEnd_handling_all, c2.handling]
      exact k.2 y⟩

theorem carryOut_carried (p : ControlPart) : Carried x s (carryOut x p s).1 := by
  unfold carryOut
  split
  · exact (Event.refl s).carried
  · split
    · exact doStart_carried _ _
    · split
      · exact doHold_event.carried
      · split
        · exact doResume_event.carried
        · split
          · exact doAbort_carried
          · split
            · exact doClear_carried
            · exact (Event.refl s).carried

theorem handControl_taken (p : ControlPart) : Taken s (handControl x p s) :=
  takeCommand_taken _ _ fun _ => carryOut_carried p

theorem adoptNibble_event (p : ControlPart) : Event s (adoptNibble x p s) :=
  modSeq_event x s _ rfl rfl rfl rfl rfl rfl rfl rfl rfl rfl

end

end Sys2Proof.Machine
end

