-- ==== Sys2Proof/Laws/Service.lean ====
section
/-! SUPPORT. The service requests: what an answer leaves alone and the laws it keeps. -/

namespace Sys2Proof.Machine

section

variable {s t : State} {r : Prop}

/-! ## What an answer keeps -/

/-- The two protection flags of a directory entry (R4). -/
def protections (e : DirEntry) : Bool × Bool := (e.writeProtected, e.readProtected)

/-- What an answered request keeps; a held first-condition record too when `r` holds. -/
structure Asked (r : Prop) (s t : State) : Prop where
  pending : t.pending = s.pending
  vdd : t.vdd = s.vdd
  seq : ∀ y, (t.st y).seq = (s.st y).seq
  profiles : t.store.profiles = s.store.profiles
  marks : ∀ n, protections (t.store.directory.get n) = protections (s.store.directory.get n)
  entries : InUseLaw s → ∀ y p, s.active y = true → (s.st y).seq.profile = some p →
    t.store.directory.get p.number = s.store.directory.get p.number
  first : r → FirstKept s t
  inUse : InUseLaw s → InUseLaw t
  protect : ProtectLaw s → ProtectLaw t
  cond : CondLaw s → CondLaw t
  severity : SeverityLaw s → SeverityLaw t
  map : MapLaw s → MapLaw t
  power : (∀ y, PowerLaw (s.st y)) → ∀ y, PowerLaw (t.st y)
  travel : (∀ y, TravelLaw (s.st y)) → ∀ y, TravelLaw (t.st y)
  live : Live s → Live t
  rest : Rest s → Rest t

theorem Asked.refl (r : Prop) (s : State) : Asked r s s :=
  ⟨rfl, rfl, fun _ => rfl, rfl, fun _ => rfl, fun _ _ _ _ _ => rfl, fun _ _ h => h, id, id, id, id, id, id,
    id, id, id⟩

theorem Asked.active (h : Asked r s t) (y : StationId) : t.active y = s.active y := by
  unfold State.active
  rw [h.seq]

theorem Asked.trans {u : State} (h : Asked r s t) (k : Asked r t u) : Asked r s u where
  pending := k.pending.trans h.pending
  vdd := k.vdd.trans h.vdd
  seq y := (k.seq y).trans (h.seq y)
  profiles := k.profiles.trans h.profiles
  marks n := (k.marks n).trans (h.marks n)
  entries i y p a b :=
    (k.entries (h.inUse i) y p (by rw [h.active]; exact a) (by rw [h.seq]; exact b)).trans
      (h.entries i y p a b)
  first a q b := k.first a q (h.first a q b)
  inUse := k.inUse ∘ h.inUse
  protect := k.protect ∘ h.protect
  cond := k.cond ∘ h.cond
  severity := k.severity ∘ h.severity
  map := k.map ∘ h.map
  power := k.power ∘ h.power
  travel := k.travel ∘ h.travel
  live := k.live ∘ h.live
  rest := k.rest ∘ h.rest

theorem Asked.index (h : Asked r s t) : IndexRises s t := fun y i hi =>
  ⟨i, by rw [h.seq]; exact hi, Nat.le_refl i⟩

theorem st_congr {y : StationId} (h : t.stations = s.stations) : t.st y = s.st y := by
  unfold State.st
  rw [h]

theorem inUse_congr (h : t.stations = s.stations) (k : t.store = s.store) (i : InUseLaw s) : InUseLaw t := by
  intro y hy
  unfold State.active at hy
  rw [st_congr h] at hy ⊢
  rw [k]
  exact i y hy

/-- The stations and the store stay. -/
theorem Asked.of (pending : t.pending = s.pending) (vdd : t.vdd = s.vdd) (params : t.params = s.params)
    (stations : t.stations = s.stations) (store : t.store = s.store)
    (first : r → FirstKept s t) (cond : CondLaw s → CondLaw t) (severity : SeverityLaw s → SeverityLaw t)
    (map : MapLaw s → MapLaw t) : Asked r s t where
  pending := pending
  vdd := vdd
  seq y := by rw [st_congr stations]
  profiles := by rw [store]
  marks n := by rw [store]
  entries _ _ _ _ _ := by rw [store]
  first := first
  inUse := inUse_congr stations store
  protect := by
    unfold ProtectLaw
    rw [store]
    exact id
  cond := cond
  severity := severity
  map := map
  power h y := by rw [st_congr stations]; exact h y
  travel h y := by rw [st_congr stations]; exact h y
  live h := h.alike params fun y => by rw [st_congr stations]; exact .refl _
  rest h y := by rw [st_congr stations]; exact h y

/-- Only the link unit changes. -/
theorem asked_link (f : Link → Link) (map : MapLaw s → MapLaw (modLink f s)) : Asked r s (modLink f s) :=
  .of rfl rfl rfl rfl rfl (fun _ _ h => h) id id map

/-- Only the link unit changes, and the slot map stays. -/
theorem asked_unmapped (f : Link → Link) (map : (f s.link).map = s.link.map) : Asked r s (modLink f s) :=
  asked_link f (by
    unfold MapLaw
    show _ → ∀ i j e g, mapEntry (f s.link).map i = some e → mapEntry (f s.link).map j = some g → _
    rw [map]
    exact id)

theorem asked_bump : Asked r s (bump s) :=
  .of rfl rfl rfl rfl rfl (fun _ _ h => h) id id id

/-- Only the condition unit changes. -/
theorem asked_cdu (f : Conditions → Conditions) (first : r → FirstKept s (modCdu f s))
    (cond : CondLaw s → CondLaw (modCdu f s)) (severity : SeverityLaw s → SeverityLaw (modCdu f s)) :
    Asked r s (modCdu f s) :=
  .of rfl rfl rfl rfl rfl first cond severity id

/-- Only the store changes. -/
theorem asked_store (f : Store → Store) (profiles : (f s.store).profiles = s.store.profiles)
    (marks : ∀ n, protections ((f s.store).directory.get n) = protections (s.store.directory.get n))
    (entries : InUseLaw s → ∀ y p, s.active y = true → (s.st y).seq.profile = some p →
      (f s.store).directory.get p.number = s.store.directory.get p.number)
    (inUse : InUseLaw s → InUseLaw (modStore f s)) (protect : ProtectLaw s → ProtectLaw (modStore f s)) :
    Asked r s (modStore f s) :=
  ⟨rfl, rfl, fun _ => rfl, profiles, marks, entries, fun _ _ h => h, inUse, protect, id, id, id, id, id,
    fun h => h.alike rfl fun _ => .refl _, id⟩

/-- Only staging changes. -/
theorem asked_staging (g : Option Staging) :
    Asked r s (modStore (fun t => { t with staging := g }) s) :=
  asked_store _ rfl (fun _ => rfl) (fun _ _ _ _ _ => rfl) id id

/-! ## Starting a long operation -/

theorem starts_inUse {f : Store → Store} {n : Fin 16} (free : s.store.referenced n = false)
    (inUse : (f s.store).inUse = s.store.inUse)
    (op : (f s.store).wholeBusy = false) (on : ∀ m, (f s.store).busyOn m = decide (m = n))
    (entries : ∀ m, m ≠ n → (f s.store).directory.get m = s.store.directory.get m)
    (h : InUseLaw s) : InUseLaw (modStore f s) := by
  intro y hy
  obtain ⟨p, h1, h2, h3, h4, h5⟩ := h y hy
  have ne : p.number ≠ n := by
    rintro rfl
    cases y <;> simp_all [Store.referenced, Pair.get]
  refine ⟨p, h1, ?_, ?_, ?_, op⟩
  · show (f s.store).inUse.get y = _
    rw [inUse]
    exact h2
  · show ((f s.store).directory.get p.number).state = _
    rw [entries _ ne]
    exact h3
  · show (f s.store).busyOn p.number = false
    rw [on]
    simpa using ne

/-- An unreferenced profile is no active station's. -/
theorem unreferenced {n : Fin 16} (free : s.store.referenced n = false) (h : InUseLaw s) {y : StationId}
    {p : HeldProfile} (hy : s.active y = true) (hp : (s.st y).seq.profile = some p) : p.number ≠ n := by
  obtain ⟨q, h1, h2, -⟩ := h y hy
  rw [hp] at h1
  injection h1 with h1
  subst h1
  rintro rfl
  cases y <;> simp_all [Store.referenced, Pair.get]

theorem get_set_ne {α : Type} {n m : Fin 16} (v : Vector α 16) (a : α) (h : m ≠ n) :
    (v.set n a).get m = v.get m := by
  have : (n : Nat) ≠ m := fun k => h (Fin.ext k.symm)
  simp [Vector.get_eq_getElem, this]

theorem get_set_eq {α : Type} {n : Fin 16} (v : Vector α 16) (a : α) : (v.set n a).get n = a := by
  simp [Vector.get_eq_getElem]

theorem modDir_get_ne {n m : Fin 16} (f : DirEntry → DirEntry) (u : Store) (h : m ≠ n) :
    (modDir n f u).directory.get m = u.directory.get m := get_set_ne _ _ h

theorem modDir_get_eq {n : Fin 16} (f : DirEntry → DirEntry) (u : Store) :
    (modDir n f u).directory.get n = f (u.directory.get n) := get_set_eq _ _

/-- A change that keeps the protections keeps every entry's. -/
theorem modDir_marks {n : Fin 16} (f : DirEntry → DirEntry) (u : Store)
    (h : ∀ e, protections (f e) = protections e) (m : Fin 16) :
    protections ((modDir n f u).directory.get m) = protections (u.directory.get m) := by
  by_cases k : m = n
  · subst k
    rw [modDir_get_eq, h]
  · rw [modDir_get_ne _ _ k]

theorem acceptCommit_marks (g : Staging) (u : Store) (m : Fin 16) :
    protections ((acceptCommit g u).directory.get m) = protections (u.directory.get m) :=
  modDir_marks (fun e => { e with state := .writing }) _ (fun _ => rfl) m

theorem acceptCommit_writeProtected (g : Staging) (u : Store) (m : Fin 16) :
    ((acceptCommit g u).directory.get m).writeProtected = (u.directory.get m).writeProtected :=
  congrArg Prod.fst (acceptCommit_marks g u m)

theorem acceptCommit_other (g : Staging) (u : Store) {m : Fin 16} (h : m ≠ g.number) :
    (acceptCommit g u).directory.get m = u.directory.get m := modDir_get_ne _ _ h

theorem askProfileErase_asked (b : List Byte) : Asked r s (askProfileErase b s).state := by
  unfold askProfileErase
  split
  · split
    · exact .refl r s
    · split
      · rename_i n _
        unfold eraseProfile
        split
        · exact .refl r s
        · rename_i hw
          split
          · exact .refl r s
          · rename_i hf
            dsimp only [okWith, acceptedWith]
            refine asked_store _ rfl (fun _ => rfl) (fun _ _ _ _ _ => rfl)
              (starts_inUse (n := n) (by simpa using hf) rfl ?_ (fun m => ?_) fun _ _ => rfl) fun _ m _ hm => ?_
            · rfl
            · simp [startOp, Store.busyOn, Store.running, eq_comm]
            · simp only [modStore, startOp, Option.some.injEq] at hm
              subst hm
              simpa [modStore, startOp] using hw
      · exact .refl r s
  · exact .refl r s

theorem askProfileProtect_asked (b : List Byte) : Asked r s (askProfileProtect b s).state := by
  unfold askProfileProtect
  split
  · split
    · exact .refl r s
    · split
      · rename_i n _
        split
        · unfold protectProfile
          split
          · exact .refl r s
          · split
            · exact .refl r s
            · rename_i hf
              dsimp only [okWith, acceptedWith]
              refine asked_store _ rfl (fun _ => rfl) (fun _ _ _ _ _ => rfl)
                (starts_inUse (n := n) (by simpa using hf) rfl ?_ (fun m => ?_) fun _ _ => rfl) fun _ m hr _ => ?_
              · rfl
              · simp [startOp, Store.busyOn, Store.running, eq_comm]
              · simp [modStore, startOp, Store.running] at hr
        · exact .refl r s
      · exact .refl r s
  · exact .refl r s

theorem anyActive_none (h : s.anyActive = false) (y : StationId) : s.active y = false := by
  unfold State.anyActive at h
  cases y <;> simp_all

theorem inUse_none (h : ∀ y, t.active y = false) : InUseLaw t := by
  intro y hy
  rw [h y] at hy
  cases hy

theorem askStoreClear_asked (b : List Byte) : Asked r s (askStoreClear b s).state := by
  unfold askStoreClear
  split
  · split
    · exact .refl r s
    · split
      · exact .refl r s
      · rename_i ha
        dsimp only [okWith, acceptedWith]
        refine asked_store _ rfl (fun _ => rfl) (fun _ _ _ _ _ => rfl)
          (fun _ => inUse_none fun y => anyActive_none (s := s) (by simpa using ha) y) fun _ m hr _ => ?_
        simp [modStore, startOp, Store.running] at hr
  · exact .refl r s

theorem askProfileCommit_asked (b : List Byte) : Asked r s (askProfileCommit b s).state := by
  unfold askProfileCommit
  split
  · split
    · exact .refl r s
    · rename_i hrun
      unfold commitStaging
      split
      · exact .refl r s
      · rename_i g _
        split
        · exact .refl r s
        · split
          · exact .refl r s
          · rename_i hw
            split
            · have idle : s.store.running = none := by simpa using hrun
              dsimp only [okWith, acceptedWith]
              refine asked_store _ rfl (fun _ => rfl) (fun _ _ _ _ _ => rfl) (fun h y hy => ?_)
                fun _ m hr _ => ?_
              · obtain ⟨p, h1, h2, h3, h4, h5⟩ := h y hy
                exact ⟨p, h1, h2, h3, rfl, rfl⟩
              · simp [modStore, Store.running] at hr
            · split
              · exact .refl r s
              · rename_i hf
                dsimp only [okWith, acceptedWith]
                refine asked_store _ rfl (fun m => ?_) (fun h y p hy hp => ?_)
                  (starts_inUse (n := g.number) (by simpa using hf) rfl rfl (fun m => ?_) fun m hm => ?_)
                  fun _ m _ hm => ?_
                · exact acceptCommit_marks g s.store m
                · exact acceptCommit_other g _ (unreferenced (by simpa using hf) h hy hp)
                · simp [acceptCommit, modDir, startOp, Store.busyOn, Store.running, eq_comm]
                · exact acceptCommit_other g _ hm
                · simp only [modStore, acceptCommit, modDir, startOp, Option.some.injEq] at hm
                  subst hm
                  rw [show (modStore (acceptCommit g) s).store = acceptCommit g s.store from rfl,
                    acceptCommit_writeProtected]
                  simpa using hw
  · exact .refl r s

/-! ## Staging -/

theorem withStaging_asked {f : Staging → Answer} (h : ∀ g, Asked r s (f g).state) :
    Asked r s (withStaging s f).state := by
  unfold withStaging
  split
  · exact .refl r s
  · split
    · exact .refl r s
    · exact h _

theorem askProfileOpen_asked (b : List Byte) : Asked r s (askProfileOpen b s).state := by
  unfold askProfileOpen
  split
  · split
    · unfold openProfile
      simp only
      repeat' split
      all_goals first | exact .refl r s | skip
      all_goals dsimp only [okWith, acceptedWith]
      all_goals exact asked_store _ rfl (fun _ => rfl) (fun _ _ _ _ _ => rfl) id id
    · exact .refl r s
  · exact .refl r s

theorem askHeaderWrite_asked (b : List Byte) : Asked r s (askHeaderWrite b s).state := by
  unfold askHeaderWrite
  split
  · refine withStaging_asked fun g => ?_
    split
    · exact asked_staging _
    · exact .refl r s
  · exact .refl r s

theorem askSegmentWrite_asked (b : List Byte) : Asked r s (askSegmentWrite b s).state := by
  unfold askSegmentWrite
  split
  · split
    · refine withStaging_asked fun g => ?_
      split
      · exact .refl r s
      · split
        · exact asked_staging _
        · exact .refl r s
    · exact .refl r s
  · exact .refl r s

theorem askSegmentTruncate_asked (b : List Byte) : Asked r s (askSegmentTruncate b s).state := by
  unfold askSegmentTruncate
  split
  · refine withStaging_asked fun g => ?_
    split
    · exact .refl r s
    · exact asked_staging _
  · exact .refl r s

theorem askProfileCancel_asked (b : List Byte) : Asked r s (askProfileCancel b s).state := by
  unfold askProfileCancel
  split
  · split
    · exact .refl r s
    · exact asked_staging _
  · exact .refl r s

/-! ## Parameters, programs, the slot map -/

theorem quiet_granted (h : Live s) {y : StationId} (k : s.active y = false) : QuenchIdle (s.st y) :=
  (h.at_ y).quench.idle (.inl k)

theorem quiet_phase (h : Live s) {y : StationId} (k : s.active y = false) : (s.st y).seq.phase = none := by
  by_contra hp
  have := (h.at_ y).quench.phaseTail hp
  unfold State.active at k
  rw [this] at k
  cases k

/-- A change in the copy of an inactive station that only its parameters and its programs see. -/
theorem asked_own {x : StationId} (o : Own x s t) (quiet : s.active x = false)
    (seq : (t.st x).seq = (s.st x).seq) (pcu : (t.st x).pcu = (s.st x).pcu)
    (qsc : (t.st x).qsc = (s.st x).qsc) (sar : (t.st x).sar = (s.st x).sar)
    (permit : (t.st x).eng.permit = (s.st x).eng.permit)
    (owed : (t.st x).eng.endOwed = (s.st x).eng.endOwed) : Asked r s t where
  pending := o.pending
  vdd := o.vdd
  seq y := by
    rcases eq_or_other x y with rfl | rfl
    · exact seq
    · rw [o.other (other_ne x)]
  profiles := by rw [o.store]
  marks n := by rw [o.store]
  entries _ _ _ _ _ := by rw [o.store]
  first _ := by
    unfold FirstKept
    rw [o.cdu]
    exact fun _ h => h
  inUse h y hy := by
    rcases eq_or_other x y with rfl | rfl
    · unfold State.active at *
      rw [seq] at hy
      rw [quiet] at hy
      cases hy
    · unfold State.active at hy
      rw [o.other (other_ne x)] at hy ⊢
      rw [o.store]
      exact h _ hy
  protect h := by
    unfold ProtectLaw at *
    rw [o.store]
    exact h
  cond h := by
    unfold CondLaw at *
    rw [o.cdu]
    exact h
  severity h := by
    unfold SeverityLaw at *
    rw [o.cdu]
    exact h
  map h := by
    unfold MapLaw at *
    rw [o.link]
    exact h
  power h y := by
    rcases eq_or_other x y with rfl | rfl
    · have := h y
      unfold PowerLaw at *
      rw [seq, pcu, permit]
      exact this
    · rw [o.other (other_ne x)]
      exact h _
  travel h y := by
    rcases eq_or_other x y with rfl | rfl
    · have := h y
      unfold TravelLaw at *
      rw [seq]
      exact this
    · rw [o.other (other_ne x)]
      exact h _
  live h := by
    have a := h.at_ x
    refine h.change (x := x) (o.other (other_ne x)) (restAt ?_ ?_ ?_ ?_ ?_)
      (h.supply.fall o.params (o.other (other_ne x)) (by rw [sar]))
    · have := quiet_granted h quiet
      unfold QuenchIdle at *
      rw [qsc, sar]
      exact this
    · rw [seq]
      exact quiet_phase h quiet
    · have := a.pending
      unfold PendingLaw at *
      rw [seq]
      exact this
    · have := a.held
      unfold HeldLaw at *
      rw [seq]
      exact this
    · have := a.check
      unfold CheckLaw at *
      rw [qsc]
      exact this
  rest h y := by
    rcases eq_or_other x y with rfl | rfl
    · have := h y
      unfold Settled at *
      rw [seq, owed]
      exact this
    · rw [o.other (other_ne x)]
      exact h _

theorem asked_params (f : GlobalParams → GlobalParams) (quiet : s.anyActive = false) :
    Asked r s { s with params := f s.params } where
  pending := rfl
  vdd := rfl
  seq _ := rfl
  profiles := rfl
  marks _ := rfl
  entries _ _ _ _ _ := rfl
  first _ _ h := h
  inUse := id
  protect := id
  cond := id
  severity := id
  map := id
  power := id
  travel := id
  live h := by
    refine ⟨h.at_, fun _ _ => ?_⟩
    have ha := (quiet_granted h (anyActive_none quiet .a)).2.2.1
    have hb := (quiet_granted h (anyActive_none quiet .b)).2.2.1
    show (s.st .a).sar.granted + (s.st .b).sar.granted ≤ _
    rw [ha, hb]
    exact Nat.zero_le _
  rest := id

theorem askParamWrite_asked (b : List Byte) : Asked r s (askParamWrite b s).state := by
  unfold askParamWrite
  split
  · unfold writeParam
    split
    · rename_i sc _ _
      split
      · exact .refl r s
      · split
        · exact .refl r s
        · split
          · exact .refl r s
          · rename_i ha
            cases sc with
            | none => exact asked_params _ (by simpa [scopeActive] using ha)
            | some x =>
              dsimp only [okWith, putParam]
              exact asked_own (own_modSt x _ s) (by simpa [scopeActive] using ha) (by cases x <;> rfl)
                (by cases x <;> rfl) (by cases x <;> rfl) (by cases x <;> rfl) (by cases x <;> rfl)
                (by cases x <;> rfl)
    · exact .refl r s
  · exact .refl r s

theorem askProgramWrite_asked (b : List Byte) : Asked r s (askProgramWrite b s).state := by
  unfold askProgramWrite
  split
  · split
    · rename_i x _ _ _ _ _ _ _ _ _ _ _
      unfold writeProgram
      split
      · exact .refl r s
      · split
        · exact .refl r s
        · rename_i ha
          dsimp only [okWith]
          exact asked_own (own_modEng x _ s) (by simpa using ha) (by simp) (by simp) (by simp) (by simp)
            (by simp) (by simp)
    · exact .refl r s
  · exact .refl r s

theorem mapEntry_set (m : SlotMap) (i j : Nat) (e : Option MapEntry) :
    mapEntry (m.setIfInBounds i e) j = if i = j ∧ i < 16 then e else mapEntry m j := by
  unfold mapEntry
  by_cases h : i = j
  · subst h
    by_cases k : i < 16
    · simp [k]
    · simp [k]
  · simp [h]

theorem clearSignalRun_map (g : Signal) (l : Link) : (clearSignalRun g l).map = l.map := by
  cases g <;> rfl

theorem putMap_map (i : Nat) (e : Option MapEntry) (l : Link) :
    (putMap i e l).map = l.map.setIfInBounds i e := by
  unfold putMap
  simp only
  split
  · rw [clearSignalRun_map]
  · rfl

theorem mapClash_false {m : SlotMap} {i : Nat} {e : MapEntry} (h : mapClash m i e = false) {j : Nat}
    {f : MapEntry} (hj : mapEntry m j = some f) (ne : j ≠ i) :
    f.slotId ≠ e.slotId ∧ f.signal ≠ e.signal := by
  have lt : j < 16 := by
    by_contra k
    unfold mapEntry at hj
    rw [Vector.getElem?_eq_none (xs := m) (by omega)] at hj
    cases hj
  unfold mapClash at h
  rw [List.any_eq_false] at h
  have := h j (List.mem_range.2 lt)
  simp only [hj, ne, ne_eq, not_false_eq_true, decide_true, Option.any_some, Bool.true_and,
    decide_eq_true_eq, not_or] at this
  exact this

theorem putMap_law (i : Nat) (e : Option MapEntry) (ok : ∀ f, e = some f → mapClash s.link.map i f = false)
    (h : MapLaw s) : MapLaw (modLink (putMap i e) s) := by
  intro a b f g ha hb ne
  have hm : (modLink (putMap i e) s).link.map = s.link.map.setIfInBounds i e := putMap_map i e s.link
  rw [hm, mapEntry_set] at ha hb
  split at ha
  · rename_i ka
    split at hb
    · rename_i kb
      exact absurd (ka.1.symm.trans kb.1) ne
    · have := mapClash_false (ok f ha) hb (fun k => ne (ka.1.symm.trans k.symm))
      exact ⟨this.1.symm, this.2.symm⟩
  · split at hb
    · rename_i kb
      exact mapClash_false (ok g hb) ha (fun k => ne (k.trans kb.1))
    · exact h a b f g ha hb ne

theorem askMapWrite_asked (b : List Byte) : Asked r s (askMapWrite b s).state := by
  unfold askMapWrite
  split
  · split
    · split
      · unfold writeMap
        split
        · exact .refl r s
        · split
          · exact .refl r s
          · rename_i hc
            split
            · exact .refl r s
            · refine asked_link _ (putMap_law _ _ fun f hf => ?_)
              injection hf with hf
              subst hf
              simpa using hc
      · exact .refl r s
    · split
      · unfold emptyMap
        split
        · exact .refl r s
        · split
          · exact .refl r s
          · exact asked_link _ (putMap_law _ _ fun f hf => by cases hf)
      · exact .refl r s
    · exact .refl r s
  · exact .refl r s

/-! ## Conditions -/

/-- Every pending entry has its severity. -/
def Table (u : Conditions) : Prop := ∀ c sc, (u.entry c sc).pending = true → (u.entry c sc).lastSeverity ≠ none

theorem table_put {u : Conditions} (h : Table u) (c : Cond) (sc : Scope) (e : CondEntry)
    (he : e.pending = true → e.lastSeverity ≠ none) : Table (u.putEntry c sc e) := by
  intro d sd
  rcases entry_putEntry_or u c d sc sd e with k | k
  · rw [k]
    exact he
  · rw [k]
    exact h d sd

theorem askCondTake_asked (b : List Byte) : Asked r s (askCondTake b s).state := by
  unfold askCondTake
  split
  · split
    · exact .refl r s
    · dsimp only
      exact asked_cdu _ (fun _ _ h => h) (fun h => table_put h _ _ _ fun k => by cases k) id
  · exact .refl r s

theorem cleared_table (keys : List (Cond × Scope)) (counts : Bool) (u : Conditions) (h : Table u) :
    Table (keys.foldl (fun u k => u.putEntry k.1 k.2 (clearedBy counts (u.entry k.1 k.2))) u) := by
  induction keys generalizing u with
  | nil => exact h
  | cons k ks ih =>
    refine ih _ (table_put h _ _ _ fun p => ?_)
    unfold clearedBy at p
    split at p <;> cases p

theorem cleared_other (keys : List (Cond × Scope)) (counts : Bool) (u : Conditions) :
    let v := keys.foldl (fun u k => u.putEntry k.1 k.2 (clearedBy counts (u.entry k.1 k.2))) u
    v.first = u.first ∧ v.severity = u.severity := by
  induction keys generalizing u with
  | nil => exact ⟨rfl, rfl⟩
  | cons k ks ih => exact ih _

theorem askCondClear_asked (b : List Byte) : Asked r s (askCondClear b s).state := by
  unfold askCondClear
  split
  · split
    · split
      · unfold clearConditions
        dsimp only
        refine asked_cdu _ (fun _ q h => ?_) (fun h => cleared_table _ _ _ h) fun h c => ?_
        · show (List.foldl _ s.cdu _).first = _
          rw [(cleared_other _ _ _).1]
          exact h
        · unfold Conditions.setSeverity modCdu
          simp only
          rw [(cleared_other _ _ _).2]
          exact h c
      · exact .refl r s
    · exact .refl r s
  · exact .refl r s

theorem askSeverityWrite_asked (b : List Byte) : Asked r s (askSeverityWrite b s).state := by
  unfold askSeverityWrite
  split
  · split
    · rename_i k v _ _
      split
      · exact .refl r s
      · rename_i hv
        dsimp only [okWith]
        refine asked_cdu _ (fun _ _ h => h) id fun h c => ?_
        unfold Conditions.setSeverity modCdu Conditions.putSeverity
        simp only [Vector.getElem?_setIfInBounds]
        have hc : c.code - 1 < 28 := by cases c <;> decide
        by_cases e : k.code - 1 = c.code - 1
        · have key : ∀ k c : Cond, k.code - 1 = c.code - 1 → k = c := by
            intro k c
            cases k <;> cases c <;> decide
          have := key k c e
          subst this
          simp only [hc, if_true, Option.getD_some]
          omega
        · rw [if_neg e]
          exact h c
    · exact .refl r s
  · exact .refl r s

theorem askFirstRelease_asked (b : List Byte) : Asked False s (askFirstRelease b s).state := by
  unfold askFirstRelease
  split
  · dsimp only [okWith]
    exact asked_cdu _ (fun h => h.elim) id id
  · exact .refl _ s

/-! ## The channel -/

theorem askReads_state (b : List Byte) :
    (askIdent b s).state = s ∧ (askParamRead b s).state = s ∧ (askMapRead b s).state = s ∧
    (askProgramRead b s).state = s ∧ (askDirRead b s).state = s ∧ (askHeaderRead b s).state = s ∧
    (askSegmentRead b s).state = s ∧ (askOpQuery b s).state = s ∧ (askCondRead b s).state = s ∧
    (askFirstRead b s).state = s ∧ (askSeverityRead b s).state = s ∧ (askResultRead b s).state = s ∧
    (askResultSegmentRead b s).state = s ∧ (askRetainedRead b s).state = s ∧
    (askSampleRead b s).state = s := by
  refine ⟨?_, ?_, ?_, ?_, ?_, ?_, ?_, ?_, ?_, ?_, ?_, ?_, ?_, ?_, ?_⟩
  · unfold askIdent; repeat' split
    all_goals rfl
  · unfold askParamRead; repeat' split
    all_goals rfl
  · unfold askMapRead; repeat' split
    all_goals rfl
  · unfold askProgramRead; repeat' split
    all_goals rfl
  · unfold askDirRead; repeat' split
    all_goals rfl
  · unfold askHeaderRead readStored; simp only; repeat' split
    all_goals rfl
  · unfold askSegmentRead readStored; simp only; repeat' split
    all_goals rfl
  · unfold askOpQuery; repeat' split
    all_goals rfl
  · unfold askCondRead; repeat' split
    all_goals rfl
  · unfold askFirstRead; repeat' split
    all_goals rfl
  · unfold askSeverityRead; repeat' split
    all_goals rfl
  · unfold askResultRead; repeat' split
    all_goals rfl
  · unfold askResultSegmentRead; repeat' split
    all_goals rfl
  · unfold askRetainedRead; repeat' split
    all_goals rfl
  · unfold askSampleRead; repeat' split
    all_goals rfl

theorem Asked.of_eq (h : t = s) : Asked r s t := h ▸ .refl r s

theorem Asked.mono {q : Prop} (h : Asked r s t) (k : q → r) : Asked q s t :=
  { h with first := fun a => h.first (k a) }

/-- Serving a request, whatever its code. -/
theorem serve_asked (code : Byte) (b : List Byte) : Asked (code.toNat ≠ 25) s (serve code b s).state := by
  obtain ⟨h1, h2, h3, h4, h5, h6, h7, h8, h9, h10, h11, h12, h13, h14, h15⟩ := askReads_state (s := s) b
  unfold serve
  split
  · exact .of_eq h1
  · exact .of_eq h2
  · exact askParamWrite_asked b
  · exact .of_eq h3
  · exact askMapWrite_asked b
  · exact .of_eq h4
  · exact askProgramWrite_asked b
  · exact askProfileOpen_asked b
  · exact askHeaderWrite_asked b
  · exact askSegmentWrite_asked b
  · exact askSegmentTruncate_asked b
  · exact askProfileCancel_asked b
  · exact askProfileCommit_asked b
  · exact askProfileErase_asked b
  · exact askProfileProtect_asked b
  · exact askStoreClear_asked b
  · exact .of_eq h5
  · exact .of_eq h6
  · exact .of_eq h7
  · exact .of_eq h8
  · exact .of_eq h9
  · exact askCondTake_asked b
  · exact askCondClear_asked b
  · exact .of_eq h10
  · rename_i hc
    exact (askFirstRelease_asked b).mono fun k => k hc
  · exact .of_eq h11
  · exact askSeverityWrite_asked b
  · exact .of_eq h12
  · exact .of_eq h13
  · exact .of_eq h14
  · exact .of_eq h15
  · exact .refl _ s

theorem holdReply_asked (tag : Byte) (a : Answer) (h : Asked r s a.state) : Asked r s (holdReply tag a) :=
  h.trans (asked_unmapped _ rfl)

/-- The code of the request a frame carries frees no first-condition record. -/
def NoRelease (frame : List Byte) : Prop := (serviceOf frame).any (fun v => v.code == 25) = false

theorem takeRequest_asked (frame : List Byte) : Asked (NoRelease frame) s (takeRequest frame s) := by
  unfold takeRequest
  simp only
  have h0 : Asked (NoRelease frame) s (noReply s) := asked_unmapped _ rfl
  split
  · exact h0
  · rename_i c hc
    split
    · refine h0.trans (holdReply_asked _ _ ?_)
      unfold answerChannel
      split
      · exact .refl _ _
      · refine (serve_asked _ _).mono fun k e => ?_
        unfold NoRelease at k
        rw [hc] at k
        simp only [Option.any_some, beq_eq_false_iff_ne, ne_eq] at k
        exact k (BitVec.eq_of_toNat_eq e)
    · exact h0

theorem takeEarly_asked : Asked r s (takeEarly s) := by
  unfold takeEarly
  refine asked_bump.trans ?_
  exact asked_unmapped _ rfl

theorem openWait_asked (n : CycleNumber) : Asked r s (openWait n s) := by
  unfold openWait
  simp only
  split
  · exact Asked.trans (asked_unmapped _ rfl) takeEarly_asked
  · exact asked_unmapped _ rfl

end

end Sys2Proof.Machine
end

