-- ==== Sys2Proof/Laws/Link.lean ====
section
/-! SUPPORT. The passes of the cycle link: what frames, timers and link resets leave alone and the laws they keep. -/

namespace Sys2Proof.Machine

section

variable {s t : State} {r : Prop}

/-- What the link's work keeps short of a service request; the indices rise when `r` holds. -/
structure Passed (r : Prop) (s t : State) : Prop where
  pending : t.pending = s.pending
  vdd : t.vdd = s.vdd
  directory : t.store.directory = s.store.directory
  profiles : t.store.profiles = s.store.profiles
  register : t.store.register = s.store.register
  severity : t.cdu.severity = s.cdu.severity
  first : FirstKept s t
  map : t.link.map = s.link.map
  rises : r → IndexRises s t
  inUse : InUseLaw s → InUseLaw t
  cond : CondLaw s → CondLaw t
  power : (∀ y, PowerLaw (s.st y)) → ∀ y, PowerLaw (t.st y)
  travel : (∀ y, TravelLaw (s.st y)) → ∀ y, TravelLaw (t.st y)
  live : Live s → Live t
  rest : Rest s → Rest t

theorem Passed.refl (r : Prop) (s : State) : Passed r s s :=
  ⟨rfl, rfl, rfl, rfl, rfl, rfl, fun _ h => h, rfl, fun _ => .refl s, id, id, id, id, id, id⟩

theorem Passed.trans {u : State} (h : Passed r s t) (k : Passed r t u) : Passed r s u :=
  ⟨k.pending.trans h.pending, k.vdd.trans h.vdd, k.directory.trans h.directory,
    k.profiles.trans h.profiles, k.register.trans h.register, k.severity.trans h.severity,
    fun q a => k.first q (h.first q a), k.map.trans h.map, fun a => (h.rises a).trans (k.rises a),
    k.inUse ∘ h.inUse, k.cond ∘ h.cond, k.power ∘ h.power, k.travel ∘ h.travel, k.live ∘ h.live,
    k.rest ∘ h.rest⟩

theorem Passed.mono {q : Prop} (h : Passed r s t) (k : q → r) : Passed q s t :=
  { h with rises := fun a => h.rises (k a) }

theorem Taken.passed (h : Taken s t) (rises : r → IndexRises s t) : Passed r s t where
  pending := h.blocks.pending
  vdd := h.blocks.vdd
  directory := by
    have e := congrArg Store.directory h.blocks.store
    exact e
  profiles := by
    have e := congrArg Store.profiles h.blocks.store
    exact e
  register := by
    have e := congrArg Store.register h.blocks.store
    exact e
  severity := h.blocks.severity
  first := h.blocks.first
  map := by rw [h.blocks.link]
  rises := rises
  inUse := h.inUse
  cond := h.cond
  power := h.power
  travel := h.travel
  live := h.live
  rest := h.rest

theorem Whole.passed (h : Whole s t) : Passed r s t := h.taken.passed fun _ => h.inner.rises

theorem Event.passed (h : Event s t) : Passed r s t := h.whole.passed

/-- The link unit changes, and the slot map stays. -/
theorem passed_link (f : Link → Link) (map : (f s.link).map = s.link.map) : Passed r s (modLink f s) :=
  ⟨rfl, rfl, rfl, rfl, rfl, rfl, fun _ h => h, map, fun _ _ i h => ⟨i, h, Nat.le_refl i⟩, id, id, id, id,
    fun h => h.alike rfl fun _ => .refl _, id⟩

theorem raisePart_passed (c : Cond) (s : State) : Passed r s (raisePart c s) := (raise_event c _ _ s).passed

theorem raiseSt_passed (c : Cond) (x : StationId) (s : State) : Passed r s (raiseSt c x s) :=
  (raise_event c _ _ s).passed

/-! ## The closing of a wait -/

/-- What a closed wait keeps: no station becomes active or changes its profile. -/
structure Handed (s t : State) : Prop where
  passed : Passed True s t
  held : HeldKept s t

theorem Handed.refl (s : State) : Handed s s := ⟨.refl _ s, .refl s⟩

theorem Handed.trans {u : State} (h : Handed s t) (k : Handed t u) : Handed s u :=
  ⟨h.passed.trans k.passed, h.held.trans k.held⟩

theorem Handed.any (h : Handed s t) : Passed r s t := h.passed.mono fun _ => trivial

theorem Whole.handed (h : Whole s t) : Handed s t := ⟨h.passed, h.inner.held⟩

theorem Event.handed (h : Event s t) : Handed s t := h.whole.handed

theorem handed_link (f : Link → Link) (map : (f s.link).map = s.link.map) : Handed s (modLink f s) :=
  ⟨passed_link f map, fun _ h => ⟨h, rfl, rfl⟩⟩

theorem raiseSt_handed (c : Cond) (x : StationId) (s : State) : Handed s (raiseSt c x s) :=
  (raise_event c _ _ s).handed

theorem recordOne_handed (m : SlotMap) (c : Cycle) (k : Captured) : Handed s (recordOne m c s k) := by
  unfold recordOne
  simp only
  split
  · exact Handed.trans (handed_link _ rfl) (raiseSt_handed _ _ _)
  · exact handed_link _ rfl

theorem handOne_handed (k : RetuneMarks) (c : Cycle) (v : Captured) : Handed s (handOne k c s v) := by
  unfold handOne
  split
  · exact (positionHanded_whole _).handed
  · exact (positionHanded_whole _).handed
  · exact (powerTaken_event _ _).handed
  · exact (quenchHanded_event _).handed
  · exact (quenchHanded_event _).handed
  · exact (temperatureHanded_event _).handed
  · exact (temperatureHanded_event _).handed

theorem foldl_handed {α : Type} (f : State → α → State) (h : ∀ u a, Handed u (f u a)) (l : List α)
    (s : State) : Handed s (l.foldl f s) := by
  induction l generalizing s with
  | nil => exact .refl s
  | cons a l ih => exact (h s a).trans (ih _)

/-- A fold of work that is kept. -/
theorem foldl_passed {α : Type} (f : State → α → State) (h : ∀ u a, Passed r u (f u a)) (l : List α)
    (s : State) : Passed r s (l.foldl f s) := by
  induction l generalizing s with
  | nil => exact .refl r s
  | cons a l ih => exact (h s a).trans (ih _)

theorem judgeAfter_handed (c : Cycle) (all rest : List Captured) (v : Captured) :
    Handed s (judgeAfter c all rest v s) := by
  unfold judgeAfter
  split
  · exact (powerJudged_event _).handed
  · exact .refl s

theorem handFrom_handed (k : RetuneMarks) (c : Cycle) (all l : List Captured) (s : State) :
    Handed s (handFrom k c all l s) := by
  induction l generalizing s with
  | nil => exact .refl s
  | cons v l ih => exact ((handOne_handed k c v).trans (judgeAfter_handed c all l v)).trans (ih _)

theorem closeSamples_handed (m : SlotMap) (c : Cycle) (cs : List Captured) :
    Handed s (closeSamples m c cs s) := by
  unfold closeSamples handAll
  simp only
  exact ((foldl_handed _ (fun _ _ => recordOne_handed m c _) cs s).trans (bump_event _).handed).trans
    (handFrom_handed _ c _ _ _)

/-- An order picked by a numeral is an order of the same list. -/
theorem permute_perm {α : Type} (fuel n : Nat) (l : List α) (h : l.length = fuel) :
    (permute fuel n l).Perm l := by
  induction fuel generalizing n l with
  | zero =>
    rw [List.length_eq_zero_iff.mp h]
    exact .refl _
  | succ k ih =>
    have hl : n % l.length < l.length := Nat.mod_lt _ (by omega)
    unfold permute
    rw [List.getElem?_eq_getElem hl]
    exact ((ih (n / l.length) (l.eraseIdx (n % l.length)) (by rw [List.length_eraseIdx_of_lt hl]; omega)).cons
      _).trans (List.getElem_cons_eraseIdx_perm hl)

/-- Eight captures are handed on in some order (R76, R155). -/
theorem handAll_handedOn (c : Cycle) (cs : List Captured) (s : State) (h : cs.length = 8) :
    HandedOn c cs s (handAll c cs s) :=
  ⟨permute 8 (Config.handOrder s.draws) cs, permute_perm 8 _ cs h, rfl⟩

/-- A wait without a return closes with eight MISSING samples (R152, R154). -/
theorem closeLost_closed (w : ReturnWait) (s : State) :
    ClosedWith s.link.map w.count capturesLost s (closeLost w s) := handAll_handedOn _ _ _ rfl

/-- A wait closes with the eight samples of its valid return (R154, R155). -/
theorem closeValid_closed (w : ReturnWait) (m : SlotMap) (frame : List Byte) (s : State) :
    ClosedWith m w.count (capturesOf m frame) s (closeValid w m frame s) := handAll_handedOn _ _ _ rfl

theorem closeLost_handed (w : ReturnWait) : Handed s (closeLost w s) :=
  Handed.trans (handed_link _ rfl) (closeSamples_handed _ _ _)

theorem closeLost_passed (w : ReturnWait) : Passed r s (closeLost w s) := (closeLost_handed w).any

theorem timeOut_passed (w : ReturnWait) : Passed r s (timeOut w s) :=
  (raisePart_passed _ s).trans (closeLost_passed w)

theorem closeValid_handed (w : ReturnWait) (m : SlotMap) (frame : List Byte) :
    Handed s (closeValid w m frame s) :=
  Handed.trans (handed_link _ rfl) (closeSamples_handed _ _ _)

/-- The link unit is as it was but for its sample records. -/
def SamplesOnly (s t : State) : Prop := { t.link with samples := s.link.samples } = s.link

theorem SamplesOnly.refl (s : State) : SamplesOnly s s := rfl

theorem SamplesOnly.trans {u : State} (h : SamplesOnly s t) (k : SamplesOnly t u) : SamplesOnly s u := by
  unfold SamplesOnly at *
  rw [← k] at h
  exact h

theorem SamplesOnly.of_link (h : t.link = s.link) : SamplesOnly s t := by
  unfold SamplesOnly
  rw [h]

theorem Whole.samplesOnly (h : Whole s t) : SamplesOnly s t := .of_link h.inner.blocks.link

theorem Event.samplesOnly (h : Event s t) : SamplesOnly s t := h.whole.samplesOnly

theorem samplesOnly_set (g : Link → Pair SampleSet) :
    SamplesOnly s (modLink (fun l => { l with samples := g l }) s) := rfl

theorem recordOne_samplesOnly (m : SlotMap) (c : Cycle) (k : Captured) : SamplesOnly s (recordOne m c s k) := by
  unfold recordOne
  simp only
  split
  · exact (samplesOnly_set _).trans (raise_event _ _ _ _).samplesOnly
  · exact samplesOnly_set _

theorem handOne_samplesOnly (k : RetuneMarks) (c : Cycle) (v : Captured) : SamplesOnly s (handOne k c s v) := by
  unfold handOne
  split
  · exact (positionHanded_whole _).samplesOnly
  · exact (positionHanded_whole _).samplesOnly
  · exact (powerTaken_event _ _).samplesOnly
  · exact (quenchHanded_event _).samplesOnly
  · exact (quenchHanded_event _).samplesOnly
  · exact (temperatureHanded_event _).samplesOnly
  · exact (temperatureHanded_event _).samplesOnly

theorem judgeAfter_samplesOnly (c : Cycle) (all rest : List Captured) (v : Captured) :
    SamplesOnly s (judgeAfter c all rest v s) := by
  unfold judgeAfter
  split
  · exact (powerJudged_event _).samplesOnly
  · rfl

theorem handFrom_samplesOnly (k : RetuneMarks) (c : Cycle) (all l : List Captured) (s : State) :
    SamplesOnly s (handFrom k c all l s) := by
  induction l generalizing s with
  | nil => rfl
  | cons v l ih => exact ((handOne_samplesOnly k c v).trans (judgeAfter_samplesOnly c all l v)).trans (ih _)

theorem recordAll_samplesOnly (m : SlotMap) (c : Cycle) (cs : List Captured) (s : State) :
    SamplesOnly s (cs.foldl (recordOne m c) s) := by
  induction cs generalizing s with
  | nil => rfl
  | cons v l ih => exact (recordOne_samplesOnly m c v).trans (ih _)

/-- The closing of a wait changes the sample records of the link unit and nothing else of it. -/
theorem closeSamples_samplesOnly (m : SlotMap) (c : Cycle) (cs : List Captured) :
    SamplesOnly s (closeSamples m c cs s) := by
  unfold closeSamples handAll
  simp only
  exact ((recordAll_samplesOnly m c cs s).trans (.of_link rfl)).trans (handFrom_samplesOnly _ c _ _ _)

/-- What a wait that closes without a return leaves of the link unit: the wait and its reply gone, the sample
records updated, and nothing else changed (R152, R155). -/
theorem timeOut_link (w : ReturnWait) :
    { (timeOut w s).link with samples := s.link.samples } =
      { s.link with wait := none, heldReply := none } := by
  have h := (raise_event .returnTimeout .part none s).inner.blocks.link
  have k : SamplesOnly (dropWait (raisePart .returnTimeout s)) (timeOut w s) := closeSamples_samplesOnly _ _ _
  unfold SamplesOnly dropWait raisePart at k
  rw [modLink_link, h] at k
  exact k

theorem raiseBothMissing_event : Event s (raiseBothMissing s) :=
  (raise_event _ _ _ _).trans (raise_event _ _ _ _)

theorem checkStatus_handed (m : SlotMap) (frame : List Byte) : Handed s (checkStatus m frame s) := by
  unfold checkStatus
  split
  · exact .refl s
  · simp only
    split
    · exact Handed.trans (handed_link _ rfl) raiseBothMissing_event.handed
    · exact handed_link _ rfl

theorem closeBy_handed (w : ReturnWait) (m : SlotMap) (frame : List Byte) :
    Handed s (closeBy w m frame s) := by
  unfold closeBy
  split
  · exact (checkStatus_handed _ _).trans (closeValid_handed _ _ _)
  · exact closeLost_handed _

/-- Closing the wait by an early return that has come to its end. -/
theorem closeEnded_handed (n : CycleNumber) : Handed s (closeEnded n s) := by
  unfold closeEnded
  split
  · exact .refl s
  · simp only
    split
    · exact Handed.trans (handed_link _ rfl) (closeBy_handed _ _ _)
    · exact handed_link _ rfl

/-! ## The outbound pass -/

theorem overtake_passed : Passed r s (overtake s) := by
  unfold overtake
  split
  · exact timeOut_passed _
  · exact .refl r s

/-- The snapshot of a CYCLE frame is that of the state its arrival leaves, an overtaken wait being closed before
it is taken (R149, R152). -/
theorem arriveU_passU (n : CycleNumber) :
    (arriveU n s).link.passU = some
      { number := n, map := (arriveU n s).link.map,
        snapshot := { a := snapshotOf (arriveU n s) .a, b := snapshotOf (arriveU n s) .b } } := rfl

theorem arriveU_passed (n : CycleNumber) : Passed r s (arriveU n s) := by
  unfold arriveU
  exact overtake_passed.trans (passed_link _ rfl)

theorem ensureArrivedU_passed (h : FrameHeader) : Passed r s (ensureArrivedU h s) := by
  unfold ensureArrivedU
  split
  · exact .refl r s
  · split
    · exact arriveU_passed _
    · exact overtake_passed

theorem checkOutput_passed (m : SlotMap) (frame : List Byte) (k : StationId × Setpoint) :
    Passed r s (checkOutput m frame s k) := by
  unfold checkOutput
  split
  · exact .refl r s
  · simp only
    split
    · exact Passed.trans (passed_link _ rfl) (raiseSt_passed _ _ _)
    · exact passed_link _ rfl

theorem handBackAll_event (p : PassageU) : Event s (handBackAll p s) := by
  unfold handBackAll handBack
  exact (modPcu_event _ _ _ rfl rfl).trans (modPcu_event _ _ _ rfl rfl)

theorem Taken.indexless (h : Taken s t) : Passed False s t := h.passed fun a => a.elim

/-- Taking the CONTROL slot; while the nibbles are only adopted the indices stay. -/
theorem takeControl_passed (m : SlotMap) (frame : List Byte) :
    Passed (s.link.adoption = true) s (takeControl m frame s) := by
  unfold takeControl
  split
  · simp only
    have h0 : ∀ q : Prop, Passed q s (modLink (fun l => { l with controlRun := false, adoption := false }) s) :=
      fun q => passed_link _ rfl
    split
    · exact (h0 _).trans ((adoptNibble_event _).trans (adoptNibble_event _)).passed
    · rename_i ha
      refine Passed.mono (r := False) ?_ fun a => ha a
      exact (h0 _).trans ((handControl_taken _).trans (handControl_taken _)).indexless
  · split
    · exact Passed.trans (passed_link _ rfl) raiseBothMissing_event.passed
    · exact .refl _ s

theorem checkOutput_adoption (m : SlotMap) (frame : List Byte) (k : StationId × Setpoint) :
    (checkOutput m frame s k).link.adoption = s.link.adoption := by
  unfold checkOutput
  split
  · rfl
  · simp only
    split
    · unfold raiseSt
      rw [(raise_event _ _ _ _).inner.blocks.link]
      rfl
    · rfl

theorem checkOutputs_adoption (m : SlotMap) (frame : List Byte) :
    (checkOutputs m frame s).link.adoption = s.link.adoption := by
  unfold checkOutputs
  generalize setpoints = l
  induction l generalizing s with
  | nil => rfl
  | cons k l ih =>
    rw [List.foldl_cons, ih, checkOutput_adoption]

/-- Steps 2 to 4 of R150. -/
def beforeRequest (p : PassageU) (frame : List Byte) (s : State) : State :=
  takeControl p.map frame (handBackAll p (checkOutputs p.map frame s))

theorem completeUp_eq (p : PassageU) (n : CycleNumber) (frame : List Byte) :
    completeUp p n frame s = openWait n (takeRequest frame (beforeRequest p frame s)) := rfl

theorem checkOutputs_passed (m : SlotMap) (frame : List Byte) : Passed r s (checkOutputs m frame s) :=
  foldl_passed _ (fun _ _ => checkOutput_passed m frame _) _ s

theorem beforeRequest_passed (p : PassageU) (frame : List Byte) :
    Passed (s.link.adoption = true) s (beforeRequest p frame s) := by
  refine ((checkOutputs_passed p.map frame).trans (handBackAll_event p).passed).trans
    ((takeControl_passed p.map frame).mono fun k => ?_)
  rw [(handBackAll_event p).inner.blocks.link, checkOutputs_adoption]
  exact k

theorem takeEarly_passed : Passed r s (takeEarly s) := by
  unfold takeEarly
  exact (bump_event s).passed.trans (passed_link _ rfl)

theorem openWait_passed (n : CycleNumber) : Passed r s (openWait n s) := by
  unfold openWait
  simp only
  split
  · exact Passed.trans (passed_link _ rfl) takeEarly_passed
  · exact passed_link _ rfl

theorem countUp_passed (n : CycleNumber) : Passed r s (countUp n s) := by
  unfold countUp
  simp only
  split
  · exact Passed.trans (passed_link _ rfl) (raisePart_passed _ _)
  · exact passed_link _ rfl

theorem countDown_passed (n : CycleNumber) : Passed r s (countDown n s) := passed_link _ rfl

theorem leaveD_passed (n : CycleNumber) (frame : List Byte) : Passed r s (leaveD n frame s) :=
  passed_link _ rfl

theorem sendD_passed (b : List Byte) : Passed r s (sendD b s) := passed_link _ rfl

theorem sendU_passed (b : List Byte) : Passed r s (sendU b s) := passed_link _ rfl

theorem syncState_map (n : CycleNumber) (l : Link) : (syncState n l).map = l.map := by
  unfold syncState
  split <;> rfl

/-- Work that is followed by a service request, and then by the closing of a wait. -/
inductive Requested (r : Prop) (frame : List Byte) (s t : State) : Prop
  | only (h : Passed r s t)
  | then_ (u v : State) (h : Passed r s u) (k : Asked (NoRelease frame) u v) (l : Handed v t)

theorem completeUp_requested (p : PassageU) (n : CycleNumber) (frame : List Byte) :
    Requested (s.link.adoption = true) frame s (completeUp p n frame s) := by
  rw [completeUp_eq]
  exact .then_ _ _ (beforeRequest_passed p frame) ((takeRequest_asked frame).trans (openWait_asked n))
    (.refl _)

theorem Requested.after {frame : List Byte} {u : State} (h : Passed r s t) (k : Requested r frame t u) :
    Requested r frame s u := by
  cases k with
  | only k => exact .only (h.trans k)
  | then_ v w a b c => exact .then_ v w (h.trans a) b c

/-- A wait may be closed afterwards. -/
theorem Requested.close {frame : List Byte} {u : State} (h : Requested r frame s t) (k : Handed t u) :
    Requested r frame s u := by
  cases h with
  | only h => exact .only (h.trans k.any)
  | then_ v w a b c => exact .then_ v w a b (c.trans k)

theorem Requested.mono {q : Prop} {frame : List Byte} (h : Requested r frame s t) (k : q → r) :
    Requested q frame s t := by
  cases h with
  | only h => exact .only (h.mono k)
  | then_ v w a b c => exact .then_ v w (a.mono k) b c

theorem completeUp_commands (p : PassageU) (n : CycleNumber) (frame : List Byte) :
    Requested False frame s (completeUp p n frame s) :=
  (completeUp_requested p n frame).mono fun a => a.elim

theorem cycleUp_requested (h : FrameHeader) (frame : List Byte) :
    Requested False frame s (cycleUp h frame s) := by
  unfold cycleUp
  simp only
  split
  · exact .only (ensureArrivedU_passed h)
  · rename_i p _
    have h0 : Passed False s (ensureArrivedU h s) := ensureArrivedU_passed h
    generalize ensureArrivedU h s = u at h0
    have h1 := h0.trans (sendD_passed (outboundSent u.link p frame))
    generalize sendD (outboundSent u.link p frame) u = v at h1
    have h2 : Passed False s (modLink (fun l => { l with passU := none }) v) :=
      h1.trans (passed_link _ rfl)
    generalize modLink (fun l => { l with passU := none }) v = w at h2
    have h3 := h2.trans (countUp_passed h.number)
    generalize countUp h.number w = z at h3
    exact .after h3 ((completeUp_commands _ _ _).close (closeEnded_handed _))

/-- The link's fields as it enters UP. -/
def upLink (l : Link) : Link := { l with state := .up, good := 3, adoption := true }

theorem enterUp_eq (h : FrameHeader) (frame : List Byte) :
    enterUp h frame s = completeEntry s.link.map h.number frame
      (modLink upLink (countDown h.number (leaveD h.number frame s))) := rfl

/-- While the nibbles are still to be adopted, no command of the frame is carried out (R151), and its request
is not taken (R157). -/
theorem completeEntry_passed (m : SlotMap) (n : CycleNumber) (frame : List Byte) :
    Passed (s.link.adoption = true) s (completeEntry m n frame s) := by
  unfold completeEntry
  refine ((checkOutputs_passed m frame).trans ((takeControl_passed m frame).mono fun k => ?_)).trans
    (Passed.trans (passed_link _ rfl) (openWait_passed n))
  rw [checkOutputs_adoption]
  exact k

/-- The frame that brings the link UP reaches the stations by its outputs and its CONTROL nibbles alone: it
takes no request (R157). -/
theorem enterUp_passed (h : FrameHeader) (frame : List Byte) : Passed True s (enterUp h frame s) := by
  rw [enterUp_eq]
  have h1 : Passed True s (modLink upLink (countDown h.number (leaveD h.number frame s))) :=
    ((leaveD_passed h.number frame).trans (countDown_passed h.number)).trans (passed_link _ rfl)
  have ha : (modLink upLink (countDown h.number (leaveD h.number frame s))).link.adoption = true := rfl
  generalize modLink upLink (countDown h.number (leaveD h.number frame s)) = u at h1 ha
  exact h1.trans ((completeEntry_passed _ _ _).mono fun _ => ha)

theorem cycleCompletes_requested (h : FrameHeader) (frame : List Byte) :
    Requested False frame s (cycleCompletes h frame s) := by
  unfold cycleCompletes
  split
  · exact .only (.refl _ s)
  · exact cycleUp_requested h frame
  all_goals
    split
    · exact .only ((enterUp_passed h frame).mono fun _ => trivial)
    · refine .only (Passed.trans ?_ (countDown_passed _))
      refine Passed.trans (leaveD_passed h.number frame) ?_
      exact passed_link _ (syncState_map _ _)

/-! ## Bad frames at port U -/

theorem raiseEnded_passed (n : CycleNumber) (l : Link) : Passed r s (raiseEnded n l s) := by
  unfold raiseEnded
  split
  · exact raisePart_passed _ _
  · exact .refl r s

theorem badPassage_passed (p : PassageU) (frame : List Byte) : Passed r s (badPassage p frame s) := by
  unfold badPassage
  refine Passed.trans ?_ (raiseEnded_passed _ _)
  exact ((sendD_passed _).trans (passed_link _ rfl)).trans (raisePart_passed _ _)

theorem badUp_passed (frame : List Byte) : Passed r s (badUp frame s) := by
  unfold badUp
  split
  · exact (sendD_passed _).trans (raisePart_passed _ _)
  · simp only
    rename_i h _
    refine Passed.trans (ensureArrivedU_passed h) ?_
    split
    · exact badPassage_passed _ _
    · exact (sendD_passed _).trans (raisePart_passed _ _)

theorem badDown_passed (frame : List Byte) : Passed r s (badDown frame s) := by
  unfold badDown
  split
  · exact (sendD_passed _).trans (raisePart_passed _ _)
  · split
    · exact badPassage_passed _ _
    · exact (leaveD_passed _ _).trans (raisePart_passed _ _)

theorem badU_passed (frame : List Byte) : Passed r s (badU frame s) := by
  unfold badU
  split
  · exact sendD_passed _
  · exact badUp_passed _
  · exact Passed.trans (passed_link _ rfl) (badDown_passed _)
  · exact badDown_passed _
  · exact badDown_passed _

/-! ## The return pass -/

theorem closeTaken_passed (w : ReturnWait) (p : PassageD) (frame : List Byte) :
    Passed r s (closeTaken w p frame s) := by
  unfold closeTaken
  refine Passed.trans ?_ (closeBy_handed _ _ _).any
  split
  · exact .refl r s
  · exact raisePart_passed _ _

/-- A taken return carries the reply of its own wait (R152, R153). -/
theorem returnSent_of_wait {l : Link} {p : PassageD} {w : ReturnWait} (h : waitOf l p.number = some w)
    (frame : List Byte) :
    returnSent l p frame =
      forwardFrame (ownByte l) (statusWrites p) (l.heldReply.map replyBytes) frame := by
  simp [returnSent, replyFor, h]

/-- A taken return whose wait is over carries none, whatever reply is held (R152, R153). -/
theorem returnSent_of_none {l : Link} {p : PassageD} (h : waitOf l p.number = none) (frame : List Byte) :
    returnSent l p frame = forwardFrame (ownByte l) (statusWrites p) none frame := by
  simp [returnSent, replyFor, h]

/-- What arrives at port D leaves an early return that has ended to its wait (R152). -/
theorem arriveStray_ended (n : CycleNumber) : (arriveStray n s).link.ended = s.link.ended := rfl

theorem completeTaken_passed (p : PassageD) (frame : List Byte) : Passed r s (completeTaken p frame s) := by
  unfold completeTaken
  simp only
  have h : Passed r s (modLink (fun l => { l with passD := none }) (sendU (returnSent s.link p frame) s)) :=
    (sendU_passed _).trans (passed_link _ rfl)
  split
  · exact h.trans (closeTaken_passed _ _ _)
  · split
    · exact h
    · exact h.trans (raisePart_passed _ _)

theorem raiseStray_passed (frame : List Byte) : Passed r s (raiseStray frame s) := by
  unfold raiseStray
  split
  · exact raisePart_passed _ _
  · exact raisePart_passed _ _

theorem completeOrphan_passed (p : PassageD) (frame : List Byte) : Passed r s (completeOrphan p frame s) :=
  ((sendU_passed _).trans (passed_link _ rfl)).trans (raiseStray_passed _)

theorem completeStray_passed (frame : List Byte) : Passed r s (completeStray frame s) :=
  Passed.trans (passed_link _ rfl) (raiseStray_passed _)

theorem arriveForwarded_passed (n : CycleNumber) : Passed r s (arriveForwarded n s) := passed_link _ rfl

/-- A valid forwarded frame leaves as received, and nothing else happens. -/
theorem completeForwarded_good {frame : List Byte} (h : frameGood frame = true) :
    completeForwarded frame s =
      modLink (fun l => { l with passD := none }) (sendU (unchanged frame) s) := by
  simp [completeForwarded, h]

theorem completeForwarded_passed (frame : List Byte) : Passed r s (completeForwarded frame s) := by
  unfold completeForwarded
  simp only
  split
  · exact (sendU_passed _).trans (passed_link _ rfl)
  · exact ((sendU_passed _).trans (passed_link _ rfl)).trans (raisePart_passed _ _)

theorem ensureArrivedD_passed (h : FrameHeader) : Passed r s (ensureArrivedD h s) := by
  unfold ensureArrivedD
  split
  · exact .refl r s
  · split
    · exact passed_link _ rfl
    · split
      · exact passed_link _ rfl
      · exact .refl r s

theorem endEarly_passed (p : PassageD) (frame : List Byte) : Passed r s (endEarly p frame s) := by
  unfold endEarly
  simp only
  split
  · exact (sendU_passed _).trans (passed_link _ rfl)
  · exact ((sendU_passed _).trans (passed_link _ rfl)).trans (raisePart_passed _ _)

theorem completeLoose_passed (p : PassageD) (frame : List Byte) : Passed r s (completeLoose p frame s) := by
  unfold completeLoose
  simp only
  split
  · exact (sendU_passed _).trans (passed_link _ rfl)
  · exact ((sendU_passed _).trans (passed_link _ rfl)).trans (raisePart_passed _ _)

theorem completePassing_passed (h : FrameHeader) (frame : List Byte) :
    Passed r s (completePassing h frame s) := by
  unfold completePassing
  split
  · exact .refl r s
  · split
    · split
      · exact completeTaken_passed _ _
      · exact completeOrphan_passed _ _
      · split
        · exact endEarly_passed _ _
        · exact completeLoose_passed _ _
      · exact completeStray_passed _
      · exact completeForwarded_passed _
    · exact .refl r s

theorem badD_passed (frame : List Byte) : Passed r s (badD frame s) := by
  unfold badD
  split
  · exact sendU_passed _
  · split
    · exact raisePart_passed _ _
    · split
      · exact raiseStray_passed _
      · exact (ensureArrivedD_passed _).trans (completePassing_passed _ _)
  all_goals
    split
    · exact (sendU_passed _).trans (raisePart_passed _ _)
    · split
      · exact completePassing_passed _ _
      · exact (sendU_passed _).trans (raisePart_passed _ _)

/-! ## Supervision and link reset -/

theorem loseLink_passed : Passed r s (loseLink s) := (raisePart_passed _ _).trans (passed_link _ rfl)

theorem supervisionExpires_passed : Passed r s (supervisionExpires s) := by
  unfold supervisionExpires
  split
  · simp only
    have h : Passed r s (modLink
        (fun l => { l with missed := Nat.min 16 (l.missed + 1), supervision := .running s.params.cycleTime })
        (raisePart .cycleMissed s)) :=
      (raisePart_passed _ _).trans (passed_link _ rfl)
    split
    · exact h.trans loseLink_passed
    · exact h
  · exact passed_link _ rfl
  all_goals exact .refl r s

theorem closeStaging_passed : Passed r s (modStore (fun t => { t with staging := none }) s) :=
  ⟨rfl, rfl, rfl, rfl, rfl, rfl, fun _ h => h, rfl, fun _ _ i h => ⟨i, h, Nat.le_refl i⟩, id, id, id, id,
    fun h => h.alike rfl fun _ => .refl _, id⟩

theorem resetStationLink_event : Event s (resetStationLink s) := by
  unfold resetStationLink clearTracker
  simp only
  exact ((((haltRequest_event _ _ _).trans (haltRequest_event _ _ _)).trans (modTrk_event _ _ _)).trans
    (modTrk_event _ _ _)).trans ((modPcu_event _ _ _ rfl rfl).trans (modPcu_event _ _ _ rfl rfl))

theorem linkResets_passed (frame : List Byte) : Passed r s (linkResets frame s) := by
  unfold linkResets
  simp only
  refine Passed.trans ?_ resetStationLink_event.passed
  refine Passed.trans ?_ closeStaging_passed
  refine Passed.trans ?_ (passed_link _ rfl)
  refine Passed.trans ?_ (sendD_passed _)
  split
  · exact overtake_passed
  · exact .refl r s

end

end Sys2Proof.Machine
end

