-- ==== Sys2Proof/Laws/Store.lean ====
section
/-! SUPPORT. What whole events keep, and with it the completions of long operations and what a cut leaves. -/

namespace Sys2Proof.Machine

section

variable {s t : State} {r : Prop}

/-- What every event keeps, whichever it is. -/
structure Lawful (s t : State) : Prop where
  pending : t.pending = s.pending
  live : Live s → Live t
  power : (∀ y, PowerLaw (s.st y)) → ∀ y, PowerLaw (t.st y)
  travel : (∀ y, TravelLaw (s.st y)) → ∀ y, TravelLaw (t.st y)
  rest : Rest s → Rest t
  severity : SeverityLaw s → SeverityLaw t
  cond : CondLaw s → CondLaw t
  map : MapLaw s → MapLaw t
  protect : ProtectLaw s → ProtectLaw t
  inUse : InUseLaw s → InUseLaw t
  entries : InUseLaw s → ∀ y p, s.active y = true → (s.st y).seq.profile = some p →
    t.active y = true → (t.st y).seq.profile = some p →
    t.store.directory.get p.number = s.store.directory.get p.number ∧
      t.store.profiles.get p.number = s.store.profiles.get p.number

/-- The store's content stays with its entries' protection. -/
structure Guarded (s t : State) : Prop where
  profiles : t.store.profiles = s.store.profiles
  marks : ∀ n, protections (t.store.directory.get n) = protections (s.store.directory.get n)

theorem Passed.guarded (h : Passed r s t) : Guarded s t := ⟨h.profiles, fun n => by rw [h.directory]⟩

theorem Asked.guarded (h : Asked r s t) : Guarded s t := ⟨h.profiles, h.marks⟩

theorem Guarded.trans {u : State} (h : Guarded s t) (k : Guarded t u) : Guarded s u :=
  ⟨k.profiles.trans h.profiles, fun n => (k.marks n).trans (h.marks n)⟩

theorem Requested.guarded {frame : List Byte} (h : Requested r frame s t) : Guarded s t := by
  cases h with
  | only h => exact h.guarded
  | then_ u v h k l => exact (h.guarded.trans k.guarded).trans l.passed.guarded

theorem running_congr {u v : Store} (h : u.register = v.register) : u.running = v.running := by
  unfold Store.running
  rw [h]

theorem Passed.protect (h : Passed r s t) (k : ProtectLaw s) : ProtectLaw t := by
  unfold ProtectLaw at *
  rw [h.directory, h.register, running_congr h.register]
  exact k

theorem Passed.severities (h : Passed r s t) (k : SeverityLaw s) : SeverityLaw t := by
  unfold SeverityLaw Conditions.setSeverity at *
  rw [h.severity]
  exact k

theorem Passed.maps (h : Passed r s t) (k : MapLaw s) : MapLaw t := by
  unfold MapLaw at *
  rw [h.map]
  exact k

theorem Passed.lawful (h : Passed r s t) : Lawful s t :=
  ⟨h.pending, h.live, h.power, h.travel, h.rest, h.severities, h.cond, h.maps, h.protect, h.inUse,
    fun _ _ _ _ _ _ _ => ⟨by rw [h.directory], by rw [h.profiles]⟩⟩

theorem Asked.lawful (h : Asked r s t) : Lawful s t :=
  ⟨h.pending, h.live, h.power, h.travel, h.rest, h.severity, h.cond, h.map, h.protect, h.inUse,
    fun i y p a b _ _ => ⟨h.entries i y p a b, by rw [h.profiles]⟩⟩

/-- Work that makes no station active and changes no profile of one may follow. -/
theorem Lawful.thenHeld {u : State} (h : Lawful s t) (p : Passed True t u) (k : HeldKept t u) :
    Lawful s u := by
  refine ⟨p.pending.trans h.pending, p.live ∘ h.live, p.power ∘ h.power, p.travel ∘ h.travel,
    p.rest ∘ h.rest, fun a => p.severities (h.severity a), p.cond ∘ h.cond, fun a => p.maps (h.map a),
    fun a => p.protect (h.protect a), p.inUse ∘ h.inUse, fun i y q a b c d => ?_⟩
  obtain ⟨k1, k2, -⟩ := k y c
  rw [p.directory, p.profiles]
  exact h.entries i y q a b k1 (by rw [← k2]; exact d)

theorem Requested.lawful {frame : List Byte} (h : Requested r frame s t) : Lawful s t := by
  cases h with
  | only h => exact h.lawful
  | then_ u v h k l =>
    have m : Lawful s v := by
      refine ⟨k.pending.trans h.pending, k.live ∘ h.live, k.power ∘ h.power, k.travel ∘ h.travel,
        k.rest ∘ h.rest, fun a => k.severity (h.severities a), k.cond ∘ h.cond, fun a => k.map (h.maps a),
        fun a => k.protect (h.protect a), k.inUse ∘ h.inUse, fun i y p _ _ c d => ?_⟩
      rw [k.active] at c
      rw [k.seq] at d
      rw [k.entries (h.inUse i) y p c d, k.profiles, h.directory, h.profiles]
      exact ⟨rfl, rfl⟩
    exact m.thenHeld l.passed l.held

theorem Requested.first {frame : List Byte} (h : Requested r frame s t) (k : NoRelease frame) :
    FirstKept s t := by
  cases h with
  | only h => exact h.first
  | then_ u v h a l => exact fun q b => l.passed.first q (a.first k q (h.first q b))

theorem Requested.rises {frame : List Byte} (h : Requested r frame s t) (k : r) : IndexRises s t := by
  cases h with
  | only h => exact h.rises k
  | then_ u v h a l => exact ((h.rises k).trans a.index).trans (l.passed.rises trivial)

/-- Work inside the stations may follow. -/
theorem Lawful.thenEvent {u : State} (h : Lawful s t) (k : Event t u) : Lawful s u :=
  h.thenHeld k.handed.passed k.handed.held

/-! ## The end of a long operation -/

theorem endOp_running (o : OpResult) (u : Store) : (endOp o u).running = none := rfl

/-- The store changes, and no long operation runs afterwards. -/
theorem ended_lawful (f : Store → Store) (running : (f s.store).running = none)
    (inUse : (f s.store).inUse = s.store.inUse)
    (entries : InUseLaw s → ∀ y p, s.active y = true → (s.st y).seq.profile = some p →
      (f s.store).directory.get p.number = s.store.directory.get p.number ∧
        (f s.store).profiles.get p.number = s.store.profiles.get p.number) :
    Lawful s (modStore f s) := by
  refine ⟨rfl, fun h => h.alike rfl fun _ => .refl _, id, id, id, id, id, id, fun _ n h => ?_,
    fun h y hy => ?_, fun i y p a b _ _ => entries i y p a b⟩
  · rw [show (modStore f s).store.running = none from running] at h
    simp at h
  · obtain ⟨p, h1, h2, h3, h4, h5⟩ := h y hy
    refine ⟨p, h1, ?_, ?_, ?_, ?_⟩
    · show (f s.store).inUse.get y = _
      rw [inUse]
      exact h2
    · show ((f s.store).directory.get p.number).state = _
      rw [(entries h y p hy h1).1]
      exact h3
    · show (f s.store).busyOn p.number = false
      unfold Store.busyOn
      rw [running]
      rfl
    · show (f s.store).wholeBusy = false
      unfold Store.wholeBusy
      rw [running]
      rfl

/-- The profile of a long operation is no active station's. -/
theorem operated {n : Fin 16} {o : Operation} (running : s.store.running = some o)
    (profile : s.store.register.profile = some n) (h : InUseLaw s) {y : StationId} {p : HeldProfile}
    (hy : s.active y = true) (hp : (s.st y).seq.profile = some p) : p.number ≠ n := by
  obtain ⟨q, h1, -, -, h4, -⟩ := h y hy
  rw [hp] at h1
  injection h1 with h1
  subst h1
  rintro rfl
  simp [Store.busyOn, running, profile] at h4

/-- While the whole store is busy no station is active. -/
theorem wholly {o : Operation} (running : s.store.running = some o) (whole : o = .storeCheck ∨ o = .clear)
    (h : InUseLaw s) (y : StationId) : s.active y = false := by
  by_contra k
  obtain ⟨q, -, -, -, -, h5⟩ := h y (by simpa using k)
  rcases whole with rfl | rfl <;> simp [Store.wholeBusy, running] at h5

theorem writeFailed_lawful {n : Fin 16} {o : Operation} (running : s.store.running = some o)
    (profile : s.store.register.profile = some n) : Lawful s (writeFailed n s) := by
  unfold writeFailed raisePart
  refine Lawful.thenEvent (ended_lawful _ rfl rfl fun i y p a b => ⟨?_, rfl⟩) (raise_event _ _ _ _)
  exact modDir_get_ne _ _ (operated running profile i a b)

theorem reopenStaging_lawful : Lawful s (modStore reopenStaging s) :=
  ⟨rfl, fun h => h.alike rfl fun _ => .refl _, id, id, id, id, id, id, id, id, fun _ _ _ _ _ _ _ => ⟨rfl, rfl⟩⟩

theorem commitCompletes_lawful (v : Bool) : Lawful s (commitCompletes v s) := by
  unfold commitCompletes
  split
  · rename_i n p _ hr hp _
    split
    · refine ended_lawful _ rfl rfl fun i y q a b => ?_
      have ne := operated hr hp i a b
      exact ⟨modDir_get_ne _ _ ne, get_set_ne _ _ ne⟩
    · unfold writeFailed raisePart
      refine Lawful.thenEvent ?_ (raise_event _ _ _ _)
      show Lawful s (modStore (fun u => endOp .writeFailed (modDir n corrupted (reopenStaging u))) s)
      refine ended_lawful _ rfl rfl fun i y q a b => ⟨?_, rfl⟩
      exact modDir_get_ne _ _ (operated hr hp i a b)
  · exact (Passed.refl True s).lawful

theorem eraseCompletes_lawful (v : Bool) : Lawful s (eraseCompletes v s) := by
  unfold eraseCompletes
  split
  · rename_i n hr hp
    split
    · refine ended_lawful _ rfl rfl fun i y q a b => ⟨?_, rfl⟩
      exact modDir_get_ne _ _ (operated hr hp i a b)
    · exact writeFailed_lawful hr hp
  · exact (Passed.refl True s).lawful

theorem protectCompletes_lawful (v : Bool) : Lawful s (protectCompletes v s) := by
  unfold protectCompletes
  split
  · rename_i n w d hr hp _
    split
    · refine ended_lawful _ rfl rfl fun i y q a b => ⟨?_, rfl⟩
      exact modDir_get_ne _ _ (operated hr hp i a b)
    · exact writeFailed_lawful hr hp
  · exact (Passed.refl True s).lawful

theorem raiseFaults_event (n : Nat) (s : State) : Event s (raiseFaults n s) := by
  induction n generalizing s with
  | zero => exact .refl s
  | succ n ih => exact (raise_event _ _ _ _).trans (ih _)

theorem clearCompletes_lawful (v : BitVec 16) : Lawful s (clearCompletes v s) := by
  unfold clearCompletes
  split
  · rename_i hr
    refine Lawful.thenEvent (ended_lawful _ rfl rfl fun i y q a b => ?_) (raiseFaults_event _ _)
    rw [wholly hr (.inr rfl) i y] at a
    cases a
  · exact (Passed.refl True s).lawful

theorem checkCompletes_lawful : Lawful s (checkCompletes s) := by
  unfold checkCompletes
  split
  · rename_i hr
    refine Lawful.thenEvent (ended_lawful _ rfl rfl fun i y q a b => ?_) (raiseFaults_event _ _)
    rw [wholly hr (.inl rfl) i y] at a
    cases a
  · exact (Passed.refl True s).lawful

/-! ## Write protection (Law 7) -/

/-- No protection flag of an entry is lost. -/
structure FlagsKept (d e : DirEntry) : Prop where
  write : d.writeProtected = true → e.writeProtected = true
  read : d.readProtected = true → e.readProtected = true

theorem FlagsKept.of_eq {d e : DirEntry} (h : protections e = protections d) : FlagsKept d e :=
  ⟨fun k => (congrArg Prod.fst h).trans k, fun k => (congrArg Prod.snd h).trans k⟩

theorem FlagsKept.trans {d e f : DirEntry} (h : FlagsKept d e) (k : FlagsKept e f) : FlagsKept d f :=
  ⟨k.write ∘ h.write, k.read ∘ h.read⟩

/-- A change that loses no flag loses none of any entry. -/
theorem modDir_flags {n : Fin 16} {f : DirEntry → DirEntry} {u : Store}
    (h : FlagsKept (u.directory.get n) (f (u.directory.get n))) (m : Fin 16) :
    FlagsKept (u.directory.get m) ((modDir n f u).directory.get m) := by
  by_cases e : m = n
  · subst e
    rw [modDir_get_eq]
    exact h
  · exact .of_eq (by rw [modDir_get_ne _ _ e])

theorem protectedEntry_flags (w d : Bool) (e : DirEntry) : FlagsKept e (protectedEntry w d e) :=
  ⟨fun k => by simp [protectedEntry, k], fun k => by simp [protectedEntry, k]⟩

/-- A write-protected profile keeps its content and its protections. -/
def Protects (u v : Store) : Prop :=
  ∀ n, (u.directory.get n).writeProtected = true →
    v.profiles.get n = u.profiles.get n ∧ FlagsKept (u.directory.get n) (v.directory.get n)

theorem Protects.same {u : Store} : Protects u u := fun _ _ => ⟨rfl, .of_eq rfl⟩

theorem Guarded.protects (h : Guarded s t) : Protects s.store t.store := fun n _ =>
  ⟨by rw [h.profiles], .of_eq (h.marks n)⟩

theorem Protects.trans {u v w : Store} (h : Protects u v) (k : Protects v w) : Protects u w := fun n a =>
  have b := k n ((h n a).2.write a)
  ⟨b.1.trans (h n a).1, (h n a).2.trans b.2⟩

theorem modDir_protects {n : Fin 16} {f : DirEntry → DirEntry} {u : Store}
    (h : FlagsKept (u.directory.get n) (f (u.directory.get n))) : Protects u (modDir n f u) :=
  fun m _ => ⟨rfl, modDir_flags h m⟩

theorem writeFailed_protects (n : Fin 16) : Protects s.store (writeFailed n s).store := by
  unfold writeFailed raisePart
  have h : Protects s.store (modStore (fun t => endOp .writeFailed (modDir n corrupted t)) s).store :=
    modDir_protects (f := corrupted) (u := s.store) (.of_eq rfl)
  exact h.trans (raise_event _ _ _ _ |>.passed (r := True)).guarded.protects

theorem commitCompletes_protects (v : Bool) (h : ProtectLaw s) :
    Protects s.store (commitCompletes v s).store := by
  unfold commitCompletes
  split
  · rename_i n p _ hr hp _
    split
    · intro m hm
      have ne : m ≠ n := by
        rintro rfl
        rw [h _ (.inl hr) hp] at hm
        cases hm
      exact ⟨get_set_ne _ _ ne, .of_eq (congrArg protections (modDir_get_ne _ _ ne))⟩
    · exact writeFailed_protects (s := modStore reopenStaging s) n
  · exact .same

theorem eraseCompletes_protects (v : Bool) : Protects s.store (eraseCompletes v s).store := by
  unfold eraseCompletes
  split
  · split
    · exact modDir_protects (f := erasedEntry) (u := s.store) (.of_eq rfl)
    · exact writeFailed_protects _
  · exact .same

theorem protectCompletes_protects (v : Bool) : Protects s.store (protectCompletes v s).store := by
  unfold protectCompletes
  split
  · split
    · rename_i w d _ _ _ _
      exact modDir_protects (f := protectedEntry w d) (u := s.store) (protectedEntry_flags w d _)
    · exact writeFailed_protects _
  · exact .same

theorem checkedDirectory_mark (n : Nat) (u : Store) (m : Fin 16) :
    protections ((checkedDirectory n u).get m) = protections (u.directory.get m) := by
  unfold checkedDirectory
  rw [Vector.get_eq_getElem, Vector.getElem_ofFn]
  split <;> rfl

theorem checkCompletes_protects : Protects s.store (checkCompletes s).store := by
  unfold checkCompletes
  split
  · refine Protects.trans ?_ ((raiseFaults_event _ _).passed (r := True)).guarded.protects
    exact fun m _ => ⟨rfl, .of_eq (checkedDirectory_mark 16 s.store m)⟩
  · exact .same

/-- What a cut leaves keeps the protections, unless it cuts a STORE_CLEAR off. -/
theorem cutDirectory_mark (n : Nat) (h : s.store.running ≠ some .clear) (m : Fin 16) :
    FlagsKept (s.store.directory.get m) ((cutDirectory n s.store).get m) := by
  unfold cutDirectory
  split
  · rename_i former _ _ _
    split
    · exact modDir_flags (u := s.store) (f := fun e => { e with state := former }) (.of_eq rfl) m
    · exact .of_eq rfl
  · split
    · exact .of_eq rfl
    · exact modDir_flags (u := s.store) (f := erasedEntry) (.of_eq rfl) m
  · rename_i w d _ _ _
    split
    · exact .of_eq rfl
    · exact modDir_flags (u := s.store) (f := protectedEntry w d) (protectedEntry_flags w d _) m
  · rename_i hc
    exact absurd hc h
  · exact .of_eq (checkedDirectory_mark n s.store m)
  · exact .of_eq rfl

/-- What a cut leaves of the entry of an active station's profile. -/
theorem cutDirectory_active (n : Nat) (h : InUseLaw s) {y : StationId} {p : HeldProfile}
    (hy : s.active y = true) (hp : (s.st y).seq.profile = some p) :
    (cutDirectory n s.store).get p.number = s.store.directory.get p.number := by
  unfold cutDirectory
  split
  · rename_i hr hq _
    split
    · exact modDir_get_ne _ _ (operated hr hq h hy hp)
    · rfl
  · rename_i hr hq
    split
    · rfl
    · exact modDir_get_ne _ _ (operated hr hq h hy hp)
  · rename_i hr hq _
    split
    · rfl
    · exact modDir_get_ne _ _ (operated hr hq h hy hp)
  · rename_i hr
    rw [wholly hr (.inr rfl) h y] at hy
    cases hy
  · rename_i hr
    rw [wholly hr (.inl rfl) h y] at hy
    cases hy
  · rfl

/-- A commit or an erase that is cut off leaves the entry's protection as it was. -/
theorem cut_protect (n : Nat) (h : ProtectLaw s) :
    ProtectLaw { s with vdd := false, store := cutStore n s.store } := by
  intro m hr hm
  have e := h m hr hm
  show ((cutDirectory n s.store).get m).writeProtected = false
  have hr' : s.store.running = some .commit ∨ s.store.running = some .erase := hr
  have hm' : s.store.register.profile = some m := hm
  unfold cutDirectory
  split
  · rename_i k _ former hc hk _
    rw [hm'] at hk
    injection hk with hk
    subst hk
    split
    · rw [modDir_get_eq]
      exact e
    · exact e
  · rename_i k _ hc hk
    rw [hm'] at hk
    injection hk with hk
    subst hk
    split
    · exact e
    · rw [modDir_get_eq]
      exact e
  all_goals simp_all

end

end Sys2Proof.Machine
end

