-- ==== Sys2Proof/Laws/Startup.lean ====
section
/-! SUPPORT. Supply and reset: what a restart brings and the laws it has. -/

namespace Sys2Proof.Machine

section

variable {s : State}

theorem resetStation_live : LiveAt resetStation :=
  restAt ⟨rfl, rfl, rfl, rfl⟩ rfl (fun n h => by cases h) (fun n h => by cases h) fun z c d h => by cases h

/-- The laws that a restart brings, whatever was before. -/
structure Fresh (s : State) : Prop where
  live : Live s
  power : ∀ y, PowerLaw (s.st y)
  travel : ∀ y, TravelLaw (s.st y)
  rest : Rest s
  severity : SeverityLaw s
  cond : CondLaw s
  map : MapLaw s
  protect : ProtectLaw s
  quiet : ∀ y, s.active y = false

theorem Fresh.lawful {t : State} (h : Fresh t) (pending : t.pending = s.pending) : Lawful s t :=
  ⟨pending, fun _ => h.live, fun _ => h.power, fun _ => h.travel, fun _ => h.rest, fun _ => h.severity,
    fun _ => h.cond, fun _ => h.map, fun _ => h.protect, fun _ => inUse_none h.quiet,
    fun _ y _ _ _ c _ => by rw [h.quiet y] at c; cases c⟩

theorem Fresh.thenEvent {t : State} (h : Fresh s) (k : Event s t) : Fresh t := by
  have p : Passed True s t := k.passed
  refine ⟨k.live h.live, p.power h.power, p.travel h.travel, p.rest h.rest, p.severities h.severity,
    p.cond h.cond, p.maps h.map, p.protect h.protect, fun y => ?_⟩
  by_contra c
  have := (k.inner.held y (by simpa using c)).1
  rw [h.quiet y] at this
  cases this

theorem minimum_default (c : Cond) : c.minimumSeverity.code ≤ c.defaultSeverity.code := by
  cases c <;> decide

theorem resetBlocks_st (straps : BitVec 6) (stops : StopLevels) (store : Store) (y : StationId) :
    (resetBlocks straps stops store s).st y = resetStation := by cases y <;> rfl

theorem resetConditions_entry (c : Cond) (sc : Scope) : resetConditions.entry c sc = clearedCond := by
  unfold Conditions.entry resetConditions
  simp only [Vector.getElem?_replicate]
  split <;> rfl

theorem resetConditions_severity (c : Cond) : c.minimumSeverity.code ≤ (resetConditions.setSeverity c).code := by
  cases c <;> decide

theorem resetMap_law (straps : BitVec 6) : MapLaw { s with link := resetLink straps } := by
  intro i j e f hi
  have h : mapEntry (Vector.replicate 16 none) i = some e := hi
  unfold mapEntry at h
  rw [Vector.getElem?_replicate] at h
  split at h <;> cases h

theorem resetBlocks_fresh (straps : BitVec 6) (stops : StopLevels) (store : Store) :
    Fresh (resetBlocks straps stops store s) where
  live :=
    ⟨fun y => by rw [resetBlocks_st]; exact resetStation_live, fun _ _ => by
      rw [resetBlocks_st, resetBlocks_st]
      exact Nat.zero_le _⟩
  power y := by
    rw [resetBlocks_st]
    rintro (h | h)
    · exact absurd rfl h
    · cases h
  travel y := by
    rw [resetBlocks_st]
    exact ⟨rfl, fun h => by cases h⟩
  rest y := by
    rw [resetBlocks_st]
    exact ⟨rfl, rfl, rfl⟩
  severity := resetConditions_severity
  cond c sc h := by
    rw [show (resetBlocks straps stops store s).cdu.entry c sc = clearedCond from
      resetConditions_entry c sc] at h
    cases h
  map := resetMap_law (s := s) straps
  protect n h := by
    rcases h with h | h <;> cases h
  quiet y := by
    unfold State.active
    rw [resetBlocks_st]
    rfl

/-- A station at reset that comes up INTERRUPTED. -/
theorem Fresh.interrupt (h : Fresh s) (x : StationId) :
    Fresh (modSeq x (fun q => { q with state := .interrupted }) s) := by
  have o := own_modSeq x (fun q => { q with state := .interrupted }) s
  have a := h.live.at_ x
  have idle := quiet_granted h.live (h.quiet x)
  have phase := quiet_phase h.live (h.quiet x)
  refine ⟨?_, fun y => ?_, fun y => ?_, fun y => ?_, ?_, ?_, ?_, ?_, fun y => ?_⟩
  · refine h.live.change (x := x) (o.other (other_ne x)) (restAt ?_ ?_ ?_ ?_ ?_)
      (h.live.supply.fall o.params (o.other (other_ne x)) (by simp))
    · unfold QuenchIdle at *
      simpa using idle
    · simpa using phase
    · have := a.pending
      unfold PendingLaw at *
      simpa using this
    · have := a.held
      unfold HeldLaw at *
      simpa using this
    · have := a.check
      unfold CheckLaw at *
      simpa using this
  · rcases eq_or_other x y with rfl | rfl
    · intro k
      have k' := h.power y (by simpa using k)
      have q := h.quiet y
      unfold State.active at q
      cases e : (s.st y).seq.state <;> simp_all [StationState.heating, StationState.active]
    · rw [o.other (other_ne x)]
      exact h.power _
  · rcases eq_or_other x y with rfl | rfl
    · have t := h.travel y
      refine ⟨by simpa using t.1, fun k => ?_⟩
      have k' := t.2 (by simpa using k)
      have q := h.quiet y
      unfold State.active at q
      rcases k' with e | e | e
      · simp [e, StationState.active] at q
      · simp [e, StationState.active] at q
      · simp [e.1, StationState.active] at q
    · rw [o.other (other_ne x)]
      exact h.travel _
  · rcases eq_or_other x y with rfl | rfl
    · have r := h.rest y
      unfold Settled at *
      simpa using r
    · rw [o.other (other_ne x)]
      exact h.rest _
  · unfold SeverityLaw
    rw [o.cdu]
    exact h.severity
  · unfold CondLaw
    rw [o.cdu]
    exact h.cond
  · unfold MapLaw
    rw [o.link]
    exact h.map
  · unfold ProtectLaw
    rw [o.store]
    exact h.protect
  · unfold State.active
    rcases eq_or_other x y with rfl | rfl
    · simp [StationState.active]
    · rw [o.other (other_ne x)]
      exact h.quiet _

theorem comeUp_fresh (h : Fresh s) (x : StationId) : Fresh (comeUp x s) := by
  unfold comeUp
  split
  · exact (h.interrupt x).thenEvent (raise_event _ _ _ _)
  · exact h

theorem examineRetention_fresh (h : Fresh s) : Fresh (examineRetention s) := by
  unfold examineRetention
  split
  · exact comeUp_fresh (comeUp_fresh h .a) .b
  · have k : Fresh { s with rtb := { records := Pair.both none, valid := true } } :=
      ⟨h.live.alike rfl fun _ => .refl _, h.power, h.travel, h.rest, h.severity, h.cond, h.map, h.protect,
        h.quiet⟩
    exact k.thenEvent (raise_event _ _ _ _)

theorem comeUp_still (x : StationId) : (comeUp x s).pending = s.pending ∧ Guarded s (comeUp x s) := by
  unfold comeUp raiseSt
  split
  · have e := (raise_event .scanInterrupted (.station x) none
      (modSeq x (fun q => { q with state := .interrupted }) s)).passed (r := True)
    have o := own_modSeq x (fun q => { q with state := .interrupted }) s
    refine ⟨e.pending.trans o.pending, ⟨?_, fun n => ?_⟩⟩
    · rw [e.profiles, o.store]
    · rw [e.directory, o.store]
  · exact ⟨rfl, rfl, fun _ => rfl⟩

theorem examineRetention_still : (examineRetention s).pending = s.pending ∧ Guarded s (examineRetention s) := by
  unfold examineRetention raisePart
  split
  · have a := comeUp_still (s := s) .a
    have b := comeUp_still (s := comeUp .a s) .b
    exact ⟨b.1.trans a.1, a.2.trans b.2⟩
  · have e := (raise_event .retentionLost .part none
      { s with rtb := { records := Pair.both none, valid := true } }).passed (r := True)
    exact ⟨e.pending, e.profiles, fun n => by rw [e.directory]⟩

/-- A restart brings every law. -/
theorem restart_fresh (straps : BitVec 6) (stops : StopLevels) (store : Store) :
    Fresh (restart straps stops store s) := examineRetention_fresh (resetBlocks_fresh straps stops store)

theorem restart_lawful (straps : BitVec 6) (stops : StopLevels) (store : Store) :
    Lawful s (restart straps stops store s) :=
  (restart_fresh straps stops store).lawful
    (examineRetention_still (s := resetBlocks straps stops store s)).1

theorem restart_store (straps : BitVec 6) (stops : StopLevels) (store : Store) :
    (restart straps stops store s).store.profiles = store.profiles ∧
      ∀ n, protections ((restart straps stops store s).store.directory.get n) =
        protections (store.directory.get n) := by
  have h := (examineRetention_still (s := resetBlocks straps stops store s)).2
  exact ⟨h.profiles, h.marks⟩

/-- A loss of main supply keeps every law. -/
theorem loss_lawful (n : Nat) : Lawful s { s with vdd := false, store := cutStore n s.store } := by
  refine ⟨rfl, fun h => h.alike rfl fun _ => .refl _, id, id, id, id, id, id, cut_protect n, fun h y hy => ?_,
    fun h y p a b _ _ => ⟨cutDirectory_active n h a b, rfl⟩⟩
  obtain ⟨p, h1, h2, h3, h4, h5⟩ := h y hy
  refine ⟨p, h1, h2, ?_, h4, h5⟩
  show ((cutDirectory n s.store).get p.number).state = _
  rw [cutDirectory_active n h hy h1]
  exact h3

/-- The loss of the retention supply keeps every law. -/
theorem retention_lawful : Lawful s { s with rtb := { s.rtb with valid := false } } :=
  ⟨rfl, fun h => h.alike rfl fun _ => .refl _, id, id, id, id, id, id, id, id, fun _ _ _ _ _ _ _ => ⟨rfl, rfl⟩⟩

end

end Sys2Proof.Machine
end

