-- ==== Sys2Proof/Laws/Moments.lean ====
section
/-! SUPPORT. The events of timers, stop inputs, program steps and the supply: what they keep. -/

namespace Sys2Proof.Machine

section

variable {x : StationId} {s t : State} {r : Prop}

/-! ## Stop inputs -/

theorem passed_stops (v : StopLevels) : Passed r s { s with stops := v } :=
  ⟨rfl, rfl, rfl, rfl, rfl, rfl, fun _ h => h, rfl, fun _ _ i h => ⟨i, h, Nat.le_refl i⟩, id, id, id, id,
    fun h => h.alike rfl fun _ => .refl _, id⟩

theorem setOwnStop_passed (level : Bool) : Passed r s (setOwnStop x level s) := by
  cases x
  · exact passed_stops _
  · exact passed_stops _

theorem stopAsserts_passed : Passed r s (stopAsserts x s) :=
  ((setOwnStop_passed true).trans (raiseSt_passed _ _ _)).trans (haltRequest_event _ _ _).passed

theorem stopAllAsserts_passed : Passed r s (stopAllAsserts s) := by
  unfold stopAllAsserts
  have h : Passed r s { s with stops := { s.stops with all := true } } := passed_stops _
  generalize { s with stops := { s.stops with all := true } } = u at h
  refine h.trans ?_
  exact (((raise_event _ _ _ u).trans (raise_event _ _ _ _)).trans (haltRequest_event _ _ _)).passed.trans
    (haltRequest_event _ _ _).passed

theorem releaseStop_passed (i : StopInput) : Passed r s (releaseStop i s) := by
  cases i
  · exact setOwnStop_passed (x := .a) false
  · exact setOwnStop_passed (x := .b) false
  · exact passed_stops _

/-! ## Program steps -/

/-- Work of one engine whose program end is then delivered. -/
theorem Lined.delivered (h : Lined x s t) : Whole s (deliverEnd x t) where
  inner := h.inner.trans (deliverEnd_inner x t)
  live k := deliverEnd_live x t (h.own.live k
    ⟨h.par, by rw [h.qsc], by rw [h.qsc], by rw [h.qsc], by rw [h.qsc], h.sar, by rw [h.seq], by rw [h.seq],
      by rw [h.seq], by rw [h.seq]⟩)
  rest k := by
    rw [rest_iff] at *
    have hs : ∀ y, (t.st y).seq = (s.st y).seq := fun y => by
      rcases eq_or_other x y with rfl | rfl
      · exact h.seq
      · rw [h.own.other (other_ne x)]
    refine ⟨deliverEnd_tidy x t fun y hy => ?_, fun y => ?_⟩
    · rw [hs] at hy ⊢
      refine ⟨(k.1 y hy).1, fun ne => ?_⟩
      rw [h.own.other ne]
      exact (k.1 y hy).2
    · rw [deliverEnd_handling_all, hs]
      exact k.2 y

theorem programStep_whole : Whole s (deliverEnd x (stepExpires x s)) :=
  Lined.delivered (stepExpires_lined x s)

/-! ## Timers -/

theorem retuneExpires_event : Event s (retuneExpires x s) :=
  (modPcu_event x s (fun p => { p with retuneTimer := .expired }) rfl rfl).trans (raise_event _ _ _ _)

theorem settleExpires_event : Event s (settleExpires x s) := modTrk_event x s _

theorem armFailed_event :
    Event s (raiseSt .armFailed x (modSeq x (fun q => { q with armTimer := .stopped }) s)) :=
  (modSeq_event x s _ rfl rfl rfl rfl rfl rfl rfl rfl rfl rfl).trans (raise_event _ _ _ _)

theorem holdExpired_event :
    Event s (raiseSt .holdExpired x (modSeq x (fun q => { q with holdTimer := .expired }) s)) :=
  (modSeq_event x s _ rfl rfl rfl rfl rfl rfl rfl rfl rfl rfl).trans (raise_event _ _ _ _)

/-- Calm work whose laws hold is an event's. -/
theorem tailExpired_event (hp : (s.st x).seq.phase = some .openZones) : Event s (tailExpired x s) := by
  refine (tailExpired_calm x s).event fun h => ?_
  have inv := tailExpired_inv h.inv hp
  have k := tailExpired_calm x s
  have tail := (h.at_ x).quench.phaseTail (by rw [hp]; simp)
  refine ⟨fun y => ?_, inv.1.supply⟩
  have st := k.still y
  refine ⟨⟨inv.1.core y, fun hy => ?_, fun e => ?_, fun e => ?_⟩, ?_, ?_, inv.1.check y⟩
  · rw [st.state] at hy
    have ne : y ≠ x := by
      rintro rfl
      rw [tail] at hy
      rcases hy with e | e <;> cases e
    have idle := (h.at_ y).quench.idle hy
    have same : (closeQuench x s).st y = s.st y := closeQuench_st x y s ne
    unfold tailExpired
    rw [settleTasks_idle _ _ y (by rw [same]; exact idle.1) (by rw [same]; exact idle.2.1), same]
    exact idle
  · rw [st.state]
    exact inv.1.ends y e
  · rw [st.state]
    exact inv.1.phases y e
  · have := (h.at_ y).pending
    unfold PendingLaw at *
    rw [st.pendingState]
    exact this
  · have := (h.at_ y).held
    unfold HeldLaw at *
    rw [st.heldState]
    exact this

/-! ## Supply -/

theorem serveWaiting_event : Event s (serveWaiting x s) := by
  unfold serveWaiting
  have c := (examineOne_calm (x := x) (s := s)).trans (settleTasks_calm (examineOne x s).2 (examineOne x s).1)
  refine c.event fun h => ?_
  refine c.live (fun y hq hw => ?_) h (settleTasks_inv _ (examineOne_inv h.inv))
  have e := examineOne_idle (x := x) (s := s) y hq hw
  rw [settleTasks_idle _ _ y (by rw [e]; exact hq) (by rw [e]; exact hw), e]

theorem waitExpires_event : Event s (waitExpires x s) := by
  unfold waitExpires
  split
  · exact .refl s
  · rename_i w hw
    split
    · have e : Event s (modSar x (fun a => { a with waiting := some (expireWait w) }) s) :=
        modSar_event _ rfl (fun v hv => ⟨w, hw, by injection hv with hv; subst hv; exact ⟨rfl, rfl⟩⟩)
          fun hn => by rw [hn] at hw; cases hw
      split
      · exact e
      · exact e.trans (raise_event _ _ _ _)
    · exact .refl s

/-! ## Run commands -/

theorem start_taken (nibble : BitVec 4) (b : Byte) (adjust : BitVec 16) :
    Taken s (takeCommand x nibble (doStart x b adjust) s) :=
  takeCommand_taken _ _ fun _ => doStart_carried b adjust

theorem clear_taken (nibble : BitVec 4) : Taken s (takeCommand x nibble (doClear x) s) :=
  takeCommand_taken _ _ fun _ => doClear_carried

theorem abort_taken (nibble : BitVec 4) : Taken s (takeCommand x nibble (doAbort x) s) :=
  takeCommand_taken _ _ fun _ => doAbort_carried

/-- The indices rise where the command carried out lets them rise. -/
theorem takeCommand_rises (nibble : BitVec 4) (carry : State → State × CommandResult)
    (h : ∀ u, IndexRises u (carry u).1) : IndexRises s (takeCommand x nibble carry s) := by
  unfold takeCommand
  split
  · exact .refl s
  · simp only
    refine IndexRises.trans ?_ (deliverEnd_inner x _).rises
    refine IndexRises.trans ?_ (modSeq_event x _ _ rfl rfl rfl rfl rfl rfl rfl rfl rfl rfl).inner.rises
    exact (modSeq_event x s (fun q => { q with nibble := nibble }) rfl rfl rfl rfl rfl rfl rfl rfl rfl
      rfl).inner.rises.trans (h _)

theorem doAbort_rises : IndexRises s (doAbort x s).1 := by
  unfold doAbort
  split
  · rename_i h
    exact (halt_inner x _ s (haltable_active h)).rises
  · exact .refl s

end

end Sys2Proof.Machine
end

