-- ==== Sys2Proof/Laws/Answers.lean ====
section
/-! SUPPORT. When an event is met: the answer of a powered part, of a link in UP, of a run command and of a
request, each as one equation. -/

namespace Sys2Proof.Machine

section

variable {s : State} {f : State → State}

theorem whenPowered_on (h : s.vdd = true) : whenPowered f s = .next (f s) := by
  unfold whenPowered
  rw [if_pos h]

theorem whenPowered_off (h : s.vdd = false) : whenPowered f s = .next s := by
  unfold whenPowered
  rw [h]
  rfl

theorem whenUp_ready (h : Ready s) : whenUp f s = .next (f s) := by
  unfold whenUp isUp
  rw [whenPowered_on h.1, h.2]
  rfl

theorem whenUp_down (h : s.link.state ≠ .up) : whenUp f s = .next s := by
  unfold whenUp isUp whenPowered
  simp [h]

theorem whenControl_commanded (h : Commanded s) : whenControl f s = .next (f s) := by
  unfold whenControl
  rw [whenUp_ready h.1, h.2]
  rfl

theorem whenAsked_ready {ask : List Byte → State → Answer} {tag : Byte} {p : List Byte} (h : Ready s) :
    whenAsked ask tag p s = .next (holdReply tag (ask p s)) := whenUp_ready h

/-- A refusal is held as a reply, and nothing else changes. -/
theorem holdReply_refuse (tag : Byte) (r : ReplyStatus) : holdReply tag (refuse s r) = replied tag r [] s := rfl

theorem holdReply_okRead (tag : Byte) (p : List Byte) : holdReply tag (okRead s p) = replied tag .ok p s := rfl

theorem holdReply_okWith (tag : Byte) : holdReply tag (okWith s) = replied tag .ok [] s := rfl

theorem holdReply_acceptedWith (tag : Byte) :
    holdReply tag (acceptedWith s) = replied tag .accepted [] s := rfl

end

end Sys2Proof.Machine
end

