-- ==== Sys2Proof/Laws/Programs.lean ====
section
/-! SUPPORT. What a line program leaves of its engine: where it begins, goes on, waits and ends (R130, R132,
R134). -/

namespace Sys2Proof.Machine

section

variable (x : StationId) (s : State)

/-! ## The program engine (R132, R134) -/

theorem linesFrom_zero (p : Program) (i : Nat) (act : ProgStep → LineAction) (l : Bool) :
    linesFrom s x p i 0 act l = l := rfl

/-- The first step acts, then the others from the step behind it. -/
theorem linesFrom_succ (p : Program) (i n : Nat) (act : ProgStep → LineAction) (l : Bool) :
    linesFrom s x p i (n + 1) act l =
      linesFrom s x p (i + 1) n act ((act (s.progStep x p i)).apply l) := by
  unfold linesFrom
  rw [List.range_succ_eq_map, List.foldl_cons, List.foldl_map]
  simp only [Nat.add_zero, Nat.succ_eq_add_one, Nat.add_assoc, Nat.add_comm 1]

/-- The steps of a program are read from the table alone. -/
theorem progStep_congr {s t : State} (h : (t.st x).eng.table = (s.st x).eng.table) (p : Program) (i : Nat) :
    t.progStep x p i = s.progStep x p i := by
  unfold State.progStep
  rw [h]

theorem linesFrom_congr {s t : State} (h : (t.st x).eng.table = (s.st x).eng.table) (p : Program)
    (i n : Nat) (act : ProgStep → LineAction) (l : Bool) :
    linesFrom t x p i n act l = linesFrom s x p i n act l := by
  unfold linesFrom
  simp only [progStep_congr x h]

theorem actStep_eng (g : ProgStep) : ((actStep x g s).st x).eng = { (s.st x).eng with
    permit := g.permit.apply (s.st x).eng.permit, qforce := g.qforce.apply (s.st x).eng.qforce,
    spin := g.spin.apply (s.st x).eng.spin } := by
  unfold actStep
  simp only
  split <;> simp

/-- Step `j` has no delay and is not the last. -/
def passes (s : State) (x : StationId) (p : Program) (j : Nat) : Prop :=
  (s.progStep x p j).delay = 0 ∧ (s.progStep x p j).last = false

/-- Where a program that begins at step `i` stops: at its first step with a delay, which waits for it, or behind
its last step. -/
theorem runFrom_eng (p : Program) (k n : Nat) : ∀ (i : Nat) (s : State), i + n = 8 → i ≤ k → k ≤ 7 →
    (∀ j, i ≤ j → j < k → passes s x p j) →
    ((s.progStep x p k).delay ≠ 0 → ((runFrom n x p i s).st x).eng = { (s.st x).eng with
      permit := linesFrom s x p i (k - i) ProgStep.permit (s.st x).eng.permit,
      qforce := linesFrom s x p i (k - i) ProgStep.qforce (s.st x).eng.qforce,
      spin := linesFrom s x p i (k - i) ProgStep.spin (s.st x).eng.spin,
      running := some p, step := some k, timer := .running (2 ^ ((s.progStep x p k).delay - 1)) }) ∧
    ((s.progStep x p k).delay = 0 → (s.progStep x p k).last = true ∨ k = 7 →
      ((runFrom n x p i s).st x).eng = { (s.st x).eng with
        permit := linesFrom s x p i (k + 1 - i) ProgStep.permit (s.st x).eng.permit,
        qforce := linesFrom s x p i (k + 1 - i) ProgStep.qforce (s.st x).eng.qforce,
        spin := linesFrom s x p i (k + 1 - i) ProgStep.spin (s.st x).eng.spin,
        running := none, step := none, timer := .stopped, endOwed := some p }) := by
  induction n with
  | zero => intro i s h1 h2 h3; omega
  | succ n ih =>
    intro i s h1 h2 h3 h4
    rw [runFrom]
    simp only
    rcases Nat.eq_or_lt_of_le h2 with rfl | hlt
    · constructor
      · intro hd
        rw [if_neg hd]
        simp [delayOf, hd, linesFrom_zero]
      · intro hd hl
        have hb : ((s.progStep x p i).last || decide (i = 7)) = true := by simpa using hl
        rw [if_pos hd, if_pos hb]
        simp only [endProgram, modEng_same, actStep_eng, Nat.add_sub_cancel_left, linesFrom_succ,
          linesFrom_zero]
    · obtain ⟨hd, hl⟩ := h4 i (Nat.le_refl i) hlt
      have hb : ((s.progStep x p i).last || decide (i = 7)) = false := by
        rw [hl]
        simp
        omega
      rw [if_pos hd, hb]
      simp only [Bool.false_eq_true, if_false]
      obtain ⟨s2, hs2⟩ : ∃ s2, s2 = actStep x (s.progStep x p i)
          (modEng x (fun e => { e with running := some p, step := some i }) s) := ⟨_, rfl⟩
      have he : (s2.st x).eng = { (s.st x).eng with
          permit := (s.progStep x p i).permit.apply (s.st x).eng.permit,
          qforce := (s.progStep x p i).qforce.apply (s.st x).eng.qforce,
          spin := (s.progStep x p i).spin.apply (s.st x).eng.spin,
          running := some p, step := some i } := by
        rw [hs2, actStep_eng]
        simp
      have ht : (s2.st x).eng.table = (s.st x).eng.table := by rw [he]
      have ih2 := ih (i + 1) s2 (by omega) (by omega) h3 (fun j a b => by
        unfold passes
        rw [progStep_congr x ht]
        exact h4 j (by omega) b)
      rw [← hs2]
      rw [progStep_congr x ht] at ih2
      simp only [linesFrom_congr x ht, he] at ih2
      have e1 : k - i = (k - (i + 1)) + 1 := by omega
      have e2 : k + 1 - i = (k + 1 - (i + 1)) + 1 := by omega
      rw [e1, e2]
      simp only [linesFrom_succ]
      exact ih2

/-- A program stops somewhere. -/
theorem exists_stop (p : Program) (i : Nat) (hi : i ≤ 7) : ∃ k, i ≤ k ∧ k ≤ 7 ∧
    (∀ j, i ≤ j → j < k → passes s x p j) ∧
    ((s.progStep x p k).delay ≠ 0 ∨
      ((s.progStep x p k).delay = 0 ∧ ((s.progStep x p k).last = true ∨ k = 7))) := by
  obtain ⟨n, hn⟩ : ∃ n, i + n = 7 := ⟨7 - i, by omega⟩
  induction n generalizing i with
  | zero =>
    refine ⟨i, Nat.le_refl i, hi, fun j a b => by omega, ?_⟩
    by_cases h : (s.progStep x p i).delay = 0
    · exact .inr ⟨h, .inr (by omega)⟩
    · exact .inl h
  | succ n ih =>
    by_cases h : passes s x p i
    · obtain ⟨k, h1, h2, h3, h4⟩ := ih (i + 1) (by omega) (by omega)
      refine ⟨k, by omega, h2, fun j a b => ?_, h4⟩
      rcases Nat.eq_or_lt_of_le a with rfl | a
      · exact h
      · exact h3 j a b
    · refine ⟨i, Nat.le_refl i, hi, fun j a b => by omega, ?_⟩
      by_cases hd : (s.progStep x p i).delay = 0
      · refine .inr ⟨hd, .inl ?_⟩
        cases hl : (s.progStep x p i).last
        · exact absurd ⟨hd, hl⟩ h
        · rfl
      · exact .inl hd

theorem stepWaits_none (p : Program) (j : Nat) :
    StepWaits s x p none j ↔ (s.progStep x p j).delay ≠ 0 := by simp [StepWaits]

/-- A program's engine after it went on at step `i`, its end not counted as owed: what `RunsFrom` says, and that the
end is owed exactly when nothing runs. -/
theorem runFrom_runs (p : Program) (n i : Nat) (h : i + n = 8) (hi : i ≤ 7)
    (ho : (s.st x).eng.endOwed = none) :
    RunsFrom s x p i none { ((runFrom n x p i s).st x).eng with endOwed := none } ∧
      ((((runFrom n x p i s).st x).eng.running = none ∧
          ((runFrom n x p i s).st x).eng.endOwed = some p) ∨
        (((runFrom n x p i s).st x).eng.running = some p ∧
          ((runFrom n x p i s).st x).eng.endOwed = none)) := by
  constructor
  · intro k h1 h2 h3
    simp only [stepWaits_none, not_not] at h3 ⊢
    have r := runFrom_eng x p k n i s h h1 h2 h3
    refine ⟨fun hw => ?_, fun hw hl => ?_⟩
    · rw [r.1 hw]
      simp only [ho]
    · rw [r.2 hw hl]
      simp only [ho]
  · obtain ⟨k, h1, h2, h3, h4⟩ := exists_stop x s p i hi
    have r := runFrom_eng x p k n i s h h1 h2 h3
    rcases h4 with hd | ⟨hd, hl⟩
    · right
      rw [r.1 hd]
      exact ⟨rfl, ho⟩
    · left
      rw [r.2 hd hl]
      exact ⟨rfl, rfl⟩

/-- `RunsFrom` reads table and lines of the engine it starts from, and what no step writes. -/
theorem RunsFrom.of_eng {s t : State} {x : StationId} {p : Program} {i : Nat} {due : Option Nat} {e : Engine}
    (h : RunsFrom t x p i due e) (k : ∃ r st ti, (t.st x).eng =
      { (s.st x).eng with running := r, step := st, timer := ti }) : RunsFrom s x p i due e := by
  obtain ⟨r, st, ti, k⟩ := k
  have ht : (t.st x).eng.table = (s.st x).eng.table := by rw [k]
  intro m h1 h2 h3
  have hm := h m h1 h2
  unfold StepWaits at hm h3 ⊢
  simp only [progStep_congr x ht, linesFrom_congr x ht] at hm
  simp only [k] at hm
  exact hm h3

/-- A request for a program: what it leaves of the engine, its end not counted as owed, and that the end is owed
exactly when nothing runs. -/
theorem requestProgram_engaged (p : Program) (ho : (s.st x).eng.endOwed = none) :
    Engaged s x p { ((requestProgram x p s).st x).eng with endOwed := none } ∧
      ((((requestProgram x p s).st x).eng.running = none ∧
          ((requestProgram x p s).st x).eng.endOwed = some p) ∨
        (((requestProgram x p s).st x).eng.running ≠ none ∧
          ((requestProgram x p s).st x).eng.endOwed = none)) := by
  unfold requestProgram Engaged
  split
  · rename_i hr
    exact ⟨⟨fun _ => by simp only [← ho], fun h => absurd hr h⟩, .inr ⟨by rw [hr]; simp, ho⟩⟩
  · rename_i hr
    unfold beginProgram
    have r := runFrom_runs x
      (modEng x (fun e => { e with timer := .stopped, endOwed := none }) s) p 8 0 rfl (by omega) (by simp)
    refine ⟨⟨fun h => absurd h hr, fun _ => r.1.of_eng ?_⟩, ?_⟩
    · exact ⟨(s.st x).eng.running, (s.st x).eng.step, .stopped, by simp only [modEng_same, ← ho]⟩
    · rcases r.2 with h | h
      · exact .inl h
      · exact .inr ⟨by rw [h.1]; simp, h.2⟩

/-- The expiry of the step timer: the step acts, and the program goes on behind it. -/
theorem stepExpires_runs (p : Program) (i : Nat) (hr : (s.st x).eng.running = some p)
    (hs : (s.st x).eng.step = some i) (hi : i ≤ 7) (ho : (s.st x).eng.endOwed = none) :
    RunsFrom s x p i (some i) { ((stepExpires x s).st x).eng with endOwed := none } ∧
      ((((stepExpires x s).st x).eng.running = none ∧
          ((stepExpires x s).st x).eng.endOwed = some p) ∨
        (((stepExpires x s).st x).eng.running = some p ∧
          ((stepExpires x s).st x).eng.endOwed = none)) := by
  unfold stepExpires
  simp only [hr, hs]
  obtain ⟨u, hu⟩ : ∃ u, u = actStep x (s.progStep x p i) (modEng x (fun e => { e with timer := .stopped }) s) :=
    ⟨_, rfl⟩
  have he : (u.st x).eng = { (s.st x).eng with
      permit := (s.progStep x p i).permit.apply (s.st x).eng.permit,
      qforce := (s.progStep x p i).qforce.apply (s.st x).eng.qforce,
      spin := (s.progStep x p i).spin.apply (s.st x).eng.spin, timer := .stopped } := by
    rw [hu, actStep_eng]
    simp
  have ht : (u.st x).eng.table = (s.st x).eng.table := by rw [he]
  rw [← hu]
  split
  · rename_i hl
    refine ⟨fun k h1 h2 h3 => ?_, .inl ⟨by simp [endProgram], by simp [endProgram]⟩⟩
    have hk : k = i := by
      by_contra hne
      have := (h3 i (Nat.le_refl i) (by omega)).2
      simp only [this, Bool.false_or, decide_eq_true_eq] at hl
      omega
    subst hk
    refine ⟨fun hw => absurd rfl hw.2, fun _ _ => ?_⟩
    simp only [endProgram, modEng_same, he, ho, Nat.add_sub_cancel_left, linesFrom_succ, linesFrom_zero]
  · rename_i hl
    simp only [Bool.or_eq_true, decide_eq_true_eq, not_or, Nat.not_le] at hl
    have r := runFrom_runs x u p (7 - i) (i + 1) (by omega) (by omega) (by rw [he]; exact ho)
    refine ⟨fun k h1 h2 h3 => ?_, r.2⟩
    rcases Nat.eq_or_lt_of_le h1 with rfl | hlt
    · refine ⟨fun hw => absurd rfl hw.2, fun _ hlast => ?_⟩
      rcases hlast with hlast | rfl
      · exact absurd hlast hl.1
      · omega
    · have q := r.1 k (by omega) h2
      have w : ∀ j, i < j → (StepWaits s x p (some i) j ↔ StepWaits u x p none j) := fun j hj => by
        unfold StepWaits
        rw [progStep_congr x ht]
        simp
        omega
      have q := q fun j a b => ⟨by rw [← w j (by omega)]; exact (h3 j (by omega) b).1, by
        rw [progStep_congr x ht]; exact (h3 j (by omega) b).2⟩
      rw [← w k hlt] at q
      simp only [progStep_congr x ht, linesFrom_congr x ht, he] at q
      have e1 : k - i = (k - (i + 1)) + 1 := by omega
      have e2 : k + 1 - i = (k + 1 - (i + 1)) + 1 := by omega
      rw [e1, e2]
      simp only [linesFrom_succ]
      exact q

end

end Sys2Proof.Machine
end

