-- ==== Sys2Proof/Laws/Tail.lean ====
section
/-! SUPPORT. What a TAIL entry rests on: the tasks bring no tail phase but OPEN and CLOSING, and a station that
handles an event keeps its datum, its latest report, its account and its phase through the raises and offers of
that event. -/

namespace Sys2Proof.Machine

section

variable {s t u : State} {x y : StationId}

/-! ## The phases that tasks bring (R64, R115) -/

/-- The tail phase of `y` is as it was, or the end marker has been issued: OPEN, or CLOSING at once. -/
def PhaseOnward (y : StationId) (s t : State) : Prop :=
  (t.st y).seq.phase = (s.st y).seq.phase ∨ (t.st y).seq.phase = some .openZones ∨
    (t.st y).seq.phase = some .closing

theorem PhaseOnward.of_seq (h : (t.st y).seq = (s.st y).seq) : PhaseOnward y s t := .inl (by rw [h])

theorem PhaseOnward.refl (y : StationId) (s : State) : PhaseOnward y s s := .of_seq rfl

theorem PhaseOnward.trans (h : PhaseOnward y s t) (k : PhaseOnward y t u) : PhaseOnward y s u := by
  rcases k with k | k
  · unfold PhaseOnward
    rw [k]
    exact h
  · exact .inr k

theorem issueHead_phase (x y : StationId) (e : QEntry) (s : State) :
    PhaseOnward y s (issueHead x e s).1 := by
  rcases eq_or_other x y with rfl | rfl
  · rw [issueHead_eq]
    split
    · unfold endMarkerIssued
      split
      · exact .inr (.inr (by simp))
      · exact .inr (.inl (by simp))
    · exact .of_seq (by simp)
  · exact .of_seq (by rw [issueHead_st x s e (other_ne x)])

theorem presentHead_phase (x y : StationId) (e : QEntry) (d : Due) (s : State) :
    PhaseOnward y s (presentHead x e d s).1 := by
  unfold presentHead
  simp only
  split
  · exact issueHead_phase _ _ _ _
  · split
    · exact .trans (.of_seq (by simp [grant])) (issueHead_phase _ _ _ _)
    · exact .of_seq (by simp [holdRequest, markHead])

theorem testHead_phase (x y : StationId) (s : State) : PhaseOnward y s (testHead x s).1 := by
  unfold testHead
  repeat' split
  all_goals first
    | exact .refl _ _
    | exact .trans (.of_seq (by simp [markHead])) (presentHead_phase _ _ _ _ _)

theorem examineOne_phase (x y : StationId) (s : State) : PhaseOnward y s (examineOne x s).1 := by
  unfold examineOne
  split
  · exact .refl _ _
  · split
    · simp only
      split
      · exact .of_seq (by simp [markHead, grant])
      · exact .trans (t := markHead x _ (grant x _ s)) (.of_seq (by simp [markHead, grant]))
          (issueHead_phase _ _ _ _)
    · exact .refl _ _

theorem runTasks_phase (y : StationId) (n : Nat) (ts : List QTask) (s : State) :
    PhaseOnward y s (runTasks n ts s) := by
  induction n generalizing ts s with
  | zero => cases ts <;> exact .refl _ _
  | succ n ih =>
    cases ts with
    | nil => exact .refl _ _
    | cons t ts =>
      unfold runTasks
      refine .trans ?_ (ih _ _)
      cases t with
      | test x => exact testHead_phase x y s
      | examine => exact (examineOne_phase _ y s).trans (examineOne_phase _ y _)

/-! ## What a handling station keeps -/

/-- The station keeps its datum, its latest report, its last accepted sample and its account; its tail phase
moves by an issue of the end marker alone. -/
structure Sheltered (y : StationId) (s t : State) : Prop where
  datum : (t.st y).seq.datum = (s.st y).seq.datum
  report : (t.st y).trk.report = (s.st y).trk.report
  last : (t.st y).trk.last = (s.st y).trk.last
  account : (t.st y).pcu.account = (s.st y).pcu.account
  phase : PhaseOnward y s t

theorem Sheltered.of_st (h : t.st y = s.st y) : Sheltered y s t :=
  ⟨by rw [h], by rw [h], by rw [h], by rw [h], .of_seq (by rw [h])⟩

theorem Sheltered.refl (y : StationId) (s : State) : Sheltered y s s := .of_st rfl

theorem Sheltered.trans (h : Sheltered y s t) (k : Sheltered y t u) : Sheltered y s u :=
  ⟨k.datum.trans h.datum, k.report.trans h.report, k.last.trans h.last, k.account.trans h.account,
    h.phase.trans k.phase⟩

theorem Calm.sheltered (h : Calm s t) (phase : PhaseOnward y s t) : Sheltered y s t where
  datum := by
    have k := congrArg Sequencer.datum (h.seq y)
    exact k
  report := by
    have k := congrArg Tracker.report (h.trk y)
    exact k
  last := by
    have k := congrArg Tracker.last (h.trk y)
    exact k
  account := by rw [h.pcu y]
  phase := phase

theorem settleTasks_sheltered (ts : List QTask) (s : State) : Sheltered y s (settleTasks ts s) :=
  (settleTasks_calm ts s).sheltered (runTasks_phase _ _ _ _)

/-- The halt of one station reaches the other by the arbiter's examination alone (R124). -/
theorem halt_sheltered (c : Cause) (s : State) (h : y ≠ x) : Sheltered y s (halt x c s) := by
  have o := (haltHead_own x c s).trans (powerHalt_own x _)
  have k : Sheltered y (powerHalt x (haltHead x c s)) (quenchHalt x (powerHalt x (haltHead x c s))) := by
    unfold quenchHalt
    simp only
    refine .trans (.of_st ?_) (settleTasks_sheltered _ _)
    rw [(own_modQsc x _ _).other h, (issueSet_own x _ _).other h, (own_modQsc x _ _).other h, withdraw,
      (own_modSar x _ _).other h]
  refine ((Sheltered.of_st (o.other h)).trans k).trans (.of_st ?_)
  rw [halt_eq, writeRetainedNow_st, haltBody, (own_modResult x _ _).other h,
    (requestProgram_lined x _ _).own.other h]

theorem haltRequest_sheltered (c : Cause) (hy : (s.st y).seq.handling = true) :
    Sheltered y s (haltRequest x c s) := by
  unfold haltRequest
  split
  · split
    · rcases eq_or_other x y with rfl | rfl
      · exact ⟨by simp, by simp, by simp, by simp, .inl (by simp)⟩
      · exact .of_st ((own_modSeq x _ s).other (other_ne x))
    · rename_i _ hh
      rcases eq_or_other x y with rfl | rfl
      · exact absurd hy hh
      · exact (halt_sheltered c s (other_ne x)).trans (.of_st (deliverEnd_other x _ _ (other_ne x)))
  · exact .refl _ _

theorem applyTo_sheltered (c : Cond) (sc : Scope) (v : Severity) (hy : (s.st y).seq.handling = true) :
    Sheltered y s (applyTo c sc v x s) := by
  unfold applyTo
  split
  · split
    · exact .refl _ _
    · rcases eq_or_other x y with rfl | rfl
      · exact ⟨by simp, by simp, by simp, by simp, .inl (by simp)⟩
      · exact .of_st ((own_modSeq x _ s).other (other_ne x))
    · exact haltRequest_sheltered _ hy
    · exact haltRequest_sheltered _ hy
  · exact .refl _ _

theorem raise_sheltered (c : Cond) (sc : Scope) (f : Option Severity)
    (hy : (s.st y).seq.handling = true) : Sheltered y s (raise c sc f s) := by
  unfold raise
  simp only
  refine ((Sheltered.of_st (s := s) (t := logRaise c sc (appliedSeverity s c f) s) rfl).trans
    (applyTo_sheltered _ _ _ hy)).trans (applyTo_sheltered _ _ _ ?_)
  rw [applyTo_handling, logRaise_st]
  exact hy

theorem offerEnd_sheltered (base : Int) (z : ZoneSet) (hx : (s.st x).seq.handling = true) :
    Sheltered x s (offerEnd x base z s).1 := by
  unfold offerEnd
  split
  · unfold replaceTail
    simp only
    split
    · refine .trans (.trans (t := modSar x _ (modQsc x _ s)) ⟨by simp, by simp, by simp, by simp, .inl (by simp)⟩
        ((examineOne_calm x _).sheltered (examineOne_phase _ _ _))) (settleTasks_sheltered _ _)
    · exact ⟨by simp, by simp, by simp, by simp, .inl (by simp)⟩
  · split
    · exact raise_sheltered _ _ _ hx
    · unfold appendEntry
      simp only
      split
      · exact .trans ⟨by simp, by simp, by simp, by simp, .inl (by simp)⟩ (settleTasks_sheltered _ _)
      · exact ⟨by simp, by simp, by simp, by simp, .inl (by simp)⟩

/-- The account that a segment's end closes stays closed through the condition it raises (R93). -/
theorem closeAndRaise_sheltered (c : Cycle) (hx : (s.st x).seq.handling = true) :
    Sheltered x (closeAccount x c false s) (closeAndRaise x c s) := by
  unfold closeAndRaise
  simp only
  split
  · exact raise_sheltered _ _ _ (by simpa using hx)
  · exact .refl _ _

end

end Sys2Proof.Machine
end

