-- ==== Sys2Proof/Laws/Halted.lean ====
section
/-! SUPPORT. What a halt brings to its station and leaves of the other one, which raises bring it, and the
events it comes from (R67, R68, R93, R137, R138, R146, R156, R165, R172, R176). -/

namespace Sys2Proof.Machine

/-! ## The halt (R67, R68, R93, R172, R175, R176) -/

section

variable {x : StationId} {s : State} (c : Cause)

/-- The station as the HALT program is requested. -/
def haltCalled (x : StationId) (c : Cause) (s : State) : State := quenchHalt x (powerHalt x (haltHead x c s))

theorem haltCalled_eng : ((haltCalled x c s).st x).eng = (s.st x).eng := by
  unfold haltCalled
  rw [quenchHalt_st]
  simp [quenchStopped, withdraw, haltHead]

theorem halt_eng : ((halt x c s).st x).eng = ((requestProgram x .halt (haltCalled x c s)).st x).eng := by
  rw [halt_eq, writeRetainedNow_st, haltBody, modResult_eng]
  rfl

theorem deliverEnd_eng : ((deliverEnd x s).st x).eng = { (s.st x).eng with endOwed := none } := by
  unfold deliverEnd
  split
  · rename_i h
    simp only [← h]
  · simp only
    split <;> split <;> simp [completeScan_eq, endHalt_eq, ending, closeResult]

theorem halt_result : ((halt x c s).st x).result =
    (((powerHalt x (haltHead x c s)).st x).result.map fun r =>
      { r with outcome := .aborted, cause := some c }) := by
  rw [halt_eq, writeRetainedNow_st, haltBody, modResult_same, (requestProgram_lined x _ _).result, quenchHalt_st]
  simp [quenchStopped, withdraw]

/-- The account that a halt closes is EXEMPT (R93). -/
theorem closingVerdict_halt (a : Account) (n : Cycle) : closingVerdict s x a n true = .exempt := by
  unfold closingVerdict verdictOf
  simp only
  split <;> rfl

theorem abandonRetune_account : ((abandonRetune x s).st x).pcu.account = (s.st x).pcu.account := by
  unfold abandonRetune; split <;> simp

theorem abandonRetune_result : ((abandonRetune x s).st x).result = (s.st x).result := by
  unfold abandonRetune; split <;> simp

theorem abandonRetune_link : (abandonRetune x s).link = s.link := (abandonRetune_own x s).link

theorem abandonRetune_retune : ((abandonRetune x s).st x).pcu.retune = .none := by
  unfold abandonRetune
  split
  · assumption
  · simp

/-- What a halt closes in the result: the entry of the open account, with its duration and EXEMPT. -/
theorem powerHalt_result : ((powerHalt x s).st x).result = match (s.st x).pcu.account with
    | none => (s.st x).result
    | some a => (s.st x).result.map fun r => { r with entries := r.entries.modify a.index fun e =>
        { accountFigures a e with duration := s.link.count - a.entryCycle, verdict := some .exempt } } := by
  unfold powerHalt closeAccount
  rw [abandonRetune_account, pcuRecompute_pcu_account]
  cases (s.st x).pcu.account with
  | none => simp [abandonRetune_result]
  | some a =>
    simp only [closingVerdict_halt, modPcu_result, modEntry, modResult_same, abandonRetune_result,
      pcuRecompute_result]
    rfl

theorem powerHalt_retune : ((powerHalt x s).st x).pcu.retune = .none := by
  unfold powerHalt closeAccount
  split <;> simp [abandonRetune_retune, modEntry]

theorem powerHalt_power : PowerLaw ((powerHalt x s).st x) := by
  have h : PowerLaw ((abandonRetune x (pcuRecompute x s)).st x) := by
    unfold abandonRetune
    split
    · exact pcuRecompute_power x s
    · exact pcuRecompute_power x _
  unfold powerHalt closeAccount
  split
  · exact h
  · unfold PowerLaw at *
    simpa [modEntry] using h

theorem halt_power : PowerLaw ((halt x c s).st x) := by
  have h : PowerLaw ((haltCalled x c s).st x) := by
    have k := powerHalt_power (x := x) (s := haltHead x c s)
    unfold haltCalled
    rw [quenchHalt_st]
    unfold PowerLaw at *
    simpa [quenchStopped, withdraw] using k
  have k := (requestProgram_lined x (haltCalled x c s) .halt).power h
  rw [halt_eq, writeRetainedNow_st, haltBody]
  unfold PowerLaw at *
  simpa [haltCalled] using k

theorem halt_pcu : ((halt x c s).st x).pcu.account = none ∧ ((halt x c s).st x).pcu.retune = .none := by
  have k := requestProgram_lined x (haltCalled x c s) .halt
  have h : ((haltCalled x c s).st x).pcu = ((powerHalt x (haltHead x c s)).st x).pcu := by
    unfold haltCalled
    rw [quenchHalt_st]
    simp [quenchStopped, withdraw]
  rw [halt_eq, writeRetainedNow_st, haltBody, modResult_pcu]
  exact ⟨by rw [← powerHalt_account, ← h]; exact k.account, by rw [← powerHalt_retune, ← h]; exact k.retune⟩

theorem halt_link : (halt x c s).link = s.link := by
  rw [halt_eq, writeRetainedNow_link, haltBody, (own_modResult x _ _).link, (requestProgram_lined x _ _).own.link,
    (quenchHalt_calm x _).inner.blocks.link, (powerHalt_own x _).link, (haltHead_own x c s).link]

theorem haltHead_account : ((haltHead x c s).st x).pcu.account = (s.st x).pcu.account ∧
    ((haltHead x c s).st x).result = (s.st x).result := by
  simp [haltHead]

/-- Outside the heating states no power is held (R79). -/
theorem PowerLaw.off {v : Station} (h : PowerLaw v) (cold : v.seq.state.heating = false) :
    v.pcu.held.setpoint = 0 ∧ v.pcu.held.run = false := by
  have k : ¬(v.pcu.held.setpoint ≠ 0 ∨ v.pcu.held.run = true) := fun k => by
    rw [(h k).1] at cold
    cases cold
  simpa using k

/-- Outside the states that move the travel request is STOP (R72). -/
theorem TravelLaw.stop {v : Station} (h : TravelLaw v)
    (still : v.seq.state ≠ .approach ∧ v.seq.state ≠ .scanning ∧ v.seq.state ≠ .tail) :
    v.seq.travel.mode = .stop := by
  cases k : v.seq.travel.mode with
  | stop => rfl
  | move =>
    rcases h.2 k with e | e | e
    · exact absurd e still.1
    · exact absurd e still.2.1
    · exact absurd e.1 still.2.2

/-- A station that a halt has left with no power, no travel and no quench is at rest. -/
theorem atRest_of {v : Station} (power : PowerLaw v) (travel : TravelLaw v) (quench : QuenchIdle v)
    (pcu : v.pcu.account = none ∧ v.pcu.retune = .none)
    (state : v.seq.state = .halting ∨ v.seq.state = .idle ∨ v.seq.state = .faulted)
    (timers : v.seq.armTimer = .stopped ∧ v.seq.dwellTimer = .stopped ∧ v.seq.holdTimer = .stopped ∧
      v.seq.tailTimer = .stopped) : AtRest v where
  power := power.off (by rcases state with e | e | e <;> rw [e] <;> rfl)
  travel := travel.stop (by rcases state with e | e | e <;> rw [e] <;> decide)
  quench := quench
  account := pcu.1
  retune := pcu.2
  timers := timers

theorem syncTravel_seen (y : StationId) : ((syncTravel x s).st y).trk.report = (s.st y).trk.report ∧
    ((syncTravel x s).st y).trk.last = (s.st y).trk.last := by
  rcases eq_or_other x y with rfl | rfl
  · unfold syncTravel noteTravel
    simp only [modTrk_same, modSeq_trk]
    split <;> exact ⟨rfl, rfl⟩
  · rw [(syncTravel_own x s).other (other_ne x)]
    exact ⟨rfl, rfl⟩

theorem haltHead_seen : ((haltHead x c s).st x).trk.report = (s.st x).trk.report ∧
    ((haltHead x c s).st x).trk.last = (s.st x).trk.last := by
  unfold haltHead
  have h := syncTravel_seen (x := x) (s := modSeq x
    (fun q => { stopTimers q with heldState := none, pendingState := none, phase := none })
      (enterState x .halting (modSeq x (fun q => { q with haltCause := some c }) s))) x
  have k := syncTravel_seen (x := x) (s := pcuRecompute x (modPcu x (stateCounts .halting)
    (modSeq x (fun q => { q with state := .halting }) (modSeq x (fun q => { q with haltCause := some c }) s)))) x
  have e : enterState x .halting (modSeq x (fun q => { q with haltCause := some c }) s) =
    syncTravel x (pcuRecompute x (modPcu x (stateCounts .halting)
      (modSeq x (fun q => { q with state := .halting }) (modSeq x (fun q => { q with haltCause := some c }) s)))) := rfl
  rw [h.1, h.2, modSeq_trk, e, k.1, k.2]
  simp

theorem powerHalt_trk : ((powerHalt x s).st x).trk = (s.st x).trk := by
  unfold powerHalt abandonRetune
  split <;> simp

theorem haltBody_shaft : lastShaft ((haltBody x c s).st x) = lastShaft (s.st x) := by
  have h : ((haltBody x c s).st x).trk = ((haltHead x c s).st x).trk := by
    rw [haltBody, modResult_trk, (requestProgram_lined x _ _).trk, quenchHalt_st]
    simp [quenchStopped, withdraw, powerHalt_trk]
  have d : ((haltBody x c s).st x).seq.datum = (s.st x).seq.datum := by
    rw [haltBody_seq, haltHead_seq]
    rfl
  unfold lastShaft
  rw [h, (haltHead_seen c).1, (haltHead_seen c).2, d]

/-- The retained record of a halted station (R176). -/
theorem halt_record {p : HeldProfile} (hp : (s.st x).seq.profile = some p) :
    (halt x c s).rtb.records.get x = some
      { profile := p.number, revision := p.revision, datum := (s.st x).seq.datum,
        index := (s.st x).seq.index, position := lastShaft (s.st x), cycle := s.link.count,
        state := .halting } := by
  have l : (haltBody x c s).link = s.link := by
    have h := halt_link c (x := x) (s := s)
    rw [halt_eq, writeRetainedNow_link] at h
    exact h
  have q : ((haltBody x c s).st x).seq = { stopTimers (s.st x).seq with
      state := .halting, heldState := none, pendingState := none, phase := none, haltCause := some c,
      travel := ((haltHead x c s).st x).seq.travel, travelSet := ((haltHead x c s).st x).seq.travel,
      travelStale := ((haltHead x c s).st x).seq.travelStale } := by
    rw [haltBody_seq, haltHead_seq]
  rw [halt_eq]
  unfold writeRetainedNow writeRetained State.cycle
  rw [haltBody_shaft, l, q]
  simp only [stopTimers, hp, putRetained]
  rw [pair_get_set]

/-- The station behind the end of its HALT program. -/
def haltEnded (x : StationId) (h : State) : State := endHalt x (modEng x (fun e => { e with endOwed := none }) h)

theorem haltEnded_result (h : State) : ((haltEnded x h).st x).result = ((h.st x).result.map fun r =>
    { r with endCycle := some h.link.count }) := by
  unfold haltEnded
  rw [endHalt_eq, releaseScan_result]
  unfold ending closeResult
  rw [enterState_result, modSeq_result, modResult_same, modEng_result]
  rfl

theorem haltEnded_seq (h : State) : ((haltEnded x h).st x).seq.state = stateAfterHalt (h.st x).seq.haltCause ∧
    ((haltEnded x h).st x).seq.resultReady = true ∧
    ((haltEnded x h).st x).seq.haltCause = (h.st x).seq.haltCause ∧
    ((haltEnded x h).st x).seq.index = (h.st x).seq.index ∧
    ((haltEnded x h).st x).seq.profile = (h.st x).seq.profile ∧
    ((haltEnded x h).st x).seq.datum = (h.st x).seq.datum ∧
    ((haltEnded x h).st x).seq.heldState = (h.st x).seq.heldState ∧
    ((haltEnded x h).st x).seq.pendingState = (h.st x).seq.pendingState ∧
    ((haltEnded x h).st x).seq.phase = (h.st x).seq.phase ∧
    ((haltEnded x h).st x).seq.armTimer = .stopped ∧ ((haltEnded x h).st x).seq.dwellTimer = .stopped ∧
    ((haltEnded x h).st x).seq.holdTimer = .stopped ∧ ((haltEnded x h).st x).seq.tailTimer = .stopped := by
  unfold haltEnded
  rw [endHalt_eq]
  simp [ending, closeResult, stopTimers]

theorem haltEnded_laws (h : State) : PowerLaw ((haltEnded x h).st x) ∧ TravelLaw ((haltEnded x h).st x) ∧
    ((haltEnded x h).st x).pcu.account = (h.st x).pcu.account ∧
    ((haltEnded x h).st x).pcu.retune = (h.st x).pcu.retune ∧
    ((haltEnded x h).st x).sar = { (h.st x).sar with reservation := none } ∧
    ((haltEnded x h).st x).qsc.queue = (h.st x).qsc.queue ∧
    ((haltEnded x h).st x).qsc.lastIssued = (h.st x).qsc.lastIssued := by
  unfold haltEnded
  rw [endHalt_eq]
  refine ⟨?_, ?_, by simp [ending, closeResult], by simp [ending, closeResult], by simp [ending, closeResult],
    by simp [ending, closeResult], by simp [ending, closeResult]⟩
  · have k := enterState_power x (modSeq x (fun q => { stopTimers q with resultReady := true })
      (closeResult x (fun o => o) (modEng x (fun e => { e with endOwed := none }) h)))
      (stateAfterHalt ((modEng x (fun e => { e with endOwed := none }) h).st x).seq.haltCause)
    unfold ending PowerLaw at *
    simpa using k
  · have k := enterState_travel x (modSeq x (fun q => { stopTimers q with resultReady := true })
      (closeResult x (fun o => o) (modEng x (fun e => { e with endOwed := none }) h)))
      (stateAfterHalt ((modEng x (fun e => { e with endOwed := none }) h).st x).seq.haltCause)
    unfold ending TravelLaw at *
    simpa using k

theorem haltEnded_scan (h : State) : (haltEnded x h).rtb.records.get x = none ∧
    (haltEnded x h).store.inUse.get x = none := by
  unfold haltEnded
  rw [endHalt_eq]
  unfold releaseScan modStore putRetained
  constructor
  · exact pair_get_set _ _ _
  · exact pair_get_set _ _ _

theorem haltEnded_eng (h : State) : ((haltEnded x h).st x).eng = { (h.st x).eng with endOwed := none } := by
  unfold haltEnded
  rw [endHalt_eq]
  simp [ending, closeResult]

theorem modSeq_id : modSeq x id s = s := by cases x <;> rfl

/-- The halt of a station whose program's end is not owed: all that it brings, a command's result shown or not. -/
theorem halt_haltedBy_of (ho : (s.st x).eng.endOwed = none) (g : Sequencer → Sequencer)
    (hg : ∀ q, ∃ r, g q = { q with commandResult := r }) :
    HaltedBy x c s (deliverEnd x (modSeq x g (halt x c s))) := by
  obtain ⟨h, hh⟩ : ∃ h, h = modSeq x g (halt x c s) := ⟨_, rfl⟩
  have hseq := halt_seq x c s
  have hres := halt_result c (x := x) (s := s)
  have hacc := haltHead_account c (x := x) (s := s)
  have hlink := halt_link c (x := x) (s := s)
  have hl2 : (haltHead x c s).link = s.link := (haltHead_own x c s).link
  have hpow := halt_power c (x := x) (s := s)
  have hidle := halt_idle x c s
  have hpcu := halt_pcu c (x := x) (s := s)
  have htrav := halt_travel x c s
  have hrec := fun p => halt_record c (x := x) (s := s) (p := p)
  have eq := requestProgram_engaged x (haltCalled x c s) .halt (by rw [haltCalled_eng]; exact ho)
  rw [← halt_eng] at eq
  have engaged : Engaged s x .halt { ((halt x c s).st x).eng with endOwed := none } := by
    have e := eq.1
    unfold Engaged at e ⊢
    rw [haltCalled_eng] at e
    exact ⟨e.1, fun k => (e.2 k).of_eng ⟨_, _, _, haltCalled_eng c⟩⟩
  rw [powerHalt_result, hacc.1, hacc.2, hl2] at hres
  have hgs : ∃ r, (h.st x).seq = { ((halt x c s).st x).seq with commandResult := r } := by
    rw [hh, modSeq_same]
    exact hg _
  have heng : (h.st x).eng = ((halt x c s).st x).eng := by rw [hh, modSeq_eng]
  have hqsc : (h.st x).qsc = ((halt x c s).st x).qsc := by rw [hh, modSeq_qsc]
  have hsar : (h.st x).sar = ((halt x c s).st x).sar := by rw [hh, modSeq_sar]
  have hp : (h.st x).pcu = ((halt x c s).st x).pcu := by rw [hh, modSeq_pcu]
  have hre : (h.st x).result = ((halt x c s).st x).result := by rw [hh, modSeq_result]
  have hrt : h.rtb = (halt x c s).rtb := by rw [hh, modSeq_rtb]
  have hli : h.link = (halt x c s).link := by rw [hh, modSeq_link]
  unfold QuenchIdle at hidle
  unfold PowerLaw at hpow
  rw [← hqsc, ← hsar] at hidle
  rw [← hp] at hpcu
  rw [← hre] at hres
  rw [← hrt] at hrec
  rw [← hli] at hlink
  rw [← heng] at eq engaged
  rw [← hh]
  obtain ⟨cr, hgs⟩ := hgs
  rw [hseq] at hgs
  have hpow : PowerLaw (h.st x) := by
    unfold PowerLaw
    rw [hp, hgs, heng]
    rw [halt_state] at hpow
    exact hpow
  have hst : (h.st x).seq.state = .halting := by rw [hgs]
  have htrav : (h.st x).seq.travel.mode = .stop := by rw [hgs]; exact htrav
  have hseqs : (h.st x).seq.haltCause = some c ∧ (h.st x).seq.index = (s.st x).seq.index ∧
      (h.st x).seq.profile = (s.st x).seq.profile ∧ (h.st x).seq.datum = (s.st x).seq.datum ∧
      (h.st x).seq.heldState = none ∧ (h.st x).seq.pendingState = none ∧ (h.st x).seq.phase = none ∧
      (h.st x).seq.armTimer = .stopped ∧ (h.st x).seq.dwellTimer = .stopped ∧
      (h.st x).seq.holdTimer = .stopped ∧ (h.st x).seq.tailTimer = .stopped ∧
      (h.st x).seq.travelSet = (h.st x).seq.travel := by
    rw [hgs]
    exact ⟨rfl, rfl, rfl, rfl, rfl, rfl, rfl, rfl, rfl, rfl, rfl, rfl⟩
  obtain ⟨q1, q2, q3, q4, q5, q6, q7, q8, q9, q10, q11, q12⟩ := hseqs
  -- the result as the halt leaves it, with the account's entry
  have hentries : ∀ r, (s.st x).result = some r → ∃ entries, entries.length = r.entries.length ∧
      (h.st x).result = some { r with outcome := .aborted, cause := some c, entries := entries } ∧
      ∀ a e, (s.st x).pcu.account = some a → r.entries[a.index]? = some e → ∃ e', entries[a.index]? = some e' ∧
        e'.verdict = some .exempt ∧ e'.duration = s.link.count - a.entryCycle := by
    intro r hr
    rw [hr] at hres
    cases ha : (s.st x).pcu.account with
    | none =>
      rw [ha] at hres
      exact ⟨r.entries, rfl, hres, fun a e k => by cases k⟩
    | some a =>
      rw [ha] at hres
      refine ⟨_, by simp, hres, fun a' e k he => ?_⟩
      cases k
      refine ⟨_, by rw [List.getElem?_modify_eq, he]; rfl, rfl, rfl⟩
  rcases eq.2 with ⟨hrun, howed⟩ | ⟨hrun, howed⟩
  · have ht : deliverEnd x h = haltEnded x h := by
      unfold deliverEnd haltEnded
      rw [howed]
      simp only [modEng_seq, hst, if_true]
    rw [ht]
    obtain ⟨p1, p2, p3, p4, p5, p6, p7⟩ := haltEnded_laws (x := x) h
    obtain ⟨r1, r2, r3, r4, r5, r6, r7, r8, r9, r10, r11, r12, r13⟩ := haltEnded_seq (x := x) h
    have hnone : ((haltEnded x h).st x).eng.running = none := by rw [haltEnded_eng]; exact hrun
    have hstate : ((haltEnded x h).st x).seq.state = (match c with
      | .cond _ => .faulted
      | .abortCommand | .linkReset => .idle) := by
      rw [r1, q1]
      cases c <;> rfl
    have hresult : ∀ r, (h.st x).result = some r →
        ((haltEnded x h).st x).result = some { r with endCycle := some s.link.count } := by
      intro r hr
      rw [haltEnded_result, hr, hlink]
      rfl
    refine ⟨?_, by rw [r3, q1], ⟨by rw [r4, q2], by rw [r5, q3], by rw [r6, q4]⟩,
      ⟨by rw [r7, q5], by rw [r8, q6], by rw [r9, q7]⟩, by rw [haltEnded_eng]; exact engaged, ?_, ?_,
      fun k => absurd hnone k, fun _ => ⟨hstate, r2, (haltEnded_scan h).1, (haltEnded_scan h).2, by rw [p5]⟩⟩
    · refine atRest_of p1 p2 ?_ ⟨by rw [p3]; exact hpcu.1, by rw [p4]; exact hpcu.2⟩ ?_ ⟨r10, r11, r12, r13⟩
      · unfold QuenchIdle at *
        rw [p6, p7, p5]
        exact hidle
      · rw [hstate]
        cases c
        · exact .inr (.inr rfl)
        · exact .inr (.inl rfl)
        · exact .inr (.inl rfl)
    · intro r hr
      obtain ⟨es, h1, h2, -⟩ := hentries r hr
      exact ⟨es, h1, by rw [hresult _ h2, if_pos hnone]⟩
    · intro a r e ha hr he
      obtain ⟨es, h1, h2, h3⟩ := hentries r hr
      obtain ⟨e', k1, k2, k3⟩ := h3 a e ha he
      exact ⟨_, e', hresult _ h2, k1, k2, k3⟩
  · have ht : deliverEnd x h = h := by
      unfold deliverEnd
      rw [howed]
    rw [ht]
    have hengine : { (h.st x).eng with endOwed := none } = (h.st x).eng := by simp only [← howed]
    rw [hengine] at engaged
    refine ⟨?_, q1, ⟨q2, q3, q4⟩, ⟨q5, q6, q7⟩, engaged, ?_, ?_, fun _ => ⟨hst, hrec⟩, fun k => absurd k hrun⟩
    · refine atRest_of hpow ⟨q12, fun k => by rw [htrav] at k; cases k⟩ hidle hpcu (.inl hst) ⟨q8, q9, q10, q11⟩
    · intro r hr
      obtain ⟨es, h1, h2, -⟩ := hentries r hr
      exact ⟨es, h1, by rw [h2, if_neg hrun]⟩
    · intro a r e ha hr he
      obtain ⟨es, h1, h2, h3⟩ := hentries r hr
      obtain ⟨e', k1, k2, k3⟩ := h3 a e ha he
      exact ⟨_, e', h2, k1, k2, k3⟩

theorem halt_haltedBy (ho : (s.st x).eng.endOwed = none) : HaltedBy x c s (deliverEnd x (halt x c s)) := by
  have h := halt_haltedBy_of c ho id fun q => ⟨q.commandResult, rfl⟩
  rwa [modSeq_id] at h

end

/-! ## The ends of the programs (R51, R66, R68, R133) -/

section

variable {x : StationId} {s t : State}

theorem inverterReady_iff (c : Channel) : inverterReadyOn s x c = true ↔
    (s.link.samples.get x).powerActual.fresh = true ∧
      ∃ v, (s.link.samples.get x).powerActual.value = some v ∧ v[3] = 1 ∧
        v[2] = match c with | .low => 1 | .high => 2 := by
  unfold inverterReadyOn
  simp only [Bool.and_eq_true]
  refine and_congr_right fun _ => ?_
  have ready : ∀ b : Byte, inverterOf b = some .ready ↔ b = 1 := by
    intro b
    unfold inverterOf
    split_ifs <;> simp_all
  have on : ∀ b : Byte, activeChannelOf b = some (channelInForce c) ↔
      b = match c with | .low => 1 | .high => 2 := by
    intro b
    unfold activeChannelOf channelInForce
    cases c <;> split_ifs <;> simp_all
  cases (s.link.samples.get x).powerActual.value with
  | none => simp
  | some v =>
    simp only [Option.some.injEq, exists_eq_left', ← ready, ← on]
    cases inverterOf v[3] with
    | none => simp
    | some i => cases i <;> cases activeChannelOf v[2] <;> simp

/-- The arm check is R51's list, in ARMING with the START program ended. -/
theorem armCheck_iff {p : HeldProfile} (hp : (s.st x).seq.profile = some p)
    (ha : (s.st x).seq.state = .arming) (hr : (s.st x).eng.running ≠ some .start)
    (ho : (s.st x).eng.endOwed ≠ some .start) : armCheck s x = true ↔ ArmReady s x p := by
  unfold armCheck
  simp only [hp, ha, decide_true, Bool.true_and, Bool.and_eq_true, decide_eq_true_eq, Bool.not_eq_true']
  constructor
  · rintro ⟨⟨⟨⟨⟨⟨⟨-, -⟩, h1⟩, h2⟩, h3⟩, h4⟩, h5⟩, h6⟩
    refine ⟨⟨h1, h2⟩, (inverterReady_iff _).mp h3, ?_, h5, ?_⟩
    · obtain ⟨f, k1, k2⟩ := Option.any_eq_true _ _ |>.mp h4
      simp only [Bool.and_eq_true, Bool.not_eq_true'] at k2
      exact ⟨f, k1, k2.1.1, k2.1.2, k2.2⟩
    · obtain ⟨e, k1, k2⟩ := Option.any_eq_true _ _ |>.mp h6
      obtain ⟨e', k3, rfl⟩ := Option.map_eq_some_iff.mp k1
      exact ⟨e', k3, (decide_eq_true_eq.mp k2)⟩
  · intro h
    obtain ⟨f, k1, k2, k3, k4⟩ := h.axis
    obtain ⟨e, k5, k6⟩ := h.place
    refine ⟨⟨⟨⟨⟨⟨⟨hr, ho⟩, h.channel.1⟩, h.channel.2⟩, (inverterReady_iff _).mpr h.inverter⟩, ?_⟩, h.tracked⟩, ?_⟩
    · rw [k1]
      simp [k2, k3, k4]
    · unfold shaftOf
      rw [k5]
      simpa using k6


/-- The arm check of a station reads what neither the engine's work nor the mark of an owed end writes. -/
theorem ArmReady.of_lined {p : HeldProfile} (h : Lined x s t) : ArmReady t x p ↔ ArmReady s x p := by
  have hl : t.link = s.link := h.own.link
  have hf : ∀ c, inForce (t.st x).pcu c = inForce (s.st x).pcu c := fun c => by unfold inForce; rw [h.channel]
  constructor <;> intro k
  · obtain ⟨h1, h2, h3, h4, h5⟩ := k
    rw [h.retune, hf] at h1
    rw [hl] at h2
    rw [h.trk] at h3 h4 h5
    rw [h.seq, h.par] at h5
    exact ⟨h1, h2, h3, h4, h5⟩
  · obtain ⟨h1, h2, h3, h4, h5⟩ := k
    refine ⟨by rw [h.retune, hf]; exact h1, by rw [hl]; exact h2, by rw [h.trk]; exact h3, by rw [h.trk]; exact h4, ?_⟩
    rw [h.trk, h.seq, h.par]
    exact h5

/-- A scan that ends in a state at rest, its timers stopped and its result ready. -/
theorem ending_scanEnded {n : StationState} {f : ScanOutcome → ScanOutcome} {g : Sequencer → Sequencer}
    (hn : n.active = false)
    (hg : ∀ q, ∃ p, g q = { stopTimers q with phase := p, resultReady := true }) :
    ScanEnded x n s (releaseScan x (ending x n f g s)) := by
  obtain ⟨p, hg⟩ := hg ((closeResult x f s).st x).seq
  have hseq : ((modSeq x g (closeResult x f s)).st x).seq =
      { stopTimers (s.st x).seq with phase := p, resultReady := true } := by
    rw [modSeq_same, hg]
    simp [closeResult]
  have still : n.heating = false ∧ n ≠ .approach ∧ n ≠ .scanning ∧ n ≠ .tail := by
    cases n <;> first | exact absurd hn (by decide) | decide
  have power := (enterState_power x (modSeq x g (closeResult x f s)) n).off (by simpa using still.1)
  have travel := (enterState_travel x (modSeq x g (closeResult x f s)) n).stop (by simpa using still.2)
  unfold ending
  refine ⟨by simp, by simp [hseq], by simp [hseq, stopTimers], by simpa using travel, by simpa using power,
    by simp [hseq, stopTimers], ?_, ?_, by simp [closeResult]⟩
  · exact pair_get_set _ _ _
  · exact pair_get_set _ _ _

theorem ending_result {n : StationState} {f : ScanOutcome → ScanOutcome} {g : Sequencer → Sequencer} :
    ((releaseScan x (ending x n f g s)).st x).result =
      (s.st x).result.map fun r => { r with outcome := f r.outcome, endCycle := some s.link.count } := by
  unfold ending closeResult
  simp only [releaseScan_result, enterState_result, modSeq_result, modResult_same]
  rfl

/-- The end of a program keeps the power law of its station. -/
theorem deliverEnd_power (h : PowerLaw (s.st x)) :
    PowerLaw ((deliverEnd x s).st x) := by
  have rel : ∀ u : State, PowerLaw (u.st x) → PowerLaw ((releaseScan x u).st x) := fun u k => by
    unfold PowerLaw at *
    simpa using k
  have mark : PowerLaw ((modEng x (fun e => { e with endOwed := none }) s).st x) := by
    unfold PowerLaw at *
    simpa using h
  unfold deliverEnd
  split
  · exact h
  · simp only
    split <;> split
    · exact enterState_power x _ _
    · exact mark
    · rw [completeScan_eq]
      exact rel _ (enterState_power x _ _)
    · exact mark
    · rw [endHalt_eq]
      exact rel _ (enterState_power x _ _)
    · exact mark

/-- A station that enters APPROACH moves at APPROACH_SPEED, its arm timer stopped, its record written (R51, R53). -/
theorem enterApproach_approach {p : HeldProfile} (hp : (s.st x).seq.profile = some p) :
    ((enterApproach x s).st x).seq.state = .approach ∧ ((enterApproach x s).st x).seq.armTimer = .stopped ∧
      ((enterApproach x s).st x).seq.travel =
        { mode := .move, speed := (s.st x).par.approachSpeed,
          direction := if p.header.direction = .down then .decreasing else .increasing } ∧
      ((enterApproach x s).st x).seq.index = (s.st x).seq.index ∧
      ((enterApproach x s).st x).result = (s.st x).result ∧ ((enterApproach x s).st x).sar = (s.st x).sar ∧
      (enterApproach x s).store = s.store ∧ (enterApproach x s).rtb.records.get x = some
        { profile := p.number, revision := p.revision, datum := (s.st x).seq.datum,
          index := (s.st x).seq.index, position := lastShaft (s.st x), cycle := s.link.count,
          state := .approach } := by
  have hrec : (enterApproach x s).rtb =
      (writeRetained x .approach s.cycle (modSeq x (fun q => { q with armTimer := .stopped }) s)).rtb := by
    unfold enterApproach
    rw [enterState_own x _ _]
  refine ⟨by simp [enterApproach], by simp [enterApproach], ?_, by simp [enterApproach], by simp [enterApproach],
    by simp [enterApproach], ?_, ?_⟩
  · have hd : (pcuRecompute x (entering x .approach (writeRetained x .approach s.cycle
        (modSeq x (fun q => { q with armTimer := .stopped }) s)))).direction x = p.header.direction := by
      unfold State.direction
      simp [hp]
    unfold enterApproach
    rw [enterState_eq, syncTravel_travel]
    unfold travelOf travelDirection
    rw [hd]
    simp
    cases p.header.direction <;> rfl
  · unfold enterApproach
    rw [(enterState_own x _ _).store]
    simp
  · rw [hrec]
    unfold writeRetained
    simp only [modSeq_same, hp, putRetained, pair_get_set, lastShaft, modSeq_trk]
    rfl

end

/-! ## What the halt of one station leaves of the other -/

section

variable {s t u : State} {x y : StationId}

/-- The result of `y` keeps its fields and the number of its entries: all that tasks write is a lateness (R108). -/
def EntriesKept (y : StationId) (s t : State) : Prop :=
  ∀ r, (s.st y).result = some r → ∃ es, es.length = r.entries.length ∧
    (t.st y).result = some { r with entries := es }

theorem EntriesKept.of_result (h : (t.st y).result = (s.st y).result) : EntriesKept y s t :=
  fun r hr => ⟨r.entries, rfl, by rw [h, hr]⟩

theorem EntriesKept.refl (y : StationId) (s : State) : EntriesKept y s s := .of_result rfl

theorem EntriesKept.trans (h : EntriesKept y s t) (k : EntriesKept y t u) : EntriesKept y s u := by
  intro r hr
  obtain ⟨es, h1, h2⟩ := h r hr
  obtain ⟨fs, k1, k2⟩ := k _ h2
  exact ⟨fs, k1.trans h1, k2⟩

theorem issued_entries (x : StationId) (e : QEntry) (s : State) : EntriesKept x s (issued x e s) := by
  intro r hr
  have h : ∃ i f, ((issued x e s).st x).result = some { r with entries := r.entries.modify i f } := by
    refine ⟨originIndex (issueSet x e.zones s) x e.origin,
      fun k => { k with lateness := some (Nat.max (k.lateness.getD 0) (latenessOf s x e)) }, ?_⟩
    simp only [issued, startValve, modQsc_result, recordLateness, modEntry, modResult_same, issueSet_result, hr]
    rfl
  obtain ⟨i, f, h⟩ := h
  exact ⟨_, by simp, h⟩

theorem closeQuench_result (x y : StationId) (s : State) :
    ((closeQuench x s).st y).result = (s.st y).result := by
  simp [closeQuench, startValve]

theorem openTail_result (x y : StationId) (s : State) : ((openTail x s).st y).result = (s.st y).result := by
  simp [openTail]

theorem issueHead_entries (x y : StationId) (e : QEntry) (s : State) :
    EntriesKept y s (issueHead x e s).1 := by
  rcases eq_or_other x y with rfl | rfl
  · rw [issueHead_eq]
    split
    · refine (issued_entries _ e s).trans (.of_result ?_)
      unfold endMarkerIssued
      split <;> simp [closeQuench_result, openTail_result]
    · exact issued_entries _ e s
  · exact .of_result (by rw [issueHead_st x s e (other_ne x)])

theorem presentHead_entries (x y : StationId) (e : QEntry) (d : Due) (s : State) :
    EntriesKept y s (presentHead x e d s).1 := by
  unfold presentHead
  simp only
  split
  · exact issueHead_entries _ _ _ _
  · split
    · exact .trans (.of_result (by simp [grant])) (issueHead_entries _ _ _ _)
    · exact .of_result (by simp [holdRequest, markHead])

theorem testHead_entries (x y : StationId) (s : State) : EntriesKept y s (testHead x s).1 := by
  unfold testHead
  repeat' split
  all_goals first
    | exact .refl _ _
    | exact .trans (.of_result (by simp [markHead])) (presentHead_entries _ _ _ _ _)

theorem examineOne_entries (x y : StationId) (s : State) : EntriesKept y s (examineOne x s).1 := by
  unfold examineOne
  split
  · exact .of_result rfl
  · split
    · simp only
      split
      · exact .of_result (by simp [markHead, grant])
      · exact .trans (t := markHead x _ (grant x _ s)) (.of_result (by simp [markHead, grant]))
          (issueHead_entries _ _ _ _)
    · exact .of_result rfl

theorem runTasks_entries (y : StationId) (n : Nat) (ts : List QTask) (s : State) :
    EntriesKept y s (runTasks n ts s) := by
  induction n generalizing ts s with
  | zero => cases ts <;> exact .of_result rfl
  | succ n ih =>
    cases ts with
    | nil => exact .of_result rfl
    | cons t ts =>
      unfold runTasks
      refine .trans ?_ (ih _ _)
      cases t with
      | test x => exact testHead_entries x y s
      | examine => exact (examineOne_entries _ y s).trans (examineOne_entries _ y _)

/-- The retained record of a station is written by its own tasks alone. -/
theorem putRetained_other (h : y ≠ x) (r : Option Retained) (s : State) :
    (putRetained x r s).rtb.records.get y = s.rtb.records.get y :=
  pair_get_set_other _ _ _ _ h

theorem writeRetainedNow_other (h : y ≠ x) (s : State) :
    (writeRetainedNow x s).rtb.records.get y = s.rtb.records.get y := by
  unfold writeRetainedNow writeRetained
  split
  · exact putRetained_other h _ s
  · rfl

theorem issueHead_records (h : y ≠ x) (e : QEntry) (s : State) :
    (issueHead x e s).1.rtb.records.get y = s.rtb.records.get y := by
  have hi : (issued x e s).rtb = s.rtb := rfl
  rw [issueHead_eq]
  split
  · unfold endMarkerIssued openTail closeQuench
    have w := fun s : State => writeRetainedNow_other h s
    split
    · show (writeRetainedNow x (setPhase x (some .closing) (modSeq x _ (writeRetainedNow x
        (setPhase x (some .openZones) (modSeq x _ (issued x e s))))))).rtb.records.get y = _
      rw [w]
      show (writeRetainedNow x (setPhase x (some .openZones) (modSeq x _ (issued x e s)))).rtb.records.get y = _
      rw [w]
      rfl
    · rw [w]
      rfl
  · rw [hi]

theorem presentHead_records (h : y ≠ x) (e : QEntry) (d : Due) (s : State) :
    (presentHead x e d s).1.rtb.records.get y = s.rtb.records.get y := by
  unfold presentHead
  simp only
  split
  · exact issueHead_records h _ _
  · split
    · rw [issueHead_records h]
      rfl
    · rfl

/-- A test of the head of an idle station's queue, or of the other's, leaves the idle station's record. -/
theorem testHead_records (hq : (s.st y).qsc.queue = []) :
    (testHead x s).1.rtb.records.get y = s.rtb.records.get y := by
  rcases eq_or_other x y with rfl | rfl
  · unfold testHead
    simp [hq]
  · unfold testHead
    repeat' split
    all_goals first
      | with_reducible rfl
      | exact presentHead_records (other_ne x) _ _ _

theorem examineOne_records (hw : (s.st y).sar.waiting = none) :
    (examineOne x s).1.rtb.records.get y = s.rtb.records.get y := by
  rcases eq_or_other x y with rfl | rfl
  · unfold examineOne
    simp [hw]
  · unfold examineOne
    split
    · rfl
    · split
      · simp only
        split
        · rfl
        · exact issueHead_records (other_ne x) _ _
      · rfl

theorem runTasks_records (n : Nat) (ts : List QTask) (s : State) (hq : (s.st y).qsc.queue = [])
    (hw : (s.st y).sar.waiting = none) :
    (runTasks n ts s).rtb.records.get y = s.rtb.records.get y := by
  induction n generalizing ts s with
  | zero => cases ts <;> rfl
  | succ n ih =>
    cases ts with
    | nil => rfl
    | cons t ts =>
      have hs := runTask_idle t s y hq hw
      unfold runTasks
      rw [ih _ _ (by rw [hs]; exact hq) (by rw [hs]; exact hw)]
      cases t with
      | test x => exact testHead_records hq
      | examine =>
        have h1 := examineOne_idle (x := if examinesBFirst s then .b else .a) s y hq hw
        exact (examineOne_records (by rw [h1]; exact hw)).trans (examineOne_records hw)

theorem releaseScan_leaves (h : y ≠ x) (s : State) :
    (releaseScan x s).rtb.records.get y = s.rtb.records.get y ∧
      (releaseScan x s).store.inUse.get y = s.store.inUse.get y := by
  unfold releaseScan modStore
  exact ⟨putRetained_other h _ _, pair_get_set_other _ _ _ _ h⟩

/-- The end of one station's program leaves record and in-use mark of the other. -/
theorem deliverEnd_leaves (h : y ≠ x) (s : State) :
    (deliverEnd x s).rtb.records.get y = s.rtb.records.get y ∧
      (deliverEnd x s).store.inUse.get y = s.store.inUse.get y := by
  unfold deliverEnd
  split
  · exact ⟨rfl, rfl⟩
  · simp only
    split <;> split
    · unfold enterApproach writeRetained
      rw [show ∀ v, (enterState x .approach v).rtb = v.rtb from fun v => by rw [enterState_own x v _],
        (enterState_own x _ _).store]
      split
      · exact ⟨putRetained_other h _ _, rfl⟩
      · exact ⟨rfl, rfl⟩
    · exact ⟨rfl, rfl⟩
    · rw [completeScan_eq]
      have k := releaseScan_leaves h (ending x .complete
        (fun _ => if ((modEng x (fun e => { e with endOwed := none }) s).st x).seq.degraded ||
          ((modEng x (fun e => { e with endOwed := none }) s).st x).seq.disturbed then .degraded else .good)
        (fun q => { stopTimers q with phase := none, resultReady := true })
        (modEng x (fun e => { e with endOwed := none }) s))
      refine ⟨k.1.trans ?_, k.2.trans ?_⟩ <;> rw [ending_own x _] <;> rfl
    · exact ⟨rfl, rfl⟩
    · rw [endHalt_eq]
      refine ⟨(releaseScan_leaves h _).1.trans ?_, (releaseScan_leaves h _).2.trans ?_⟩ <;>
        rw [ending_own x _] <;> rfl
    · exact ⟨rfl, rfl⟩

/-- The open account stays open for its segment since the cycle of its entry (R91). -/
def AccountStands (x : StationId) (s t : State) : Prop :=
  ∀ a, (s.st x).pcu.account = some a → ∃ b, (t.st x).pcu.account = some b ∧
    b.index = a.index ∧ b.entryCycle = a.entryCycle

theorem AccountStands.of_eq (h : (t.st x).pcu.account = (s.st x).pcu.account) : AccountStands x s t :=
  fun a ha => ⟨a, by rw [h, ha], rfl, rfl⟩

theorem AccountStands.trans (h : AccountStands x s t) (k : AccountStands x t u) : AccountStands x s u := by
  intro a ha
  obtain ⟨b, h1, h2, h3⟩ := h a ha
  obtain ⟨c, k1, k2, k3⟩ := k b h1
  exact ⟨c, k1, k2.trans h2, k3.trans h3⟩

/-- What `HaltedBy` reads of the state it starts from. -/
structure ScanKept (x : StationId) (s t : State) : Prop where
  seq : (t.st x).seq.index = (s.st x).seq.index ∧ (t.st x).seq.profile = (s.st x).seq.profile ∧
    (t.st x).seq.datum = (s.st x).seq.datum
  eng : (t.st x).eng = (s.st x).eng
  account : AccountStands x s t
  count : t.link.count = s.link.count
  shaft : lastShaft (t.st x) = lastShaft (s.st x)
  entries : EntriesKept x s t

theorem ScanKept.of_st (h : t.st x = s.st x) (count : t.link.count = s.link.count) : ScanKept x s t :=
  ⟨by rw [h]; exact ⟨rfl, rfl, rfl⟩, by rw [h], .of_eq (by rw [h]), count, by rw [h], .of_result (by rw [h])⟩

theorem ScanKept.trans (h : ScanKept x s t) (k : ScanKept x t u) : ScanKept x s u :=
  ⟨⟨k.seq.1.trans h.seq.1, k.seq.2.1.trans h.seq.2.1, k.seq.2.2.trans h.seq.2.2⟩, k.eng.trans h.eng,
    h.account.trans k.account, k.count.trans h.count, k.shaft.trans h.shaft, h.entries.trans k.entries⟩

theorem Engaged.of_eng {p : Program} {e : Engine} (h : Engaged t x p e) (k : (t.st x).eng = (s.st x).eng) :
    Engaged s x p e := by
  unfold Engaged at *
  rw [k] at h
  exact ⟨h.1, fun r => (h.2 r).of_eng ⟨_, _, _, k⟩⟩

/-- A halt counts from an earlier state too, when the scan was as it is now. -/
theorem HaltedBy.of_start {c : Cause} (h : HaltedBy x c t u) (k : ScanKept x s t) : HaltedBy x c s u where
  rest := h.rest
  cause := h.cause
  kept := ⟨h.kept.1.trans k.seq.1, h.kept.2.1.trans k.seq.2.1, h.kept.2.2.trans k.seq.2.2⟩
  cleared := h.cleared
  program := h.program.of_eng k.eng
  result r hr := by
    obtain ⟨es, h1, h2⟩ := k.entries r hr
    obtain ⟨fs, k1, k2⟩ := h.result _ h2
    exact ⟨fs, k1.trans h1, by rw [k2, k.count]⟩
  account a r e ha hr he := by
    obtain ⟨es, h1, h2⟩ := k.entries r hr
    have hlt : a.index < es.length := by
      rw [h1]
      exact (List.getElem?_eq_some_iff.mp he).1
    obtain ⟨b, hb, h3, h4⟩ := k.account a ha
    obtain ⟨r', e', k1, k2, k3, k4⟩ := h.account b _ _ hb h2
      (by rw [h3]; exact List.getElem?_eq_getElem hlt)
    exact ⟨r', e', k1, by rw [← h3]; exact k2, k3, by rw [k4, k.count, h4]⟩
  halting hr := by
    obtain ⟨h1, h2⟩ := h.halting hr
    refine ⟨h1, fun p hp => ?_⟩
    rw [h2 p (by rw [k.seq.2.1, hp]), k.seq.1, k.seq.2.2, k.shaft, k.count]
  ended := h.ended

/-- A halted station stays so while its copy, its record and its in-use mark stay. -/
theorem HaltedBy.of_end {c : Cause} (h : HaltedBy x c s t) (st : u.st x = t.st x)
    (record : u.rtb.records.get x = t.rtb.records.get x)
    (inUse : u.store.inUse.get x = t.store.inUse.get x) : HaltedBy x c s u := by
  obtain ⟨h1, h2, h3, h4, h5, h6, h7, h8, h9⟩ := h
  exact ⟨by rw [st]; exact h1, by rw [st]; exact h2, by rw [st]; exact h3, by rw [st]; exact h4,
    by rw [st]; exact h5, by rw [st]; exact h6, by rw [st]; exact h7, by rw [st, record]; exact h8,
    by rw [st, record, inUse]; exact h9⟩

theorem Sheltered.shaft (h : Sheltered y s t) : lastShaft (t.st y) = lastShaft (s.st y) := by
  unfold lastShaft
  rw [h.report, h.last, h.datum]

/-- The halt of one station leaves the scan of the other as it was, but for a lateness. -/
theorem halt_scanKept (c : Cause) (h : y ≠ x) : ScanKept y s (deliverEnd x (halt x c s)) := by
  have hd := deliverEnd_other x (halt x c s) y h
  have o := halt_other x c s h
  have sh := halt_sheltered c s h
  have hl : (deliverEnd x (halt x c s)).link = s.link := by
    rw [(deliverEnd_inner x _).blocks.link, halt_link]
  have hent : EntriesKept y s (halt x c s) := by
    have e1 : (halt x c s).st y = (quenchHalt x (powerHalt x (haltHead x c s))).st y := by
      rw [halt_eq, writeRetainedNow_st, haltBody, (own_modResult x _ _).other h,
        (requestProgram_lined x _ _).own.other h]
    have e2 : (quenchStopped x (powerHalt x (haltHead x c s))).st y = s.st y := by
      rw [(quenchStopped_own x _).other h, (powerHalt_own x _).other h, (haltHead_own x c s).other h]
    have k : EntriesKept y (quenchStopped x (powerHalt x (haltHead x c s)))
        (quenchHalt x (powerHalt x (haltHead x c s))) := runTasks_entries y _ _ _
    intro r hr
    rw [e1]
    exact k r (by rw [e2]; exact hr)
  exact ⟨by rw [hd]; exact ⟨o.1.index, o.1.profile, sh.datum⟩, by rw [hd]; exact o.2.1,
    .of_eq (by rw [hd]; exact sh.account), by rw [hl], by rw [hd]; exact sh.shaft, fun r hr => by rw [hd]; exact hent r hr⟩

/-- A station at rest is not touched by the halt of the other: copy, record and in-use mark. -/
theorem halt_leaves (c : Cause) (h : y ≠ x) (idle : QuenchIdle (s.st y)) :
    (deliverEnd x (halt x c s)).st y = s.st y ∧
      (deliverEnd x (halt x c s)).rtb.records.get y = s.rtb.records.get y ∧
      (deliverEnd x (halt x c s)).store.inUse.get y = s.store.inUse.get y := by
  have e1 : (halt x c s).st y = (quenchHalt x (powerHalt x (haltHead x c s))).st y := by
    rw [halt_eq, writeRetainedNow_st, haltBody, (own_modResult x _ _).other h,
      (requestProgram_lined x _ _).own.other h]
  have e2 : (quenchStopped x (powerHalt x (haltHead x c s))).st y = s.st y := by
    rw [(quenchStopped_own x _).other h, (powerHalt_own x _).other h, (haltHead_own x c s).other h]
  have e3 : (quenchHalt x (powerHalt x (haltHead x c s))).st y = s.st y := by
    have k := settleTasks_idle (fallTasks (issueFalls (modQsc x (fun q => { q with queue := [] })
      (withdraw x (powerHalt x (haltHead x c s)))) x 0)) (quenchStopped x (powerHalt x (haltHead x c s))) y
      (by rw [e2]; exact idle.1) (by rw [e2]; exact idle.2.1)
    rw [quenchHalt_eq, k, e2]
  have own_rtb : ∀ {v w : State}, Own x v w → w.rtb = v.rtb := fun o => by rw [o]
  have rec1 : (halt x c s).rtb.records.get y = s.rtb.records.get y := by
    rw [halt_eq, writeRetainedNow_other h, haltBody, own_rtb (own_modResult x _ _),
      own_rtb (requestProgram_lined x _ _).own, quenchHalt_eq]
    unfold settleTasks
    rw [runTasks_records _ _ _ (by rw [e2]; exact idle.1) (by rw [e2]; exact idle.2.1),
      own_rtb (quenchStopped_own x _), own_rtb (powerHalt_own x _), own_rtb (haltHead_own x c s)]
  have use1 : (halt x c s).store = s.store := by
    rw [halt_eq, writeRetainedNow_store, haltBody, (own_modResult x _ _).store,
      (requestProgram_lined x _ _).own.store, (quenchHalt_calm x _).store, (powerHalt_own x _).store,
      (haltHead_own x c s).store]
  refine ⟨by rw [deliverEnd_other x _ y h, e1, e3], ?_, ?_⟩
  · rw [← rec1]
    exact (deliverEnd_leaves h _).1
  · rw [← use1]
    exact (deliverEnd_leaves h _).2

end

/-! ## Raises and the stations they cover (R165) -/

section

variable {s t u : State} {x y : StationId}

/-- Of the sequencer of `y` only tail phase, tail timer and travel may have changed: what the arbiter's examination
can do to a station. -/
def Steady (y : StationId) (s t : State) : Prop :=
  { (t.st y).seq with
    phase := (s.st y).seq.phase, tailTimer := (s.st y).seq.tailTimer, travel := (s.st y).seq.travel,
    travelSet := (s.st y).seq.travelSet, travelStale := (s.st y).seq.travelStale } = (s.st y).seq

theorem Steady.of_seq (h : (t.st y).seq = (s.st y).seq) : Steady y s t := by
  unfold Steady
  rw [h]

theorem Steady.trans (h : Steady y s t) (k : Steady y t u) : Steady y s u := by
  unfold Steady at *
  rw [← h, ← k]

theorem Steady.fields (h : Steady y s t) : (t.st y).seq.state = (s.st y).seq.state ∧
    (t.st y).seq.haltCause = (s.st y).seq.haltCause ∧ (t.st y).seq.degraded = (s.st y).seq.degraded ∧
    (t.st y).seq.index = (s.st y).seq.index ∧ (t.st y).seq.handling = (s.st y).seq.handling ∧
    (t.st y).seq.haltWaiting = (s.st y).seq.haltWaiting := by
  unfold Steady at h
  generalize (t.st y).seq = q at h
  rw [← h]
  exact ⟨rfl, rfl, rfl, rfl, rfl, rfl⟩

theorem halt_steady (c : Cause) (h : y ≠ x) : Steady y s (deliverEnd x (halt x c s)) := by
  have e1 : (halt x c s).st y = (quenchHalt x (powerHalt x (haltHead x c s))).st y := by
    rw [halt_eq, writeRetainedNow_st, haltBody, (own_modResult x _ _).other h,
      (requestProgram_lined x _ _).own.other h]
  have e2 : (powerHalt x (haltHead x c s)).st y = s.st y := by
    rw [(powerHalt_own x _).other h, (haltHead_own x c s).other h]
  have k := (quenchHalt_calm x (powerHalt x (haltHead x c s))).seq y
  unfold Steady
  rw [deliverEnd_other x _ y h, e1]
  rw [e2] at k
  exact k

/-- A severity applied to the other station leaves the scan of this one as it was, but for what the arbiter's
examination does. -/
theorem applyTo_other (c : Cond) (sc : Scope) (v : Severity) (h : y ≠ x) :
    ScanKept y s (applyTo c sc v x s) ∧ Steady y s (applyTo c sc v x s) := by
  have same : ∀ {t : State}, t.st y = s.st y → t.link = s.link → ScanKept y s t ∧ Steady y s t :=
    fun e l => ⟨.of_st e (by rw [l]), .of_seq (by rw [e])⟩
  unfold applyTo haltRequest
  repeat' split
  all_goals first
    | exact same rfl rfl
    | exact same ((own_modSeq x _ s).other h) rfl
    | exact ⟨halt_scanKept _ h, halt_steady _ h⟩

/-- A severity applied to the other station does not touch one at rest. -/
theorem applyTo_leaves (c : Cond) (sc : Scope) (v : Severity) (h : y ≠ x) (idle : QuenchIdle (s.st y)) :
    (applyTo c sc v x s).st y = s.st y ∧
      (applyTo c sc v x s).rtb.records.get y = s.rtb.records.get y ∧
      (applyTo c sc v x s).store.inUse.get y = s.store.inUse.get y := by
  unfold applyTo haltRequest
  repeat' split
  all_goals first
    | exact ⟨rfl, rfl, rfl⟩
    | exact ⟨(own_modSeq x _ s).other h, rfl, rfl⟩
    | exact halt_leaves _ h idle

/-- A severity of ABORT or HALT_ALL halts a covered station that can be halted. -/
theorem applyTo_halts (c : Cond) (sc : Scope) (v : Severity) (hv : 2 ≤ v.code) (hc : covers sc v y = true)
    (hh : (s.st y).seq.state.haltable = true) (hs : Settled (s.st y)) :
    HaltedBy y (.cond c) s (applyTo c sc v y s) := by
  have e : applyTo c sc v y s = deliverEnd y (halt y (.cond c) s) := by
    unfold applyTo haltRequest State.active
    rw [hc, haltable_active hh, hh, hs.1]
    cases v
    · exact absurd hv (by decide)
    · exact absurd hv (by decide)
    · rfl
    · rfl
  rw [e]
  exact halt_haltedBy (.cond c) hs.2.2

theorem Settled.steady (h : Settled (s.st y)) (k : Steady y s t) (e : (t.st y).eng = (s.st y).eng) :
    Settled (t.st y) := by
  obtain ⟨-, -, -, -, k5, k6⟩ := k.fields
  exact ⟨by rw [k5]; exact h.1, by rw [k6]; exact h.2.1, by rw [e]; exact h.2.2⟩

/-- A raise at ABORT or HALT_ALL halts every covered station that can be halted (R165). -/
theorem raise_halts (c : Cond) (sc : Scope) (f : Option Severity) (hv : 2 ≤ (appliedSeverity s c f).code)
    (hc : covers sc (appliedSeverity s c f) y = true) (hh : (s.st y).seq.state.haltable = true)
    (hs : Settled (s.st y)) : HaltedBy y (.cond c) s (raise c sc f s) := by
  unfold raise
  simp only
  generalize appliedSeverity s c f = v at hv hc
  have k0 : ScanKept y s (logRaise c sc v s) := .of_st rfl rfl
  cases y with
  | a =>
    have h1 := applyTo_halts (s := logRaise c sc v s) c sc v hv hc hh hs
    obtain ⟨e1, e2, e3⟩ := applyTo_leaves c sc v (x := .b) (by decide) h1.rest.quench
    exact (h1.of_start k0).of_end e1 e2 e3
  | b =>
    obtain ⟨k1, k2⟩ := applyTo_other (s := logRaise c sc v s) (x := .a) (y := .b) c sc v (by decide)
    have hst := k2.fields.1
    exact (applyTo_halts c sc v hv hc (by rw [hst]; exact hh) (Settled.steady hs k2 k1.eng)).of_start
      (k0.trans k1)

/-- A raise at NOTE leaves every station as it was. -/
theorem raise_note (c : Cond) (sc : Scope) (f : Option Severity) (hv : appliedSeverity s c f = .note) :
    (raise c sc f s).st y = s.st y := by
  unfold raise applyTo
  rw [hv]
  simp

/-- DEGRADE applied: the mark of a covered station that is active, and no more. -/
theorem applyTo_degrade (c : Cond) (sc : Scope) : (applyTo c sc .degrade y s).st y =
    if covers sc .degrade y && s.active y
      then { s.st y with seq := { (s.st y).seq with degraded := true } } else s.st y := by
  unfold applyTo
  split
  · exact modSt_same y s _
  · rfl

theorem applyTo_degrade_other (c : Cond) (sc : Scope) (h : y ≠ x) :
    (applyTo c sc .degrade x s).st y = s.st y := by
  unfold applyTo
  split
  · exact (own_modSeq x _ s).other h
  · rfl

/-- A raise at DEGRADE sets the degraded mark of the covered stations that are active, and does no more. -/
theorem raise_degrade (c : Cond) (sc : Scope) (f : Option Severity) (hv : appliedSeverity s c f = .degrade) :
    (raise c sc f s).st y = if covers sc .degrade y && s.active y
      then { s.st y with seq := { (s.st y).seq with degraded := true } } else s.st y := by
  unfold raise
  rw [hv]
  cases y
  · rw [applyTo_degrade_other _ _ (by decide), applyTo_degrade]
    rfl
  · rw [applyTo_degrade]
    unfold State.active
    rw [applyTo_degrade_other _ _ (by decide)]
    rfl

/-- A raise at NOTE or DEGRADE changes no more of a station than its degraded mark. -/
theorem raise_mild (c : Cond) (sc : Scope) (f : Option Severity) (hv : (appliedSeverity s c f).code ≤ 1) :
    ∃ d, (raise c sc f s).st y = { s.st y with seq := { (s.st y).seq with degraded := d } } := by
  have e : appliedSeverity s c f = .note ∨ appliedSeverity s c f = .degrade := by
    cases h : appliedSeverity s c f <;> rw [h] at hv <;> simp_all [Severity.code]
  rcases e with e | e
  · exact ⟨(s.st y).seq.degraded, raise_note c sc f e⟩
  · rw [raise_degrade c sc f e]
    split
    · exact ⟨true, rfl⟩
    · exact ⟨(s.st y).seq.degraded, rfl⟩

theorem ScanKept.of_mark {d : Bool} (h : t.st y = { s.st y with seq := { (s.st y).seq with degraded := d } })
    (count : t.link.count = s.link.count) : ScanKept y s t :=
  ⟨by rw [h]; exact ⟨rfl, rfl, rfl⟩, by rw [h], .of_eq (by rw [h]), count, by rw [h]; rfl, .of_result (by rw [h])⟩

/-- ABORT and HALT_ALL leave a station that is not covered, or cannot be halted. -/
theorem applyTo_spares (c : Cond) (sc : Scope) (v : Severity) (hv : 2 ≤ v.code)
    (h : covers sc v y = false ∨ (s.st y).seq.state.haltable = false) :
    (applyTo c sc v y s).st y = s.st y := by
  unfold applyTo haltRequest
  rcases h with h | h
  · simp [h]
  · rw [h]
    cases v
    · exact absurd hv (by decide)
    · exact absurd hv (by decide)
    · simp
    · simp

/-- A raise at ABORT or HALT_ALL leaves state, cause, mark, index and engine of a station that it does not cover,
or that cannot be halted. -/
theorem raise_spares (c : Cond) (sc : Scope) (f : Option Severity) (hv : 2 ≤ (appliedSeverity s c f).code)
    (h : covers sc (appliedSeverity s c f) y = false ∨ (s.st y).seq.state.haltable = false) :
    ScanKept y s (raise c sc f s) ∧ Steady y s (raise c sc f s) := by
  unfold raise
  simp only
  generalize appliedSeverity s c f = v at hv h
  have k0 : ScanKept y s (logRaise c sc v s) := .of_st rfl rfl
  cases y with
  | a =>
    have e := applyTo_spares (s := logRaise c sc v s) c sc v hv h
    obtain ⟨k1, k2⟩ := applyTo_other (s := applyTo c sc v .a (logRaise c sc v s)) (x := .b) (y := .a) c sc v
      (by decide)
    exact ⟨(k0.trans (.of_st e (by rw [(applyTo_inner c sc v _ .a).blocks.link]))).trans k1,
      Steady.trans (.of_seq (by rw [e]; rfl)) k2⟩
  | b =>
    obtain ⟨k1, k2⟩ := applyTo_other (s := logRaise c sc v s) (x := .a) (y := .b) c sc v (by decide)
    have e := applyTo_spares (y := .b) (s := applyTo c sc v .a (logRaise c sc v s)) c sc v hv (by
      rw [k2.fields.1]
      exact h)
    exact ⟨(k0.trans k1).trans (.of_st e (by rw [(applyTo_inner c sc v _ .b).blocks.link])),
      k2.trans (.of_seq (by rw [e]))⟩

/-- A raise at ABORT or HALT_ALL does not touch a station at rest that it does not cover, or that cannot be halted. -/
theorem raise_idle (c : Cond) (sc : Scope) (f : Option Severity) (hv : 2 ≤ (appliedSeverity s c f).code)
    (h : covers sc (appliedSeverity s c f) y = false ∨ (s.st y).seq.state.haltable = false)
    (idle : QuenchIdle (s.st y)) : (raise c sc f s).st y = s.st y := by
  unfold raise
  simp only
  generalize appliedSeverity s c f = v at hv h
  cases y with
  | a =>
    have e := applyTo_spares (s := logRaise c sc v s) c sc v hv h
    rw [(applyTo_leaves c sc v (x := .b) (by decide) (by rw [e]; exact idle)).1, e]
    rfl
  | b =>
    have e := (applyTo_leaves (s := logRaise c sc v s) (x := .a) (y := .b) c sc v (by decide) idle).1
    rw [applyTo_spares c sc v hv (by rw [e]; exact h), e]
    rfl

/-- A covered station that is handling an event keeps the request until the handling has ended (R54, R67). -/
theorem raise_waits (c : Cond) (sc : Scope) (f : Option Severity) (hv : 2 ≤ (appliedSeverity s c f).code)
    (hc : covers sc (appliedSeverity s c f) y = true) (hh : (s.st y).seq.state.haltable = true)
    (hs : (s.st y).seq.handling = true) :
    ((raise c sc f s).st y).seq.haltWaiting = some ((s.st y).seq.haltWaiting.getD (.cond c)) ∧
      ((raise c sc f s).st y).seq.state = (s.st y).seq.state := by
  unfold raise
  simp only
  generalize appliedSeverity s c f = v at hv hc
  have own : ∀ u : State, (u.st y).seq.state.haltable = true → (u.st y).seq.handling = true →
      (applyTo c sc v y u).st y = { u.st y with seq := { (u.st y).seq with
        haltWaiting := some ((u.st y).seq.haltWaiting.getD (.cond c)) } } := by
    intro u h1 h2
    have e : applyTo c sc v y u =
        modSeq y (fun q => { q with haltWaiting := some (q.haltWaiting.getD (.cond c)) }) u := by
      unfold applyTo haltRequest State.active
      rw [hc, haltable_active h1, h1, h2]
      cases v
      · exact absurd hv (by decide)
      · exact absurd hv (by decide)
      · rfl
      · rfl
    rw [e]
    exact modSt_same y u _
  cases y with
  | a =>
    have e := own (logRaise c sc v s) hh hs
    obtain ⟨-, k2⟩ := applyTo_other (s := applyTo c sc v .a (logRaise c sc v s)) (x := .b) (y := .a) c sc v
      (by decide)
    obtain ⟨f1, -, -, -, -, f6⟩ := k2.fields
    rw [f1, f6, e]
    exact ⟨rfl, rfl⟩
  | b =>
    obtain ⟨-, k2⟩ := applyTo_other (s := logRaise c sc v s) (x := .a) (y := .b) c sc v (by decide)
    obtain ⟨f1, -, -, -, f5, f6⟩ := k2.fields
    have e := own (applyTo c sc v .a (logRaise c sc v s)) (by rw [f1]; exact hh) (by rw [f5]; exact hs)
    rw [e]
    exact ⟨by simp only [f6]; rfl, f1⟩

/-- A halt request halts a station that can be halted (R67). -/
theorem haltRequest_halts (c : Cause) (hh : (s.st y).seq.state.haltable = true) (hs : Settled (s.st y)) :
    HaltedBy y c s (haltRequest y c s) := by
  unfold haltRequest
  rw [hh, hs.1]
  exact halt_haltedBy c hs.2.2

/-- A halt request to one station leaves the scan of the other. -/
theorem haltRequest_other (c : Cause) (h : y ≠ x) :
    ScanKept y s (haltRequest x c s) ∧ Steady y s (haltRequest x c s) := by
  unfold haltRequest
  repeat' split
  · exact ⟨.of_st ((own_modSeq x _ s).other h) rfl, .of_seq (by rw [(own_modSeq x _ s).other h])⟩
  · exact ⟨halt_scanKept _ h, halt_steady _ h⟩
  · exact ⟨.of_st rfl rfl, .of_seq rfl⟩

/-- A halted station can be halted no more. -/
theorem HaltedBy.unhaltable {c : Cause} (h : HaltedBy y c s t) : (t.st y).seq.state.haltable = false := by
  by_cases hr : (t.st y).eng.running = none
  · rw [(h.ended hr).1]
    cases c <;> rfl
  · rw [(h.halting hr).1]
    rfl

theorem haltRequest_ignored (c : Cause) (hh : (s.st y).seq.state.haltable = false) :
    haltRequest y c s = s := by
  unfold haltRequest
  rw [hh]
  rfl

/-- Requests and severities that come after a halt, for either station, leave the halted one. -/
theorem HaltedBy.haltRequest {c d : Cause} (h : HaltedBy y c s t) (x : StationId) :
    HaltedBy y c s (haltRequest x d t) := by
  rcases eq_or_other x y with rfl | rfl
  · rw [haltRequest_ignored _ h.unhaltable]
    exact h
  · unfold Machine.haltRequest
    split
    · split
      · exact h.of_end ((own_modSeq x _ t).other (other_ne x)) rfl rfl
      · obtain ⟨e1, e2, e3⟩ := halt_leaves (x := x) d (other_ne x) h.rest.quench
        exact h.of_end e1 e2 e3
    · exact h

theorem HaltedBy.raise {c : Cause} (h : HaltedBy y c s t) (d : Cond) (sc : Scope) (f : Option Severity)
    (hv : 2 ≤ (appliedSeverity t d f).code) : HaltedBy y c s (raise d sc f t) := by
  have step : ∀ x u, HaltedBy y c s u → HaltedBy y c s (applyTo d sc (appliedSeverity t d f) x u) := by
    intro x u hu
    unfold applyTo
    split
    · split
      · exact hu
      · rename_i e
        rw [e] at hv
        exact absurd hv (by decide)
      · exact hu.haltRequest x
      · exact hu.haltRequest x
    · exact hu
  exact step .b _ (step .a _ (h.of_end rfl rfl rfl))

/-! ## Where halts come from -/

/-- ABORT in a state that can be halted (R69). -/
theorem abort_halts {nibble : BitVec 4} (hn : nibble ≠ (s.st x).seq.nibble)
    (hh : (s.st x).seq.state.haltable = true) (hs : Settled (s.st x)) :
    HaltedBy x .abortCommand s (takeCommand x nibble (doAbort x) s) := by
  obtain ⟨u, hu⟩ : ∃ u, u = modSeq x (fun q => { q with nibble := nibble }) s := ⟨_, rfl⟩
  have hseq : (u.st x).seq = { (s.st x).seq with nibble := nibble } := by rw [hu, modSeq_same]
  have k : ScanKept x s u := by
    refine ⟨by rw [hseq]; exact ⟨rfl, rfl, rfl⟩, by rw [hu, modSeq_eng], .of_eq (by rw [hu, modSeq_pcu]), by rw [hu]; rfl,
      ?_, .of_result (by rw [hu, modSeq_result])⟩
    unfold lastShaft
    rw [hseq, hu, modSeq_trk]
  have ho : (u.st x).eng.endOwed = none := by rw [k.eng]; exact hs.2.2
  have e : doAbort x u = (halt x .abortCommand u, .accepted) := by
    unfold doAbort
    rw [hseq, if_pos hh]
  unfold takeCommand
  rw [if_neg hn, ← hu]
  simp only [e]
  exact (halt_haltedBy_of .abortCommand ho _ fun q => ⟨_, rfl⟩).of_start k

/-- The assertion of a station's stop input, whatever STOP_LINE's severity does before the direct request (R137). -/
theorem stopAsserts_halts (hh : (s.st x).seq.state.haltable = true) (hs : Settled (s.st x)) :
    HaltedBy x (.cond .stopLine) s (stopAsserts x s) := by
  obtain ⟨u, hu⟩ : ∃ u, u = setOwnStop x true s := ⟨_, rfl⟩
  have est : u.st x = s.st x := by rw [hu]; cases x <;> rfl
  have k : ScanKept x s u := .of_st est (by rw [hu]; cases x <;> rfl)
  unfold stopAsserts raiseSt
  rw [← hu]
  rw [← est] at hh hs
  have hc : covers (.station x) (appliedSeverity u .stopLine none) x = true := by simp [covers]
  by_cases hv : 2 ≤ (appliedSeverity u .stopLine none).code
  · exact ((raise_halts .stopLine (.station x) none hv hc hh hs).haltRequest x).of_start k
  · obtain ⟨d, hseq⟩ := raise_mild (y := x) .stopLine (.station x) none (Nat.le_of_lt_succ (Nat.lt_of_not_le hv))
    refine ((haltRequest_halts _ (by rw [hseq]; exact hh) (by rw [hseq]; exact hs)).of_start ?_).of_start k
    exact .of_mark hseq (by rw [(raise_inner _ _ u _).blocks.link])

/-- At HALT_ALL a station's stop input halts the other station too (R137, R165). -/
theorem stopAsserts_halts_other (hh : (s.st x.other).seq.state.haltable = true) (hs : Settled (s.st x.other))
    (hv : s.cdu.setSeverity .stopLine = .haltAll) : HaltedBy x.other (.cond .stopLine) s (stopAsserts x s) := by
  obtain ⟨u, hu⟩ : ∃ u, u = setOwnStop x true s := ⟨_, rfl⟩
  have est : u.st x.other = s.st x.other := by rw [hu]; cases x <;> rfl
  have esev : u.cdu = s.cdu := by rw [hu]; cases x <;> rfl
  have k : ScanKept x.other s u := .of_st est (by rw [hu]; cases x <;> rfl)
  have e : appliedSeverity u .stopLine none = .haltAll := by unfold appliedSeverity; rw [esev]; exact hv
  unfold stopAsserts raiseSt
  rw [← hu]
  exact ((raise_halts .stopLine (.station x) none (by rw [e]; decide) (by rw [e]; simp [covers])
    (by rw [est]; exact hh) (by rw [est]; exact hs)).haltRequest x).of_start k

/-- STOP_ALL halts both stations (R138). -/
theorem stopAllAsserts_halts (hh : (s.st x).seq.state.haltable = true) (hs : Settled (s.st x)) :
    HaltedBy x (.cond .stopLine) s (stopAllAsserts s) := by
  have full : ∀ u : State, appliedSeverity u .stopLine (some .haltAll) = .haltAll := by
    intro u
    unfold appliedSeverity Severity.max
    simp only
    cases u.cdu.setSeverity .stopLine <;> rfl
  have two : ∀ u : State, 2 ≤ (appliedSeverity u .stopLine (some .haltAll)).code := fun u => by
    rw [full]; decide
  have h1 : HaltedBy x (.cond .stopLine) { s with stops := { s.stops with all := true } }
      (raise .stopLine (.station .a) (some .haltAll) { s with stops := { s.stops with all := true } }) := by
    refine raise_halts _ _ _ (two _) ?_ hh hs
    rw [full]
    simp [covers]
  exact (((h1.raise _ _ _ (two _)).haltRequest .a).haltRequest .b).of_start (.of_st rfl rfl)

/-- The loss of the link halts each station that can be halted: with CYCLE_MISSED where that is set to ABORT or
HALT_ALL, else with LINK_LOST, whose severity is HALT_ALL (R146, R165). -/
theorem supervisionExpires_halts (hup : s.link.state = .up) (hl : wouldLose s = true) (law : SeverityLaw s)
    (hh : (s.st x).seq.state.haltable = true) (hs : Settled (s.st x)) :
    HaltedBy x (.cond (if 2 ≤ (s.cdu.setSeverity .cycleMissed).code then .cycleMissed else .linkLost)) s
      (supervisionExpires s) := by
  obtain ⟨u, hu⟩ : ∃ u, u = modLink (fun l => { l with
    missed := Nat.min 16 (l.missed + 1), supervision := .running s.params.cycleTime })
      (raisePart .cycleMissed s) := ⟨_, rfl⟩
  have hst : u.st x = (raise .cycleMissed .part none s).st x := by rw [hu]; rfl
  have hcount : u.link.count = s.link.count := by
    rw [hu]
    show (raise .cycleMissed .part none s).link.count = s.link.count
    rw [(raise_inner .cycleMissed .part s none).blocks.link]
  have lost : 2 ≤ (appliedSeverity u .linkLost none).code := by
    have e : u.cdu.severity = s.cdu.severity := by
      rw [hu]
      exact (raise_inner .cycleMissed .part s none).blocks.severity
    have k := law .linkLost
    unfold Conditions.setSeverity at k
    unfold appliedSeverity Conditions.setSeverity
    rw [e]
    exact Nat.le_trans (by decide) k
  have ht : supervisionExpires s = modLink (fun l => { l with
      supervision := .stopped, wait := none, heldReply := none, state := .lost }) (raise .linkLost .part none u) := by
    unfold supervisionExpires loseLink
    rw [hup]
    simp only [hl, if_true, ← hu]
    rfl
  rw [ht]
  refine HaltedBy.of_end (t := raise .linkLost .part none u) ?_ rfl rfl rfl
  split
  · rename_i hv
    have h1 := raise_halts (y := x) .cycleMissed .part none hv rfl hh hs
    have h2 : HaltedBy x (.cond .cycleMissed) s u := h1.of_end hst (by rw [hu]; rfl) (by rw [hu]; rfl)
    exact h2.raise _ _ _ lost
  · rename_i hv
    obtain ⟨d, hd⟩ := raise_mild (s := s) (y := x) .cycleMissed .part none (Nat.le_of_lt_succ (Nat.lt_of_not_le hv))
    rw [← hst] at hd
    exact (raise_halts .linkLost .part none lost rfl (by rw [hd]; exact hh) (by rw [hd]; exact hs)).of_start
      (.of_mark hd hcount)

/-- What `HaltedBy` does not read: the tracker, the sent history, the inverter-fault run, the closing request. -/
theorem HaltedBy.of_unread {c : Cause} {k : Tracker} {l : List (Nat × Cycle)} {f b : Bool} (h : HaltedBy x c s t)
    (st : u.st x = { t.st x with
      trk := k, pcu := { (t.st x).pcu with history := l, faultRun := f },
      qsc := { (t.st x).qsc with closing := b } })
    (record : u.rtb.records.get x = t.rtb.records.get x)
    (inUse : u.store.inUse.get x = t.store.inUse.get x) : HaltedBy x c s u := by
  obtain ⟨h1, h2, h3, h4, h5, h6, h7, h8, h9⟩ := h
  obtain ⟨g1, g2, g3, g4, g5, g6⟩ := h1
  exact ⟨⟨by rw [st]; exact g1, by rw [st]; exact g2, by rw [st]; exact g3, by rw [st]; exact g4,
      by rw [st]; exact g5, by rw [st]; exact g6⟩, by rw [st]; exact h2, by rw [st]; exact h3,
    by rw [st]; exact h4, by rw [st]; exact h5, by rw [st]; exact h6, by rw [st]; exact h7,
    by rw [st, record]; exact h8, by rw [st, record, inUse]; exact h9⟩

/-- A link reset halts each station that can be halted (R74, R156). -/
theorem resetStationLink_halts (hh : (s.st x).seq.state.haltable = true) (hs : Settled (s.st x)) :
    HaltedBy x .linkReset s (resetStationLink s) := by
  have h : HaltedBy x .linkReset s (haltRequest .b .linkReset (haltRequest .a .linkReset s)) := by
    cases x with
    | a => exact (haltRequest_halts .linkReset hh hs).haltRequest .b
    | b =>
      have k := haltRequest_other (x := .a) (y := .b) (s := s) .linkReset (by decide)
      exact (haltRequest_halts .linkReset (by rw [k.2.fields.1]; exact hh)
        (hs.steady k.2 k.1.eng)).of_start k.1
  refine h.of_unread (k := clearedTracker) (l := [])
    (f := ((haltRequest .b .linkReset (haltRequest .a .linkReset s)).st x).pcu.faultRun)
    (b := ((haltRequest .b .linkReset (haltRequest .a .linkReset s)).st x).qsc.closing) ?_ rfl rfl
  unfold resetStationLink clearTracker
  cases x <;> rfl

/-- LINK_RESET with no wait open. -/
theorem linkResets_halts (frame : List Byte) (hw : s.link.wait = none) (hh : (s.st x).seq.state.haltable = true)
    (hs : Settled (s.st x)) : HaltedBy x .linkReset s (linkResets frame s) := by
  unfold linkResets overtake
  simp only [hw, ite_self]
  obtain ⟨u, hu⟩ : ∃ u, u = modStore (fun t => { t with staging := none })
    (modLink resetLpu (sendD (unchanged frame) s)) := ⟨_, rfl⟩
  rw [← hu]
  have e : u.st x = s.st x := by rw [hu]; cases x <;> rfl
  have c : u.link.count = s.link.count := by rw [hu]; rfl
  exact (resetStationLink_halts (by rw [e]; exact hh) (by rw [e]; exact hs)).of_start (.of_st e c)

end

end Sys2Proof.Machine
end

