-- ==== Sys2Proof/WellFormed.lean ====
section
/-! DEFINITION. Which commands an agent can send: one named check for each demand. A command that fails a
check is still executed; the checks say what the rows of the table name. -/

namespace Sys2Proof

open Sys2Proof.Machine

/-- A service request carries at most the 48 payload bytes of the channel (R157). -/
def fitsChannel (payload : List Byte) : Bool := decide (payload.length ≤ 48)

/-- A code that is no code of R181 (R180). -/
def unnamedRequest (code : Byte) : Bool := decide (code.toNat = 0 ∨ 31 < code.toNat)

/-- A command code that is none of the named ones (R48, R160). -/
def unnamedCommand (code : BitVec 4) : Bool := decide (5 < code.toNat)

/-- A running long operation writes at most sixteen entries (R19, R24, R25). -/
def withinStore (progress : Nat) : Bool := decide (progress ≤ 16)

/-- A frame of kind CYCLE that is good at its completion (R143). -/
def isCycle (frame : List Byte) : Bool := goodCycle frame

/-- A frame of kind LINK_RESET that is good at its completion (R143). -/
def isReset (frame : List Byte) : Bool := goodReset frame

/-- A frame that is bad at its completion (R143). -/
def isBad (frame : List Byte) : Bool := !frameGood frame

/-- A frame whose header has been received, so that it has arrived (R143). -/
def hasHeader (frame : List Byte) : Bool := (headerOf frame).isSome


/-- A kind byte other than CYCLE (R152). -/
def notCycle (kind : Byte) : Bool := decide (kind ≠ kindCycle)

/-- The checks of a command. -/
def Instr.wellFormed : Instr → Bool
  | .powerOn _ _ progress => withinStore progress
  | .resetN _ _ progress => withinStore progress
  | .mainSupplyLoss progress => withinStore progress
  | .cycleCompletion frame => isCycle frame
  | .linkUp frame => isCycle frame
  | .frameCheck _ frame => isBad frame
  | .linkReset frame => isReset frame
  | .frameForwardUnchanged _ (.completion frame) => hasHeader frame
  | .returnCompletion frame => isCycle frame || isBad frame
  | .strayReturn (.completion frame) => hasHeader frame
  | .commandUnknownCode _ code _ => unnamedCommand code
  | .linkResetArrival kind => notCycle kind
  | .ident _ p | .paramRead _ p | .paramWrite _ p | .mapRead _ p | .mapWrite _ p | .programRead _ p
  | .programWrite _ p | .profileOpen _ p | .headerWrite _ p | .segmentWrite _ p
  | .segmentTruncate _ p | .profileCancel _ p | .profileCommit _ p | .profileErase _ p
  | .profileProtect _ p | .storeClear _ p | .dirRead _ p | .headerRead _ p | .segmentRead _ p
  | .opQuery _ p | .condRead _ p | .condTake _ p | .condClear _ p | .firstRead _ p
  | .firstRelease _ p | .severityRead _ p | .severityWrite _ p | .resultRead _ p
  | .resultSegmentRead _ p | .retainedRead _ p | .sampleRead _ p => fitsChannel p
  | .unknownRequest _ code p => unnamedRequest code && fitsChannel p
  | .retentionLevelLoss | .storeCheckCompletion | .stopLine _ | .stopAllAssertion | .stopRelease _
  | .frameForwardUnchanged _ (.arrival _ _) | .strayReturn (.arrival _ _) | .cycleArrival _ _
  | .returnArrival _ | .earlyReturn _ | .returnTimeout | .supervisionExpiry | .linkLost
  | .positionStale _ _ | .followSettleExpiry _ | .start _ _ _ _ | .hold _ _ | .resume _ _
  | .abort _ _ | .clear _ _ | .commandNone _ _ | .armCheckPass _ _ | .armFailed _
  | .segmentEntry _ _ | .tailEntry _ _ | .dwellTimerStart _ _ | .dwellTimerExpiry _
  | .holdExpired _ | .tailTimerExpiry _ | .retuneDrainEnd _ _ | .retuneRestore _ _
  | .retuneTimeout _ | .powerDeviation _ _ | .quenchIssue _ _ | .supplyGrant _
  | .quenchWaitExpiry _ | .valveCheckPass _ _ | .valveMismatch _ | .flowLow _ _
  | .programStepExpiry _ | .commitCompletion _ | .eraseCompletion _ | .protectCompletion _
  | .storeClearCompletion _ => true

end Sys2Proof
end

