-- ==== Sys2Proof/Laws/PerInstr.lean ====
section
/-! SUPPORT. What well-formedness says of every command, constructor by constructor: the payload it carries
fits the service channel, and the frame it carries has a header or is bad. -/

namespace Sys2Proof

/-- The request payload a command carries. -/
def Instr.payload : Instr → List Byte
  | .ident _ payload | .paramRead _ payload | .paramWrite _ payload | .mapRead _ payload
  | .mapWrite _ payload | .programRead _ payload | .programWrite _ payload
  | .profileOpen _ payload | .headerWrite _ payload | .segmentWrite _ payload
  | .segmentTruncate _ payload | .profileCancel _ payload | .profileCommit _ payload
  | .profileErase _ payload | .profileProtect _ payload | .storeClear _ payload
  | .dirRead _ payload | .headerRead _ payload | .segmentRead _ payload | .opQuery _ payload
  | .condRead _ payload | .condTake _ payload | .condClear _ payload | .firstRead _ payload
  | .firstRelease _ payload | .severityRead _ payload | .severityWrite _ payload
  | .resultRead _ payload | .resultSegmentRead _ payload | .retainedRead _ payload
  | .sampleRead _ payload | .unknownRequest _ _ payload => payload
  | _ => []

/-- The frame a command carries. -/
def Instr.frame : Instr → Option (List Byte)
  | .cycleCompletion frame | .linkUp frame | .frameCheck _ frame | .linkReset frame
  | .frameForwardUnchanged _ (.completion frame) | .returnCompletion frame
  | .strayReturn (.completion frame) => some frame
  | _ => none

end Sys2Proof

namespace Sys2Proof.Laws

open Sys2Proof.Machine

/-- What well-formedness says of a command. -/
def Shape.Statement (i : Instr) : Prop :=
  i.wellFormed = true → i.payload.length ≤ 48 ∧
    ∀ frame, i.frame = some frame → (headerOf frame).isSome = true ∨ frameGood frame = false

/-- A good CYCLE frame has a header. -/
theorem header_of_goodCycle {frame : List Byte} (h : goodCycle frame = true) :
    (headerOf frame).isSome = true := by
  unfold goodCycle at h
  cases hh : headerOf frame with
  | none => simp [hh] at h
  | some v => rfl

/-- A good LINK_RESET frame has a header. -/
theorem header_of_goodReset {frame : List Byte} (h : goodReset frame = true) :
    (headerOf frame).isSome = true := by
  unfold goodReset at h
  cases hh : headerOf frame with
  | none => simp [hh] at h
  | some v => rfl

/-- A command that carries neither payload nor frame. -/
theorem shape_plain {i : Instr} (hp : i.payload = []) (hf : i.frame = none) : Shape.Statement i := by
  intro _
  refine ⟨by simp [hp], fun frame h => ?_⟩
  rw [hf] at h
  exact absurd h (by simp)

/-- A command that carries a payload which its check bounds. -/
theorem shape_payload {i : Instr} (hw : i.wellFormed = true → fitsChannel i.payload = true)
    (hf : i.frame = none) : Shape.Statement i := by
  intro h
  refine ⟨by simpa [fitsChannel] using hw h, fun frame h => ?_⟩
  rw [hf] at h
  exact absurd h (by simp)

/-- A command that carries a frame which its check judges. -/
theorem shape_frame {i : Instr} (frame : List Byte) (hp : i.payload = [])
    (hf : i.frame = some frame)
    (hw : i.wellFormed = true → (headerOf frame).isSome = true ∨ frameGood frame = false) :
    Shape.Statement i := by
  intro h
  refine ⟨by simp [hp], fun f hfr => ?_⟩
  rw [hf] at hfr
  exact Option.some.inj hfr ▸ hw h

theorem Shape.powerOn (straps : BitVec 6) (stops : StopLevels) (progress : Nat) :
    Shape.Statement (.powerOn straps stops progress) := shape_plain rfl rfl
theorem Shape.resetN (straps : BitVec 6) (stops : StopLevels) (progress : Nat) :
    Shape.Statement (.resetN straps stops progress) := shape_plain rfl rfl
theorem Shape.mainSupplyLoss (progress : Nat) :
    Shape.Statement (.mainSupplyLoss progress) := shape_plain rfl rfl
theorem Shape.retentionLevelLoss : Shape.Statement (.retentionLevelLoss) := shape_plain rfl rfl
theorem Shape.storeCheckCompletion : Shape.Statement (.storeCheckCompletion) := shape_plain rfl rfl
theorem Shape.stopLine (x : StationId) : Shape.Statement (.stopLine x) := shape_plain rfl rfl
theorem Shape.stopAllAssertion : Shape.Statement (.stopAllAssertion) := shape_plain rfl rfl
theorem Shape.stopRelease (input : StopInput) :
    Shape.Statement (.stopRelease input) := shape_plain rfl rfl
theorem Shape.cycleArrival (count : Byte) (number : CycleNumber) :
    Shape.Statement (.cycleArrival count number) := shape_plain rfl rfl
theorem Shape.cycleCompletion (frame : List Byte) : Shape.Statement (.cycleCompletion frame) :=
  shape_frame frame rfl rfl fun h => Or.inl (header_of_goodCycle h)
theorem Shape.linkUp (frame : List Byte) : Shape.Statement (.linkUp frame) :=
  shape_frame frame rfl rfl fun h => Or.inl (header_of_goodCycle h)
theorem Shape.frameCheck (port : PortId) (frame : List Byte) :
    Shape.Statement (.frameCheck port frame) :=
  shape_frame frame rfl rfl fun h => Or.inr (by simpa [Instr.wellFormed, isBad] using h)
theorem Shape.linkReset (frame : List Byte) : Shape.Statement (.linkReset frame) :=
  shape_frame frame rfl rfl fun h => Or.inl (header_of_goodReset h)
theorem Shape.frameForwardUnchanged (port : PortId) (moment : FrameMoment) :
    Shape.Statement (.frameForwardUnchanged port moment) := by
  cases moment with
  | arrival kind number => exact shape_plain rfl rfl
  | completion frame => exact shape_frame frame rfl rfl fun h => Or.inl h
theorem Shape.returnArrival (number : CycleNumber) :
    Shape.Statement (.returnArrival number) := shape_plain rfl rfl
theorem Shape.returnCompletion (frame : List Byte) : Shape.Statement (.returnCompletion frame) := by
  refine shape_frame frame rfl rfl fun h => ?_
  simp only [Instr.wellFormed, Bool.or_eq_true] at h
  rcases h with h | h
  · exact Or.inl (header_of_goodCycle h)
  · exact Or.inr (by simpa [isBad] using h)
theorem Shape.earlyReturn (number : CycleNumber) :
    Shape.Statement (.earlyReturn number) := shape_plain rfl rfl
theorem Shape.strayReturn (moment : FrameMoment) : Shape.Statement (.strayReturn moment) := by
  cases moment with
  | arrival kind number => exact shape_plain rfl rfl
  | completion frame => exact shape_frame frame rfl rfl fun h => Or.inl h
theorem Shape.returnTimeout : Shape.Statement (.returnTimeout) := shape_plain rfl rfl
theorem Shape.supervisionExpiry : Shape.Statement (.supervisionExpiry) := shape_plain rfl rfl
theorem Shape.linkLost : Shape.Statement (.linkLost) := shape_plain rfl rfl
theorem Shape.positionStale (x : StationId) (sample : PositionSample) :
    Shape.Statement (.positionStale x sample) := shape_plain rfl rfl
theorem Shape.followSettleExpiry (x : StationId) :
    Shape.Statement (.followSettleExpiry x) := shape_plain rfl rfl
theorem Shape.start (x : StationId) (nibble : BitVec 4) (profile : Byte) (adjust : BitVec 16) :
    Shape.Statement (.start x nibble profile adjust) := shape_plain rfl rfl
theorem Shape.hold (x : StationId) (nibble : BitVec 4) :
    Shape.Statement (.hold x nibble) := shape_plain rfl rfl
theorem Shape.resume (x : StationId) (nibble : BitVec 4) :
    Shape.Statement (.resume x nibble) := shape_plain rfl rfl
theorem Shape.abort (x : StationId) (nibble : BitVec 4) :
    Shape.Statement (.abort x nibble) := shape_plain rfl rfl
theorem Shape.clear (x : StationId) (nibble : BitVec 4) :
    Shape.Statement (.clear x nibble) := shape_plain rfl rfl
theorem Shape.commandNone (x : StationId) (nibble : BitVec 4) :
    Shape.Statement (.commandNone x nibble) := shape_plain rfl rfl
theorem Shape.commandUnknownCode (x : StationId) (code : BitVec 4) (nibble : BitVec 4) :
    Shape.Statement (.commandUnknownCode x code nibble) := shape_plain rfl rfl
theorem Shape.armCheckPass (x : StationId) (sample : PositionSample) :
    Shape.Statement (.armCheckPass x sample) := shape_plain rfl rfl
theorem Shape.armFailed (x : StationId) : Shape.Statement (.armFailed x) := shape_plain rfl rfl
theorem Shape.segmentEntry (x : StationId) (sample : PositionSample) :
    Shape.Statement (.segmentEntry x sample) := shape_plain rfl rfl
theorem Shape.tailEntry (x : StationId) (sample : PositionSample) :
    Shape.Statement (.tailEntry x sample) := shape_plain rfl rfl
theorem Shape.dwellTimerStart (x : StationId) (sample : PositionSample) :
    Shape.Statement (.dwellTimerStart x sample) := shape_plain rfl rfl
theorem Shape.dwellTimerExpiry (x : StationId) :
    Shape.Statement (.dwellTimerExpiry x) := shape_plain rfl rfl
theorem Shape.holdExpired (x : StationId) : Shape.Statement (.holdExpired x) := shape_plain rfl rfl
theorem Shape.tailTimerExpiry (x : StationId) :
    Shape.Statement (.tailTimerExpiry x) := shape_plain rfl rfl
theorem Shape.retuneDrainEnd (x : StationId) (sample : PowerSample) :
    Shape.Statement (.retuneDrainEnd x sample) := shape_plain rfl rfl
theorem Shape.retuneRestore (x : StationId) (sample : PowerSample) :
    Shape.Statement (.retuneRestore x sample) := shape_plain rfl rfl
theorem Shape.retuneTimeout (x : StationId) :
    Shape.Statement (.retuneTimeout x) := shape_plain rfl rfl
theorem Shape.powerDeviation (x : StationId) (sample : PowerSample) :
    Shape.Statement (.powerDeviation x sample) := shape_plain rfl rfl
theorem Shape.quenchIssue (x : StationId) (sample : PositionSample) :
    Shape.Statement (.quenchIssue x sample) := shape_plain rfl rfl
theorem Shape.supplyGrant (x : StationId) : Shape.Statement (.supplyGrant x) := shape_plain rfl rfl
theorem Shape.quenchWaitExpiry (x : StationId) :
    Shape.Statement (.quenchWaitExpiry x) := shape_plain rfl rfl
theorem Shape.valveCheckPass (x : StationId) (sample : QuenchSample) :
    Shape.Statement (.valveCheckPass x sample) := shape_plain rfl rfl
theorem Shape.valveMismatch (x : StationId) :
    Shape.Statement (.valveMismatch x) := shape_plain rfl rfl
theorem Shape.flowLow (x : StationId) (sample : QuenchSample) :
    Shape.Statement (.flowLow x sample) := shape_plain rfl rfl
theorem Shape.programStepExpiry (x : StationId) :
    Shape.Statement (.programStepExpiry x) := shape_plain rfl rfl
theorem Shape.commitCompletion (verified : Bool) :
    Shape.Statement (.commitCompletion verified) := shape_plain rfl rfl
theorem Shape.eraseCompletion (verified : Bool) :
    Shape.Statement (.eraseCompletion verified) := shape_plain rfl rfl
theorem Shape.protectCompletion (verified : Bool) :
    Shape.Statement (.protectCompletion verified) := shape_plain rfl rfl
theorem Shape.storeClearCompletion (verified : BitVec 16) :
    Shape.Statement (.storeClearCompletion verified) := shape_plain rfl rfl
theorem Shape.ident (tag : Byte) (payload : List Byte) :
    Shape.Statement (.ident tag payload) := shape_payload id rfl
theorem Shape.paramRead (tag : Byte) (payload : List Byte) :
    Shape.Statement (.paramRead tag payload) := shape_payload id rfl
theorem Shape.paramWrite (tag : Byte) (payload : List Byte) :
    Shape.Statement (.paramWrite tag payload) := shape_payload id rfl
theorem Shape.mapRead (tag : Byte) (payload : List Byte) :
    Shape.Statement (.mapRead tag payload) := shape_payload id rfl
theorem Shape.mapWrite (tag : Byte) (payload : List Byte) :
    Shape.Statement (.mapWrite tag payload) := shape_payload id rfl
theorem Shape.programRead (tag : Byte) (payload : List Byte) :
    Shape.Statement (.programRead tag payload) := shape_payload id rfl
theorem Shape.programWrite (tag : Byte) (payload : List Byte) :
    Shape.Statement (.programWrite tag payload) := shape_payload id rfl
theorem Shape.profileOpen (tag : Byte) (payload : List Byte) :
    Shape.Statement (.profileOpen tag payload) := shape_payload id rfl
theorem Shape.headerWrite (tag : Byte) (payload : List Byte) :
    Shape.Statement (.headerWrite tag payload) := shape_payload id rfl
theorem Shape.segmentWrite (tag : Byte) (payload : List Byte) :
    Shape.Statement (.segmentWrite tag payload) := shape_payload id rfl
theorem Shape.segmentTruncate (tag : Byte) (payload : List Byte) :
    Shape.Statement (.segmentTruncate tag payload) := shape_payload id rfl
theorem Shape.profileCancel (tag : Byte) (payload : List Byte) :
    Shape.Statement (.profileCancel tag payload) := shape_payload id rfl
theorem Shape.profileCommit (tag : Byte) (payload : List Byte) :
    Shape.Statement (.profileCommit tag payload) := shape_payload id rfl
theorem Shape.profileErase (tag : Byte) (payload : List Byte) :
    Shape.Statement (.profileErase tag payload) := shape_payload id rfl
theorem Shape.profileProtect (tag : Byte) (payload : List Byte) :
    Shape.Statement (.profileProtect tag payload) := shape_payload id rfl
theorem Shape.storeClear (tag : Byte) (payload : List Byte) :
    Shape.Statement (.storeClear tag payload) := shape_payload id rfl
theorem Shape.dirRead (tag : Byte) (payload : List Byte) :
    Shape.Statement (.dirRead tag payload) := shape_payload id rfl
theorem Shape.headerRead (tag : Byte) (payload : List Byte) :
    Shape.Statement (.headerRead tag payload) := shape_payload id rfl
theorem Shape.segmentRead (tag : Byte) (payload : List Byte) :
    Shape.Statement (.segmentRead tag payload) := shape_payload id rfl
theorem Shape.opQuery (tag : Byte) (payload : List Byte) :
    Shape.Statement (.opQuery tag payload) := shape_payload id rfl
theorem Shape.condRead (tag : Byte) (payload : List Byte) :
    Shape.Statement (.condRead tag payload) := shape_payload id rfl
theorem Shape.condTake (tag : Byte) (payload : List Byte) :
    Shape.Statement (.condTake tag payload) := shape_payload id rfl
theorem Shape.condClear (tag : Byte) (payload : List Byte) :
    Shape.Statement (.condClear tag payload) := shape_payload id rfl
theorem Shape.firstRead (tag : Byte) (payload : List Byte) :
    Shape.Statement (.firstRead tag payload) := shape_payload id rfl
theorem Shape.firstRelease (tag : Byte) (payload : List Byte) :
    Shape.Statement (.firstRelease tag payload) := shape_payload id rfl
theorem Shape.severityRead (tag : Byte) (payload : List Byte) :
    Shape.Statement (.severityRead tag payload) := shape_payload id rfl
theorem Shape.severityWrite (tag : Byte) (payload : List Byte) :
    Shape.Statement (.severityWrite tag payload) := shape_payload id rfl
theorem Shape.resultRead (tag : Byte) (payload : List Byte) :
    Shape.Statement (.resultRead tag payload) := shape_payload id rfl
theorem Shape.resultSegmentRead (tag : Byte) (payload : List Byte) :
    Shape.Statement (.resultSegmentRead tag payload) := shape_payload id rfl
theorem Shape.retainedRead (tag : Byte) (payload : List Byte) :
    Shape.Statement (.retainedRead tag payload) := shape_payload id rfl
theorem Shape.sampleRead (tag : Byte) (payload : List Byte) :
    Shape.Statement (.sampleRead tag payload) := shape_payload id rfl
theorem Shape.unknownRequest (tag : Byte) (code : Byte) (payload : List Byte) :
    Shape.Statement (.unknownRequest tag code payload) := by
  refine shape_payload (fun h => ?_) rfl
  simp only [Instr.wellFormed, Bool.and_eq_true] at h
  exact h.2
theorem Shape.linkResetArrival (kind : Byte) :
    Shape.Statement (.linkResetArrival kind) := shape_plain rfl rfl

end Sys2Proof.Laws
end

