-- ==== Sys2Proof/Laws/Retuned.lean ====
section
/-! SUPPORT. The end of a retune: what the sample that restores leaves of a station in RETUNE_HOLD, as the
deviation check then finds it (R59, R85, R88, R89, R92). -/

namespace Sys2Proof.Machine

section

variable {x : StationId} {s : State}

/-- What a credited sample leaves. -/
theorem creditPower_kept (body : PowerBody) : ScanKept x s (creditPower x body s) ∧
    ((creditPower x body s).st x).seq = (s.st x).seq ∧
    ((creditPower x body s).st x).par = (s.st x).par ∧
    (creditPower x body s).cdu = s.cdu ∧
    ((creditPower x body s).st x).pcu = { (s.st x).pcu with
      account := (s.st x).pcu.account.map (creditBody s.params.cycleTime body) } := by
  have index : ∀ a, (creditBody s.params.cycleTime body a).index = a.index ∧
      (creditBody s.params.cycleTime body a).entryCycle = a.entryCycle := by
    intro a
    cases body <;> exact ⟨rfl, rfl⟩
  have hp : ((creditPower x body s).st x).pcu = { (s.st x).pcu with
      account := (s.st x).pcu.account.map (creditBody s.params.cycleTime body) } := by
    unfold creditPower showAccount
    split <;> simp [modEntry]
  have hs : ((creditPower x body s).st x).seq = (s.st x).seq := by
    unfold creditPower showAccount
    split <;> simp [modEntry]
  have ht : ((creditPower x body s).st x).trk = (s.st x).trk := by
    unfold creditPower showAccount
    split <;> simp [modEntry]
  refine ⟨⟨by rw [hs]; exact ⟨rfl, rfl, rfl⟩, ?_, ?_, ?_, ?_, ?_⟩, hs, ?_, ?_, hp⟩
  · unfold creditPower showAccount
    split <;> simp [modEntry]
  · intro a ha
    exact ⟨_, by rw [hp, ha]; rfl, index a⟩
  · unfold creditPower showAccount
    split <;> rfl
  · unfold lastShaft
    rw [hs, ht]
  · intro r hr
    unfold creditPower showAccount
    split
    · refine ⟨_, ?_, by simp only [modEntry, modResult_same, modPcu_result, hr]; rfl⟩
      simp
    · exact ⟨r.entries, rfl, by simp [hr]⟩
  · unfold creditPower showAccount
    split <;> simp [modEntry]
  · unfold creditPower showAccount
    split <;> rfl

/-- The unit's deviation count and run at a change of state (R89). -/
theorem enterState_deviation (n : StationState) :
    ((enterState x n s).st x).pcu.devCount = (if n.heating then (s.st x).pcu.devCount else 0) ∧
      ((enterState x n s).st x).pcu.devRun = (if n.heating then (s.st x).pcu.devRun else false) := by
  rw [enterState_eq]
  simp only [syncTravel_pcu, pcuRecompute_pcu_devCount, pcuRecompute_pcu_devRun]
  unfold entering
  cases x <;> cases n <;> exact ⟨rfl, rfl⟩

/-- What is left of a station in RETUNE_HOLD whose retune has been restored (R59, R85). -/
structure Restored (x : StationId) (n : StationState) (s t : State) : Prop where
  kept : ScanKept x s t
  state : (t.st x).seq.state = n ∧ (t.st x).seq.pendingState = none
  handling : (t.st x).seq.handling = (s.st x).seq.handling ∧
    (t.st x).seq.haltWaiting = (s.st x).seq.haltWaiting
  par : (t.st x).par = (s.st x).par
  cdu : t.cdu = s.cdu
  history : (t.st x).pcu.history = (s.st x).pcu.history
  retune : (t.st x).pcu.retune = .none
  count : (t.st x).pcu.devCount = if n.heating then (s.st x).pcu.devCount else 0
  run : (t.st x).pcu.devRun = if n.heating then (s.st x).pcu.devRun else false

/-- A change of state leaves the shaft position that a record shows. -/
theorem enterState_seen (n : StationState) : lastShaft ((enterState x n s).st x) = lastShaft (s.st x) := by
  have h : ((entering x n s).st x).trk.report = (s.st x).trk.report ∧
      ((entering x n s).st x).trk.last = (s.st x).trk.last := by
    unfold entering
    cases x <;> cases n <;> exact ⟨rfl, rfl⟩
  have k := syncTravel_seen x (x := x) (s := pcuRecompute x (entering x n s))
  unfold lastShaft
  rw [enterState_eq, k.1, k.2, syncTravel_seq_datum]
  simp [h.1, h.2]

/-- The restore of a station in RETUNE_HOLD. -/
theorem restore_restored {n : StationState} (hst : (s.st x).seq.state = .retuneHold)
    (hn : (s.st x).seq.pendingState = some n) : Restored x n s (restore x s) := by
  unfold restore retuneDone
  simp only [modPcu_seq, hst, hn]
  obtain ⟨d1, d2⟩ := enterState_deviation (x := x) (s := modPcu x (fun p => { p with
    retuneTimer := p.retuneTimer.halted, channel := (p.retuneChannel.map channelInForce).getD p.channel,
    retuneChannel := none, retune := .none }) s) n
  have sh := enterState_seen (x := x) (s := modPcu x (fun p => { p with
    retuneTimer := p.retuneTimer.halted, channel := (p.retuneChannel.map channelInForce).getD p.channel,
    retuneChannel := none, retune := .none }) s) n
  refine ⟨⟨by simp, by simp, .of_eq (by simp), ?_, ?_, .of_result (by simp)⟩, by simp, by simp, by simp, ?_, by simp,
    by simp, ?_, ?_⟩
  · show (writeRetainedNow x _).link.count = _
    rw [writeRetainedNow_link]
    show (enterState x n _).link.count = _
    rw [enterState_own x _ n]
    rfl
  · unfold lastShaft at sh ⊢
    simpa using sh
  · show (writeRetainedNow x _).cdu = _
    rw [writeRetainedNow_cdu]
    show (enterState x n _).cdu = _
    rw [(enterState_own x _ n).cdu]
    rfl
  · simpa using d1
  · simpa using d2

/-- The setpoint of the latest entry for a cycle. -/
theorem sentAt_last {p : Power} {c d : Cycle} {a : Nat} {pre post : List (Nat × Cycle)}
    (h : p.history = pre ++ [(a, c)] ++ post) (hd : ∀ k ∈ post, k.2 = d) (hne : d ≠ c) :
    sentAt p c = some a := by
  unfold sentAt
  rw [h]
  have hp : post.reverse.find? (fun k => decide (k.2 = c)) = none := by
    rw [List.find?_eq_none]
    intro k hk
    simp [hd k (List.mem_reverse.mp hk), hne]
  simp [List.reverse_append, List.find?_append, hp]

end

end Sys2Proof.Machine
end

