-- ==== Sys2Proof/Laws/Wire.lean ====
section
/-! SUPPORT. The two checks of the wire as folds over their bytes, and the lengths of encoded numbers. -/

namespace Sys2Proof.Machine

/-- The check register of the frame check is a fold over the bytes. -/
theorem crc32From_eq_foldl (bytes : List Byte) (c : BitVec 32) :
    crc32From c bytes = bytes.foldl (fun c b => (bitsOf b).foldl crc32Bit c) c := by
  induction bytes generalizing c with
  | nil => rfl
  | cons b rest ih =>
    rw [List.foldl_cons, ← ih]
    simp only [crc32From]
    split
    · next h => rw [← h, BitVec.ofNat_toNat, BitVec.setWidth_eq]
    · next h => rw [← Nat.succ_eq_add_one, ← h, BitVec.ofNat_toNat, BitVec.setWidth_eq]

/-- The check register of the profile check is a fold over the bytes. -/
theorem crc16From_eq_foldl (bytes : List Byte) (c : BitVec 16) :
    crc16From c bytes = bytes.foldl (fun c b => (bitsOf b).foldl crc16Bit c) c := by
  induction bytes generalizing c with
  | nil => rfl
  | cons b rest ih =>
    rw [List.foldl_cons, ← ih]
    simp only [crc16From]
    split
    · next h => rw [← h, BitVec.ofNat_toNat, BitVec.setWidth_eq]
    · next h => rw [← Nat.succ_eq_add_one, ← h, BitVec.ofNat_toNat, BitVec.setWidth_eq]

@[simp] theorem be16_length (v : BitVec 16) : (be16 v).length = 2 := rfl
@[simp] theorem be32_length (v : BitVec 32) : (be32 v).length = 4 := rfl

/-- The bits of a 32-bit number put together. -/
theorem word32_getLsbD (p q r t : Byte) (i : Nat) :
    (word32 p q r t).getLsbD i =
      if i < 8 then t.getLsbD i else if i < 16 then r.getLsbD (i - 8)
      else if i < 24 then q.getLsbD (i - 16) else p.getLsbD (i - 24) := by
  have h : (word32 p q r t).getLsbD i =
      (((p ++ q : BitVec (8 + 8)) ++ r : BitVec (8 + 8 + 8)) ++ t : BitVec (8 + 8 + 8 + 8)).getLsbD i :=
    rfl
  rw [h, BitVec.getLsbD_append, BitVec.getLsbD_append, BitVec.getLsbD_append]
  by_cases h1 : i < 8 <;> by_cases h2 : i < 16 <;> by_cases h3 : i < 24 <;>
    simp [h1, h2, h3, show (i - 8 < 8) = (i < 16) by simp; omega,
      show i - 8 - 8 = i - 16 by omega, show i - 16 - 8 = i - 24 by omega] <;> omega

/-- The bytes of a 32-bit number put together again. -/
theorem be32_word32 (p q r t : Byte) : be32 (word32 p q r t) = [p, q, r, t] := by
  simp only [be32, List.cons.injEq, and_true]
  refine ⟨?_, ?_, ?_, ?_⟩ <;>
    (apply BitVec.eq_of_getLsbD_eq
     intro i hi
     have h8 : i < 8 := hi
     rw [BitVec.getLsbD_extractLsb', word32_getLsbD]
     interval_cases i <;> rfl)

/-- The bytes of a 16-bit number put together again. -/
theorem be16_word16 (p q : Byte) : be16 (word16 p q) = [p, q] := by
  have h : ∀ i, (word16 p q).getLsbD i = (p ++ q : BitVec (8 + 8)).getLsbD i := fun _ => rfl
  simp only [be16, List.cons.injEq, and_true]
  refine ⟨?_, ?_⟩ <;>
    (apply BitVec.eq_of_getLsbD_eq
     intro i hi
     have h8 : i < 8 := hi
     rw [BitVec.getLsbD_extractLsb', h, BitVec.getLsbD_append]
     interval_cases i <;> rfl)

end Sys2Proof.Machine
end

