-- ==== Sys2Proof/Tests/Slice0.lean ====
section
/-! SUPPORT. Tests: the well-formedness checks refuse an ill-formed command each, the two checks of the wire on
their known words, and for each statement a state that meets its hypotheses. -/

namespace Sys2Proof.Tests

open Sys2Proof Sys2Proof.Machine

set_option Elab.async false

/-! ## Well-formedness: one ill-formed command for each check -/

theorem test_fitsChannel_refuses : (Instr.ident 1 (List.replicate 49 0)).wellFormed = false := by decide
theorem test_fitsChannel_accepts : (Instr.ident 1 (List.replicate 48 0)).wellFormed = true := by decide
theorem test_unnamedRequest_refuses : (Instr.unknownRequest 1 31 []).wellFormed = false := by decide
theorem test_unnamedRequest_accepts :
    (Instr.unknownRequest 1 32 []).wellFormed = true ∧ (Instr.unknownRequest 1 0 []).wellFormed = true := by
  decide
theorem test_unnamedCommand_refuses : (Instr.commandUnknownCode .a 5 1).wellFormed = false := by decide
theorem test_unnamedCommand_accepts : (Instr.commandUnknownCode .a 6 1).wellFormed = true := by decide
theorem test_withinStore_refuses : (Instr.mainSupplyLoss 17).wellFormed = false := by decide
theorem test_withinStore_accepts : (Instr.mainSupplyLoss 16).wellFormed = true := by decide
theorem test_hasHeader_refuses : (Instr.strayReturn (.completion [1, 0, 0])).wellFormed = false := by decide
theorem test_notCycle_refuses : (Instr.linkResetArrival 1).wellFormed = false := by decide
theorem test_notCycle_accepts : (Instr.linkResetArrival 2).wellFormed = true := by decide

/-- A frame of `kind` without slots and with an empty service channel, its check computed. -/
def bareFrame (kind p q : Byte) : List Byte :=
  let body := [kind, 0, p, q] ++ List.replicate 53 0
  body ++ be32 (crc32 body)

theorem test_isCycle_refuses : (Instr.cycleCompletion (bareFrame 2 0 1)).wellFormed = false := by
  decide +kernel
theorem test_isCycle_accepts : (Instr.cycleCompletion (bareFrame 1 0 1)).wellFormed = true := by
  decide +kernel
theorem test_isReset_refuses : (Instr.linkReset (bareFrame 1 0 1)).wellFormed = false := by
  decide +kernel
theorem test_isReset_accepts : (Instr.linkReset (bareFrame 2 0 1)).wellFormed = true := by
  decide +kernel
theorem test_isBad_refuses : (Instr.frameCheck .u (bareFrame 1 0 1)).wellFormed = false := by
  decide +kernel
theorem test_isBad_accepts : (Instr.frameCheck .u [1, 0, 0, 1]).wellFormed = true := by
  decide +kernel

/-! ## The checks of the wire -/

/-- The nine characters 1 to 9, on which checks are known. -/
def nine : List Byte := [49, 50, 51, 52, 53, 54, 55, 56, 57]

theorem test_crc32_nine : crc32 nine = 0xFC891918#32 := by decide +kernel
theorem test_crc16_nine : crc16 nine = 0x29B1#16 := by decide +kernel
theorem test_table_word_spells_nothing : decodeTableWord 8 1 = none := rfl

/-! ## States and operands that meet the hypotheses of the statements

Each theorem below states, for one statement, its hypotheses (clause by clause, in the statement's order)
on a concrete state, and proves them. -/

/-- The state a step has answered. -/
def after (r : Host.Outcome State Fault Refusal) : State :=
  match r with
  | .next t => t
  | .fault _ | .refused _ => State.reset

/-- Powered, link UP, no long operation. -/
def upState : State :=
  modLink (fun l => { l with state := .up })
    (modStore (fun t => { t with register := { t.register with result := some .ok } }) State.reset)

theorem nibble_is_new : (1 : BitVec 4) ≠ 0 := by decide

theorem upState_ready : Ready upState := ⟨rfl, rfl⟩
theorem upState_commanded : Commanded upState := ⟨⟨rfl, rfl⟩, rfl⟩

/-- `upState` without main supply. -/
def offState : State := { upState with vdd := false }

/-- `upState` with station A changed. -/
def withA (f : Station → Station) : State := modSt .a f upState

/-- Station A with its sequencer changed. -/
def seqA (f : Sequencer → Sequencer) : State := modSeq .a f upState

/-- A retained record of station A. -/
def retainedA : Retained :=
  { profile := 3, revision := 1, datum := 0, index := some 0, position := none, cycle := 9,
    state := .scanning }

/-- A state whose link unit is otherwise as in `upState`. -/
def linked (f : Link → Link) : State := modLink f upState

/-! ### The step -/

theorem test_meets_StepRunsTheFrontCommand :
    ({ upState with pending := [.stopLine .a] } : State).pending = .stopLine .a :: [] := rfl

theorem test_meets_NothingHappensOutsideAnEvent :
    State.reset.pending = [] ∧
    (offState.vdd = false ∧ (∀ k l n, Instr.stopLine .a ≠ .powerOn k l n) ∧
      Instr.stopLine .a ≠ .retentionLevelLoss) ∧
    State.reset.link.state ≠ .up ∧
    (let s := linked (fun l => { l with adoption := true })
     s.link.state = .up ∧ s.link.adoption = true) :=
  ⟨rfl, ⟨rfl, fun _ _ _ => by simp, by decide⟩, by decide, rfl, rfl⟩

/-! ### Supply and reset -/

/-- Released stop inputs. -/
def released : StopLevels := { a := false, b := false, all := false }

theorem test_meets_PowerOnAndResetNRestartThePart :
    (∀ r : Retention, ({ offState with rtb := r } : State).vdd = false) ∧
    (upState.vdd = true ∧ upState.store.running = none) ∧
    (upState.rtb.valid = true ∧ upState.rtb.records = Pair.both none) ∧
    (let r : Retention := { records := { a := some retainedA, b := none }, valid := true }
     (r.records.get .a).isSome = true ∧ r.records.get .b = none) ∧
    ({ upState.rtb with valid := false } : Retention).valid = false :=
  ⟨fun _ => rfl, ⟨rfl, rfl⟩, ⟨rfl, rfl⟩, ⟨rfl, rfl⟩, rfl⟩

theorem test_straps_at_the_ends_of_the_range :
    (after (exec (.powerOn 0 released 0) offState)).link.state = .passive ∧
    (after (exec (.powerOn 1 released 0) offState)).link.address = some 1 ∧
    (after (exec (.powerOn 62 released 0) offState)).link.address = some 62 ∧
    (after (exec (.resetN 63 released 0) upState)).link.state = .passive := by
  decide +kernel

/-- A long operation `op` running on profile 3 with what it carries. -/
def longOp (op : Operation) (n : Option (Fin 16)) (w : OpWork) : State :=
  modStore
    (fun t => { t with register := { operation := op, profile := n, result := none }, work := w })
    upState

/-- The header of the profile of the tests. -/
def header3 : Header := { clearedHeader with finish := 10000, quenchOffset := 5000 }

/-- Its first segment. -/
def seg0 : Segment := { clearedSegment with power := 100, speed := 1000, zones := 1 }

/-- Its second segment. -/
def seg1 : Segment := { seg0 with start := 5000, channel := .high }

/-- The profile of the tests. -/
def profile3 : Profile := { header := header3, segments := [seg0, seg1] }

/-- Its directory entry. -/
def entry3 : DirEntry :=
  { clearedEntry with state := .valid, count := 2, revision := 1, check := checkValue profile3 }

theorem test_meets_CutLongOperationLeavesWhatItWrote :
    (upState.vdd = true ∧ upState.store.running = none) ∧
    (let s := longOp .commit (some 3) (.commit profile3 .empty)
     s.vdd = true ∧ s.store.running = some .commit ∧ s.store.register.profile = some 3 ∧
       s.store.work = .commit profile3 .empty) ∧
    (let s := longOp .erase (some 3) .none
     s.vdd = true ∧ s.store.running = some .erase ∧ s.store.register.profile = some 3) ∧
    (let s := longOp .protect (some 3) (.protect true false)
     s.vdd = true ∧ s.store.running = some .protect ∧ s.store.register.profile = some 3 ∧
       s.store.work = .protect true false) ∧
    (let s := longOp .clear none .none
     s.vdd = true ∧ s.store.running = some .clear) ∧
    (State.reset.vdd = true ∧ State.reset.store.running = some .storeCheck) :=
  ⟨⟨rfl, rfl⟩, ⟨rfl, rfl, rfl, rfl⟩, ⟨rfl, rfl, rfl⟩, ⟨rfl, rfl, rfl, rfl⟩, ⟨rfl, rfl⟩, ⟨rfl, rfl⟩⟩

/-! ### One field -/

/-- The header of `bareFrame kind p q`. -/
def bareHeader (kind p q : Byte) : FrameHeader := { kind := kind, count := 0, number := p ++ q }

theorem test_meets_OneFieldCommandsWriteTheirFieldAlone :
    upState.vdd = true ∧
    (let s := withA (fun v => { v with trk := { v.trk with settle := .running 200 } })
     s.vdd = true ∧ (s.st .a).trk.settle = .running 200) ∧
    (State.reset.vdd = true ∧ State.reset.link.state ≠ .up ∧
      headerOf (bareFrame 1 0 1) = some (bareHeader 1 0 1) ∧ State.reset.link.passD = none) ∧
    offState.vdd = false := by
  refine ⟨rfl, ⟨rfl, rfl⟩, ⟨rfl, ?_, ?_, rfl⟩, rfl⟩ <;> decide +kernel

/-! ### Completions -/

theorem test_meets_CompletionsWriteTheStore :
    (let s := longOp .commit (some 3) (.commit profile3 .empty)
     s.vdd = true ∧ s.store.running = some .commit ∧ s.store.register.profile = some 3 ∧
       s.store.work = .commit profile3 .empty) ∧
    (let s := longOp .erase (some 0) .none
     s.vdd = true ∧ s.store.running = some .erase ∧ s.store.register.profile = some 0) ∧
    (let s := longOp .protect (some 15) (.protect true false)
     s.vdd = true ∧ s.store.running = some .protect ∧ s.store.register.profile = some 15 ∧
       s.store.work = .protect true false) ∧
    (let s := longOp .clear none .none
     s.vdd = true ∧ s.store.running = some .clear) ∧
    ((∃ i : Fin 16, (0xFFFE#16).getLsbD i.val = false) ∧
      ∀ i : Fin 16, (0xFFFF#16).getLsbD i.val = true) ∧
    (State.reset.vdd = true ∧ State.reset.store.running = some .storeCheck) :=
  ⟨⟨rfl, rfl, rfl, rfl⟩, ⟨rfl, rfl, rfl⟩, ⟨rfl, rfl, rfl, rfl⟩, ⟨rfl, rfl⟩,
    ⟨⟨0, by decide⟩, by decide⟩, ⟨rfl, rfl⟩⟩

/-- What the store check looks at: an entry in WRITING, and a VALID one whose check is another. -/
theorem test_store_check_entries :
    ((⟨{ entry3 with state := .writing }, profile3⟩ : DirEntry × Profile).1.state = .writing) ∧
    entry3.state = .valid ∧ checkValue profile3 ≠ entry3.check + 1 := by
  decide +kernel

/-! ### Stop inputs and line programs -/

/-- Station A scans the profile of the tests, at rest between two events. -/
def held3 : HeldProfile := heldProfile 3 entry3 profile3

/-- The profile of the tests is stored. -/
def stored : State :=
  modStore
    (fun t => { t with directory := t.directory.set 3 entry3, profiles := t.profiles.set 3 profile3 })
    upState

/-- Station A in state `n` with the profile of the tests. -/
def scanning (n : StationState) (i : Option Nat) : State :=
  modSeq .a (fun q => { q with state := n, profile := some held3, index := i }) stored

theorem settled_of {v : Station} (h : v.seq.handling = false) (w : v.seq.haltWaiting = none)
    (o : v.eng.endOwed = none) : Settled v := ⟨h, w, o⟩

theorem test_meets_StopInputsHaltTheirStations :
    (let s : State := { upState with stops := { released with a := true } }
     s.vdd = true ∧ ownStop s.stops .a = true) ∧
    (let s := scanning .scanning (some 0)
     s.vdd = true ∧ ownStop s.stops .a = false ∧ (s.st .a).seq.state.haltable = true ∧
       Settled (s.st .a)) ∧
    (upState.vdd = true ∧ ownStop upState.stops .a = false ∧
      (upState.st .a).seq.state.active = false ∧ QuenchIdle (upState.st .a)) ∧
    (let s : State := { upState with stops := { released with all := true } }
     s.vdd = true ∧ s.stops.all = true) ∧
    (let s := scanning .tail (some 1)
     s.vdd = true ∧ s.stops.all = false ∧ (s.st .a).seq.state.haltable = true ∧
       Settled (s.st .a) ∧ (s.st .b).seq.state.active = false ∧ QuenchIdle (s.st .b)) :=
  ⟨⟨rfl, rfl⟩, ⟨rfl, rfl, rfl, rfl, rfl, rfl⟩, ⟨rfl, rfl, rfl, rfl, rfl, rfl, rfl⟩, ⟨rfl, rfl⟩,
    ⟨rfl, rfl, rfl, ⟨rfl, rfl, rfl⟩, rfl, rfl, rfl, rfl, rfl⟩⟩

/-- Station A runs program `p`, step `i` waiting, in state `n` and phase `ph`. -/
def running (p : Program) (i : Nat) (n : StationState) (ph : Option TailPhase) : State :=
  modEng .a (fun e => { e with running := some p, step := some i, timer := .running 256 })
    (modSeq .a (fun q => { q with phase := ph }) (scanning n (some 0)))

theorem powerLaw_of_zero {v : Station} (h : v.pcu.held.setpoint = 0) (r : v.pcu.held.run = false) :
    PowerLaw v := by
  rintro (k | k)
  · exact absurd h k
  · rw [r] at k
    cases k

theorem test_meets_ProgramStepActsOnTheLines :
    (∀ p i n ph, let s := running p i n ph
     s.vdd = true ∧ (s.st .a).eng.timer = .running 256 ∧ (s.st .a).eng.running = some p ∧
       (s.st .a).eng.step = some i ∧ Settled (s.st .a) ∧ PowerLaw (s.st .a) ∧
       (s.st .a).eng.permit = false ∧ (s.st .a).seq.state = n ∧ (s.st .a).seq.phase = ph) ∧
    (let s := running .halt 2 .halting none
     (s.progStep .a .halt 2).last = true) ∧
    (let s := running .finish 1 .tail (some .finishing)
     (s.progStep .a .finish 1).last = true) ∧
    (let s := running .halt 1 .halting none
     (s.progStep .a .halt 1).last = false ∧ (1 : Nat) < 7 ∧ (s.progStep .a .halt 2).delay ≠ 0) :=
  ⟨fun _ _ _ _ => ⟨rfl, rfl, rfl, rfl, ⟨rfl, rfl, rfl⟩, powerLaw_of_zero rfl rfl, rfl, rfl, rfl⟩,
    rfl, rfl, ⟨rfl, by decide, by decide⟩⟩

/-- Every condition set to `v`. -/
def allSet (v : Severity) (s : State) : State :=
  modCdu (fun u => { u with severity := Vector.replicate 28 v }) s

/-- Both stations scan, every condition set to `v`. -/
def bothScan (v : Severity) : State :=
  allSet v (modSeq .b (fun q => { q with state := .dwelling, profile := some held3, index := some 0 })
    (scanning .scanning (some 0)))

/-- Program steps without a delay but for step 4. -/
def chained : Vector ProgStep 8 := (Vector.replicate 8 idleStep).set 4 { idleStep with delay := 3 }

/-- Every program of station A is `p`. -/
def programmed (p : Vector ProgStep 8) (s : State) : State :=
  modEng .a (fun e => { e with table := { start := p, finish := p, halt := p } }) s

/-- What a stop at one station asks of the other's set severity, with both scanning. -/
theorem test_meets_StopInputs_other :
    (∀ v, let s := bothScan v
     s.vdd = true ∧ ownStop s.stops .a = false ∧ (s.st .a).seq.state.haltable = true ∧ Settled (s.st .a) ∧
       (s.st (StationId.a).other).seq.state.haltable = true ∧ Settled (s.st (StationId.a).other)) ∧
    (bothScan .haltAll).cdu.setSeverity .stopLine = .haltAll ∧
    (bothScan .abort).cdu.setSeverity .stopLine ≠ .haltAll := by
  refine ⟨fun v => ⟨rfl, rfl, rfl, ⟨rfl, rfl, rfl⟩, rfl, rfl, rfl, rfl⟩, ?_⟩
  decide +kernel

/-- The fates of a HALT program that `HaltedBy` tells: a delay behind steps without one, none at all, and a running
one. -/
theorem test_meets_the_program_of_a_halt :
    (let s := programmed chained (scanning .scanning (some 0))
     (s.st .a).eng.running ≠ some .halt ∧ (∀ j, j < 4 → ¬StepWaits s .a .halt none j) ∧
       (∀ j, j < 4 → (s.progStep .a .halt j).last = false) ∧ StepWaits s .a .halt none 4) ∧
    (let s := programmed (Vector.replicate 8 idleStep) (scanning .scanning (some 0))
     ∀ j, j ≤ 7 → ¬StepWaits s .a .halt none j ∧ (s.progStep .a .halt j).last = false) ∧
    ((running .halt 1 .scanning none).st .a).eng.running = some .halt := by
  unfold StepWaits
  decide +kernel

/-- A halt begins its program at the first step with a delay; one without any ends the scan at once (R67, R68,
R132, R134); at HALT_ALL the other station is halted too (R165). -/
theorem test_halt_begins_its_program :
    (let t := after (exec (.stopLine .a) (programmed chained (bothScan .abort)))
     (t.st .a).eng.running = some .halt ∧ (t.st .a).eng.step = some 4 ∧ (t.st .a).eng.timer = .running 4 ∧
       (t.st .a).seq.state = .halting ∧ (t.st .b).seq.state = .dwelling) ∧
    (let t := after (exec (.stopLine .a) (programmed (Vector.replicate 8 idleStep) (bothScan .haltAll)))
     (t.st .a).eng.running = none ∧ (t.st .a).seq.state = .faulted ∧ t.rtb.records.get .a = none ∧
       (t.st .b).seq.state = .halting ∧ (t.st .b).seq.haltCause = some (.cond .stopLine)) := by
  decide +kernel

/-- The samples of an inverter that is READY on LOW. -/
def readySamples : SampleSet :=
  { resetSamples with
    powerActual := { resetRecord with value := some #v[0, 0, 1, 1, 0, 0, 0, 0], fresh := true } }

/-- Station A runs its START program in ARMING, ready to move, at shaft position `at_`. -/
def poised (at_ : Int) : State :=
  modLink (fun l => { l with samples := l.samples.set .a readySamples })
    (modPcu .a (fun p => { p with channel := .low })
      (modTrk .a (fun k => { k with
          estimate := some at_,
          flags := some { enabled := true, homed := true, inMotion := false, driveFault := false } })
        (programmed (Vector.replicate 8 idleStep) (running .start 3 .arming none))))

theorem poised_ready : ArmReady (poised 0) .a held3 where
  channel := ⟨rfl, rfl⟩
  inverter := ⟨rfl, _, rfl, rfl, rfl⟩
  axis := ⟨_, rfl, rfl, rfl, rfl⟩
  tracked := rfl
  place := ⟨0, rfl, by decide +kernel, by decide +kernel⟩

/-- A step that expires: a chain of steps without a delay behind it, and the end of each program where it ends a
scan or arms it. -/
theorem test_meets_ProgramStepActsOnTheLines_ends :
    (∀ p n ph, let s := programmed chained (running p 1 n ph)
     s.vdd = true ∧ Settled (s.st .a) ∧ (s.st .a).eng.step = some 1) ∧
    (let s := programmed chained (running .start 1 .arming none)
     (∀ j, 1 ≤ j → j < 4 → ¬StepWaits s .a .start (some 1) j ∧ (s.progStep .a .start j).last = false) ∧
       StepWaits s .a .start (some 1) 4 ∧ ¬StepWaits s .a .start (some 4) 4) ∧
    ((poised 0).vdd = true ∧ ((poised 0).st .a).eng.timer = .running 256 ∧
      ((poised 0).st .a).eng.running = some .start ∧ ((poised 0).st .a).eng.step = some 3 ∧
      Settled ((poised 0).st .a) ∧ ((poised 0).st .a).seq.state = .arming ∧
      ((poised 0).st .a).seq.profile = some held3 ∧ ArmReady (poised 0) .a held3) := by
  refine ⟨fun p n ph => ⟨rfl, ⟨rfl, rfl, rfl⟩, rfl⟩, ?_, rfl, rfl, rfl, rfl, ⟨rfl, rfl, rfl⟩, rfl, rfl, poised_ready⟩
  unfold StepWaits
  decide +kernel

/-- The START program ends: APPROACH from the profile start, ARMING beyond it; the HALT program ends in HALTING
(R51, R68). -/
theorem test_programs_end :
    ((after (exec (.programStepExpiry .a) (poised 0))).st .a).seq.state = .approach ∧
    ((after (exec (.programStepExpiry .a) (poised (-100000)))).st .a).seq.state = .approach ∧
    ((after (exec (.programStepExpiry .a) (poised 1))).st .a).seq.state = .arming ∧
    (let t := after (exec (.programStepExpiry .a)
       (programmed (Vector.replicate 8 idleStep) (running .halt 0 .halting none)))
     (t.st .a).seq.state = .faulted ∧ (t.st .a).seq.resultReady = true) := by
  decide +kernel

/-! ### The cycle link -/

/-- An open wait for cycle number 1. -/
def wait1 : ReturnWait := { number := 1, count := 5, timer := .running 400, taken := false }

/-- A wait whose return is passing. -/
def taken1 : ReturnWait := { wait1 with timer := .stopped, taken := true }

/-- A snapshot of resting stations. -/
def snapshot0 : Snapshot :=
  { power := resetPower.held, quench := 0, quenchStale := false, travel := stopIncreasing,
    travelStale := false }

/-- The map of the tests: CONTROL in slot 10, station A's POWER_SET in slot 20, POSITION in slot 30 and
TEMPERATURE in slot 31. -/
def map0 : SlotMap :=
  (((Vector.replicate 16 none).set 0
      (some { slotId := 10, signal := .control, writer := 0, required := true })).set 1
      (some { slotId := 20, signal := .setpoint .a .powerSet, writer := 0, required := false })).set 2
      (some { slotId := 30, signal := .feedback .a .position, writer := 5, required := true }) |>.set 15
      (some { slotId := 31, signal := .feedback .a .temperature, writer := 0, required := true })

/-- The passage of cycle number 1 at port U. -/
def passage1 : PassageU := { number := 1, map := map0, snapshot := Pair.both snapshot0 }

/-- The return of cycle number 1 at port D. -/
def returned1 : PassageD := { number := 1, map := map0, status := [], kind := .taken }

theorem test_meets_ArrivalsTakeTheirSnapshotAndLostReturnsClose :
    (Ready upState ∧ upState.link.wait = none) ∧
    (let s := linked (fun l => { l with wait := some wait1 })
     Ready s ∧ s.link.wait = some wait1 ∧ wait1.taken = false ∧ wait1.timer = .running 400 ∧
       wait1.number = 1) ∧
    (let s := linked (fun l => { l with passU := some passage1 })
     Ready s ∧ s.link.passU = some passage1 ∧ passage1.number = 1) ∧
    (let s := linked (fun l => { l with wait := some wait1 })
     Ready s ∧ s.link.wait = some wait1 ∧
       (∃ k n, Instr.cycleArrival 0 2 = .cycleArrival k n) ∧
       (∃ k, Instr.linkResetArrival 2 = .linkResetArrival k ∧ k ≠ kindCycle) ∧
       wait1.timer.isRunning = true) :=
  ⟨⟨upState_ready, rfl⟩, ⟨⟨rfl, rfl⟩, rfl, rfl, rfl, rfl⟩, ⟨⟨rfl, rfl⟩, rfl, rfl⟩,
    ⟨⟨rfl, rfl⟩, rfl, ⟨0, 2, rfl⟩, ⟨2, rfl, by decide⟩, rfl⟩⟩

/-- A written ATTENTION_LEVEL is not in force before the next return pass (R166). -/
theorem test_attention_level_waits_for_the_return :
    let s := linked (fun l => { l with wait := some wait1 })
    let t := after (exec (.paramWrite 9 [6, 0, 0, 0, 0, 3]) s)
    t.params.attentionLevel = .haltAll ∧ t.link.attentionLevel = s.link.attentionLevel ∧
      s.link.attentionLevel ≠ .haltAll ∧
      (after (exec (.returnArrival 1) t)).link.attentionLevel = .haltAll := by
  decide +kernel

theorem test_bareFrame_is_a_good_cycle :
    goodCycle (bareFrame 1 0 1) = true ∧ headerOf (bareFrame 1 0 1) = some (bareHeader 1 0 1) := by
  decide +kernel

/-- The return of cycle number 1, come early and to its end. -/
def ended1 : EndedReturn := { number := 1, map := map0, frame := [1, 0, 0, 1] }

/-- An early return has ended while frame 1 passes, and a stray stands at port D. -/
def afterEarly : State :=
  linked fun l => { l with
    passU := some passage1, passD := some { returned1 with kind := .stray }, ended := some ended1 }

theorem test_meets_CycleCompletionInUpCountsAndOpensTheWait :
    (Ready upState ∧ upState.link.lastNumber = none ∧ upState.link.passU = none ∧
      upState.link.passD = none) ∧
    (let s := linked (fun l => { l with lastNumber := some 1, passU := some passage1 })
     Ready s ∧ s.link.lastNumber = some 1 ∧ s.link.passU = some passage1 ∧
       passage1.number = (bareHeader 1 0 1).number ∧ (bareHeader 1 0 1).number = 1) ∧
    (let s := linked (fun l => { l with lastNumber := some 0xFFFF })
     Ready s ∧ s.link.lastNumber = some 0xFFFF ∧
       ((bareHeader 1 0 1).number - 0xFFFF).toNat = 2) ∧
    upState.link.ended = none ∧
    (Ready afterEarly ∧ afterEarly.link.passU = some passage1 ∧ afterEarly.link.ended = some ended1 ∧
      ended1.number = (bareHeader 1 0 1).number ∧
      afterEarly.link.passD = some { returned1 with kind := .stray }) ∧
    (let q : PassageD := { returned1 with kind := .early }
     let s := linked (fun l => { l with passU := some passage1, passD := some q })
     Ready s ∧ s.link.passD = some q ∧ q.kind = .early ∧ q.number = (bareHeader 1 0 1).number) :=
  ⟨⟨upState_ready, rfl, rfl, rfl⟩, ⟨⟨rfl, rfl⟩, rfl, rfl, rfl, rfl⟩, ⟨⟨rfl, rfl⟩, rfl, rfl⟩, rfl,
    ⟨⟨rfl, rfl⟩, rfl, rfl, rfl, rfl⟩, ⟨⟨rfl, rfl⟩, rfl, rfl, rfl⟩⟩

/-- A stray that arrives at port D after an early return has ended leaves that return to the wait its
outbound frame opens (R152). -/
theorem test_stray_leaves_the_ended_return_to_its_wait :
    (endedFor (after (exec (.strayReturn (.arrival 2 1)) afterEarly)).link 1) = some ended1 ∧
    (openWait 1 afterEarly).link.wait.map ReturnWait.taken = some true := by
  decide +kernel

/-- The wait for frame 1 was taken by an early return that came to its end with the bytes `frame`. -/
def endedWith (frame : List Byte) : State :=
  linked fun l => { l with wait := some taken1, ended := some { ended1 with frame := frame } }

theorem test_meets_CycleCompletionInUp_ended :
    (∀ f, (endedWith f).link.ended = some { ended1 with frame := f } ∧ ended1.number = 1 ∧
      (endedWith f).link.wait = some taken1 ∧ taken1.taken = true ∧ taken1.number = 1) ∧
    goodCycle (bareFrame 1 0 1) = true ∧ goodCycle [1, 0, 0, 1] = false := by
  refine ⟨fun _ => ⟨rfl, rfl, rfl, rfl, rfl⟩, ?_⟩
  decide +kernel

/-- The three ways the count advances: from nothing, by the difference, by a whole turn. -/
theorem test_cycle_count_advances :
    (after (exec (.cycleCompletion (bareFrame 1 0 1)) upState)).link.count = 1 ∧
    (after (exec (.cycleCompletion (bareFrame 1 0 1))
      (linked fun l => { l with lastNumber := some 0xFFFF }))).link.count = 2 ∧
    (after (exec (.cycleCompletion (bareFrame 1 0 1))
      (linked fun l => { l with lastNumber := some 1 }))).link.count = 65536 := by
  decide +kernel

/-- Two good frames in sequence have come. -/
def syncing (m : SlotMap) : State :=
  linked fun l => { l with state := .syncing, good := 2, lastNumber := some 0, map := m }

/-- A frame whose slots are `slots` and whose service channel is empty. -/
def slotFrame (p q : Byte) (slots : List Slot) : List Byte :=
  let body := [1, BitVec.ofNat 8 slots.length, p, q] ++
    (slots.map fun sl => sl.id :: sl.state :: sl.writer :: sl.payload.toList).flatten ++
    List.replicate 53 0
  body ++ be32 (crc32 body)

/-- A valid CONTROL slot with nibbles 3 and 4. -/
def control34 : Slot := { id := 10, state := 1, writer := 1, payload := #v[3, 0, 0, 0, 4, 0, 0, 0] }

/-- The slot of station A's POWER_SET as the link master sends it. -/
def emptySet : Slot := { id := 20, state := 0, writer := 0, payload := Vector.replicate 8 0 }

/-- The slot of station A's POSITION, written by the node the map names. -/
def position5 : Slot := { id := 30, state := 1, writer := 5, payload := #v[0, 0, 1, 0, 3, 0, 0, 0] }

/-- An outbound frame with CONTROL and POWER_SET. -/
def outFrame : List Byte := slotFrame 0 1 [control34, emptySet]

/-- A return with POSITION alone. -/
def backFrame : List Byte := slotFrame 0 1 [position5]

theorem test_meets_ThirdFrameInSequenceBringsTheLinkUp :
    (∀ m, (syncing m).vdd = true ∧ (syncing m).link.state = .syncing ∧ (syncing m).link.good = 2 ∧
      (syncing m).link.lastNumber = some ((1 : CycleNumber) - 1)) ∧
    goodCycle outFrame = true ∧
    headerOf outFrame = some { kind := 1, count := 2, number := 1 } ∧
    usableControl (syncing map0).link.map outFrame = some control34.payload ∧
    usableControl (syncing (Vector.replicate 16 none)).link.map outFrame = none := by
  refine ⟨fun _ => ⟨rfl, rfl, rfl, rfl⟩, ?_, ?_, ?_, ?_⟩ <;> decide +kernel

/-- `upState` at address 7, with the map of the tests. -/
def addressed : State := linked fun l => { l with address := some 7, map := map0 }

/-- The same at address 8. -/
def elsewhere : State := modLink (fun l => { l with address := some 8 }) addressed

/-- A frame without slots whose service channel asks node 7 for IDENT, with `n` payload bytes. -/
def askFrame (n : Byte) : List Byte :=
  let body := [1, 0, 0, 1, 7, 0, 9, 1, n] ++ List.replicate 48 0
  body ++ be32 (crc32 body)

/-- The request of `askFrame`. -/
def asked (n : Byte) : ServiceChannel :=
  { target := 7, direction := 0, tag := 9, code := 1, length := n, payload := List.replicate 48 0 }

/-- Two good frames in sequence have come at address 7, the passage of frame `n` began in UP, and a reply
is still held. -/
def syncingAt (n : CycleNumber) : State :=
  modLink (fun l => { l with address := some 7, passU := some { passage1 with number := n },
                             heldReply := some { tag := 3, status := .ok, payload := [] } })
    (syncing map0)

/-- The frame that brings the link UP asks node 7; its passage began in UP, or no passage has its number. -/
theorem test_meets_ThirdFrameInSequence_passage :
    (syncing map0).link.passU = none ∧
    (∀ n, (syncingAt n).vdd = true ∧ (syncingAt n).link.state = .syncing ∧
      (syncingAt n).link.good = 2 ∧ (syncingAt n).link.lastNumber = some ((1 : CycleNumber) - 1) ∧
      (syncingAt n).link.passU = some { passage1 with number := n }) ∧
    (2 : CycleNumber) ≠ 1 ∧ goodCycle (askFrame 0) = true ∧
    headerOf (askFrame 0) = some (bareHeader 1 0 1) := by
  refine ⟨rfl, fun _ => ⟨rfl, rfl, rfl, rfl, rfl⟩, ?_⟩
  decide +kernel

/-- The same request is answered in UP, and is not taken from the frame that brings the link UP, which arrived
outside UP (R157; assumption 55). -/
theorem test_request_of_the_frame_that_brings_up :
    (after (exec (.cycleCompletion (askFrame 0)) addressed)).link.heldReply.map Reply.status = some .ok ∧
    (let t := after (exec (.cycleCompletion (askFrame 0)) (syncingAt 2))
     t.link.state = .up ∧ t.link.heldReply = none ∧ t.link.wait.map ReturnWait.number = some 1) := by
  decide +kernel

/-- Steps 2, 4 and 5 of R150: POWER_SET is bound, its slot in `outFrame` and not in `backFrame`; CONTROL is
usable in `outFrame` and not in `backFrame`, and required; requests of 48 and of 49 bytes to the part, and one to
another node. -/
theorem test_meets_CycleCompletionInUp_steps :
    (∃ e, bound map0 (.setpoint .a .powerSet) = some e ∧ (findSlot outFrame e.slotId).isSome = true ∧
      findSlot backFrame e.slotId = none) ∧
    bound map0 (.setpoint .b .powerSet) = none ∧
    (newlyMissing map0 backFrame upState.link .a = [.powerSet] ∧
      newlyMissing map0 backFrame upState.link .b = []) ∧
    (usableControl map0 outFrame = some control34.payload ∧ usableControl map0 backFrame = none ∧
      (∃ e, bound map0 .control = some e ∧ e.required = true) ∧ addressed.link.controlRun = false) ∧
    ((addressed.vdd = true ∧ addressed.link.state = .up) ∧ addressed.link.adoption = false ∧
      (linked fun l => { l with adoption := true }).link.adoption = true) ∧
    (serviceOf (askFrame 48) = some (asked 48) ∧ serviceOf (askFrame 49) = some (asked 49) ∧
      48 < (49 : Byte).toNat ∧ (48 : Byte).toNat ≤ 48) ∧
    (BitVec.ofNat 8 (addressed.link.address.getD 0) = (7 : Byte) ∧
      BitVec.ofNat 8 (elsewhere.link.address.getD 0) ≠ (7 : Byte)) := by
  refine ⟨⟨_, rfl, ?_, ?_⟩, rfl, ?_, ⟨?_, ?_, ⟨_, rfl, rfl⟩, rfl⟩, ?_, ?_, ?_⟩ <;> decide +kernel

/-- The steps at work: the run is set and SLOT_MISSING raised once, and cleared by a frame with the slot; the
usable slot gives its nibbles; the reply to a request of 49 bytes is BAD_ARGUMENT (R150, R151,
R157). -/
theorem test_steps_of_a_completion :
    (let t := checkOutputs map0 backFrame upState
     let u := checkOutputs map0 backFrame t
     (t.link.setRuns.get .a).power = true ∧ (t.cdu.entry .slotMissing (.station .a)).count = 1 ∧
       (u.cdu.entry .slotMissing (.station .a)).count = 1 ∧
       ((checkOutputs map0 outFrame u).link.setRuns.get .a).power = false) ∧
    (let t := takeControl map0 backFrame addressed
     t.link.controlRun = true ∧ (t.cdu.entry .slotMissing (.station .a)).count = 1 ∧
       (t.cdu.entry .slotMissing (.station .b)).count = 1) ∧
    ((takeControl map0 outFrame addressed).st .b).seq.nibble = 4 ∧
    (takeRequest (askFrame 49) addressed).link.heldReply =
      some { tag := 9, status := .badArgument, payload := [] } ∧
    (takeRequest (askFrame 0) addressed).link.heldReply.map Reply.status = some .ok ∧
    (takeRequest (askFrame 0) elsewhere).link.heldReply = none := by
  decide +kernel

/-- The link was lost while frame `n` passed at port U; the frame before it had number 1. -/
def passageLost (n : CycleNumber) : State :=
  linked fun l => { l with state := .lost, lastNumber := some 1, passU := some { passage1 with number := n } }

theorem test_meets_CycleCompletionOutsideUpOnlySynchronises :
    (goodCycle (bareFrame 1 0 1) = true ∧ headerOf (bareFrame 1 0 1) = some (bareHeader 1 0 1)) ∧
    (∀ f : Link → Link, (linked f).vdd = true) ∧
    (linked fun l => { l with state := .passive }).link.state = .passive ∧
    State.reset.link.state = .down ∧ State.reset.link.lastNumber = none ∧
    (linked fun l => { l with state := .lost, lastNumber := some 9 }).link.state = .lost ∧
    ((bareHeader 1 0 1).number ≠ 9 ∧ (bareHeader 1 0 1).number = 1 ∧
      (passageLost 1).link.lastNumber = some 1) ∧
    (∀ n, (passageLost n).link.state = .lost ∧
      (passageLost n).link.passU = some { passage1 with number := n }) ∧
    (let s := linked fun l => { l with state := .syncing, good := 2, lastNumber := some 9 }
     s.link.state = .syncing ∧
       ¬(s.link.good = 2 ∧ s.link.lastNumber = some ((bareHeader 1 0 1).number - 1))) := by
  refine ⟨test_bareFrame_is_a_good_cycle, fun _ => rfl, rfl, rfl, rfl, rfl, ⟨?_, ?_, rfl⟩,
    fun _ => ⟨rfl, rfl⟩, rfl, ?_⟩ <;> decide +kernel

/-- A frame with the last number again counts a whole turn outside UP too (R145). -/
theorem test_same_number_outside_up_counts_a_turn :
    (after (exec (.cycleCompletion (bareFrame 1 0 1)) (passageLost 2))).link.count = 65536 := by
  decide +kernel

/-- A frame in passage when the link is lost is rewritten to its end (assumption 56); another leaves as it came. -/
theorem test_frame_in_passage_when_the_link_is_lost :
    (findSlot (after (exec (.cycleCompletion outFrame) (passageLost 1))).link.sentD 20).map Slot.state = some 1 ∧
    (after (exec (.cycleCompletion outFrame) (passageLost 2))).link.sentD = outFrame := by
  decide +kernel

/-- No two entries of the map of the tests share a slot or a signal. -/
theorem map0_lawful : ∀ i j e f, mapEntry map0 i = some e → mapEntry map0 j = some f → i ≠ j →
    e.slotId ≠ f.slotId ∧ e.signal ≠ f.signal := by
  intro i j e f hi hj hne
  have k : ∀ i j : Fin 16, i ≠ j →
      ((mapEntry map0 i).all fun e => (mapEntry map0 j).all fun f =>
        decide (e.slotId ≠ f.slotId ∧ e.signal ≠ f.signal)) = true := by decide +kernel
  have low : ∀ n g, mapEntry map0 n = some g → n < 16 := by
    intro n g h
    by_contra c
    unfold mapEntry at h
    rw [Vector.getElem?_eq_none (by omega)] at h
    cases h
  have := k ⟨i, low i e hi⟩ ⟨j, low j f hj⟩ (fun c => hne (congrArg Fin.val c))
  simp only [hi, hj, Option.all_some, decide_eq_true_eq] at this
  exact this

theorem test_meets_ForwardedCycleFrameCarriesTheSetpoints :
    let s := linked (fun l => { l with passU := some passage1 })
    Ready s ∧ goodCycle outFrame = true ∧
      headerOf outFrame = some { kind := 1, count := 2, number := 1 } ∧
      s.link.passU = some passage1 ∧ passage1.number = 1 ∧
      (∀ i j e f, mapEntry passage1.map i = some e → mapEntry passage1.map j = some f → i ≠ j →
        e.slotId ≠ f.slotId ∧ e.signal ≠ f.signal) ∧
      (∃ e, mapEntry passage1.map 1 = some e ∧ findSlot outFrame e.slotId = some emptySet ∧
        e.signal = .setpoint .a .powerSet) ∧
      ∃ e, mapEntry passage1.map 0 = some e ∧ findSlot outFrame e.slotId = some control34 ∧
        e.signal = .control := by
  refine ⟨⟨rfl, rfl⟩, ?_, ?_, rfl, rfl, map0_lawful, ⟨_, rfl, ?_, rfl⟩, ⟨_, rfl, ?_, rfl⟩⟩ <;>
    decide +kernel

/-- The profile of the tests with a ramp and a dwell. -/
def rampProfile : Profile :=
  { profile3 with segments := [{ seg0 with shape := .ramp }, { seg1 with kind := .dwell }] }

/-- A tracker's report with look-ahead position `p`. -/
def lookingAt (p : Option Int) : Report :=
  { x := p, velocity := 0, lookAhead := p, ring := p, standstill := false, extrapolating := false,
    flags := none, cycle := 1 }

/-- Station A is in state `n` in segment `i` of the profile of the tests, PERMIT on, the first segment a ramp,
the latest report with look-ahead position `p`. -/
def heating (n : StationState) (i : Nat) (p : Option Int) : State :=
  modSt .a
    (fun v => { v with
      eng := { v.eng with permit := true }, trk := { v.trk with report := some (lookingAt p) } })
    (modStore
      (fun t => { t with profiles := t.profiles.set 3 rampProfile }) (scanning n (some i)))

theorem test_meets_ForwardedCycleFrameCarriesTheSetpoints_power :
    (let s := heating .scanning 0 (some 2500)
     (s.st .a).seq.state = .scanning ∧ (s.st .a).seq.index = some 0 ∧
       (s.segments .a)[0]? = some { seg0 with shape := .ramp } ∧ seg0.kind = .scan ∧
       (∃ k, (s.st .a).trk.report = some k ∧ k.lookAhead = some 2500) ∧
       (s.st .a).eng.permit = true ∧ (s.st .a).pcu.retune = .none) ∧
    (∀ r, let s := modPcu .a (fun p => { p with rampValue := r }) (heating .scanning 0 none)
     (∀ k, (s.st .a).trk.report = some k → k.lookAhead = none) ∧ (s.st .a).pcu.rampValue = r) ∧
    (let s := heating .dwelling 1 none
     (s.st .a).seq.state = .dwelling ∧ (s.segments .a)[1]? = some { seg1 with kind := .dwell }) ∧
    ({ seg0 with kind := .skip } : Segment).kind = .skip ∧
    ((heating .holding 0 none).st .a).seq.state ≠ .scanning ∧
    ((scanning .scanning (some 0)).st .a).eng.permit = false ∧
    (let s := modPcu .a (fun p => { p with retune := .switch, retuneChannel := some .high }) upState
     (s.st .a).pcu.retune = .switch ∧ (s.st .a).pcu.retuneChannel = some .high) := by
  refine ⟨⟨rfl, rfl, rfl, rfl, ⟨_, rfl, rfl⟩, rfl, rfl⟩, fun r => ⟨fun k h => ?_, rfl⟩, ⟨rfl, rfl⟩, rfl, ?_,
    rfl, rfl, rfl⟩
  · cases h
    rfl
  · decide

/-- The ramp of R78's table: 380 kW to 320 kW over 60 mm. -/
theorem test_ramp_of_the_reference_profile :
    rampValueAt .up 3800 3200 0 60000 (-200) = 3800 ∧ rampValueAt .up 3800 3200 0 60000 15000 = 3650 ∧
    rampValueAt .up 3800 3200 0 60000 30000 = 3500 ∧ rampValueAt .up 3800 3200 0 60000 59999 = 3200 ∧
    rampValueAt .up 3800 3200 0 60000 60000 = 3200 := by
  decide

/-- In the middle of a ramp from 0 to 10 kW the target is half of it, and the setpoint one step (R78, R80). -/
theorem test_power_set_climbs_the_ramp :
    ((pcuRecompute .a (heating .scanning 0 (some 2500))).st .a).pcu.target = 50 ∧
    ((pcuRecompute .a (heating .scanning 0 (some 2500))).st .a).pcu.held =
      { setpoint := 20, channel := .low, run := true, stale := false } := by
  decide +kernel

/-- A frame of number 1 that stands at port D as `k`. -/
def atPortD (k : ReturnKind) (n : LinkState) : State :=
  linked fun l => { l with state := n, passU := some passage1, passD := some { returned1 with kind := k } }

theorem test_meets_BadAndStrayFramesOnlyRaise :
    (upState.vdd = true ∧ frameGood [1, 0, 0, 1] = false ∧ upState.link.state ≠ .passive) ∧
    (Ready upState ∧ frameGood (bareFrame 1 0 1) = true ∧
      headerOf (bareFrame 1 0 1) = some (bareHeader 1 0 1) ∧ upState.link.passD = none ∧
      upState.link.wait = none ∧ upState.link.passU = none) ∧
    (frameGood (bareFrame 2 0 1) = true ∧ headerOf (bareFrame 2 0 1) = some (bareHeader 2 0 1) ∧
      (bareHeader 2 0 1).kind = kindReset) ∧
    (2 : Byte) ≠ kindCycle ∧
    (∀ n, n ≠ LinkState.passive → ∀ k, (atPortD k n).vdd = true ∧ (atPortD k n).link.state ≠ .passive ∧
      (atPortD k n).link.passD = some { returned1 with kind := k } ∧
      (atPortD k n).link.passU = some passage1 ∧ passage1.number = 1) ∧
    (headerOf [1, 0, 0, 1] = some (bareHeader 1 0 1) ∧ (bareHeader 1 0 1).number = 1) ∧
    (∀ n, (linked fun l => { l with state := n }).vdd = true ∧
      (linked fun l => { l with state := n }).link.state = n) := by
  refine ⟨⟨rfl, ?_, ?_⟩, ⟨upState_ready, ?_, ?_, rfl, rfl, rfl⟩, ?_, ?_,
    fun n h k => ⟨rfl, h, rfl, rfl, rfl⟩, ?_, fun _ => ⟨rfl, rfl⟩⟩ <;> decide +kernel

/-- A frame that arrives at port D in SYNCING goes on as received after the link has come up, and leaves the
wait it has the number of open, to its own timer: bad or valid (R144, R152). -/
theorem test_forwarded_frame_leaves_the_wait_open :
    let s := after (exec (.frameForwardUnchanged .d (.arrival 1 1)) (syncing map0))
    let t := after (exec (.linkUp outFrame) s)
    let bad := after (exec (.frameCheck .d [1, 0, 0, 1]) t)
    let good := after (exec (.frameForwardUnchanged .d (.completion backFrame)) t)
    t.link.state = .up ∧ (t.link.wait.map ReturnWait.taken) = some false ∧
      bad.link.wait = t.link.wait ∧ bad.link.sentU = [1, 0, 0, 1] ∧ bad.link.passD = none ∧
      (bad.cdu.entry .frameCheck .part).count = 1 ∧
      good.link.wait = t.link.wait ∧ good.link.sentU = backFrame ∧ good.link.passD = none := by
  decide +kernel

/-- A stray that arrived in UP is one also when a link reset comes before its end (R152, R156). -/
theorem test_stray_is_decided_at_its_arrival :
    let s := after (exec (.strayReturn (.arrival 2 1)) upState)
    let t := after (exec (.linkReset (bareFrame 2 0 1)) s)
    let u := after (exec (.strayReturn (.completion (bareFrame 2 0 1))) t)
    t.link.state = .syncing ∧ (t.cdu.entry .strayReturn .part).count = 0 ∧
      (u.cdu.entry .strayReturn .part).count = 1 ∧ u.link.passD = none := by
  decide +kernel

/-- A bad early return raises FRAME_CHECK while its outbound frame still passes (R143). -/
theorem test_bad_early_return_is_checked :
    (after (exec (.frameCheck .d [1, 0, 0, 1]) (atPortD .early .up))).link.passD = none ∧
    (after (exec (.frameCheck .d [1, 0, 0, 1]) (atPortD .early .up))).link.ended = some ended1 ∧
    ((after (exec (.frameCheck .d [1, 0, 0, 1]) (atPortD .early .up))).cdu.entry .frameCheck
      .part).count = 1 := by
  decide +kernel

/-- A frame that completes bad after the link was lost in its passage: its early return goes on spoiled and
raises STRAY_RETURN at its end (R152). -/
theorem test_early_return_of_a_bad_frame_outside_up :
    let s := after (exec (.frameCheck .u [1, 0, 0, 1]) (atPortD .early .lost))
    let t := after (exec (.strayReturn (.completion (bareFrame 1 0 1))) s)
    (s.link.passD.map PassageD.kind) = some .orphan ∧ s.link.passU = none ∧
      frameGood t.link.sentU = false ∧ (t.cdu.entry .strayReturn .part).count = 1 := by
  decide +kernel

/-- The frame of an early return that has ended valid is still passing. -/
def endedValid (n : LinkState) : State :=
  linked fun l => { l with state := n, passU := some passage1,
                           ended := some { number := 1, map := map0, frame := bareFrame 1 0 1 } }

/-- The same for an early return that has ended before (R152; assumption 38). -/
theorem test_ended_return_of_a_bad_frame_outside_up :
    ∀ n, n ≠ LinkState.passive →
      let t := after (exec (.frameCheck .u [1, 0, 0, 1]) (endedValid n))
      t.link.ended = none ∧ (t.cdu.entry .strayReturn .part).count = 1 := by
  intro n h
  cases n with
  | passive => exact absurd rfl h
  | down | syncing | up | lost => decide +kernel

theorem test_meets_early_returns_of_bad_frames :
    (∀ n, n ≠ LinkState.passive → (endedValid n).vdd = true ∧ (endedValid n).link.state ≠ .passive ∧
      (endedValid n).link.passU = some passage1 ∧
      (endedValid n).link.ended = some { number := 1, map := map0, frame := bareFrame 1 0 1 } ∧
      (atPortD .early n).link.ended = none) ∧
    frameGood (bareFrame 1 0 1) = true ∧ frameGood [1, 0, 0, 1] = false := by
  refine ⟨fun n h => ⟨rfl, h, rfl, rfl, rfl⟩, ?_, ?_⟩ <;> decide +kernel

/-- An early return cut short whose outbound frame was bad leaves as far as it came (assumption 22). -/
theorem test_orphan_cut_short_leaves_as_it_came :
    (after (exec (.frameCheck .d [1, 0, 0, 1]) (atPortD .orphan .up))).link.sentU = [1, 0, 0, 1] ∧
    frameGood (after (exec (.strayReturn (.completion (bareFrame 1 0 1)))
      (atPortD .orphan .up))).link.sentU = false := by
  decide +kernel

theorem flow_of_no_zone : 0 = flowOf defaultStation 0 := by decide +kernel

theorem stationLaw_of_rest {v : Station} (idle : QuenchIdle v) (phase : v.seq.phase = none)
    (pending : v.seq.pendingState = none) (held : v.seq.heldState = none) (valve : v.qsc.valve = .stopped)
    (p0 : v.pcu.held.setpoint = 0) (p1 : v.pcu.held.run = false) (t : v.seq.travelSet = v.seq.travel)
    (m : v.seq.travel.mode = .stop) : StationSound v where
  power := powerLaw_of_zero p0 p1
  travel := ⟨t, fun k => by rw [m] at k; cases k⟩
  quench :=
    { core :=
        { bounded := by rw [idle.1]; exact Nat.zero_le _
          endLast := by rw [idle.1]; exact fun e k => by cases k
          headWaits := by rw [idle.1]; exact fun e k => by cases k
          head := fun w k => by rw [idle.2.1] at k; cases k
          flow := by rw [idle.2.2.1, idle.2.2.2]; exact (by simp [flowOf])
          opened := fun _ => ⟨idle.1, idle.2.1⟩
          closed := fun _ => idle }
      idle := fun _ => idle
      endTail := fun ⟨e, k, _⟩ => by rw [idle.1] at k; cases k
      phaseTail := fun k => absurd phase k }
  pending n k := by rw [pending] at k; cases k
  held n k := by rw [held] at k; cases k
  check z c d k := by rw [valve] at k; cases k

theorem stationLaw_reset : StationSound resetStation :=
  stationLaw_of_rest ⟨rfl, rfl, rfl, rfl⟩ rfl rfl rfl rfl rfl rfl rfl rfl

theorem test_upState_is_sound : Sound upState :=
  ⟨fun x => by cases x <;> exact stationLaw_reset, fun _ _ => Nat.zero_le _⟩

theorem test_meets_LinkResetBringsSyncing :
    (goodReset (bareFrame 2 0 1) = true) ∧
    (let s := linked (fun l => { l with state := .passive })
     s.vdd = true ∧ s.link.state = .passive) ∧
    (let s := scanning .scanning (some 0)
     s.vdd = true ∧ s.link.state ≠ .passive ∧ s.link.wait = none ∧
       (s.st .a).seq.state.haltable = true ∧ Settled (s.st .a)) ∧
    (upState.link.wait = none ∧ Sound upState ∧ (upState.st .b).seq.state.haltable = false) := by
  refine ⟨?_, ⟨rfl, rfl⟩, ⟨rfl, ?_, rfl, rfl, rfl, rfl, rfl⟩, rfl, test_upState_is_sound, rfl⟩ <;>
    decide +kernel

theorem test_meets_TakenReturnClosesItsWait :
    let s := linked (fun l => { l with wait := some taken1, passD := some returned1 })
    Ready s ∧ s.link.wait = some taken1 ∧ taken1.taken = true ∧ taken1.number = 1 ∧
      s.link.passD = some returned1 ∧ returned1.number = 1 ∧ returned1.kind = .taken ∧
      goodCycle backFrame = true ∧
      headerOf backFrame = some { kind := 1, count := 1, number := 1 } ∧
      (∃ e, bound returned1.map (.feedback .a .position) = some e ∧
        findSlot backFrame e.slotId = some position5 ∧ position5.state = slotValid ∧
        position5.writer = e.writer ∧ payloadInRange .position position5.payload = true) ∧
      (∃ e, bound returned1.map (.feedback .a .temperature) = some e ∧
        findSlot backFrame e.slotId = none) ∧
      bound returned1.map (.feedback .b .position) = none ∧
      headerOf [1, 0, 0, 1] = some (bareHeader 1 0 1) ∧ frameGood [1, 0, 0, 1] = false := by
  refine ⟨⟨rfl, rfl⟩, rfl, rfl, rfl, rfl, rfl, rfl, ?_, ?_, ⟨_, rfl, ?_, rfl, rfl, rfl⟩,
    ⟨_, rfl, ?_⟩, rfl, ?_, ?_⟩ <;> decide +kernel

/-- The slot of station A's TEMPERATURE, its value one above the range. -/
def hot : Slot := { id := 31, state := 1, writer := 0, payload := #v[5, 121, 0, 0, 0, 0, 0, 0] }

/-- A signal of a return wait of station A. -/
def capturedA (f : Feedback) (k : Capture) : Captured := { station := .a, signal := f, capture := k }

/-- Slots in the frame that are MISSING: STALE, of another writer, out of their range; one that is required, its
run clear and set. -/
theorem test_meets_TakenReturnClosesItsWait_missing :
    (∃ e, bound returned1.map (.feedback .a .position) = some e ∧ e.required = true ∧
      findSlot (slotFrame 0 1 [{ position5 with state := 2 }]) e.slotId =
        some { position5 with state := 2 } ∧ (2 : Byte) ≠ slotValid ∧
      findSlot (slotFrame 0 1 [{ position5 with writer := 6 }]) e.slotId =
        some { position5 with writer := 6 } ∧ e.writer ≠ 0 ∧ (6 : Byte) ≠ e.writer) ∧
    (∃ e, bound returned1.map (.feedback .a .temperature) = some e ∧
      findSlot (slotFrame 0 1 [hot]) e.slotId = some hot ∧ payloadInRange .temperature hot.payload = false) ∧
    (∀ f ∈ [slotFrame 0 1 [{ position5 with state := 2 }], slotFrame 0 1 [hot]], goodCycle f = true ∧
      headerOf f = some { kind := 1, count := 1, number := 1 }) ∧
    (sampleOf .position (upState.link.samples.get .a)).missRun = false ∧
    (newlyLost map0 backFrame upState.link .a = [.temperature] ∧
      newlyLost map0 backFrame upState.link .b = [] ∧
      newlyLost map0 (slotFrame 0 1 [hot]) upState.link .a = [.position, .temperature]) := by
  refine ⟨⟨_, rfl, rfl, ?_⟩, ⟨_, rfl, ?_⟩, ?_, rfl, ?_⟩ <;> decide +kernel

/-- The last values of each range and the first beyond it (R159). -/
theorem test_ranges_of_the_feedback_slots :
    (payloadInRange .powerActual #v[0, 0, 2, 4, 0, 0, 0, 0] = true ∧
      payloadInRange .powerActual #v[0, 0, 3, 0, 0, 0, 0, 0] = false ∧
      payloadInRange .powerActual #v[0, 0, 0, 5, 0, 0, 0, 0] = false) ∧
    (payloadInRange .quenchActual #v[0, 1, 0, 0, 0, 0, 0, 0] = true ∧
      payloadInRange .quenchActual #v[0, 2, 0, 0, 0, 0, 0, 0] = false) ∧
    (payloadInRange .temperature #v[5, 120, 1, 0, 0, 0, 0, 0] = true ∧
      payloadInRange .temperature #v[5, 121, 0, 0, 0, 0, 0, 0] = false ∧
      payloadInRange .temperature #v[0, 0, 2, 0, 0, 0, 0, 0] = false) := by
  decide +kernel

/-- The handing: a sample in its range, one beside which the report of its cycle is still to come, and the last of
the two that the power judgement waits for. -/
theorem test_meets_TakenReturnClosesItsWait_handing :
    payloadInRange .position position5.payload = true ∧
    (∃ r ∈ [capturedA .powerActual .lost], r.station = .a ∧ r.signal = .powerActual) ∧
    (∀ r ∈ [capturedA .temperature .lost], r.station = .a →
      r.signal ≠ .position ∧ r.signal ≠ .powerActual) ∧
    OnceEach capturesLost ∧ capturedA .powerActual .lost ∈ capturesLost ∧
    (linked fun l => { l with statusRun := true }).link.statusRun = true := by
  refine ⟨by decide +kernel, by decide, by decide, ?_, by decide, rfl⟩
  unfold OnceEach
  decide

/-- SLOT_MISSING is raised when a run begins, and not again while it lasts (R155). -/
theorem test_missing_slots_raise_once :
    let t := (capturesOf map0 (slotFrame 0 1 [hot])).foldl (recordOne map0 5) upState
    let u := (capturesOf map0 (slotFrame 0 1 [hot])).foldl (recordOne map0 6) t
    (t.cdu.entry .slotMissing (.station .a)).count = 2 ∧
      (u.cdu.entry .slotMissing (.station .a)).count = 2 ∧
      (t.cdu.entry .slotMissing (.station .b)).pending = false ∧
      (u.link.samples.get .a).temperature.missCount = (upState.link.samples.get .a).temperature.missCount + 2 := by
  decide +kernel

/-- The map of the tests with STATUS in slot 11. -/
def map1 : SlotMap :=
  map0.set 3 (some { slotId := 11, signal := .status, writer := 0, required := false })

/-- A return taken in `upState` under the map with STATUS. -/
def returned2 : PassageD := { returned1 with map := map1, status := statusPayload upState }

/-- A return with POSITION and an empty STATUS slot. -/
def statusFrame : List Byte := slotFrame 0 1 [position5, { emptySet with id := 11 }]

/-- The return is taken, and a reply of two bytes is held for it. -/
def returning : State :=
  linked fun l => { l with
    wait := some taken1, passD := some returned2,
    heldReply := some { tag := 9, status := .badArgument, payload := [1, 2] } }

theorem test_meets_TakenReturnClosesItsWait_sent :
    Ready returning ∧ returning.link.passD = some returned2 ∧ returned2.kind = .taken ∧
    returned2.status = statusPayload upState ∧
    (∀ r, returning.link.heldReply = some r → r.payload.length ≤ 48) ∧
    (∃ e, bound returned2.map .status = some e ∧ (findSlot statusFrame e.slotId).isSome = true ∧
      findSlot backFrame e.slotId = none) ∧
    returning.link.statusRun = false ∧ bound returned1.map .status = none ∧
    (linked fun l => { l with heldReply := none }).link.heldReply = none ∧
    goodCycle statusFrame = true := by
  refine ⟨⟨rfl, rfl⟩, rfl, rfl, rfl, fun r h => ?_, ⟨_, rfl, ?_, ?_⟩, rfl, rfl, rfl, ?_⟩
  · cases h
    decide
  all_goals decide +kernel

/-- Return 1 was taken and overtaken; the reply held since belongs to the wait for frame 2. -/
def overtaken : State :=
  linked fun l => { l with
    wait := some { wait1 with number := 2 }, passD := some returned1,
    heldReply := some { tag := 9, status := .ok, payload := [1, 2] } }

theorem test_meets_TakenReturnClosesItsWait_overtaken :
    Ready overtaken ∧ goodCycle backFrame = true ∧ overtaken.link.passD = some returned1 ∧
      returned1.kind = .taken ∧
      (∀ w, overtaken.link.wait = some w → w.taken = false ∨ w.number ≠ 1) ∧
      (linked fun l => { l with passD := some returned2 }).link.passD = some returned2 := by
  refine ⟨⟨rfl, rfl⟩, ?_, rfl, rfl, fun w h => .inl ?_, rfl⟩
  · decide +kernel
  · cases h
    rfl

/-- The reply stays with its own wait: the overtaken return leaves as it came (R152, R153). -/
theorem test_reply_stays_with_its_wait :
    (after (exec (.returnCompletion backFrame) overtaken)).link.sentU = backFrame ∧
    (after (exec (.returnCompletion backFrame) overtaken)).link.heldReply = overtaken.link.heldReply ∧
    (after (exec (.returnCompletion backFrame) overtaken)).link.wait = overtaken.link.wait := by
  decide +kernel

theorem severityLaw_up : SeverityLaw upState := by
  intro c
  cases c <;> decide

theorem test_meets_MissedCyclesLoseTheLink :
    (let s := linked (fun l => { l with supervision := .running 1500, missed := 2 })
     Ready s ∧ s.link.supervision = .running 1500 ∧ s.link.missed + 1 < s.params.linkLossCount) ∧
    (let s := linked (fun l => { l with supervision := .running 1000, missed := 3 })
     Ready s ∧ s.link.supervision = .running 1000 ∧ s.params.linkLossCount ≤ s.link.missed + 1 ∧
       SeverityLaw s) ∧
    (let s := scanning .scanning (some 0)
     (s.st .a).seq.state.haltable = true ∧ Settled (s.st .a)) ∧
    ((upState.cdu.setSeverity .cycleMissed).code < 2 ∧
      2 ≤ ((bothScan .abort).cdu.setSeverity .cycleMissed).code) ∧
    (let s := linked (fun l => { l with state := .syncing, supervision := .running 1000 })
     s.vdd = true ∧ s.link.state = .syncing ∧ s.link.supervision = .running 1000) :=
  ⟨⟨⟨rfl, rfl⟩, rfl, by decide⟩, ⟨⟨rfl, rfl⟩, rfl, by decide, severityLaw_up⟩,
    ⟨rfl, rfl, rfl, rfl⟩, by decide +kernel, ⟨rfl, rfl, rfl⟩⟩

/-! ### Conditions raised by timers and samples -/

/-- A waiting request for zone 0. -/
def waits0 : Waiting :=
  { zones := 1, flow := 50, waitStart := 0, duePosition := 1000, timer := .running 200, late := false }

/-- Station A scans, its arm, hold, retune, wait and valve timers all running. -/
def timed : State :=
  modSt .a
    (fun v =>
      { v with
        seq := { v.seq with armTimer := .running 5000, holdTimer := .running 3000 },
        pcu := { v.pcu with retuneTimer := .running 300 },
        sar := { v.sar with waiting := some waits0 },
        qsc := { v.qsc with valve := .running 1 0 160 } })
    (scanning .scanning (some 0))

/-- The STATUS bytes of two stations at rest, and of one that scans segment 0 with a waiting request (R160). -/
theorem test_status_bytes :
    statusPayload upState = [0, 255, 0, 0, 0, 255, 0, 0] ∧
    statusPayload timed = [3, 0, 0, 8, 0, 255, 0, 0] := by
  decide +kernel

/-- A POSITION sample at `at_` of a homed and enabled axis. -/
def seenAt (at_ : Int) (moving : Bool) : PositionSample :=
  { cycle := 1,
    body := .fresh (BitVec.ofInt 32 at_)
      { enabled := true, homed := true, inMotion := moving, driveFault := false } }

/-- A POSITION sample that is missing. -/
def unseen : PositionSample := { cycle := 1, body := .missing }

/-- Station A scans, its last accepted position 0 and one miss before the limit. -/
def stale (strict : Bool) : State :=
  modSt .a
    (fun v => { v with
      par := { v.par with strict := strict },
      trk := { v.trk with last := some { position := 0, cycle := 0 }, missCount := 2 } })
    (scanning .scanning (some 0))

/-- Station A scans at 10 kW, its actual power off the setpoint for seven counted cycles. -/
def deviating : State :=
  modPcu .a (fun p => { p with history := [(100, 8), (100, 9)], devCount := 7 })
    (modEng .a (fun e => { e with permit := true }) (scanning .scanning (some 0)))

/-- Station A quenches with zone 0, its flow low for nine samples. -/
def lowFlow : State :=
  modQsc .a (fun q => { q with lastIssued := 1, flowCheck := .armed 9 0 })
    (scanning .scanning (some 0))

theorem test_meets_TrackerJudgesEachSample :
    (((stale false).st .a).seq.state.active = true ∧
      ((stale false).st .a).trk.last = some { position := 0, cycle := 0 } ∧
      ((stale false).st .a).par.maxStep = 2000 ∧ ((stale false).st .a).trk.velocity = 0 ∧
      (1 - (0 : Cycle)).toNat * (stale false).params.cycleTime ≠ 0) ∧
    (timed.st .a).trk.last = none ∧ (upState.st .a).seq.state.active = false ∧
    (∃ k, judge upState.params.cycleTime (upState.st .a) (seenAt 0 true) = (k, [])) := by
  refine ⟨⟨rfl, rfl, rfl, rfl, by decide⟩, rfl, rfl, _, rfl⟩

/-- Station A moves in state `n` with the profile of the tests, settled and its velocity established, its farthest
point 1000. -/
def moving (n : StationState) : State :=
  modSt .a
    (fun v => { v with
      seq := { v.seq with travel := { v.seq.travel with mode := .move, speed := 1000 } },
      trk := { v.trk with last := some { position := 1000, cycle := 0 }, farthest := some 1000,
                          settled := true, established := true, homedSeen := true } })
    (scanning n (some 0))

/-- A POSITION sample at `at_` of an axis with a fault. -/
def faultyAt (at_ : Int) : PositionSample :=
  { cycle := 1,
    body := .fresh (BitVec.ofInt 32 at_)
      { enabled := true, homed := false, inMotion := true, driveFault := false } }

theorem test_meets_TrackerJudgesEachSample_conditions :
    (∀ n, ((moving n).st .a).seq.state = n ∧ ((moving n).st .a).seq.profile = some held3 ∧
      ((moving n).st .a).trk.last = some { position := 1000, cycle := 0 } ∧
      ((moving n).st .a).trk.velocity = 0 ∧ ((moving n).st .a).par.maxStep = 2000 ∧
      ((moving n).st .a).trk.farthest = some 1000) ∧
    FollowChecked ((moving .scanning).st .a)
      (judge 1000 ((moving .scanning).st .a) (seenAt 1001 true)).1 ∧
    ¬FollowChecked ((moving .dwelling).st .a)
      (judge 1000 ((moving .dwelling).st .a) (seenAt 1001 true)).1 ∧
    (∃ k, judge (moving .dwelling).params.cycleTime ((moving .dwelling).st .a) (faultyAt 1000) =
      (k, [(.axisFault, none)])) ∧ Cond.axisFault.stationScope = true := by
  refine ⟨fun n => ⟨rfl, rfl, rfl, rfl, rfl, rfl⟩, ⟨Or.inr (Or.inl rfl), rfl, rfl, rfl⟩, fun h => ?_,
    ⟨_, rfl⟩, rfl⟩
  rcases h.1 with h | h | h <;> cases h

/-- The ends of REVERSAL_TOL and of FOLLOW_TOL: 500 µm behind and 10 % off raise nothing (R42, R44). -/
theorem test_reversal_and_following_at_their_ends :
    (judge 1000 ((moving .dwelling).st .a) (seenAt 500 true)).2 = [] ∧
    (judge 1000 ((moving .dwelling).st .a) (seenAt 499 true)).2 = [(.reversal, none)] ∧
    (judge 10000 ((moving .approach).st .a) (seenAt 1011 true)).2 = [] ∧
    (judge 10000 ((moving .approach).st .a) (seenAt 1012 true)).2 = [(.following, none)] := by
  decide +kernel

/-- The end of MAX_STEP: 2000 µm away is accepted, 2001 rejected. -/
theorem test_a_sample_at_the_end_of_max_step :
    (judge 1000 ((stale false).st .a) (seenAt 2000 true)).1.estimate = some 2000 ∧
    (judge 1000 ((stale false).st .a) (seenAt 2001 true)).1.estimate = some 0 ∧
    (judge 1000 ((stale false).st .a) (seenAt 2001 true)).2 =
      [(.positionJump, none), (.positionStale, none)] ∧
    (judge 1000 ((stale true).st .a) unseen).2 = [(.positionStale, some .abort)] := by
  decide +kernel

/-- An expired settle timer is stopped (R27, R43). -/
theorem test_settle_timer_stops :
    let s := withA fun v => { v with trk := { v.trk with settle := .running 200 } }
    ((after (exec (.followSettleExpiry .a) s)).st .a).trk.settle = .stopped ∧
      ((after (exec (.followSettleExpiry .a) s)).st .a).trk.settled = true := by
  decide +kernel

theorem test_meets_TimersAndSamplesLogTheirCondition :
    (timed.vdd = true ∧ (timed.st .a).seq.armTimer.isRunning = true ∧
      (timed.st .a).seq.holdTimer.isRunning = true ∧
      (timed.st .a).pcu.retuneTimer.isRunning = true ∧
      (∃ w, (timed.st .a).sar.waiting = some w ∧ w.timer.isRunning = true ∧ w.late = false) ∧
      (timed.st .a).qsc.valve.isRunning = true) ∧
    (∀ b, Ready (stale b) ∧ ((stale b).st .a).seq.state.active = true ∧
      ((stale b).st .a).trk.staleRun = false ∧ unseen.body = .missing ∧
      ((stale b).st .a).par.strict = b ∧ ((stale b).st .a).seq.state.strictState = true ∧
      Nat.min 255 (((stale b).st .a).trk.missCount + 1) = ((stale b).st .a).par.staleLimit) ∧
    (∃ p f, (seenAt 2001 true).body = .fresh p f ∧
      withinStep (stale false).params.cycleTime ((stale false).st .a).par.maxStep
        ((stale false).st .a).trk p.toInt (seenAt 2001 true).cycle = false) ∧
    (Ready deviating ∧
      deviationRaised .a { cycle := 10, body := .fresh 0 .low .running } deviating = true) ∧
    (Ready lowFlow ∧ (lowFlow.st .a).seq.state.active = true ∧
      flowRaised .a { cycle := 1, body := .fresh 1 .ok 34 } lowFlow = true) := by
  refine ⟨⟨rfl, rfl, rfl, rfl, ⟨_, rfl, rfl, rfl⟩, rfl⟩,
    fun b => ⟨⟨rfl, rfl⟩, rfl, rfl, rfl, rfl, rfl, rfl⟩, ⟨_, _, rfl, ?_⟩, ⟨⟨rfl, rfl⟩, ?_⟩,
    ⟨⟨rfl, rfl⟩, rfl, ?_⟩⟩ <;> decide +kernel

theorem test_meets_TimersAndSamplesLogTheirCondition_predicates :
    ((deviating.st .a).pcu.history = [] ++ [(100, (10 : Cycle) - 2), (100, 10 - 1)] ++ [] ∧
      (deviating.st .a).seq.state.heating = true ∧ (deviating.st .a).pcu.retune = .none ∧
      50 = Nat.max (100 * (deviating.st .a).par.powerTol / 100)
        ((deviating.st .a).par.powerRated / 100) ∧
      ((100 : Int) - (100 : Nat)).natAbs ≤ 50 ∧ (150 - (100 : Int)).natAbs ≤ 50 ∧
      50 < (151 - (100 : Int)).natAbs ∧ (deviating.st .a).pcu.devCount + 1 = 8 ∧
      (upState.st .a).pcu.history = []) ∧
    (let s := modPcu .a (fun p => { p with retune := .drain }) deviating
     (s.vdd = true ∧ s.link.state = .up) ∧ (s.st .a).seq.state.active = true ∧
       (s.st .a).pcu.faultRun = false ∧ (s.st .a).pcu.retune = .drain ∧
       (100#16).toNat ≤ (s.st .a).par.residualPower * (s.st .a).par.powerRated / 100) ∧
    ((modPcu .a (fun p => { p with faultRun := true }) deviating).st .a).pcu.faultRun = true ∧
    ((lowFlow.st .a).seq.state.active = true ∧ (lowFlow.st .a).seq.state ≠ .halting ∧
      (lowFlow.st .a).qsc.flowCheck = .armed 9 0 ∧ laterThan 1 0 = true ∧ laterThan 0 0 = false ∧
      35 = flowOf (lowFlow.st .a).par (lowFlow.st .a).qsc.lastIssued *
        (lowFlow.st .a).par.flowLowPct / 100 ∧
      (lowFlow.st .a).qsc.valve.isRunning = false ∧ (lowFlow.st .a).qsc.flowRun = false ∧
      (lowFlow.st .a).qsc.faultRun = false) ∧
    ((modQsc .a (fun q => { q with flowRun := true, faultRun := true }) lowFlow).st .a).qsc.flowRun = true := by
  decide +kernel

/-- A first-condition record. -/
def first0 : FirstRecord :=
  { code := .stopLine, station := some .a, state := some .scanning, index := some 0, x := none,
    cycle := 4, severity := .abort }

/-- `upState` with a first-condition record held. -/
def firstHeld : State := modCdu (fun u => { u with first := some first0 }) upState

theorem test_meets_TimersAndSamplesLogTheirCondition_record :
    (scopeFits .holdExpired (.station .a) = true ∧ scopeFits .linkLost .part = true) ∧
    ((none : Option Severity) = none ∧ ∃ f, some Severity.abort = some f) ∧
    (timed.cdu.first = none ∧ ∃ r, firstHeld.cdu.first = some r) :=
  ⟨⟨rfl, rfl⟩, ⟨rfl, _, rfl⟩, rfl, _, rfl⟩

/-- What a raise asks of a station that its severity acts on: covered or not, to be halted, handling an event, at
rest. -/
theorem test_meets_TimersAndSamplesLogTheirCondition_stations :
    (∀ v, let s := bothScan v
     ∀ y, (s.st y).seq.state.haltable = true ∧ Settled (s.st y)) ∧
    ((bothScan .note).cdu.setSeverity .linkLost = .note ∧
      (bothScan .degrade).cdu.setSeverity .flowLow = .degrade ∧
      (bothScan .abort).cdu.setSeverity .flowLow = .abort ∧
      (bothScan .haltAll).cdu.setSeverity .linkLost = .haltAll) ∧
    (scopeFits .flowLow (.station (StationId.a).other) = true ∧ scopeFits .flowLow (.station .a) = true) ∧
    (let s := modSeq .a (fun q => { q with handling := true }) (bothScan .abort)
     (s.st .a).seq.state.haltable = true ∧ (s.st .a).seq.handling = true) ∧
    ((upState.st .b).seq.state.haltable = false ∧ QuenchIdle (upState.st .b)) := by
  refine ⟨fun v y => ?_, ?_, ⟨rfl, rfl⟩, ⟨rfl, rfl⟩, rfl, rfl, rfl, rfl, rfl⟩
  · cases y <;> exact ⟨rfl, rfl, rfl, rfl⟩
  · decide +kernel

/-- A part-scope condition at DEGRADE marks both active stations and at ABORT halts both; one of a station's scope
at ABORT leaves the other station (R165). -/
theorem test_a_raise_acts_on_its_stations :
    (let t := raisePart .frameCheck (bothScan .degrade)
     (t.st .a).seq.degraded = true ∧ (t.st .b).seq.degraded = true) ∧
    (let t := raisePart .frameCheck (bothScan .abort)
     (t.st .a).seq.state = .halting ∧ (t.st .b).seq.state = .halting) ∧
    (let t := raiseSt .flowLow .a (bothScan .abort)
     (t.st .a).seq.state = .halting ∧ (t.st .b).seq.state = .dwelling) ∧
    (let t := raiseSt .flowLow .a (bothScan .haltAll)
     (t.st .a).seq.state = .halting ∧ (t.st .b).seq.state = .halting) := by
  decide +kernel

/-- A raise fills a free record with the station as it stood, and leaves its code beside a held one (R164). -/
theorem test_a_raise_meets_the_record :
    (after (exec (.holdExpired .a) timed)).cdu.first =
      some { code := .holdExpired, station := some .a, state := some .scanning, index := some 0,
             x := none, cycle := 0, severity := timed.cdu.setSeverity .holdExpired } ∧
    (let t := raisePart .frameCheck firstHeld
     t.cdu.first = firstHeld.cdu.first ∧ t.cdu.nextSet = codeBit .frameCheck ∧ t.cdu.nextCount = 1) := by
  decide +kernel

/-- The ends of the band and of the flow threshold: 50 off and 35 l/min raise nothing (R88, R89, R114). -/
theorem test_deviation_and_flow_at_their_ends :
    deviationRaised .a { cycle := 10, body := .fresh 150 .low .running } deviating = false ∧
    deviationRaised .a { cycle := 10, body := .fresh 151 .low .running } deviating = true ∧
    flowRaised .a { cycle := 1, body := .fresh 1 .ok 35 } lowFlow = false ∧
    flowRaised .a { cycle := 1, body := .fresh 1 .ok 34 } lowFlow = true := by
  decide +kernel

theorem test_meets_MildConditionsLeaveTheStationRunning :
    (timed.st .a).seq.state.active = true ∧ (timed.st .a).qsc.closing = false ∧
    ((allSet .note timed).cdu.setSeverity .holdExpired).code = 0 ∧
    ((allSet .degrade timed).cdu.setSeverity .holdExpired).code = 1 ∧
    ((allSet .degrade timed).cdu.setSeverity .retuneTimeout).code ≤ 1 ∧
    ((allSet .degrade timed).cdu.setSeverity .quenchLate).code ≤ 1 ∧
    ((allSet .degrade timed).cdu.setSeverity .valveMismatch).code ≤ 1 ∧
    (timed.st .a).sar.waiting = some waits0 ∧ waits0.timer.isRunning = true ∧ waits0.late = false ∧
    ({ waits0 with late := true } : Waiting).timer.isRunning = true := by
  decide +kernel

/-- A scan result of two entries. -/
def result0 : ScanResult :=
  { outcome := .running, cause := none, profile := 3, revision := 1, datum := 0, startCycle := 0,
    endCycle := none, disturbed := false, highest := some 1, entries := [newEntry 0, newEntry 1] }

/-- Station A's closing check runs, every condition at DEGRADE; `p` is its FINISH program. -/
def closing (p : Vector ProgStep 8) : State :=
  allSet .degrade
    (modSt .a
      (fun v => { v with seq := { v.seq with phase := some .closing }, result := some result0,
                         eng := { v.eng with table := { v.eng.table with finish := p } },
                         qsc := { v.qsc with valve := .running 0 0 160, closing := true } })
      (scanning .tail (some 1)))

/-- The end of a closing check: a FINISH program with a delay, one without, and a running HALT program. -/
theorem test_meets_MildConditionsLeaveTheStationRunning_closing :
    (∀ p, (closing p).vdd = true ∧ ((closing p).st .a).seq.state = .tail ∧
      ((closing p).st .a).seq.phase = some .closing ∧ ((closing p).st .a).qsc.closing = true ∧
      ((closing p).st .a).qsc.valve.isRunning = true ∧ Settled ((closing p).st .a) ∧
      ((closing p).st .a).eng.running ≠ some .halt) ∧
    ((closing defaultTable.finish).cdu.setSeverity .valveMismatch).code = 1 ∧
    (((closing defaultTable.finish).progStep .a .finish 0).delay = 0 ∧
      ((closing defaultTable.finish).progStep .a .finish 0).last = false ∧
      ((closing defaultTable.finish).progStep .a .finish 1).delay ≠ 0) ∧
    (∀ j, j ≤ 7 → ((closing (Vector.replicate 8 idleStep)).progStep .a .finish j).delay = 0 ∧
      ((closing (Vector.replicate 8 idleStep)).progStep .a .finish j).last = false) := by
  refine ⟨fun p => ⟨rfl, rfl, rfl, rfl, rfl, ⟨rfl, rfl, rfl⟩, ?_⟩, ?_⟩
  · intro h
    cases h
  · decide +kernel

/-- The mild end of a closing check: FINISHING with a program that has a delay, COMPLETE and DEGRADED with one
that has none (R65, R66, R112). -/
theorem test_closing_check_fails_mildly :
    (let t := after (exec (.valveMismatch .a) (closing defaultTable.finish))
     (t.st .a).seq.state = .tail ∧ (t.st .a).seq.phase = some .finishing ∧
       (t.st .a).qsc.valve = .failed ∧ (t.st .a).eng.running = some .finish) ∧
    (let t := after (exec (.valveMismatch .a) (closing (Vector.replicate 8 idleStep)))
     (t.st .a).seq.state = .complete ∧ (t.st .a).result.map ScanResult.outcome = some .degraded) := by
  decide +kernel

theorem severityLaw_timed : SeverityLaw timed := severityLaw_up

theorem test_meets_AbortingConditionsHaltTheStation :
    (timed.vdd = true ∧ (timed.st .a).seq.state.haltable = true ∧ Settled (timed.st .a) ∧
      SeverityLaw timed) ∧
    2 ≤ (timed.cdu.setSeverity .holdExpired).code ∧
    2 ≤ (timed.cdu.setSeverity .retuneTimeout).code ∧
    2 ≤ (timed.cdu.setSeverity .quenchLate).code ∧
    2 ≤ (timed.cdu.setSeverity .valveMismatch).code :=
  ⟨⟨rfl, rfl, ⟨rfl, rfl, rfl⟩, severityLaw_timed⟩, by decide⟩

/-- An expired timer at HALT_ALL, and the other station that it halts. -/
theorem test_meets_AbortingConditions_other :
    let s := modSeq .a (fun q => { q with holdTimer := .running 3000 }) (bothScan .haltAll)
    (s.st .a).seq.state.haltable = true ∧ Settled (s.st .a) ∧ (s.st .a).seq.holdTimer.isRunning = true ∧
      s.cdu.setSeverity .holdExpired = .haltAll ∧
      (s.st (StationId.a).other).seq.state.haltable = true ∧ Settled (s.st (StationId.a).other) := by
  refine ⟨rfl, ⟨rfl, rfl, rfl⟩, rfl, ?_, rfl, rfl, rfl, rfl⟩
  decide +kernel

/-! ### Run commands -/

/-- The profile of the tests is stored, and the arbiter reserves `flow`. -/
def reserving (flow : Nat) : State :=
  { stored with params := { stored.params with supplyMode := .reserve, supplyFlow := flow } }

theorem test_meets_AcceptedStartArmsTheStation :
    (Commanded stored ∧ (1 : BitVec 4) ≠ (stored.st .a).seq.nibble ∧ Settled (stored.st .a) ∧
      (stored.st .a).seq.state = .idle ∧ ownStop stored.stops .a = false ∧
      stored.stops.all = false ∧ stored.store.wholeBusy = false ∧
      (3 : Byte).toNat = (3 : Fin 16).val ∧ stored.store.busyOn 3 = false ∧
      (stored.store.directory.get 3).state = .valid ∧
      (stored.store.directory.get 3).affinity = .either ∧ stored.params.supplyFlow = 0) ∧
    (Commanded (reserving 50) ∧ storeAnswer (reserving 50).store .a 3 = .ok held3 ∧
      (reserving 50).params.supplyMode = .reserve ∧ (reserving 50).params.supplyFlow ≠ 0 ∧
      (∀ z ∈ held3.zoneSets, flowOf ((reserving 50).st .a).par z ≤ 50) ∧
      (∃ z ∈ held3.zoneSets, flowOf ((reserving 50).st .a).par z = 50) ∧
      50 + ((reserving 50).st (StationId.a).other).sar.reservation.getD 0 ≤
        (reserving 50).params.supplyFlow) ∧
    (reserving 49).params.supplyFlow <
      50 + ((reserving 49).st (StationId.a).other).sar.reservation.getD 0 ∧
    (¬Reserving stored ∧ Reserving (reserving 50) ∧
      (∀ g ∈ ((reserving 50).store.profiles.get 3).segments,
        flowOf ((reserving 50).st .a).par g.zones ≤ 50) ∧
      flowOf ((reserving 50).st .a).par ((reserving 50).store.profiles.get 3).header.tailZones ≤ 50) := by
  refine ⟨⟨⟨⟨rfl, rfl⟩, rfl⟩, by decide, ⟨rfl, rfl, rfl⟩, rfl, rfl, rfl, rfl, rfl, rfl, rfl, rfl, rfl⟩,
    ⟨⟨⟨rfl, rfl⟩, rfl⟩, rfl, rfl, ?_, ?_, ?_, ?_⟩, ?_, fun h => h.2 rfl, ⟨rfl, ?_⟩, ?_, ?_⟩ <;>
    decide +kernel

/-- Station A's START program has only steps without a delay. -/
def atOnce : State :=
  modEng .a (fun e => { e with table := { e.table with start := Vector.replicate 8 idleStep } }) stored

/-- The three fates of the START program: a delay behind a step without one, no delay at all, and a running
HALT program. -/
theorem test_meets_the_program_of_AcceptedStart :
    ((stored.progStep .a .start 1).delay ≠ 0 ∧ (stored.progStep .a .start 0).delay = 0 ∧
      (stored.progStep .a .start 0).last = false ∧ (stored.st .a).eng.running ≠ some .halt) ∧
    ((atOnce.progStep .a .start 7).delay = 0 ∧
      ∀ j, j < 7 → (atOnce.progStep .a .start j).delay = 0 ∧
        (atOnce.progStep .a .start j).last = false) ∧
    ((running .halt 1 .idle none).st .a).eng.running = some .halt := by
  decide +kernel

/-- The commands of a station turned away: each clause's state. -/
theorem test_meets_CommandsNotTakenShowOnlyTheirResult :
    (Commanded upState ∧ (0 : BitVec 4) = (upState.st .a).seq.nibble) ∧
    ((1 : BitVec 4) ≠ (upState.st .a).seq.nibble ∧ Settled (upState.st .a) ∧
      5 < (6 : BitVec 4).toNat ∧ 5 < (15 : BitVec 4).toNat) ∧
    ((scanning .scanning none).st .a).seq.state ≠ .complete ∧
    (upState.st .a).seq.state = .idle ∧ ownStop { released with a := true } .a = true ∧
    State.reset.store.wholeBusy = true ∧ 15 < (16 : Byte).toNat ∧
    ((longOp .erase (some 15) .none).store.busyOn 15 = true ∧
      (longOp .erase (some 15) .none).store.wholeBusy = false) ∧
    (upState.store.directory.get 0).state ≠ .valid ∧
    ({ entry3 with affinity := .b } : DirEntry).affinity.fitsStation .a = false ∧
    (StationState.holding.holdable = false ∧ StationState.halting.haltable = false ∧
      StationState.halting.active = true ∧ StationState.faulted ≠ .holding) :=
  ⟨⟨upState_commanded, rfl⟩, ⟨by decide, ⟨rfl, rfl, rfl⟩, by decide, by decide⟩, by decide, rfl, rfl,
    rfl, by decide, ⟨rfl, rfl⟩, by decide, rfl, ⟨rfl, rfl, rfl, by decide⟩⟩

theorem test_meets_HoldStopsAndResumeGoesOn :
    (∀ n i, Commanded (scanning n i) ∧ (1 : BitVec 4) ≠ ((scanning n i).st .a).seq.nibble ∧
      Settled ((scanning n i).st .a) ∧ ((scanning n i).st .a).seq.state = n ∧
      ((scanning n i).st .a).seq.profile = some held3) ∧
    (let s := modSeq .a (fun q => { q with dwellTimer := .running 5 }) (scanning .dwelling (some 0))
     (s.st .a).seq.dwellTimer = .running 5) ∧
    (let s := modSeq .a (fun q => { q with heldState := some .scanning }) (scanning .holding (some 0))
     Commanded s ∧ (s.st .a).seq.state = .holding ∧ (s.st .a).seq.heldState = some .scanning ∧
       StationState.scanning.active = true ∧ s.segInForce .a = some seg0) ∧
    (let s := modSeq .a (fun q => { q with heldState := some .approach }) (scanning .holding none)
     Commanded s ∧ (s.st .a).seq.state = .holding ∧ (s.st .a).seq.heldState = some .approach) ∧
    (let s := modSeq .a (fun q => { q with heldState := some .dwelling, dwellTimer := .frozen 5 })
       (scanning .holding (some 0))
     (s.st .a).seq.dwellTimer = .frozen 5 ∧ (s.st .a).seq.heldState = some .dwelling) :=
  ⟨fun _ _ => ⟨⟨⟨rfl, rfl⟩, rfl⟩, nibble_is_new, ⟨rfl, rfl, rfl⟩, rfl, rfl⟩, rfl,
    ⟨⟨⟨rfl, rfl⟩, rfl⟩, rfl, rfl, rfl, rfl⟩, ⟨⟨⟨rfl, rfl⟩, rfl⟩, rfl, rfl⟩, ⟨rfl, rfl⟩⟩

theorem test_meets_AbortHaltsTheStation :
    ∀ n : StationState, n.active = true → n ≠ .halting →
      let s := scanning n (some 0)
      Commanded s ∧ (1 : BitVec 4) ≠ (s.st .a).seq.nibble ∧ Settled (s.st .a) ∧
        (s.st .a).seq.state.active = true ∧ (s.st .a).seq.state ≠ .halting :=
  fun _ h k => ⟨⟨⟨rfl, rfl⟩, rfl⟩, nibble_is_new, ⟨rfl, rfl, rfl⟩, h, k⟩

theorem test_meets_ClearBringsTheStationToIdle :
    ∀ n : StationState, n = .faulted ∨ n = .interrupted ∨ n = .complete →
      let s := scanning n (some 0)
      Commanded s ∧ (1 : BitVec 4) ≠ (s.st .a).seq.nibble ∧ Settled (s.st .a) ∧
        (s.st .a).seq.state = n ∧ ownStop s.stops .a = false ∧ s.stops.all = false :=
  fun _ _ => ⟨⟨⟨rfl, rfl⟩, rfl⟩, nibble_is_new, ⟨rfl, rfl, rfl⟩, rfl, rfl, rfl⟩

/-! ### The scan -/

/-- Station A arms: its channel in force, its inverter READY on it. -/
def armed : State :=
  modLink (fun l => { l with samples := l.samples.set .a readySamples })
    (modPcu .a (fun p => { p with channel := .low }) (scanning .arming none))

theorem test_meets_ArmCheckPassEntersApproach :
    (Ready armed ∧ Settled (armed.st .a) ∧ (armed.st .a).seq.profile = some held3) ∧
    (armPasses .a (seenAt (-100000) true) armed = true ∧
      boundaryOf .a (seenAt (-100000) true) armed = none) ∧
    (armPasses .a (seenAt 0 true) armed = true ∧
      boundaryOf .a (seenAt 0 true) armed = some (some 0)) ∧
    armPasses .a (seenAt (-100001) true) armed = false := by
  refine ⟨⟨⟨rfl, rfl⟩, ⟨rfl, rfl, rfl⟩, rfl⟩, ?_⟩
  decide +kernel

theorem test_meets_SegmentEntryRaisesTheIndex :
    (let s := scanning .approach none
     Ready s ∧ Settled (s.st .a) ∧ boundaryOf .a (seenAt 0 true) s = some (some 0) ∧
       (s.segments .a)[0]? = some seg0 ∧ (s.st .a).sar.waiting = none) ∧
    (let s := scanning .scanning (some 0)
     Ready s ∧ Settled (s.st .a) ∧ boundaryOf .a (seenAt 5000 true) s = some (some 1) ∧
       (s.segments .a)[1]? = some seg1) := by
  refine ⟨⟨⟨rfl, rfl⟩, ⟨rfl, rfl, rfl⟩, ?_, rfl, rfl⟩, ⟨rfl, rfl⟩, ⟨rfl, rfl, rfl⟩, ?_, rfl⟩ <;>
    decide +kernel

theorem scanning_sound (n : StationState) (i : Option Nat) : Sound (scanning n i) where
  station x := by
    cases x
    · exact stationLaw_of_rest ⟨rfl, rfl, rfl, rfl⟩ rfl rfl rfl rfl rfl rfl rfl rfl
    · exact stationLaw_reset
  supply _ _ := Nat.zero_le _

/-- Station A handles a report in segment 0, its channel in force `c`. -/
def entering (c : ChannelInForce) : State :=
  modSt .a (fun v => { v with seq := { v.seq with handling := true }, pcu := { v.pcu with channel := c } })
    (scanning .scanning (some 0))

theorem test_meets_SegmentEntryRaisesTheIndex_state :
    (∀ c, ((entering c).segments .a)[1]? = some seg1 ∧ ((entering c).st .a).seq.profile = some held3 ∧
      ((entering c).st .a).seq.handling = true ∧ ((entering c).st .a).seq.state.active = true) ∧
    (inForce ((entering .high).st .a).pcu seg1.channel = true ∧
      inForce ((entering .low).st .a).pcu seg1.channel = false) ∧
    (Sound (scanning .approach none) ∧ Sound (scanning .scanning (some 0))) :=
  ⟨fun _ => ⟨rfl, rfl, rfl, rfl⟩, ⟨rfl, rfl⟩, scanning_sound _ _, scanning_sound _ _⟩

/-- The state, the travel request and the retained record after an entry, with the channel in force and
without (R55, R58, R72, R73). -/
theorem test_segment_entry_sets_state_travel_and_record :
    (let t := segmentEntry .a 1 6 (entering .high)
     (t.st .a).seq.state = .scanning ∧
       (t.st .a).seq.travel = { mode := .move, direction := .increasing, speed := 1000 } ∧
       (t.rtb.records.get .a).map Retained.state = some .scanning) ∧
    (let t := segmentEntry .a 1 6 (entering .low)
     (t.st .a).seq.state = .retuneHold ∧ (t.st .a).seq.pendingState = some .scanning ∧
       (t.st .a).seq.travel.mode = .stop ∧ (t.st .a).pcu.retune = .drain ∧
       (t.rtb.records.get .a).map Retained.index = some (some 1)) := by
  decide +kernel

theorem test_meets_TailEntryBringsTail :
    let s := scanning .scanning (some 1)
    Ready s ∧ Settled (s.st .a) ∧ boundaryOf .a (seenAt 10000 true) s = some none ∧
      boundaryOf .a (seenAt 9999 true) s = none := by
  refine ⟨⟨rfl, rfl⟩, ⟨rfl, rfl, rfl⟩, ?_⟩
  decide +kernel

/-- Station A handles the report that reaches the profile end, with TAIL_TIME `time` and report `k` kept. -/
def ending (time : BitVec 16) (k : Option KeptReport) : State :=
  modSt .a
    (fun v => { v with
      seq := { v.seq with handling := true, profile := some { held3 with
        header := { header3 with tailTime := time, tailZones := 2 } } },
      result := some result0, qsc := { v.qsc with report := k } })
    (scanning .scanning (some 1))

/-- A report at the profile end. -/
def atEnd : Option KeptReport := some { ring := some 10000, velocity := 0, cycle := 0 }

/-- The end marker joins the queue, or is issued at once, with a tail time and without. -/
theorem test_meets_TailEntryBringsTail_offer :
    ((ending 60 none).st .a).seq.profile = some { held3 with
      header := { header3 with tailTime := 60, tailZones := 2 } } ∧
    (((ending 60 none).st .a).seq.handling = true ∧ ((ending 60 none).st .a).seq.state.active = true ∧
      ((ending 60 none).st .a).seq.phase = none ∧ ((ending 60 none).segments .a).length = 2) ∧
    ((offerEnd .a 10000 2 (closeAndRaise .a 1 (ending 60 none))).2 = .added ∧
      (offerEnd .a 10000 2 (closeAndRaise .a 1 (ending 60 atEnd))).2 = .added) ∧
    ((offerEnd .a 10000 2 (closeAndRaise .a 1 (ending 60 none))).1.st .a).seq.phase = none ∧
    ((offerEnd .a 10000 2 (closeAndRaise .a 1 (ending 60 atEnd))).1.st .a).seq.phase = some .openZones ∧
    ((offerEnd .a 10000 2 (closeAndRaise .a 1 (ending 0 atEnd))).1.st .a).seq.phase = some .closing :=
  ⟨rfl, by decide +kernel⟩

theorem test_end_marker_records_in_the_last_entry :
    OriginEntry ((ending 60 none).segments .a) .endMarker 1 := .inr ⟨rfl, by decide +kernel⟩

theorem sound_allSet {s : State} (h : Sound s) (v : Severity) : Sound (allSet v s) :=
  ⟨h.station, h.supply⟩

/-- The severities of the four conditions that an entry can raise: at NOTE, and one that halts. -/
theorem test_meets_TailEntryBringsTail_severities :
    let s := allSet .note (scanning .scanning (some 1))
    Ready s ∧ Settled (s.st .a) ∧ Sound s ∧ (s.st .a).seq.profile = some held3 ∧
      boundaryOf .a (seenAt 10000 true) s = some none ∧
      (∀ c ∈ [Cond.energyLow, .energyHigh, .quenchQueueFull, .quenchLate],
        (s.cdu.setSeverity c).code ≤ 1) ∧
      2 ≤ ((scanning .scanning (some 1)).cdu.setSeverity .quenchLate).code := by
  refine ⟨⟨rfl, rfl⟩, ⟨rfl, rfl, rfl⟩, sound_allSet (scanning_sound _ _) _, rfl, ?_⟩
  decide +kernel

/-- The two ways into the tail: RUNOUT with the end marker last in the queue, and OPEN with the tail timer running;
the lateness present, the record written (R63, R72, R73, R108). -/
theorem test_tail_entry_offers_the_end_marker :
    (let t := tailEntry .a 6 (ending 60 none)
     (t.st .a).seq.state = .tail ∧ (t.st .a).seq.phase = some .runout ∧
       (t.st .a).seq.travel =
         { mode := .move, direction := .increasing, speed := (t.st .a).par.runoutSpeed } ∧
       (t.st .a).qsc.queue.getLast?.map QEntry.origin = some .endMarker ∧
       ((t.st .a).result.bind fun r => r.entries[1]?).bind SegEntry.lateness = some 0 ∧
       (t.rtb.records.get .a).map Retained.state = some .tail) ∧
    (let t := tailEntry .a 6 (ending 60 atEnd)
     (t.st .a).seq.phase = some .openZones ∧ (t.st .a).seq.travel.mode = .stop ∧
       (t.st .a).qsc.lastIssued = 2 ∧ (t.st .a).seq.tailTimer = .running 60) := by
  decide +kernel

/-- Station A quenches its tail out. -/
def opening : State :=
  modSeq .a (fun q => { q with phase := some .openZones, tailTimer := .running 100 })
    (scanning .tail (some 1))

theorem opening_law : QuenchLaw (opening.st .a) where
  core :=
    { bounded := Nat.zero_le _
      endLast := fun e k => by cases k
      headWaits := fun e k => by cases k
      head := fun w k => by cases k
      flow := by decide +kernel
      opened := fun _ => ⟨rfl, rfl⟩
      closed := fun k => by rcases k with k | k <;> cases k }
  idle := fun _ => ⟨rfl, rfl, rfl, rfl⟩
  endTail := fun ⟨e, k, _⟩ => by cases k
  phaseTail := fun _ => rfl

theorem test_meets_DwellAndTailTimersRunTheirCourse :
    (let s := scanning .dwelling (some 0)
     Ready s ∧ Settled (s.st .a) ∧ dwellReported .a (seenAt 2000 false) s = true ∧
       s.segInForce .a = some seg0 ∧ (s.st .a).sar.waiting = none) ∧
    (let s := modSeq .a (fun q => { q with dwellTimer := .running 5 }) (scanning .dwelling (some 0))
     s.vdd = true ∧ Settled (s.st .a) ∧ (s.st .a).seq.state = .dwelling ∧
       (s.st .a).seq.dwellTimer = .running 5 ∧ (s.st .a).seq.index = some 0 ∧
       (s.segments .a)[0 + 1]? = some seg1) ∧
    (opening.vdd = true ∧ (opening.st .a).seq.tailTimer = .running 100 ∧
      (opening.st .a).seq.phase = some .openZones ∧ QuenchLaw (opening.st .a)) := by
  refine ⟨⟨⟨rfl, rfl⟩, ⟨rfl, rfl, rfl⟩, ?_, rfl, rfl⟩,
    ⟨rfl, ⟨rfl, rfl, rfl⟩, rfl, rfl, rfl, rfl⟩, ⟨rfl, rfl, rfl, opening_law⟩⟩
  decide +kernel

/-! ### Power -/

/-- Station A retunes to HIGH, in sub-state `r`, in state `n`. -/
def retuned (r : Retune) (n : StationState) : State :=
  modSeq .a (fun q => { q with pendingState := some .scanning, heldState := some .retuneHold })
    (modPcu .a (fun p => { p with retune := r, retuneChannel := some .high, channel := .low })
      (scanning n (some 1)))

theorem test_meets_RetunePassesThroughSwitchToItsChannel :
    (let s := retuned .drain .retuneHold
     Ready s ∧ (s.st .a).pcu.retune = .drain ∧ (s.st .a).pcu.retuneChannel = some .high ∧
       InverterState.running ≠ .fault ∧
       (100 : BitVec 16).toNat ≤ (s.st .a).par.residualPower * (s.st .a).par.powerRated / 100) ∧
    (∀ n, let s := retuned .switch n
     Ready s ∧ (s.st .a).pcu.retune = .switch ∧ (s.st .a).pcu.retuneChannel = some .high ∧
       (s.st .a).seq.state = n ∧ (s.st .a).seq.pendingState = some .scanning ∧
       (s.st .a).seq.heldState = some .retuneHold) ∧
    ((allSet .degrade (retuned .switch .retuneHold)).cdu.setSeverity .powerDeviation).code ≤ 1 := by
  refine ⟨⟨⟨rfl, rfl⟩, rfl, rfl, ?_, ?_⟩, fun _ => ⟨⟨rfl, rfl⟩, rfl, rfl, rfl, rfl, rfl⟩, ?_⟩ <;>
    decide +kernel

/-- A retune of station A ends, its setpoint 10 kW for two cycles, one deviating cycle enough. -/
def strayed : State :=
  modSt .a (fun v => { v with
      par := { v.par with powerDevCycles := 1 }, pcu := { v.pcu with history := [(100, 8), (100, 9)] } })
    (retuned .switch .retuneHold)

theorem test_meets_RetunePasses_deviation :
    (Ready strayed ∧ (strayed.st .a).pcu.retune = .switch ∧ (strayed.st .a).seq.state = .retuneHold ∧
      (strayed.st .a).seq.pendingState = some .scanning ∧ Settled (strayed.st .a)) ∧
    ((strayed.st .a).pcu.history = [] ++ [(100, (10 : Cycle) - 2), (100, 10 - 1)] ++ [] ∧
      50 = Nat.max (100 * (strayed.st .a).par.powerTol / 100) ((strayed.st .a).par.powerRated / 100) ∧
      StationState.scanning.heating = true ∧ (strayed.st .a).pcu.devRun = false ∧
      ((100 : Int) - (100 : Nat)).natAbs ≤ 50 ∧ 50 < (((151#16).toNat : Int) - (100 : Nat)).natAbs ∧
      (((150#16).toNat : Int) - (100 : Nat)).natAbs ≤ 50 ∧
      (strayed.st .a).par.powerDevCycles ≤ (strayed.st .a).pcu.devCount + 1 ∧
      2 ≤ (strayed.cdu.setSeverity .powerDeviation).code) ∧
    (((retuned .switch .retuneHold).st .a).pcu.history = [] ∧
      ((retuned .switch .retuneHold).st .a).pcu.devCount + 1 <
        ((retuned .switch .retuneHold).st .a).par.powerDevCycles) := by
  refine ⟨⟨⟨rfl, rfl⟩, rfl, rfl, rfl, ⟨rfl, rfl, rfl⟩⟩, ?_⟩
  decide +kernel

/-- The sample that ends a retune may halt the station it puts to work: 51 off does, 50 off does not (R59, R85,
R89). -/
theorem test_restore_is_judged :
    (let t := after (exec (.retuneRestore .a { cycle := 10, body := .fresh 151 .high .ready }) strayed)
     (t.st .a).seq.state = .halting ∧ (t.st .a).seq.haltCause = some (.cond .powerDeviation) ∧
       (t.st .a).pcu.retune = .none) ∧
    ((after (exec (.retuneRestore .a { cycle := 10, body := .fresh 150 .high .ready }) strayed)).st
      .a).seq.state = .scanning := by
  decide +kernel

/-- An account of segment 0 opened at cycle 5. -/
def account0 : Account :=
  { index := 0, entryCycle := 5, sum := 0, missing := 0, tempMin := none, tempMax := none,
    tempRaised := false }

/-- The profile of the tests, its first segment with a temperature window. -/
def windowed3 : Profile :=
  { profile3 with segments := [{ seg0 with window := some { low := 800, high := 1000 } }, seg1] }

/-- Station A scans the profile with the window, its energy account open. -/
def accounted : State :=
  modLink (fun l => { l with map := map0 })
    (modStore (fun t => { t with profiles := t.profiles.set 3 windowed3 })
      (modSt .a (fun v => { v with result := some result0, pcu := { v.pcu with account := some account0 } })
        (scanning .scanning (some 0))))

theorem test_meets_AccountsAndTemperatureWindowsAreKept :
    ((accounted.segments .a)[1]? = some seg1 ∧ (accounted.st .a).result = some result0 ∧
      result0.entries[1]? = some (newEntry 1)) ∧
    ((accounted.st .a).pcu.account = some account0 ∧ (upState.st .a).pcu.account = none ∧
      result0.entries[account0.index]? = some (newEntry 0)) ∧
    ((accounted.st .a).seq.profile = some held3 ∧ (accounted.segments .a)[account0.index]?.isSome) ∧
    ((accounted.st .a).seq.state.heating = true ∧
      (bound accounted.link.map (.feedback .a .temperature)).isSome = true ∧
      (((accounted.segments .a)[account0.index]?).bind Segment.window) =
        some { low := 800, high := 1000 } ∧
      ((accounted.st .a).result.bind fun r => r.entries[account0.index]?) = some (newEntry 0)) ∧
    ((799 : BitVec 16).toNat < (800 : BitVec 16).toNat ∧ account0.tempRaised = false ∧
      ((allSet .degrade accounted).cdu.setSeverity .temperatureWindow).code ≤ 1) := by
  decide +kernel

/-- How often TEMPERATURE_WINDOW has been raised once station A has had the valid reading `v`. -/
def windowRaises (v : BitVec 16) : Nat :=
  ((temperatureHanded .a { cycle := 6, body := .fresh v true } accounted).cdu.entry .temperatureWindow
    (.station .a)).count

/-- The ends of the temperature window: 800 and 1000 lie within, 799 and 1001 outside. -/
theorem test_temperature_at_the_ends_of_the_window :
    windowRaises 800 = 0 ∧ windowRaises 1000 = 0 ∧ windowRaises 799 = 1 ∧ windowRaises 1001 = 1 := by
  decide +kernel

/-! ### Quench -/

/-- A queue entry of segment 0, for the ring position 1000. -/
def head0 : QEntry :=
  { base := 1000, zones := 1, origin := .segment 0, due := none, waiting := false }

/-- Station A scans with `head0` in its queue, the supply flow `flow` shared. -/
def queued (flow : Nat) (mode : SupplyMode) : State :=
  let s := modQsc .a (fun q => { q with queue := [head0] }) (scanning .scanning (some 1))
  { s with params := { s.params with supplyFlow := flow, supplyMode := mode } }

theorem queued_sound (flow : Nat) (mode : SupplyMode) : Sound (queued flow mode) where
  station x := by
    cases x
    · exact
        { power := powerLaw_of_zero rfl rfl
          travel := ⟨rfl, fun k => by cases k⟩
          quench :=
            { core :=
                { bounded := (by decide : 1 ≤ Config.queueCapacity)
                  endLast := fun e k => by cases k
                  headWaits := fun e k => by cases k
                  head := fun w k => by cases k
                  flow := flow_of_no_zone
                  opened := fun k => by cases k
                  closed := fun k => by rcases k with k | k <;> cases k }
              idle := fun k => by rcases k with k | k <;> cases k
              endTail := fun ⟨e, k, o⟩ => by
                have : e = head0 := List.mem_singleton.1 k
                subst this
                cases o
              phaseTail := fun k => absurd rfl k }
          pending := fun n k => by cases k
          held := fun n k => by cases k
          check := fun z c d k => by cases k }
    · exact stationLaw_reset
  supply _ _ := Nat.zero_le _

theorem test_meets_DueHeadIsIssuedOrWaits :
    (∀ f m, Ready (queued f m) ∧ Sound (queued f m) ∧ Settled ((queued f m).st .a) ∧
      ((queued f m).st .a).qsc.queue = head0 :: [] ∧ head0.origin = .segment 0) ∧
    (∀ s ∈ [queued 0 .share, queued 50 .reserve, queued 49 .share],
      headDue .a (seenAt 6000 true) s = true ∧ boundaryOf .a (seenAt 6000 true) s = none) ∧
    ((queued 49 .share).st .a).sar.granted < flowOf ((queued 49 .share).st .a).par head0.zones ∧
    (queued 49 .share).params.supplyFlow <
      ((trackerStage .a (seenAt 6000 true) (queued 49 .share)).st (StationId.a).other).sar.granted +
        flowOf ((queued 49 .share).st .a).par head0.zones ∧
    headDue .a (seenAt 5999 true) (queued 0 .share) = false ∧
    ((trackerStage .a (seenAt 6000 true) (queued 50 .share)).st (StationId.a).other).sar.granted +
        flowOf ((queued 50 .share).st .a).par head0.zones ≤ (queued 50 .share).params.supplyFlow ∧
    (head0.due = none ∧ ((trackerStage .a (seenAt 6000 true) (queued 49 .share)).st .a).trk.report.bind
      Report.ring = some 1000) := by
  refine ⟨fun f m => ⟨⟨rfl, rfl⟩, queued_sound f m, ⟨rfl, rfl, rfl⟩, rfl, rfl⟩, ?_, ?_, ?_, ?_, ?_, ?_⟩ <;>
    decide +kernel

/-- A head of segment 0 that was found due at 1000, the ring at `ring` by the latest report. -/
def lateHead (ring : Option Int) : State :=
  modSt .a
    (fun v => { v with result := some result0,
                       qsc := { v.qsc with report := some { ring := ring, velocity := 0, cycle := 0 } } })
    (queued 0 .share)

/-- `head0` with its due marker. -/
def dueHead : QEntry := { head0 with due := some { cycle := 0, position := 1000 } }

theorem test_meets_DueHeadIsIssuedOrWaits_lateness :
    (OriginEntry ((lateHead none).segments .a) (.segment 0) 0 ∧
      OriginEntry ((lateHead none).segments .a) .endMarker 1) ∧
    (LatenessIs ((lateHead none).direction .a) dueHead.due (some 1500) 500 ∧
      LatenessIs ((lateHead none).direction .a) dueHead.due (some 999) 0 ∧
      LatenessIs ((lateHead none).direction .a) dueHead.due none 0 ∧
      LatenessIs ((lateHead none).direction .a) head0.due (some 1500) 0) ∧
    (∀ r, ((lateHead r).st .a).result = some result0 ∧ result0.entries[1]? = some (newEntry 1) ∧
      ((lateHead r).st .a).qsc.report.bind KeptReport.ring = r) :=
  ⟨⟨.inl rfl, .inr ⟨rfl, rfl⟩⟩,
    ⟨⟨fun _ _ u p => by cases u; cases p; rfl, fun h => by rcases h with h | h <;> cases h⟩,
      ⟨fun _ _ u p => by cases u; cases p; rfl, fun _ => rfl⟩,
      ⟨fun _ _ _ p => (by cases p), fun _ => rfl⟩, ⟨fun _ _ u _ => (by cases u), fun _ => rfl⟩⟩,
    fun _ => ⟨rfl, rfl, rfl⟩⟩

/-- The lateness of an issue: the travel beyond the due position, 0 behind it and without a ring (R108). -/
theorem test_lateness_of_an_issue :
    let late r := (((issueHead .a dueHead (lateHead r)).1.st .a).result.bind fun k =>
      k.entries.head?.bind SegEntry.lateness)
    late (some 1500) = some 500 ∧ late (some 999) = some 0 ∧ late none = some 0 := by
  decide +kernel

/-- Station A with one waiting entry of origin `o`, in state `n` and phase `ph`. -/
def waitingFor (flow : Nat) (o : Origin) (n : StationState) (ph : Option TailPhase) : State :=
  let s := modSt .a
    (fun v => { v with
      seq := { v.seq with phase := ph },
      sar := { v.sar with waiting := some waits0 },
      qsc := { v.qsc with queue := [{ head0 with origin := o, waiting := true }] } })
    (scanning n (some 1))
  { s with params := { s.params with supplyFlow := flow } }

theorem waitingFor_sound {flow : Nat} {o : Origin} {n : StationState} {ph : Option TailPhase}
    (act : n.active = true) (nh : n ≠ .halting) (endTail : o = .endMarker → n = .tail)
    (early : ph = none ∨ (ph = some .runout ∧ n = .tail)) : Sound (waitingFor flow o n ph) where
  station x := by
    cases x
    · exact
        { power := powerLaw_of_zero rfl rfl
          travel := ⟨rfl, fun k => by cases k⟩
          quench :=
            { core :=
                { bounded := (by decide : 1 ≤ Config.queueCapacity)
                  endLast := fun e k => by cases k
                  headWaits := fun e k => by cases k
                  head := fun w k => by
                    cases k
                    exact ⟨⟨_, rfl, rfl, rfl⟩, rfl⟩
                  flow := flow_of_no_zone
                  opened := fun k => by
                    change ph = _ at k
                    rcases early with e | e <;> simp_all
                  closed := fun k => by
                    change ph = _ ∨ ph = _ at k
                    rcases early with e | e <;> simp_all }
              idle := fun k => by
                change n.active = false ∨ n = _ at k
                simp_all
              endTail := fun ⟨e, k, j⟩ => by
                have : e = _ := List.mem_singleton.1 k
                subst this
                exact endTail j
              phaseTail := fun k => by
                change ph ≠ none at k
                rcases early with e | e
                · exact absurd e k
                · exact e.2 }
          pending := fun n k => by cases k
          held := fun n k => by cases k
          check := fun z c d k => by cases k }
    · exact stationLaw_reset
  supply _ _ := Nat.zero_le _

/-- A report that has reached the ring position 1000, and one that has not. -/
def reportAt (p : Int) : KeptReport := { ring := some p, velocity := 0, cycle := 0 }

/-- Station A scans with an empty queue after report `k`, the supply flow `flow` shared. -/
def offered (k : Option KeptReport) (flow : Nat) : State :=
  let s := modQsc .a (fun q => { q with report := k }) (scanning .scanning (some 0))
  { s with params := { s.params with supplyFlow := flow } }

/-- Station A's queue is full. -/
def fullQueue : State :=
  modSt .a (fun v => { v with seq := { v.seq with handling := true },
                              qsc := { v.qsc with queue := List.replicate 16 head0 } })
    (scanning .scanning (some 0))

theorem test_meets_OffersJoinOrMergeAtTheTail :
    (((queued 0 .share).st .a).qsc.queue.getLast? = some head0 ∧ head0.base ≠ 2000 ∧ head0.zones ≠ 2 ∧
      ((queued 0 .share).st .a).qsc.lastIssued ≠ head0.zones) ∧
    (16 ≤ (fullQueue.st .a).qsc.queue.length ∧ (fullQueue.st .a).seq.handling = true ∧
      (fullQueue.st .a).sar.waiting = none) ∧
    (∀ k ∈ [none, some (reportAt 999), some (reportAt 1000)], ((offered k 49).st .a).qsc.queue = [] ∧
      ((offered k 49).st .a).sar.waiting = none ∧ ((offered k 49).st .a).qsc.lastIssued ≠ 1 ∧
      ((offered k 49).st .a).sar.granted < flowOf ((offered k 49).st .a).par 1 ∧
      (offered k 49).params.supplyFlow <
        ((offered k 49).st (StationId.a).other).sar.granted + flowOf ((offered k 49).st .a).par 1) ∧
    (aheadBy ((offered none 49).direction .a) 999 1000 < 0 ∧
      0 ≤ aheadBy ((offered none 49).direction .a) 1000 1000) ∧
    (let s := waitingFor 49 (.segment 0) .scanning none
     (s.st .a).qsc.queue = [] ++ [{ head0 with waiting := true }] ∧ (s.st .a).qsc.lastIssued = 0 ∧
       (s.st .a).sar.waiting = some waits0 ∧
       s.params.supplyFlow < (s.st (StationId.a).other).sar.granted + flowOf (s.st .a).par 2) ∧
    (let s := waitingFor 50 (.segment 0) .scanning none
     (s.st (StationId.a).other).sar.granted + flowOf (s.st .a).par 2 ≤ s.params.supplyFlow) := by
  decide +kernel

theorem test_meets_OffersJoinOrMergeAtTheTail_end :
    (∀ k ∈ [none, some (reportAt 9999), some (reportAt 10000)], ∀ f ∈ [0, 50],
      ((offered k f).st .a).qsc.queue = [] ∧ ((offered k f).st .a).sar.waiting = none) ∧
    (let s := modSeq .a (fun q => { q with profile := some { held3 with
        header := { header3 with tailTime := 60 } } }) (offered (some (reportAt 10000)) 50)
     (s.st .a).qsc.report = some (reportAt 10000) ∧
       (s.st .a).seq.profile = some { held3 with header := { header3 with tailTime := 60 } } ∧
       (60#16) ≠ 0 ∧ 0 ≤ aheadBy (s.direction .a) 10000 10000 ∧ aheadBy (s.direction .a) 9999 10000 < 0 ∧
       (s.st (StationId.a).other).sar.granted + flowOf (s.st .a).par 1 ≤ s.params.supplyFlow) := by
  decide +kernel

/-- The answers to offers at the tail's base: its predecessor's set, its own, another. -/
theorem test_offers_at_the_tail :
    (offerSegment .a 1000 0 1 (queued 0 .share)).2 = .removed ∧
    (offerSegment .a 1000 1 1 (queued 0 .share)).2 = .noEntry ∧
    (offerSegment .a 1000 2 1 (queued 0 .share)).2 = .replaced ∧
    (offerSegment .a 1001 2 1 (queued 0 .share)).2 = .added ∧
    (offerEnd .a 1000 1 (queued 0 .share)).2 = .replaced ∧
    (offerSegment .a 1001 2 1 fullQueue).2 = .noEntry := by
  decide +kernel

/-- Station A is in its tail with the end marker at the head. -/
def endQueued (flow : Nat) : State :=
  let s := modSt .a
    (fun v => { v with seq := { v.seq with phase := some .runout },
                       qsc := { v.qsc with queue := [{ head0 with origin := .endMarker }] } })
    (scanning .tail (some 1))
  { s with params := { s.params with supplyFlow := flow } }

theorem endQueued_sound (flow : Nat) : Sound (endQueued flow) where
  station x := by
    cases x
    · exact
        { power := powerLaw_of_zero rfl rfl
          travel := ⟨rfl, fun k => by cases k⟩
          quench :=
            { core :=
                { bounded := (by decide : 1 ≤ Config.queueCapacity)
                  endLast := fun e k => by cases k
                  headWaits := fun e k => by cases k
                  head := fun w k => by cases k
                  flow := flow_of_no_zone
                  opened := fun k => by cases k
                  closed := fun k => by rcases k with k | k <;> cases k }
              idle := fun k => by rcases k with k | k <;> cases k
              endTail := fun _ => rfl
              phaseTail := fun _ => rfl }
          pending := fun n k => by cases k
          held := fun n k => by cases k
          check := fun z c d k => by cases k }
    · exact stationLaw_reset
  supply _ _ := Nat.zero_le _

/-- The end marker as head: it fits in 50 and not in 49. -/
theorem test_meets_DueHeadIsIssuedOrWaits_end :
    (∀ f, Ready (endQueued f) ∧ Sound (endQueued f) ∧ Settled ((endQueued f).st .a)) ∧
    (∀ f ∈ [49, 50], headDue .a (seenAt 6000 true) (endQueued f) = true ∧
      boundaryOf .a (seenAt 6000 true) (endQueued f) = none) ∧
    ((trackerStage .a (seenAt 6000 true) (endQueued 49)).st (StationId.a).other).sar.granted + 50 = 50 ∧
    flowOf ((endQueued 49).st .a).par head0.zones = 50 := by
  refine ⟨fun f => ⟨⟨rfl, rfl⟩, endQueued_sound f, ⟨rfl, rfl, rfl⟩⟩, ?_, ?_, ?_⟩ <;> decide +kernel

theorem test_meets_SupplyGrantServesTheWaitingRequest :
    (upState.vdd = true ∧ (upState.st .a).sar.waiting = none) ∧
    (let s := waitingFor 49 (.segment 0) .scanning none
     s.vdd = true ∧ (s.st .a).sar.waiting = some waits0 ∧
       s.params.supplyFlow < (s.st (StationId.a).other).sar.granted + waits0.flow) ∧
    (let s := waitingFor 50 (.segment 0) .scanning none
     s.vdd = true ∧ (s.st .a).sar.waiting = some waits0 ∧ Sound s ∧
       (s.st (StationId.a).other).sar.granted + waits0.flow ≤ s.params.supplyFlow ∧
       ∃ e, (s.st .a).qsc.queue = [e] ∧ e.origin = .segment 0) ∧
    (let s := waitingFor 50 .endMarker .tail (some .runout)
     (s.st .a).sar.waiting = some waits0 ∧ Sound s ∧
       ∃ e, (s.st .a).qsc.queue = [e] ∧ e.origin = .endMarker) :=
  ⟨⟨rfl, rfl⟩, ⟨rfl, rfl, by decide⟩,
    ⟨rfl, rfl, waitingFor_sound rfl (by decide) (by simp) (.inl rfl), by decide, ⟨_, rfl, rfl⟩⟩,
    ⟨rfl, waitingFor_sound rfl (by decide) (by simp) (.inr ⟨rfl, rfl⟩), ⟨_, rfl, rfl⟩⟩⟩

/-- A report whose ring is `d` ahead of the due position of `waits0`. -/
def ringAhead (d : Int) : Report := { lookingAt none with ring := some (1000 + d) }

theorem test_meets_SupplyGrantServesTheWaitingRequest_late :
    (let s := waitingFor 49 (.segment 0) .scanning none
     (s.st .a).sar.waiting = some waits0 ∧ (ringAhead 1001).ring = some 2001 ∧ waits0.late = false ∧
       ((s.st .a).par.quenchLateDist : Int) < aheadBy (s.direction .a) 2001 waits0.duePosition ∧
       aheadBy (s.direction .a) 2000 waits0.duePosition ≤ ((s.st .a).par.quenchLateDist : Int) ∧
       (s.st .a).seq.state.haltable = true ∧ 2 ≤ (s.cdu.setSeverity .quenchLate).code ∧
       ((allSet .note s).cdu.setSeverity .quenchLate).code ≤ 1) ∧
    (let s := waitingFor 49 (.segment 0) .scanning none
     let u := trackerStage .a (seenAt 7001 true) s
     ((u.st .a).seq.state.testing = true ∧ (u.st .a).sar.waiting = some waits0 ∧
       boundaryOf .a (seenAt 7001 true) s = none ∧
       (u.st .a).trk.report.bind Report.ring = some 2001) ∧
       (u.st .a).seq.handling = false ∧ (u.st .a).seq.haltWaiting = none ∧
       (u.st .a).eng.endOwed = none) := by
  decide +kernel

/-- QUENCH_LATE by distance comes one micrometre beyond QUENCH_LATE_DIST, once (R127). -/
theorem test_late_by_distance :
    let s := allSet .note (waitingFor 49 (.segment 0) .scanning none)
    let t := lateByDistance .a (ringAhead 1001) s
    lateByDistance .a (ringAhead 1000) s = s ∧
      (t.cdu.entry .quenchLate (.station .a)).count = 1 ∧
      (t.st .a).sar.waiting = some { waits0 with late := true } ∧
      lateByDistance .a (ringAhead 1001) t = t := by
  decide +kernel

/-- Station A checks its valves after an issue of the empty set, with the closing request `c`. -/
def checking (n : StationState) (c : Bool) (ph : Option TailPhase) : State :=
  modSt .a
    (fun v => { v with seq := { v.seq with phase := ph },
                       qsc := { v.qsc with valve := .running 0 0 160, closing := c } })
    (scanning n (some 1))

theorem checking_sound {n : StationState} {c : Bool} {ph : Option TailPhase}
    (h : ph = none ∨ n = .tail) : StationSound ((checking n c ph).st .a) where
  power := powerLaw_of_zero rfl rfl
  travel := ⟨rfl, fun k => by cases k⟩
  quench :=
    { core :=
        { bounded := Nat.zero_le _
          endLast := fun e k => by cases k
          headWaits := fun e k => by cases k
          head := fun w k => by cases k
          flow := flow_of_no_zone
          opened := fun _ => ⟨rfl, rfl⟩
          closed := fun _ => ⟨rfl, rfl, rfl, rfl⟩ }
      idle := fun _ => ⟨rfl, rfl, rfl, rfl⟩
      endTail := fun ⟨e, k, _⟩ => by cases k
      phaseTail := fun k => by
        rcases h with e | e
        · exact absurd e k
        · exact e }
  pending n k := by cases k
  held n k := by cases k
  check _ _ _ _ := rfl

theorem test_meets_ValveCheckPassArmsTheFlowCheck :
    (let s := checking .scanning false none
     Ready s ∧ (s.st .a).seq.state.active = true ∧ StationSound (s.st .a) ∧ Settled (s.st .a) ∧
       (s.st .a).qsc.valve = .running 0 0 160 ∧ laterThan 1 0 = true ∧
       (s.st .a).qsc.closing = false) ∧
    (let s := checking .tail true (some .closing)
     Ready s ∧ StationSound (s.st .a) ∧ (s.st .a).qsc.closing = true ∧
       (s.st .a).seq.state = .tail ∧ (s.st .a).seq.phase = some .closing) ∧
    (laterThan 0x80000000 1 = true ∧ laterThan 0x80000001 1 = false ∧ laterThan 1 1 = false) :=
  ⟨⟨⟨rfl, rfl⟩, rfl, checking_sound (.inl rfl), ⟨rfl, rfl, rfl⟩, rfl, rfl, rfl⟩,
    ⟨⟨rfl, rfl⟩, checking_sound (.inr rfl), rfl, rfl, rfl⟩, by decide⟩

/-! ### Service requests -/

/-- The status of the reply that is held after a step. -/
def answered (r : Host.Outcome State Fault Refusal) : Option ReplyStatus :=
  (after r).link.heldReply.map Reply.status

theorem test_meets_IdentAndSampleReadReturnWhatIsHeld :
    (Ready upState ∧ ((0 : Byte) = 0 ∨ 31 < (0 : Byte).toNat) ∧ 31 < (32 : Byte).toNat) ∧
    (Ready armed ∧ sampleOf .powerActual (armed.link.samples.get .a) = readySamples.powerActual) ∧
    (1 < (2 : Byte).toNat ∧ 3 < (4 : Byte).toNat) :=
  ⟨⟨upState_ready, .inl rfl, by decide⟩, ⟨⟨rfl, rfl⟩, rfl⟩, by decide⟩

/-- Each kind of parameter with a value at an end of its range, of a part and of a station, at rest and
active. -/
theorem test_meets_WrittenParameterReadsBack :
    Ready upState ∧
    (((1 : Byte).toNat, 250, 4000) ∈ parameterTable ∧ (word32 0 0 1 244).toNat = 500 ∧
      500 % 250 = 0 ∧ upState.params.returnTimeout + 100 ≤ 500) ∧
    (((2 : Byte).toNat, 50, 3900) ∈ parameterTable ∧ (word32 0 0 3 132).toNat = 900 ∧
      900 + 100 ≤ upState.params.cycleTime) ∧
    (((16 : Byte).toNat, 0, 4294967295) ∈ parameterTable ∧
      (word32 255 255 255 255).toNat = 4294967295 ∧ 6 < (16 : Byte).toNat) ∧
    (((49 : Byte).toNat, 1, 5000) ∈ parameterTable ∧ (word32 0 0 19 136).toNat = 5000 ∧
      (1 : Byte) = stationCode .b) ∧
    (upState.active .a = false ∧ upState.active .b = false) ∧
    ((scanning .scanning (some 0)).active .a = true) ∧
    ((word32 0 0 19 137).toNat = 5001 ∧ (word32 0 0 0 0).toNat < 1) ∧
    (250 % 250 = 0 ∧ 250 < upState.params.returnTimeout + 100) ∧
    (501 % 250 ≠ 0) ∧ upState.params.cycleTime < 901 + 100 := by
  refine ⟨upState_ready, ?_⟩
  decide +kernel

/-- PARAM_READ: a global and a station parameter, numbers that are none, and a station that is none. -/
theorem test_meets_WrittenParameterReadsBack_reads :
    ((6 : Byte).toNat, 2#32) ∈ globalTable { upState.params with attentionLevel := .abort } ∧
    ((16 : Byte).toNat, 0#32) ∈ stationTable { (upState.st .b).par with datumBase := 0 } ∧
    (7 : Byte).toNat ∉ parameterTable.map Prod.fst ∧
    (50 : Byte).toNat ∉ parameterTable.map Prod.fst ∧ 6 < (16 : Byte).toNat ∧ 1 < (2 : Byte).toNat := by
  decide +kernel

theorem test_parameters_at_the_ends_of_their_range :
    answered (exec (.paramWrite 9 [1, 0, 0, 0, 1, 244]) upState) = some .ok ∧
    answered (exec (.paramWrite 9 [1, 0, 0, 0, 0, 250]) upState) = some .badArgument ∧
    answered (exec (.paramWrite 9 [49, 1, 0, 0, 19, 136]) upState) = some .ok ∧
    answered (exec (.paramWrite 9 [49, 1, 0, 0, 19, 137]) upState) = some .badArgument ∧
    answered (exec (.paramWrite 9 [1, 0, 0, 0, 1, 244]) (scanning .arming none)) = some .inUse := by
  decide +kernel

theorem test_meets_WrittenMapEntryReadsBack :
    Ready upState ∧
    ((15 : Byte).toNat ≤ 15 ∧ 1 ≤ (1 : Byte).toNat ∧ (250 : Byte).toNat ≤ 250 ∧
      (62 : Byte).toNat ≤ 62) ∧
    (∀ j, mapEntry upState.link.map j = none) ∧
    (upState.active .a = false ∧ upState.active .b = false ∧
      (scanning .halting none).active .a = true) ∧
    (15 < (16 : Byte).toNat ∧ 250 < (251 : Byte).toNat ∧ 62 < (63 : Byte).toNat) ∧
    (∃ j f, j < 16 ∧ j ≠ (15 : Byte).toNat ∧
      mapEntry (linked fun l => { l with map := map0 }).link.map j = some f ∧ f.slotId = 10) ∧
    (∃ j f, j < 16 ∧ j ≠ (15 : Byte).toNat ∧
      mapEntry (linked fun l => { l with map := map0 }).link.map j = some f ∧ f.signal = .control) ∧
    (∃ e, mapEntry (linked fun l => { l with map := map0 }).link.map (15 : Byte).toNat = some e) ∧
    (1 < (2 : Byte).toNat ∧ (254 : Byte) ≠ 255 ∧ 15 < (16 : Byte).toNat) :=
  ⟨upState_ready, by decide, fun j => by
      show mapEntry (Vector.replicate 16 none) j = none
      unfold mapEntry
      rw [Vector.getElem?_replicate]
      split <;> rfl,
    ⟨rfl, rfl, rfl⟩, by decide, ⟨0, _, by decide, by decide, rfl, rfl⟩,
    ⟨0, _, by decide, by decide, rfl, rfl⟩, ⟨_, rfl⟩, by decide⟩

/-- With the mark empty the required byte is a flag or absent, and nothing else of the entry is tested (assumption 43);
with the mark set it is a flag. -/
theorem test_emptying_a_map_entry :
    answered (exec (.mapWrite 9 [0, 0, 0, 99, 255, 254]) upState) = some .badArgument ∧
    answered (exec (.mapWrite 9 [0, 0, 0, 99, 255, 1]) upState) = some .ok ∧
    answered (exec (.mapWrite 9 [0, 1, 10, 0, 0, 255]) upState) = some .badArgument := by
  decide +kernel

/-- The absent form of an empty entry, which MAP_READ replies, is taken (R148, R181). -/
theorem test_absent_entry_empties :
    let s := linked fun l => { l with map := map0 }
    let t := after (exec (.mapWrite 9 [0, 0, 255, 255, 255, 255]) s)
    answered (exec (.mapWrite 9 [0, 0, 255, 255, 255, 255]) s) = some .ok ∧ mapEntry t.link.map 0 = none := by
  decide +kernel

/-- An entry written as it stood clears the run of its signal (assumption 54), and an empty entry reads with its
fields absent (R181). -/
theorem test_map_entry_written_as_it_stood :
    (let s := linked fun l => { l with map := map0, controlRun := true, statusRun := true }
     let t := after (exec (.mapWrite 9 [0, 1, 10, 0, 0, 1]) s)
     t.link.map = s.link.map ∧ t.link.controlRun = false ∧ t.link.statusRun = true) ∧
    (after (exec (.mapRead 9 [4]) upState)).link.heldReply =
      some { tag := 9, status := .ok, payload := [4, 0, 255, 255, 255, 255] } := by
  decide +kernel

theorem test_meets_WrittenProgramStepReadsBack :
    Ready upState ∧ programOf 0 = some .start ∧ programOf 2 = some .halt ∧
    ({ idleStep with delay := 15 } : ProgStep).delay = (15 : Byte).toNat ∧
    ((7 : Byte).toNat ≤ 7 ∧ (15 : Byte).toNat ≤ 15) ∧
    (upState.active .a = false ∧ (scanning .scanning none).active .a = true) ∧
    (7 < (8 : Byte).toNat ∧ 15 < (16 : Byte).toNat) ∧
    (1 < (2 : Byte).toNat ∧ 2 < (3 : Byte).toNat) :=
  ⟨upState_ready, rfl, rfl, rfl, by decide, ⟨rfl, rfl⟩, by decide, by decide⟩

/-- The profile of the tests is stored with directory entry `e`. -/
def storedAs (e : DirEntry) : State :=
  modStore (fun t => { t with directory := t.directory.set 3 e }) stored

/-- Staging of profile 3 with the segments of the tests. -/
def staging3 (committing : Bool) : Staging :=
  { number := 3, header := header3,
    slots := ((Vector.replicate 48 clearedSegment).set 0 seg0).set 1 seg1, count := 2,
    committing := committing }

/-- Staging is open, and a commit runs where `committing`. -/
def staged (committing : Bool) : State :=
  modStore (fun t => { t with staging := some (staging3 committing) })
    (if committing then longOp .commit (some 3) (.commit profile3 .empty) else stored)

theorem test_meets_ProfileOpenFillsStaging :
    Ready upState ∧ (3 : Byte).toNat = (3 : Fin 16).val ∧ (15 : Byte).toNat = (15 : Fin 16).val ∧
    ((staged false).store.staging.isSome = true ∧
      (longOp .clear none .none).store.wholeBusy = true ∧
      (longOp .erase (some 3) .none).store.busyOn 3 = true) ∧
    (let e := stored.store.directory.get 3
     (stored.store.staging.isSome || stored.store.wholeBusy || stored.store.busyOn 3) = false ∧
       e.writeProtected = false ∧ e.readProtected = false ∧ e.state = .valid) ∧
    ((storedAs { entry3 with writeProtected := true }).store.directory.get 3).writeProtected = true ∧
    ((storedAs { entry3 with readProtected := true }).store.directory.get 3).readProtected = true ∧
    ((storedAs { entry3 with state := .writing }).store.directory.get 3).state = .writing ∧
    ((storedAs { entry3 with state := .corrupt }).store.directory.get 3).state = .corrupt ∧
    (stored.store.directory.get 4).state = .empty :=
  ⟨upState_ready, rfl, rfl, ⟨rfl, rfl, rfl⟩, ⟨rfl, rfl, rfl, rfl⟩, rfl, rfl, rfl, rfl, rfl⟩

/-- A header as sent, with direction `d`, affinity `f` and the first label character `c`. -/
def headerSent (d f c : Byte) : Vector Byte 26 :=
  #v[d, 0, 0, 0, 0, 0, 0, 39, 16, 0, 0, 19, 136, 0, 0, 0, 0, f, c, 126, 32, 32, 32, 32, 32, 32]

/-- HEADER_WRITE. -/
theorem test_meets_StagingRequestsWriteStagingAlone_header :
    Ready upState ∧ upState.store.staging = none ∧
    ((staged true).store.staging = some (staging3 true) ∧ (staging3 true).committing = true) ∧
    ((staged false).store.staging = some (staging3 false) ∧ (staging3 false).committing = false) ∧
    ((headerSent 1 2 32)[0].toNat ≤ 1 ∧ (headerSent 1 2 32)[17].toNat ≤ 2 ∧
      ∀ j : Fin 26, 18 ≤ j.val → 32 ≤ ((headerSent 1 2 32).get j).toNat ∧
        ((headerSent 1 2 32).get j).toNat ≤ 126) ∧
    1 < (headerSent 2 2 32)[0].toNat ∧ 2 < (headerSent 1 3 32)[17].toNat ∧
    (∃ j : Fin 26, 18 ≤ j.val ∧ ((headerSent 1 2 31).get j).toNat < 32) ∧
    ∃ j : Fin 26, 18 ≤ j.val ∧ 126 < ((headerSent 1 2 127).get j).toNat :=
  ⟨upState_ready, rfl, ⟨rfl, rfl⟩, ⟨rfl, rfl⟩, by decide, by decide, by decide, ⟨18, by decide⟩,
    ⟨18, by decide⟩⟩

theorem test_header_at_the_ends_of_its_ranges :
    answered (exec (.headerWrite 9 (headerSent 1 2 32).toList) (staged false)) = some .ok ∧
    answered (exec (.headerWrite 9 (headerSent 1 2 126).toList) (staged false)) = some .ok ∧
    answered (exec (.headerWrite 9 (headerSent 2 2 32).toList) (staged false)) = some .badArgument ∧
    answered (exec (.headerWrite 9 (headerSent 1 3 32).toList) (staged false)) = some .badArgument ∧
    answered (exec (.headerWrite 9 (headerSent 1 2 31).toList) (staged false)) = some .badArgument ∧
    answered (exec (.headerWrite 9 (headerSent 1 2 127).toList) (staged false)) =
      some .badArgument := by
  decide +kernel

/-- A segment as sent, with kind `k`, shape `s`, channel `c` and window mark `w`. -/
def segmentSent (k s c w : Byte) : Vector Byte 19 :=
  #v[0, 0, 0, 0, k, 0, 100, s, c, 0, 0, 3, 232, 1, w, 0, 0, 5, 120]

/-- SEGMENT_WRITE and SEGMENT_TRUNCATE. -/
theorem test_meets_StagingRequestsWriteStagingAlone_segments :
    Ready upState ∧
    ((staged false).store.staging = some (staging3 false) ∧ (staging3 false).committing = false) ∧
    ((segmentSent 2 1 2 1)[14].toNat ≤ 1 ∧ (segmentSent 2 1 2 1)[14] = 1 ∧ (47 : Byte).toNat ≤ 47 ∧
      (segmentSent 2 1 2 1)[4].toNat ≤ 2 ∧ (segmentSent 2 1 2 1)[7].toNat ≤ 1 ∧
      1 ≤ (segmentSent 2 1 2 1)[8].toNat ∧ (segmentSent 2 1 2 1)[8].toNat ≤ 2) ∧
    (47 < (48 : Byte).toNat ∧ 2 < (segmentSent 3 1 2 0)[4].toNat ∧
      1 < (segmentSent 2 2 2 0)[7].toNat ∧ (segmentSent 2 1 0 0)[8].toNat = 0 ∧
      2 < (segmentSent 2 1 3 0)[8].toNat) ∧
    (48 < (49 : Byte).toNat ∧ (48 : Byte).toNat ≤ 48 ∧ (staging3 false).count ≤ (2 : Byte).toNat ∧
      (1 : Byte).toNat < (staging3 false).count ∧ (1 : Byte).toNat ≤ 48) ∧
    (upState.store.staging = none ∧ (staged true).store.committing = true) ∧
    1 < (segmentSent 0 0 1 2)[14].toNat ∧ (segmentSent 2 1 2 0)[14] = 0 :=
  ⟨upState_ready, ⟨rfl, rfl⟩, by decide, by decide, by decide, ⟨rfl, rfl⟩, by decide, by decide⟩

theorem test_segments_at_the_ends_of_their_ranges :
    answered (exec (.segmentWrite 9 (47 :: (segmentSent 2 1 2 1).toList)) (staged false)) = some .ok ∧
    answered (exec (.segmentWrite 9 (48 :: (segmentSent 2 1 2 1).toList)) (staged false)) =
      some .badArgument ∧
    answered (exec (.segmentWrite 9 (0 :: (segmentSent 0 0 0 0).toList)) (staged false)) =
      some .badArgument ∧
    answered (exec (.segmentWrite 9 (0 :: (segmentSent 0 0 1 2).toList)) (staged false)) =
      some .badArgument ∧
    answered (exec (.segmentTruncate 9 [48]) (staged false)) = some .ok ∧
    answered (exec (.segmentTruncate 9 [49]) (staged false)) = some .badArgument := by
  decide +kernel

/-- PROFILE_CANCEL. -/
theorem test_meets_StagingRequestsWriteStagingAlone_cancel :
    (Ready (staged true) ∧ (staged true).store.committing = true) ∧
    (Ready (staged false) ∧ (staged false).store.committing = false) ∧
    upState.store.staging = none :=
  ⟨⟨⟨rfl, rfl⟩, rfl⟩, ⟨⟨rfl, rfl⟩, rfl⟩, rfl⟩

/-- Staging of profile 3 is open and both stations' in-use marks are `m`. -/
def marked (m : Option (Fin 16)) : State :=
  modStore (fun t => { t with inUse := Pair.both m }) (staged false)

theorem test_meets_LongRequestsAreExaminedInOrder :
    (Ready (longOp .erase (some 3) .none) ∧ (longOp .erase (some 3) .none).store.running ≠ none) ∧
    (upState.store.running = none ∧ upState.store.staging = none) ∧
    ((staged false).store.running = none ∧ (staged false).store.staging = some (staging3 false) ∧
      (staging3 false).committing = false ∧
      ((staged false).store.directory.get 3).writeProtected = false) ∧
    validate header3 [] = some { index := 255, reason := .empty } ∧
    validate (staging3 false).header ((staging3 false).slots.toList.take (staging3 false).count) =
      none ∧
    ((marked (some 3)).store.inUse.a = some 3 ∧ (marked (some 4)).store.inUse.a ≠ some 3) ∧
    ((storedAs { entry3 with writeProtected := true }).store.directory.get 3).writeProtected = true ∧
    ((1 : Byte).getLsbD 0 = true ∧ (2 : Byte).getLsbD 1 = true ∧ (4 : Byte).getLsbD 0 = false ∧
      (4 : Byte).getLsbD 1 = false) ∧
    ((scanning .scanning (some 0)).active .a = true ∧ stored.active .a = false) := by
  refine ⟨⟨⟨rfl, rfl⟩, ?_⟩, ⟨rfl, rfl⟩, ⟨rfl, rfl, rfl, rfl⟩, ?_, ?_, ⟨rfl, ?_⟩, rfl, ?_, ⟨rfl, rfl⟩⟩ <;>
    decide +kernel

theorem header3_within : ¬HeaderOut header3 := by
  unfold HeaderOut
  decide

/-- Two segments the second of which starts 999 µm behind the first's start. -/
theorem test_meets_ValidationPassesExactlyTheValidProfiles :
    HeaderOut { header3 with energyTol := 51 } ∧ ¬HeaderOut header3 ∧
    testOrder = [.range, .skipPower, .firstStart, .order, .dwellPair, .lastDwell] ++ .length :: [] ∧
    (let segs := [seg0, { seg1 with start := 999 }]
     Rejects header3 segs 1 .length ∧ ¬Rejects header3 segs 1 .order ∧
       validate header3 segs = some { index := 0, reason := .length }) ∧
    ([seg0, seg1].getLast? = some seg1 ∧
      aheadBy { header3 with finish := 5000 }.direction (5000 : BitVec 32).toInt seg1.start.toInt ≤ 0 ∧
      (0 < aheadBy header3.direction (5001 : BitVec 32).toInt seg1.start.toInt ∧
        ((5001 : BitVec 32).toInt - seg1.start.toInt).natAbs < 1000) ∧
      validate { header3 with finish := 5000 } [seg0, seg1] = some { index := 1, reason := .endOrder } ∧
      validate { header3 with finish := 5001 } [seg0, seg1] = some { index := 1, reason := .length }) := by
  refine ⟨.inr (.inr (.inr (by decide))), header3_within, rfl,
    ⟨⟨_, rfl, 0, seg0, rfl, rfl, by decide, by decide⟩, ?_, by decide⟩, by decide⟩
  rintro ⟨g, h, k, b, i, j, l⟩
  cases h
  cases i
  cases j
  revert l
  decide

/-- Profiles that the tests of R12 pass and reject, at the ends of the ranges. -/
theorem test_validation_at_the_ends_of_the_ranges :
    validate header3 [seg0, seg1] = none ∧
    validate { header3 with quenchOffset := 4999 } [seg0, seg1] ≠ none ∧
    validate { header3 with energyTol := 50 } [seg0, seg1] = none ∧
    validate { header3 with energyTol := 51 } [seg0, seg1] ≠ none ∧
    validate header3 [seg0, { seg1 with start := 1000 }] = none ∧
    validate header3 [seg0, { seg1 with start := 999 }] ≠ none ∧
    validate header3 [seg0, { seg1 with start := 9000 }] = none ∧
    validate header3 [seg0, { seg1 with start := 9001 }] ≠ none ∧
    validate header3 [{ seg0 with power := 20001 }, seg1] ≠ none ∧
    validate header3 [{ seg0 with kind := .skip }, seg1] ≠ none := by
  decide +kernel

theorem test_meets_StoreReadsReturnTheStoredRecords :
    (Ready stored ∧ (3 : Byte).toNat = (3 : Fin 16).val) ∧
    ((longOp .clear none .none).store.wholeBusy = true ∧
      ((storedAs { entry3 with state := .writing }).store.directory.get 3).state = .writing) ∧
    (stored.store.wholeBusy = false ∧ (stored.store.directory.get 4).state = .empty ∧
      ((storedAs { entry3 with state := .corrupt }).store.directory.get 3).state = .corrupt) ∧
    (let s := storedAs { entry3 with readProtected := true }
     s.store.wholeBusy = false ∧ (s.store.directory.get 3).state = .valid ∧
       (s.store.directory.get 3).readProtected = true) ∧
    (let e := stored.store.directory.get 3
     e.state = .valid ∧ e.readProtected = false ∧ e.count ≤ (2 : Byte).toNat ∧
       (1 : Byte).toNat < e.count ∧ (stored.store.profiles.get 3).segments[(1 : Byte).toNat]? = some seg1) :=
  ⟨⟨⟨rfl, rfl⟩, rfl⟩, ⟨rfl, rfl⟩, ⟨rfl, rfl, rfl⟩, ⟨rfl, rfl, rfl⟩, rfl, rfl, by decide +kernel,
    by decide +kernel, rfl⟩

/-- `upState` with FLOW_LOW of station B and STORE_FAULT pending. -/
def pendingTwo : State :=
  modCdu
    (fun u => (u.putEntry .flowLow (.station .b)
        { pending := true, count := 255, lastCycle := some 7, lastSeverity := some .degrade }).putEntry
      .storeFault .part
        { pending := true, count := 1, lastCycle := some 8, lastSeverity := some .note })
    upState

theorem pendingTwo_law : CondLaw pendingTwo := by
  intro c sc
  have k : ∀ i : Nat, i < 48 → (((pendingTwo.cdu.table[i]?).getD clearedCond).pending = true →
      ((pendingTwo.cdu.table[i]?).getD clearedCond).lastSeverity ≠ none) := by decide +kernel
  refine k (condSlot c sc) ?_
  cases c <;> rcases sc with (_ | _) | _ <;> decide

theorem test_meets_CondReadAndTakeServeTheTable :
    (Ready upState ∧ scopeFits .flowLow (.station .b) = true ∧ scopeFits .flowLow .part = false ∧
      28 < (29 : Byte).toNat ∧ 2 < (3 : Byte).toNat ∧ (28 : Byte) ≠ 0) ∧
    (CondLaw upState ∧ ∀ c sc, (upState.cdu.entry c sc).pending = false) ∧
    (Ready pendingTwo ∧ CondLaw pendingTwo ∧ scopeFits .flowLow (.station .b) = true ∧
      (pendingTwo.cdu.entry .flowLow (.station .b)).pending = true ∧
      (pendingTwo.cdu.entry .flowLow (.station .b)).lastSeverity = some .degrade) := by
  have clear : ∀ c sc, (upState.cdu.entry c sc).pending = false := by
    intro c sc
    cases c <;> rcases sc with (_ | _) | _ <;> decide
  exact ⟨⟨upState_ready, rfl, rfl, by decide, by decide, by decide⟩,
    ⟨fun c sc h => absurd h (by simp [clear c sc]), clear⟩, ⟨rfl, rfl⟩, pendingTwo_law, rfl, rfl, rfl⟩

/-- ATTENTION at the level DEGRADE: FLOW_LOW of B sets it for B alone, STORE_FAULT at NOTE for neither (R166). -/
theorem test_attention_in_the_summary :
    (((after (exec (.condRead 9 [0, 0])
      (modLink (fun l => { l with attentionLevel := .degrade }) pendingTwo))).link.heldReply.map
        fun r => r.payload.drop 12)) = some [0, 1] := by
  decide +kernel

theorem test_meets_CondClearClearsItsSelection :
    Ready pendingTwo ∧
    (((3 : Byte) = 3 ∧ (none : Option Scope) = none) ∧
      (some (Scope.station .b) = some (Scope.station .b) ∧ (1 : Byte) = (Scope.station .b).code)) ∧
    (28 < (29 : Byte).toNat ∧ (28 : Byte).toNat ≤ 28 ∧ (0 : Byte).toNat ≤ 28 ∧ 3 < (4 : Byte).toNat) :=
  ⟨⟨rfl, rfl⟩, ⟨⟨rfl, rfl⟩, ⟨rfl, rfl⟩⟩, by decide⟩

theorem test_meets_FirstRecordAndSeveritiesAreServed :
    (Ready upState ∧ upState.cdu.first = none) ∧
    (Ready firstHeld ∧ firstHeld.cdu.first = some first0) ∧
    (Severity.degrade.code < (Cond.stopLine).minimumSeverity.code ∧
      (Cond.stopLine).minimumSeverity.code ≤ Severity.abort.code) ∧
    28 < (29 : Byte).toNat :=
  ⟨⟨upState_ready, rfl⟩, ⟨⟨rfl, rfl⟩, rfl⟩, by decide, by decide⟩

theorem test_meets_ResultReadsReturnTheRecords :
    (Ready upState ∧ (upState.st .a).result = none ∧ upState.rtb.records.get .a = none) ∧
    (let s := modResult .a (fun _ => some result0) upState
     Ready s ∧ (s.st .a).result = some result0 ∧ result0.entries.length ≤ (2 : Byte).toNat ∧
       result0.entries[(1 : Byte).toNat]? = some (newEntry 1) ∧ (s.st .a).pcu.account = none) ∧
    (let s := modPcu .a (fun p => { p with account := some account0 })
       (modResult .a (fun _ => some result0) upState)
     (s.st .a).pcu.account = some account0 ∧ account0.index = (newEntry 0).index ∧
       (newEntry 0).verdict = none ∧ result0.entries[(0 : Byte).toNat]? = some (newEntry 0)) ∧
    1 < (2 : Byte).toNat :=
  ⟨⟨upState_ready, rfl, rfl⟩, ⟨⟨rfl, rfl⟩, rfl, by decide, rfl, rfl⟩, ⟨rfl, rfl, rfl, rfl⟩, by decide⟩


/-! ### What every step keeps -/

/-- A step that is no idling: a station takes a NONE command. -/
theorem test_meets_EveryStep :
    (∃ t, step { upState with pending := [.commandNone .a 1] } = .next t ∧ t ≠ upState) ∧
    Sound { upState with pending := [.commandNone .a 1] } ∧
    (∀ x, PowerLaw (upState.st x) ∧ TravelLaw (upState.st x) ∧ Settled (upState.st x)) ∧
    SeverityLaw upState ∧ CondLaw pendingTwo ∧ MapLaw (linked fun l => { l with map := map0 }) :=
  ⟨⟨_, rfl, by decide +kernel⟩, ⟨test_upState_is_sound.station, test_upState_is_sound.supply⟩,
    fun x => ⟨(test_upState_is_sound.station x).power, (test_upState_is_sound.station x).travel,
      by cases x <;> exact ⟨rfl, rfl, rfl⟩⟩,
    severityLaw_up, pendingTwo_law, map0_lawful⟩

/-- Law 7 has a case where a commit runs on a profile that is not write-protected. -/
theorem test_commit_runs_unprotected : ProtectLaw (staged true) := by
  intro n _ h
  have : some 3 = some n := h
  cases this
  rfl

/-- Station A scans the stored profile 3, which its in-use mark names. -/
def inUseState : State :=
  modStore (fun t => { t with inUse := t.inUse.set .a (some 3) }) (scanning .scanning (some 0))

theorem inUseState_law : InUseLaw inUseState := by
  intro x h
  cases x
  · exact ⟨held3, rfl, rfl, rfl, rfl, rfl⟩
  · cases h

/-- Station A dwells in the stored profile 3 in RESERVE mode, zone 0 open, an entry of its first segment
queued. -/
def bookedState : State :=
  let s := modSt .a
    (fun v => { v with
      seq := { v.seq with state := .dwelling, dwellTimer := .running 5 },
      sar := { granted := 50, reservation := some 50, waiting := none },
      qsc := { v.qsc with lastIssued := 1, queue := [{ head0 with base := 0 }] } })
    inUseState
  { s with params := { s.params with supplyMode := .reserve, supplyFlow := 50 } }

theorem bookedState_sound : Sound bookedState where
  station x := by
    cases x
    · exact
        { power := powerLaw_of_zero rfl rfl
          travel := ⟨rfl, fun k => by cases k⟩
          quench :=
            { core :=
                { bounded := (by decide : 1 ≤ Config.queueCapacity)
                  endLast := fun e k => by cases k
                  headWaits := fun e k => by cases k
                  head := fun w k => by cases k
                  flow := by decide +kernel
                  opened := fun k => by cases k
                  closed := fun k => by rcases k with k | k <;> cases k }
              idle := fun k => by rcases k with k | k <;> cases k
              endTail := fun ⟨e, k, o⟩ => by
                have : e = _ := List.mem_singleton.1 k
                subst this
                cases o
              phaseTail := fun k => absurd rfl k }
          pending := fun n k => by cases k
          held := fun n k => by cases k
          check := fun z c d k => by cases k }
    · exact stationLaw_reset
  supply _ k := by cases k

theorem bookedState_scan : ScanHeld bookedState .a held3 where
  header := rfl
  zones := rfl
  origins e k := by
    have : e = { head0 with base := 0 } := List.mem_singleton.1 k
    subst this
    exact ⟨.head _, seg0, 0, rfl, rfl, rfl, Nat.le_refl 0⟩
  ordered := List.pairwise_singleton _ _
  issued := .inr (.head _)
  booked _ := ⟨50, rfl, by decide +kernel⟩

theorem bookedState_law : ScanLaw bookedState where
  stored := by decide +kernel
  committed n p f k := by cases k
  scans x p k h := by
    cases x
    · cases h
      exact bookedState_scan
    · cases k
  rest x k := by
    cases x
    · cases k
    · rfl
  together _ := by decide

theorem bookedState_inUse : InUseLaw bookedState := by
  intro x h
  cases x
  · exact ⟨held3, rfl, rfl, rfl, rfl, rfl⟩
  · cases h

/-- A step that enters the next segment, in a state with every law of the scan. -/
theorem test_meets_EveryStepKeepsTheScanLaws :
    let s : State := { bookedState with pending := [.dwellTimerExpiry .a] }
    Sound s ∧ InUseLaw s ∧ ScanLaw s ∧ Reserving s ∧
      ∃ t, step s = .next t ∧ (t.st .a).seq.index = some 1 :=
  ⟨⟨bookedState_sound.station, bookedState_sound.supply⟩, bookedState_inUse,
    { stored := bookedState_law.stored
      committed := bookedState_law.committed
      scans := fun x p k h =>
        let l := bookedState_law.scans x p k h
        { header := l.header
          zones := l.zones
          origins := l.origins
          ordered := l.ordered
          issued := l.issued
          booked := l.booked }
      rest := bookedState_law.rest
      together := bookedState_law.together },
    ⟨rfl, by decide⟩, _, rfl, by decide +kernel⟩

theorem test_meets_ReferencedProfileStaysAsItIs :
    let s : State := { inUseState with pending := [.commandNone .a 1] }
    InUseLaw s ∧ ∃ t, step s = .next t ∧ s.active .a = true ∧ (s.st .a).seq.profile = some held3 ∧
      t.active .a = true ∧ (t.st .a).seq.profile = some held3 :=
  ⟨inUseState_law, _, rfl, rfl, rfl, rfl, rfl⟩

theorem test_meets_WriteProtectedProfileKeepsItsContent :
    let s := storedAs { entry3 with writeProtected := true, readProtected := true }
    (∃ t, exec (.profileOpen 9 [3, 0]) s = .next t) ∧ ProtectLaw s ∧
      s.store.running ≠ some .clear ∧ (s.store.directory.get 3).writeProtected = true ∧
      (s.store.directory.get 3).readProtected = true := by
  refine ⟨⟨_, rfl⟩, ?_, by decide, rfl, rfl⟩
  rintro n (h | h) <;> cases h

/-- A STORE_CLEAR runs beside a write-protected profile, which a stop leaves alone. -/
theorem test_meets_WriteProtectedProfile_beside_a_clear :
    let s := modStore
      (fun t => { t with directory := t.directory.set 3 { entry3 with writeProtected := true } })
      (longOp .clear none .none)
    s.store.running = some .clear ∧ mayClear (.stopLine .a) = false ∧
      (s.store.directory.get 3).writeProtected = true ∧ mayClear (.storeClearCompletion 0) = true ∧
      mayClear (.mainSupplyLoss 0) = true :=
  ⟨rfl, rfl, rfl, rfl, rfl⟩

theorem test_meets_HeldFirstRecordStays :
    ∃ t, exec (.stopLine .a) firstHeld = .next t ∧ mayRelease (.stopLine .a) = false ∧
      firstHeld.cdu.first = some first0 :=
  ⟨_, rfl, rfl, rfl⟩

theorem test_meets_SegmentIndexNeverFalls :
    let s := scanning .scanning (some 0)
    ∃ t, exec (.hold .a 1) s = .next t ∧ mayRestart s (.hold .a 1) .a = false ∧
      (s.st .a).seq.index = some 0 :=
  ⟨_, rfl, rfl, rfl⟩

/-- A frame with commands for both stations, ABORT for A and CLEAR for B. -/
def abortFrame : List Byte :=
  slotFrame 0 1 [{ control34 with payload := #v[67, 0, 0, 0, 84, 0, 0, 0] }]

/-- Law 8 is carried across frames: A's index stays through one that aborts A and clears B. -/
theorem test_meets_SegmentIndexNeverFalls_frame :
    let s := modLink (fun l => { l with map := map0 }) (scanning .scanning (some 0))
    let t := after (exec (.cycleCompletion abortFrame) s)
    mayRestart s (.cycleCompletion abortFrame) .a = false ∧
      mayRestart s (.cycleCompletion abortFrame) .b = true ∧
      (t.st .a).seq.state = .halting ∧ (t.st .a).seq.index = some 0 := by
  decide +kernel

end Sys2Proof.Tests
end

