-- ==== Sys2Proof/Proofs/ConditionRequests.lean ====
section
/-! SUPPORT. COND_READ, COND_TAKE and COND_CLEAR (R167 to R169): which bytes name an entry, what one walk over the
keys of the table gathers, chooses or clears, and the two statements about these requests. -/

namespace Sys2Proof.Machine

/-! ## Codes and scopes on the line (R162, R181) -/

theorem Cond.ofCode_code (c : Cond) : Cond.ofCode c.code = some c := by cases c <;> rfl

theorem Cond.code_injective {c d : Cond} (h : c.code = d.code) : c = d := by
  have hc := Cond.ofCode_code c
  rw [h, Cond.ofCode_code d] at hc
  exact (Option.some.inj hc).symm

theorem Cond.code_pos (c : Cond) : 0 < c.code := by cases c <;> decide

theorem Cond.code_le (c : Cond) : c.code ≤ 28 := by cases c <;> decide

theorem Cond.ofCode_above {n : Nat} (h : 28 < n) : Cond.ofCode n = none := by
  unfold Cond.ofCode
  rw [if_neg (by omega), List.getElem?_eq_none_iff]
  show 28 ≤ n - 1
  omega

/-- A condition's code stands in one byte. -/
theorem Cond.code_byte (c : Cond) : (BitVec.ofNat 8 c.code).toNat = c.code := by
  have := c.code_le
  rw [BitVec.toNat_ofNat, Nat.mod_eq_of_lt (by omega)]

theorem Cond.code_byte_ne_zero (c : Cond) : BitVec.ofNat 8 c.code ≠ 0 := by
  intro h
  have hz := c.code_byte
  rw [h] at hz
  exact absurd hz (Nat.ne_of_lt c.code_pos)

theorem scopeOf_code (sc : Scope) : scopeOf sc.code = some sc := by
  rcases sc with (_ | _) | _ <;> rfl

theorem scopeOf_above {i : Byte} (h : 2 < i.toNat) : scopeOf i = none := by
  have h0 : i ≠ 0 := by rintro rfl; exact absurd h (by decide)
  have h1 : i ≠ 1 := by rintro rfl; exact absurd h (by decide)
  have h2 : i ≠ 2 := by rintro rfl; exact absurd h (by decide)
  rw [scopeOf, if_neg h0, if_neg h1, if_neg h2]

theorem clearScope_code (sc : Scope) : clearScope sc.code = some (some sc) := by
  rcases sc with (_ | _) | _ <;> rfl

theorem clearScope_above {i : Byte} (h : 3 < i.toNat) : clearScope i = none := by
  have h3 : i ≠ 3 := by rintro rfl; exact absurd h (by decide)
  rw [clearScope, if_neg h3, scopeOf_above (Nat.lt_of_succ_lt h)]
  rfl

/-- The four bytes that COND_CLEAR reads as a selection of scope copies (R169). -/
theorem clearScope_selects {i : Byte} {sel : Option Scope}
    (h : i = 3 ∧ sel = none ∨ ∃ sc, sel = some sc ∧ i = sc.code) : clearScope i = some sel := by
  obtain ⟨rfl, rfl⟩ | ⟨sc, rfl, rfl⟩ := h
  · rfl
  · exact clearScope_code sc

theorem flagOf_flagByte (b : Bool) : flagOf (flagByte b) = some b := by cases b <;> rfl

/-! ## The keys of the table (R163, R168) -/

/-- The keys are the pairs of a condition and a scope copy of its scope. -/
theorem mem_condKeys (k : Cond × Scope) : k ∈ condKeys ↔ scopeFits k.1 k.2 = true := by
  constructor
  · exact (show ∀ k ∈ condKeys, scopeFits k.1 k.2 = true by decide) k
  · intro h
    exact List.mem_of_getElem? (condKeys_slot k.1 k.2 h)

/-- R168's order of the entries of one severity: by code, then A, B, part. -/
def KeyLe (k d : Cond × Scope) : Prop :=
  k.1.code < d.1.code ∨ (k.1.code = d.1.code ∧ k.2.code.toNat ≤ d.2.code.toNat)

theorem KeyLe.refl (k : Cond × Scope) : KeyLe k k := .inr ⟨rfl, Nat.le_refl _⟩

theorem KeyLe.trans {k d e : Cond × Scope} (h : KeyLe k d) (g : KeyLe d e) : KeyLe k e := by
  unfold KeyLe at *
  omega

/-- The walk over the table meets the entries in R168's order. -/
theorem condKeys_ordered : condKeys.Pairwise KeyLe := by
  unfold KeyLe
  decide

/-! ## COND_READ (R167) -/

theorem getLsbD_codeBit (c : Cond) (n : Nat) :
    (codeBit c).getLsbD n = decide (c.code = n) := by
  have := c.code_le
  rw [codeBit, ← BitVec.twoPow_eq, BitVec.getLsbD_twoPow]
  simp only [show c.code < 32 by omega, decide_true, Bool.true_and]

/-- The sum over any keys has a bit where it had one, or where a pending entry of the scope copy has that code. -/
theorem getLsbD_foldl_codeBit (u : Conditions) (sc : Scope) (n : Nat)
    (keys : List (Cond × Scope)) (w : BitVec 32) :
    (keys.foldl (fun acc k => if k.2 = sc ∧ (u.entry k.1 k.2).pending then acc ||| codeBit k.1 else acc)
      w).getLsbD n = true ↔
    w.getLsbD n = true ∨ ∃ k ∈ keys, k.2 = sc ∧ (u.entry k.1 k.2).pending = true ∧ k.1.code = n := by
  induction keys generalizing w with
  | nil => simp
  | cons k ks ih =>
    rw [List.foldl_cons, ih, List.exists_mem_cons_iff]
    split
    next hk =>
      obtain ⟨rfl, hp⟩ := hk
      simp [getLsbD_codeBit, hp, or_assoc]
    next hk =>
      have hno : ¬(k.2 = sc ∧ (u.entry k.1 k.2).pending = true ∧ k.1.code = n) := fun h => hk ⟨h.1, h.2.1⟩
      simp [hno]

/-- The set of a scope copy has the bit of a code where the entry of that code is pending. -/
theorem getLsbD_pendingSet (u : Conditions) {c : Cond} {sc : Scope} (h : scopeFits c sc = true) :
    (pendingSet u sc).getLsbD c.code = (u.entry c sc).pending := by
  rw [Bool.eq_iff_iff, pendingSet, getLsbD_foldl_codeBit]
  constructor
  · rintro (hz | ⟨k, -, rfl, hp, hk⟩)
    · exact absurd hz (by simp)
    · rw [← Cond.code_injective hk]
      exact hp
  · intro hp
    exact .inr ⟨(c, sc), (mem_condKeys _).2 h, rfl, hp, rfl⟩

/-- ATTENTION is set by a pending entry of the station or of the part at or above the level (R166). -/
theorem attentionAt_iff (level : Severity) (s : State) (x : StationId) :
    attentionAt level s x = true ↔ ∃ c sc v, scopeFits c sc = true ∧
      (sc = .station x ∨ sc = .part) ∧ (s.cdu.entry c sc).pending = true ∧
      (s.cdu.entry c sc).lastSeverity = some v ∧ level.code ≤ v.code := by
  simp only [attentionAt, List.any_eq_true, Bool.and_eq_true, Bool.or_eq_true, decide_eq_true_eq,
    Option.any_eq_true, mem_condKeys, Prod.exists]
  constructor
  · rintro ⟨c, sc, hf, ⟨hsc, hp⟩, v, hv, hl⟩
    exact ⟨c, sc, v, hf, hsc, hp, hv, hl⟩
  · rintro ⟨c, sc, v, hf, hsc, hp, hv, hl⟩
    exact ⟨c, sc, hf, ⟨hsc, hp⟩, v, hv, hl⟩

/-- The fields of an entry, byte by byte (R181). -/
theorem entryBytes_eq (e : CondEntry) : entryBytes e = BitVec.ofNat 8 e.count ::
    ((match e.lastCycle with | some y => 1 :: be32 y | none => [0, 0, 0, 0, 0]) ++
      [match e.lastSeverity with | some v => BitVec.ofNat 8 v.code | none => 255]) := by
  obtain ⟨p, n, y, v⟩ := e
  cases y <;> cases v <;> rfl

theorem askCondRead_entry (c : Cond) (sc : Scope) (s : State) :
    askCondRead [BitVec.ofNat 8 c.code, sc.code] s =
      if scopeFits c sc then
        okRead s (flagByte (s.cdu.entry c sc).pending :: entryBytes (s.cdu.entry c sc))
      else refuse s .badArgument := by
  simp only [askCondRead, if_neg c.code_byte_ne_zero, c.code_byte, Cond.ofCode_code, scopeOf_code]

theorem askCondRead_summary (i : Byte) (s : State) : askCondRead [0, i] s = okRead s (condSummary s) := rfl

theorem askCondRead_refused {b i : Byte} (h : 28 < b.toNat ∨ (b ≠ 0 ∧ 2 < i.toNat)) (s : State) :
    askCondRead [b, i] s = refuse s .badArgument := by
  obtain hb | ⟨hb, hi⟩ := h
  · have h0 : b ≠ 0 := by rintro rfl; exact absurd hb (by decide)
    simp only [askCondRead, if_neg h0, Cond.ofCode_above hb]
  · simp only [askCondRead, if_neg hb, scopeOf_above hi]
    cases Cond.ofCode b.toNat <;> rfl

/-! ## COND_TAKE (R168) -/

/-- The better of the best key so far and the next one; of two that are equal, the earlier stays. -/
def keepHigher (u : Conditions) (best : Option (Cond × Scope)) (k : Cond × Scope) : Option (Cond × Scope) :=
  match best with
  | none => some k
  | some b => if takeRank u b < takeRank u k then some k else some b

/-- The pending entries, in R168's order. -/
def pendingKeys (u : Conditions) : List (Cond × Scope) :=
  condKeys.filter fun k => (u.entry k.1 k.2).pending

theorem takeChoice_eq (u : Conditions) : takeChoice u = (pendingKeys u).foldl (keepHigher u) none := rfl

theorem mem_pendingKeys (u : Conditions) (k : Cond × Scope) :
    k ∈ pendingKeys u ↔ scopeFits k.1 k.2 = true ∧ (u.entry k.1 k.2).pending = true := by
  rw [pendingKeys, List.mem_filter, mem_condKeys]

/-- `k` goes before `d` at COND_TAKE: it has the higher last severity, or the same one and the earlier place. -/
def TakenBefore (u : Conditions) (k d : Cond × Scope) : Prop :=
  takeRank u d < takeRank u k ∨ (takeRank u d = takeRank u k ∧ KeyLe k d)

theorem TakenBefore.trans {u : Conditions} {k d e : Cond × Scope} (h : TakenBefore u k d)
    (g : TakenBefore u d e) : TakenBefore u k e := by
  rcases h with hlt | ⟨heq, hle⟩ <;> rcases g with glt | ⟨geq, gle⟩
  · exact .inl (glt.trans hlt)
  · exact .inl (geq ▸ hlt)
  · exact .inl (heq ▸ glt)
  · exact .inr ⟨geq.trans heq, hle.trans gle⟩

/-- One step of the walk keeps the one of two keys in order that goes before the other. -/
theorem keepHigher_some (u : Conditions) {a b : Cond × Scope} (h : KeyLe a b) :
    ∃ m, keepHigher u (some a) b = some m ∧ (m = a ∨ m = b) ∧ TakenBefore u m a ∧ TakenBefore u m b := by
  by_cases hlt : takeRank u a < takeRank u b
  · exact ⟨b, if_pos hlt, .inr rfl, .inl hlt, .inr ⟨rfl, .refl b⟩⟩
  · refine ⟨a, if_neg hlt, .inl rfl, .inr ⟨rfl, .refl a⟩, ?_⟩
    obtain heq | hgt := Nat.eq_or_lt_of_not_lt hlt
    · exact .inr ⟨heq.symm, h⟩
    · exact .inl hgt

/-- Over keys in order the walk ends with one of them that goes before every other. -/
theorem foldl_keepHigher (u : Conditions) (keys : List (Cond × Scope)) (a : Cond × Scope)
    (h : (a :: keys).Pairwise KeyLe) : ∃ k, keys.foldl (keepHigher u) (some a) = some k ∧
      k ∈ a :: keys ∧ ∀ d ∈ a :: keys, TakenBefore u k d := by
  induction keys generalizing a with
  | nil => exact ⟨a, rfl, List.mem_singleton_self a, fun d hd => by
      rw [List.mem_singleton.1 hd]
      exact .inr ⟨rfl, .refl a⟩⟩
  | cons b ks ih =>
    obtain ⟨ha, hb, hks⟩ : (∀ d ∈ b :: ks, KeyLe a d) ∧ (∀ d ∈ ks, KeyLe b d) ∧ ks.Pairwise KeyLe := by
      simpa only [List.pairwise_cons] using h
    obtain ⟨m, hm, hor, hma, hmb⟩ := keepHigher_some u (ha b List.mem_cons_self)
    have hmks : (m :: ks).Pairwise KeyLe := by
      refine List.pairwise_cons.2 ⟨fun d hd => ?_, hks⟩
      obtain rfl | rfl := hor
      · exact ha d (List.mem_cons_of_mem _ hd)
      · exact hb d hd
    obtain ⟨k, hk, hmem, hall⟩ := ih m hmks
    refine ⟨k, by rw [List.foldl_cons, hm, hk], ?_, fun d hd => ?_⟩
    · grind
    · have hkm := hall m List.mem_cons_self
      rcases List.mem_cons.1 hd with rfl | hd
      · exact hkm.trans hma
      rcases List.mem_cons.1 hd with rfl | hd
      · exact hkm.trans hmb
      · exact hall d (List.mem_cons_of_mem _ hd)

theorem takeChoice_none {u : Conditions} (h : ∀ k, k ∉ pendingKeys u) : takeChoice u = none := by
  rw [takeChoice_eq, List.eq_nil_iff_forall_not_mem.2 h]
  rfl

/-- While an entry is pending, COND_TAKE chooses one that goes before every other pending entry. -/
theorem takeChoice_some {u : Conditions} {k : Cond × Scope} (h : k ∈ pendingKeys u) :
    ∃ m, takeChoice u = some m ∧ m ∈ pendingKeys u ∧ ∀ d ∈ pendingKeys u, TakenBefore u m d := by
  have ho : (pendingKeys u).Pairwise KeyLe := condKeys_ordered.filter _
  rw [takeChoice_eq]
  cases hp : pendingKeys u with
  | nil => exact absurd (hp ▸ h) List.not_mem_nil
  | cons a ks => exact foldl_keepHigher u ks a (hp ▸ ho)

theorem takeRank_of_severity {u : Conditions} {k : Cond × Scope} {v : Severity}
    (h : (u.entry k.1 k.2).lastSeverity = some v) : takeRank u k = v.code + 1 := by
  rw [takeRank, h]

/-- The order of COND_TAKE in terms of the last severities (R168). -/
theorem TakenBefore.severity {u : Conditions} {k d : Cond × Scope} {v w : Severity}
    (h : TakenBefore u k d) (hk : (u.entry k.1 k.2).lastSeverity = some v)
    (hd : (u.entry d.1 d.2).lastSeverity = some w) : w.code < v.code ∨ (w.code = v.code ∧ KeyLe k d) := by
  rw [TakenBefore, takeRank_of_severity hk, takeRank_of_severity hd] at h
  exact h.imp Nat.lt_of_succ_lt_succ (And.imp_left Nat.succ.inj)

theorem askCondTake_none {s : State} (h : takeChoice s.cdu = none) :
    askCondTake [] s = okRead s (0 :: ([255, 255] ++ [255] ++ cycleBytes none ++ [255])) := by
  simp only [askCondTake, h]
  rfl

theorem askCondTake_some {s : State} {c : Cond} {sc : Scope} (h : takeChoice s.cdu = some (c, sc)) :
    askCondTake [] s =
      { state := modCdu (fun u => u.putEntry c sc { s.cdu.entry c sc with pending := false }) s,
        status := .ok,
        payload := [1, BitVec.ofNat 8 c.code, sc.code] ++ entryBytes (s.cdu.entry c sc) } := by
  simp only [askCondTake, h]
  rfl

/-! ## COND_CLEAR (R169) -/

/-- The table after COND_CLEAR of some keys. -/
def clearKeys (counts : Bool) (keys : List (Cond × Scope)) (u : Conditions) : Conditions :=
  keys.foldl (fun u k => u.putEntry k.1 k.2 (clearedBy counts (u.entry k.1 k.2))) u

theorem clearKeys_cons (counts : Bool) (k : Cond × Scope) (keys : List (Cond × Scope)) (u : Conditions) :
    clearKeys counts (k :: keys) u =
      clearKeys counts keys (u.putEntry k.1 k.2 (clearedBy counts (u.entry k.1 k.2))) := rfl

/-- Beside the entries, COND_CLEAR leaves all the Condition Unit holds. -/
theorem clearKeys_leaves (counts : Bool) (keys : List (Cond × Scope)) (u : Conditions) :
    (clearKeys counts keys u).first = u.first ∧ (clearKeys counts keys u).nextSet = u.nextSet ∧
      (clearKeys counts keys u).nextCount = u.nextCount ∧
      (clearKeys counts keys u).severity = u.severity := by
  induction keys generalizing u with
  | nil => exact ⟨rfl, rfl, rfl, rfl⟩
  | cons k ks ih => exact ih _

theorem clearedBy_clearedBy (counts : Bool) (e : CondEntry) :
    clearedBy counts (clearedBy counts e) = clearedBy counts e := by
  cases counts <;> rfl

/-- COND_CLEAR of some keys clears their entries and leaves the others. -/
theorem entry_clearKeys (counts : Bool) (keys : List (Cond × Scope)) (u : Conditions) {c : Cond} {sc : Scope}
    (h : scopeFits c sc = true) (hkeys : ∀ k ∈ keys, scopeFits k.1 k.2 = true) :
    (clearKeys counts keys u).entry c sc =
      if (c, sc) ∈ keys then clearedBy counts (u.entry c sc) else u.entry c sc := by
  induction keys generalizing u with
  | nil => rfl
  | cons k ks ih =>
    rw [clearKeys_cons, ih _ fun d hd => hkeys d (List.mem_cons_of_mem _ hd)]
    by_cases hk : (c, sc) = k
    · subst hk
      simp only [entry_putEntry, clearedBy_clearedBy, List.mem_cons_self, if_true, ite_self]
    · rw [entry_putEntry_other _ _ _ _ _ _ (hkeys k List.mem_cons_self) h hk]
      simp only [List.mem_cons, hk, false_or]

/-- A key matches a selection: code 0 stands for every code, no scope copy for every one (R169). -/
theorem clearMatches_eq (code : Byte) (sel : Option Scope) (k : Cond × Scope) :
    clearMatches code.toNat sel k =
      decide ((code = 0 ∨ k.1.code = code.toNat) ∧ (sel = none ∨ sel = some k.2)) := by
  have hz : code.toNat = 0 ↔ code = 0 := BitVec.toNat_inj (y := 0)
  cases sel with
  | none => simp [clearMatches, hz]
  | some sc => simp [clearMatches, hz, eq_comm (a := k.2)]

/-- The keys a selection matches (R169). -/
def selectedKeys (code : Byte) (sel : Option Scope) : List (Cond × Scope) :=
  condKeys.filter fun k => decide ((code = 0 ∨ k.1.code = code.toNat) ∧ (sel = none ∨ sel = some k.2))

theorem mem_selectedKeys (code : Byte) (sel : Option Scope) (k : Cond × Scope) :
    k ∈ selectedKeys code sel ↔ scopeFits k.1 k.2 = true ∧
      (code = 0 ∨ k.1.code = code.toNat) ∧ (sel = none ∨ sel = some k.2) := by
  rw [selectedKeys, List.mem_filter, mem_condKeys, decide_eq_true_iff]

theorem clearConditions_eq (code : Byte) (sel : Option Scope) (counts : Bool) (s : State) :
    clearConditions code.toNat sel counts s =
      { state := modCdu (clearKeys counts (selectedKeys code sel)) s, status := .ok,
        payload := [BitVec.ofNat 8
          ((selectedKeys code sel).filter fun k => (s.cdu.entry k.1 k.2).pending).length] } := by
  have hm : condKeys.filter (clearMatches code.toNat sel) = selectedKeys code sel :=
    List.filter_congr fun k _ => clearMatches_eq code sel k
  rw [clearConditions, hm]
  rfl

theorem askCondClear_taken {code i : Byte} {sel : Option Scope} (hi : clearScope i = some sel)
    (hc : code.toNat ≤ 28) (counts : Bool) (s : State) :
    askCondClear [code, i, flagByte counts] s = clearConditions code.toNat sel counts s := by
  simp only [askCondClear, hi, flagOf_flagByte, if_pos hc]

theorem askCondClear_refused {code i : Byte} (h : clearScope i = none ∨ 28 < code.toNat) (f : Byte)
    (s : State) : askCondClear [code, i, f] s = refuse s .badArgument := by
  simp only [askCondClear]
  split
  next sel counts hi hf =>
    rw [if_neg]
    intro hc
    obtain hn | hc' := h
    · rw [hn] at hi
      cases hi
    · exact absurd hc (Nat.not_le.2 hc')
  next => rfl

/-! ## The requests at a part in UP (R157) -/

section

variable {s : State} {tag : Byte}

theorem exec_condRead (h : Ready s) (p : List Byte) :
    exec (.condRead tag p) s = .next (holdReply tag (askCondRead p s)) := whenAsked_ready h

theorem exec_condTake (h : Ready s) (p : List Byte) :
    exec (.condTake tag p) s = .next (holdReply tag (askCondTake p s)) := whenAsked_ready h

theorem exec_condClear (h : Ready s) (p : List Byte) :
    exec (.condClear tag p) s = .next (holdReply tag (askCondClear p s)) := whenAsked_ready h

end

end Sys2Proof.Machine

/-! ## The statements -/

section

open Sys2Proof Sys2Proof.Machine

/-- Settles O47: COND_READ by the bits of the three sets and the ATTENTION test, COND_TAKE by the choice of the walk
over the pending keys, which `TakenBefore` orders. -/
theorem condReadAndTakeServeTheTable : Obligations.CondReadAndTakeServeTheTable := by
  unfold Obligations.CondReadAndTakeServeTheTable
  refine ⟨fun s tag hr => ⟨fun c sc => ?_, fun b i h => ?_, fun i => ?_⟩,
    fun s tag hr law => ⟨fun hnone => ?_, fun ⟨c0, sc0, hfits, hpend⟩ => ?_⟩⟩
  · rw [exec_condRead hr, askCondRead_entry, entryBytes_eq]
    split <;> rfl
  · rw [exec_condRead hr, askCondRead_refused h, holdReply_refuse]
  · refine ⟨pendingSet s.cdu (.station .a), pendingSet s.cdu (.station .b), pendingSet s.cdu .part,
      attention s, ?_, fun c => ⟨fun hc => ?_, fun hc => ?_⟩, attentionAt_iff s.link.attentionLevel s⟩
    · rw [exec_condRead hr, askCondRead_summary, holdReply_okRead, condSummary]
    · exact ⟨getLsbD_pendingSet s.cdu hc, getLsbD_pendingSet s.cdu hc⟩
    · exact getLsbD_pendingSet s.cdu (by simp [scopeFits, hc])
  · have hempty : ∀ k, k ∉ pendingKeys s.cdu := fun k hk => by
      obtain ⟨hf, hp⟩ := (mem_pendingKeys s.cdu k).1 hk
      exact Bool.false_ne_true ((hnone k.1 k.2 hf).symm.trans hp)
    refine ⟨[255, 255] ++ [255] ++ cycleBytes none ++ [255], ?_⟩
    rw [exec_condTake hr, askCondTake_none (takeChoice_none hempty), holdReply_okRead]
  · obtain ⟨⟨c, sc⟩, hchoice, hmem, hbest⟩ :=
      takeChoice_some ((mem_pendingKeys s.cdu (c0, sc0)).2 ⟨hfits, hpend⟩)
    obtain ⟨hf, hp⟩ := (mem_pendingKeys s.cdu (c, sc)).1 hmem
    obtain ⟨v, hv⟩ := Option.ne_none_iff_exists'.1 (law c sc hp)
    have hexec := exec_condTake (tag := tag) hr []
    rw [askCondTake_some hchoice] at hexec
    refine ⟨_, c, sc, v, hexec, hf, hp, hv,
      fun d sd w hfd hpd hw => ?_, entry_putEntry .., fun d sd hfd hne => ?_, rfl, rfl, rfl, rfl, rfl, ?_⟩
    · exact (hbest (d, sd) ((mem_pendingKeys s.cdu (d, sd)).2 ⟨hfd, hpd⟩)).severity hv hw
    · exact entry_putEntry_other _ _ _ _ _ _ hf hfd hne
    · simp only [holdReply, modLink_link, modCdu_link, entryBytes_eq, hv] <;> rfl

/-- Settles O48: the walk over the selected keys clears each of their entries and no other. -/
theorem condClearClearsItsSelection : Obligations.CondClearClearsItsSelection := by
  unfold Obligations.CondClearClearsItsSelection
  intro s tag code i counts sel hr hsel
  have hi : clearScope i = some sel := clearScope_selects hsel
  refine ⟨fun hc => ?_, fun hc => ?_, fun j hj => ?_⟩
  · rw [exec_condClear hr, askCondClear_refused (.inr hc), holdReply_refuse]
  · obtain ⟨hfirst, hset, hcount, hseverity⟩ := clearKeys_leaves counts (selectedKeys code sel) s.cdu
    have hexec := exec_condClear (tag := tag) hr [code, i, flagByte counts]
    rw [askCondClear_taken hi hc, clearConditions_eq] at hexec
    refine ⟨_, hexec, rfl, rfl, hfirst, hset, hcount, hseverity, fun c sc hf => ?_, ?_⟩
    · have hkeys : ∀ k ∈ selectedKeys code sel, scopeFits k.1 k.2 = true := fun k hk =>
        ((mem_selectedKeys code sel k).1 hk).1
      refine (entry_clearKeys counts _ s.cdu hf hkeys).trans ?_
      simp only [mem_selectedKeys, hf, true_and, clearedBy]
    · simp only [holdReply, modLink_link, selectedKeys, List.filter_filter, Bool.and_comm]
  · rw [exec_condClear hr, askCondClear_refused (.inl (clearScope_above hj)), holdReply_refuse]

end
end
